-- ==== Sys2Proof/Word.lean ====
section
/-! DEFINITION. The word types of the machine: bytes, 32-bit lanes, 64-bit scalars, 128-bit
instruction words (02 R40, 05 R130), and the register-number types of the operand fields. -/

namespace Sys2Proof

/-- One byte of memory. -/
abbrev Byte := BitVec 8
/-- One 32-bit lane of a vector register (R130). -/
abbrev Lane := BitVec 32
/-- One 64-bit scalar (R26). -/
abbrev Word := BitVec 64
/-- One 128-bit instruction word (R40). -/
abbrev InstrWord := BitVec 128

/-- A scalar register number s0–s63 (R44). -/
abbrev SReg := BitVec 6
/-- A predicate register number p0–p15 (R41). -/
abbrev PReg := BitVec 4
/-- The 10-bit field of a vector register number; v0–v639 are registers (R45). -/
abbrev VNum := BitVec 10
/-- A mask register number m0–m15 (R45). -/
abbrev MNum := BitVec 4
/-- A ring register number g0–g31 (R49). -/
abbrev GNum := BitVec 5
/-- A descriptor register number d0–d31 (R48). -/
abbrev DNum := BitVec 5
/-- A scalar data queue number q0–q7 (R24). -/
abbrev QNum := BitVec 3

end Sys2Proof
end

