-- ==== Sys2Proof/Syntax.lean ====
section
/-! DEFINITION. The syntax: one constructor of `Instr` per row of spec/opcode_table.json. The first
192 are program instructions with the operand fields of their layout (02 R41–R50); the other 74
are the events of the table (95), whose arguments name the unit that moves and what arrives from
outside the device. -/

namespace Sys2Proof

/-- The engines of a cell (R11) and its supervisor core (R369). An instruction's own engine tag is
never `sup`. -/
inductive Eng
  | s | l | m | v | w | sup
deriving DecidableEq, Repr

/-- The rounding modes (R82). -/
inductive Rnd
  | rne | rtz | rdn | rup | rsr
deriving DecidableEq, Repr

/-- The element formats (R73). -/
inductive Fmt
  | fp32 | bf16 | fp16 | e4m3 | e5m2 | cb4 | int8 | uint8 | int4 | int32
deriving DecidableEq, Repr

/-- The condition codes of CMP, BRC and VCMP (R106). -/
inductive CC
  | eq | ne | lt | ge | ltu | geu | le | gt | leu | gtu | feq | fne | flt | fle | funord
deriving DecidableEq, Repr

/-- The scopes (R112). -/
inductive Scope
  | eng | cell | clu | half | dev | pod | sys
deriving DecidableEq, Repr

/-- The header fields that every instruction carries beside its tag, opcode and modifiers (R41). -/
structure Hdr where
  rp : Bool
  fp : Bool
  rq : Bool
  fq : Bool
  pred : PReg
  neg : Bool
deriving DecidableEq, Repr

/-- The second source of a scalar instruction: a register, or imm under imm_sel (R99). -/
inductive Src
  | reg (r : SReg)
  | imm (w : Word)
deriving DecidableEq, Repr

/-- The sizes of SEXT (R105). -/
inductive ExtSize
  | b | h | w
deriving DecidableEq, Repr

/-- Access sizes of 1, 2, 4 and 8 bytes (R111). -/
inductive Size
  | b | h | w | d
deriving DecidableEq, Repr

/-- The conversions of SFCVT (R110). -/
inductive CvtOp
  | f2i | f2u | i2f | u2f
deriving DecidableEq, Repr

/-- The address, scope and size fields that the atomics share (R114). -/
structure AmoOps where
  sd : SReg
  sa : SReg
  sb : SReg
  imm : Word
  /-- 8 bytes when true, 4 when false -/
  dbl : Bool
  acq : Bool
  rel : Bool
  scope : Scope
deriving DecidableEq, Repr

/-- What TLB.INV drops (R373). -/
inductive InvKind
  | asid | page | every
deriving DecidableEq, Repr

/-- The address fields of the run-length layout (R46). -/
structure RunOps where
  reg : VNum
  base : SReg
  index : SReg
  rep : BitVec 16
  step : BitVec 24
  off : BitVec 32
deriving DecidableEq, Repr

/-- The index modes (R155); `drain` is a row of its own. -/
inductive IdxMode
  | none | scale | pitch
deriving DecidableEq, Repr

/-- The shapes of VLDB (R159). -/
inductive Shape
  | row | col | one
deriving DecidableEq, Repr

/-- The extents of PREF (R160). -/
inductive Extent
  | x256 | x4k | x64k
deriving DecidableEq, Repr

/-- The source lane and rounding of a store (R154): FP32 under a mode, or INT32. -/
inductive Cvt
  | mode (r : Rnd)
  | i32
deriving DecidableEq, Repr

/-- The scale choice of a copy (R200). -/
inductive Scl
  | none | tile | block
deriving DecidableEq, Repr

/-- The exchange groups (R200, R217). -/
inductive Grp
  | clu | half
deriving DecidableEq, Repr

/-- The fields of the copy layout (R48) with ctl as R200 splits it. -/
structure CopyOps where
  ds : DNum
  dd : DNum
  sa : SReg
  sb : SReg
  sc : SReg
  ch : BitVec 2
  sx : SReg
  grp : Grp
  lo1 : BitVec 8
  lo0 : BitVec 8
  padskip : Bool
  scl : Scl
  tr : Bool
  rnd : Rnd
  imm : Lane
deriving DecidableEq, Repr

/-- The fields of a tile command (R237). -/
structure TileOps where
  ga : GNum
  gb : GNum
  ti : BitVec 4
  cnt : BitVec 7
  kk : BitVec 4
  np : BitVec 4
  q : BitVec 4
  home : BitVec 2
  tag : BitVec 8
  colbase : BitVec 16
  topk : Bool
  dao : Bool
  cl : Bool
  rel : Bool
deriving DecidableEq, Repr

/-- The fields of a descent (R262). -/
structure DescOps where
  ga : GNum
  gc : GNum
  ti : BitVec 4
  sb : SReg
  depth : BitVec 5
  split : BitVec 5
  init : Bool
  keep : Bool
  cl : Bool
deriving DecidableEq, Repr

/-- The activations of EPI (R249). -/
inductive Activation
  | none | relu | tanh | sigm
deriving DecidableEq, Repr

/-- Operand b of a vector instruction under bsel (R131). -/
inductive VSrc
  | vec (v : VNum)
  | sc (s : SReg)
  | imm (w : Lane)
deriving DecidableEq, Repr

/-- Destination, first source, mask and .z of an elementwise vector instruction (R131, R132). -/
structure VOps where
  vd : VNum
  va : VNum
  msk : MNum
  z : Bool
deriving DecidableEq, Repr

/-- The reduction operations (R146). -/
inductive RedOp
  | fadd | fmax | fmin | iadd | imax | imin | umax | umin | and | or | xor
deriving DecidableEq, Repr

/-- The patterns of VIOTA (R149). -/
inductive Pattern
  | lane | row | col
deriving DecidableEq, Repr

/-- A branch target: relative, or s[sa] plus a displacement (R50). -/
inductive Target
  | rel (disp : BitVec 32)
  | ind (sa : SReg) (disp : BitVec 32)
deriving DecidableEq, Repr

/-- The operations of an atomic at memory (R114, R116). -/
inductive AmoOp
  | add | and | or | xor | min (u : Bool) | max (u : Bool) | xchg | cas | fadd | fmin | fmax
deriving DecidableEq, Repr

/-- What an access from outside the cell asks of a home (R390, R393). -/
inductive ReqKind
  | read (len : Nat)
  | write (bytes : List Byte)
  | atomic (op : AmoOp) (dbl : Bool) (b c : Word)
  /-- the flag update of a notifying store (R406) -/
  | flag
  /-- barrier operations at an object here (R284, R289, R290, R292, R293, R298) -/
  | barInit (n b : Word) (scope tag : BitVec 3) (wire : Bool)
  | barInv
  | arrive (bytes : Word)
  | await (phase : BitVec 32)
  | test
  | tree (cell : Nat) (target : Nat) (ea : Word) (v : Lane) (rel : Option Scope)
  /-- a restored iteration that this device placed has ended elsewhere, with the cause of its fault if it had one; the
  address names the record, and the position the range of it (R376) -/
  | ended (asid : BitVec 14) (pos : Nat) (cause : Option (BitVec 8))
  /-- the origin of a stolen range cancels it; the address names the record (R354) -/
  | cancel (asid : BitVec 14)
  /-- another device's POOL.ALLOC and POOL.FREE at the pool's allocator (R396, R397) -/
  | poolAlloc (size : Nat) (mir : Bool) (pref : Option (BitVec 3))
  | poolFree
deriving DecidableEq, Repr

/-- A peer's access arriving at this device (R390): its address is a class 0x0 or 0x1 address here. -/
structure PeerReq where
  dev : BitVec 6
  asid : BitVec 14
  tenant : BitVec 12
  pa : Nat
  kind : ReqKind
deriving DecidableEq, Repr

/-- Another device's access arriving at a pool switch (R393). -/
structure PoolReq where
  dev : BitVec 6
  tenant : BitVec 12
  pa : Nat
  kind : ReqKind
deriving DecidableEq, Repr

/-- The ownership requests (R400). -/
inductive OwnKind
  | acq | rel | test
deriving DecidableEq, Repr

/-- What the board and the silicon report during a start (R428, R430): each `some` is the first failure
of that kind, with the detail of R430. -/
structure StartFacts where
  rail : Option (BitVec 8)
  mcSram : Bool
  flashSector : Option (BitVec 8)
  /-- stacks that fail their training -/
  hbmStacks : List Nat
  /-- failed physical cells as (half, physical position 0–41) -/
  failedCells : List (Nat × Nat)
  syncSram : Option (BitVec 8)
  /-- a sensor that trips, and its reading in 0.01 °C -/
  sensor : Option (BitVec 8)
  tripTemp : Nat := 10500
  /-- ports that train, bits 11:0 torus and 19:12 pool (R408) -/
  ports : BitVec 20
deriving DecidableEq, Repr

/-- A steal grant as it arrives at the thief (R354). -/
structure Grant where
  dev : BitVec 6
  record : Word
  asid : BitVec 14
  /-- the 128 bytes of the record -/
  fields : List Byte
  bounds : List Nat
  first : Nat
  count : Nat
deriving DecidableEq, Repr

/-- What a steal report names beside the record: its context, the first position of the granted range, and the cause of its
first fault (R352, R354). -/
structure StolenEnd where
  asid : BitVec 14
  first : Nat
  fault : Option (BitVec 8) := none
deriving DecidableEq, Repr

/-- The instructions of the table in its order, then its events; those without arguments stand last. -/
inductive Instr
  -- scalar (04)
  | add (h : Hdr) (sd sa : SReg) (b : Src)
  | sub (h : Hdr) (sd sa : SReg) (b : Src)
  | mul (h : Hdr) (sd sa : SReg) (b : Src)
  | mulh (h : Hdr) (sd sa : SReg) (b : Src) (u : Bool)
  | div (h : Hdr) (sd sa : SReg) (b : Src) (u : Bool)
  | rem (h : Hdr) (sd sa : SReg) (b : Src) (u : Bool)
  | and (h : Hdr) (sd sa : SReg) (b : Src)
  | or (h : Hdr) (sd sa : SReg) (b : Src)
  | xor (h : Hdr) (sd sa : SReg) (b : Src)
  | shl (h : Hdr) (sd sa : SReg) (b : Src)
  | shr (h : Hdr) (sd sa : SReg) (b : Src)
  | sra (h : Hdr) (sd sa : SReg) (b : Src)
  | rol (h : Hdr) (sd sa : SReg) (b : Src)
  | ror (h : Hdr) (sd sa : SReg) (b : Src)
  | min (h : Hdr) (sd sa : SReg) (b : Src) (u : Bool)
  | max (h : Hdr) (sd sa : SReg) (b : Src) (u : Bool)
  | clz (h : Hdr) (sd sa : SReg)
  | ctz (h : Hdr) (sd sa : SReg)
  | popc (h : Hdr) (sd sa : SReg)
  | brev (h : Hdr) (sd sa : SReg)
  | bfx (h : Hdr) (sd sa : SReg) (f : Src)
  | bfxs (h : Hdr) (sd sa : SReg) (f : Src)
  | bfi (h : Hdr) (sd sa : SReg) (f : Src) (sc : SReg)
  | sext (h : Hdr) (sd sa : SReg) (sz : ExtSize)
  | li (h : Hdr) (sd : SReg) (imm : Word)
  | addx (h : Hdr) (sd sa sb : SReg) (sh : BitVec 3) (imm : Word)
  | cmp (h : Hdr) (pd : PReg) (sa : SReg) (b : Src) (cc : CC)
  | pand (h : Hdr) (pd pa pb : PReg) (na nb : Bool)
  | por (h : Hdr) (pd pa pb : PReg) (na nb : Bool)
  | pxor (h : Hdr) (pd pa pb : PReg) (na nb : Bool)
  | pnot (h : Hdr) (pd pa : PReg)
  | sel (h : Hdr) (sd sa : SReg) (b : Src) (pc : PReg)
  | sfadd (h : Hdr) (sd sa : SReg) (b : Src) (rnd : Rnd)
  | sfmul (h : Hdr) (sd sa : SReg) (b : Src) (rnd : Rnd)
  | sffma (h : Hdr) (sd sa sb sc : SReg) (rnd : Rnd)
  | sfdiv (h : Hdr) (sd sa : SReg) (b : Src) (rnd : Rnd)
  | sfcvt (h : Hdr) (sd sa : SReg) (op : CvtOp) (rnd : Rnd)
  | ld (h : Hdr) (sd sa sb : SReg) (imm : Word) (sz : Size) (u : Bool)
  | st (h : Hdr) (sa sb sc : SReg) (imm : Word) (sz : Size)
  | lda (h : Hdr) (sd sa sb : SReg) (imm : Word) (sz : Size) (u : Bool) (scope : Scope)
  | stl (h : Hdr) (sa sb sc : SReg) (imm : Word) (sz : Size) (scope : Scope)
  | amoAdd (h : Hdr) (o : AmoOps)
  | amoAnd (h : Hdr) (o : AmoOps)
  | amoOr (h : Hdr) (o : AmoOps)
  | amoXor (h : Hdr) (o : AmoOps)
  | amoMin (h : Hdr) (o : AmoOps) (u : Bool)
  | amoMax (h : Hdr) (o : AmoOps) (u : Bool)
  | amoXchg (h : Hdr) (o : AmoOps)
  | amoCas (h : Hdr) (o : AmoOps) (sc : SReg)
  | amoFadd (h : Hdr) (o : AmoOps)
  | amoFaddTree (h : Hdr) (sa sb sc : SReg) (imm : Word) (rel : Bool) (scope : Scope)
  | amoFmin (h : Hdr) (o : AmoOps)
  | amoFmax (h : Hdr) (o : AmoOps)
  | qpush (h : Hdr) (q : QNum) (b : Src)
  | mfs (h : Hdr) (sd : SReg) (n : BitVec 12)
  | mts (h : Hdr) (n : BitVec 12) (sa : SReg)
  -- system (15, 16)
  | poolAlloc (h : Hdr) (sd sa : SReg) (mir : Bool) (pref : BitVec 3) (given : Bool)
  | poolFree (h : Hdr) (sd sa : SReg)
  | poolStat (h : Hdr) (sd sa sb : SReg)
  | ownAcq (h : Hdr) (sd sa : SReg)
  | ownRel (h : Hdr) (sd sa : SReg)
  | ownTest (h : Hdr) (sd sa : SReg)
  | sreRun (h : Hdr) (sd sa : SReg)
  | watchSet (h : Hdr) (n : BitVec 2) (sa : SReg) (size : BitVec 6) (rd wr : Bool)
  | syscall (h : Hdr) (sa : SReg) (code : BitVec 16)
  | tlbInv (h : Hdr) (sa sb : SReg) (kind : InvKind)
  | ctxSave (h : Hdr) (sd sa : SReg) (full rel : Bool)
  | ctxLoad (h : Hdr) (sd sa : SReg)
  | ctxResume (h : Hdr) (fin : Bool)
  | ctxSwitch (h : Hdr)
  -- vector loads and copies (06, 07, 08)
  | vld (h : Hdr) (r : RunOps) (fmt : Fmt) (mk : MNum) (z : Bool) (idx : IdxMode)
  | vldRaw (h : Hdr) (r : RunOps) (fmt : Fmt) (mk : MNum) (z : Bool) (idx : IdxMode)
  | vldb (h : Hdr) (r : RunOps) (fmt : Fmt) (mk : MNum) (z : Bool) (idx : IdxMode) (shape : Shape)
  | pref (h : Hdr) (r : RunOps) (x : Extent)
  | copy (h : Hdr) (o : CopyOps)
  | copyEnc (h : Hdr) (o : CopyOps)
  | copyDec (h : Hdr) (o : CopyOps)
  | copyExport (h : Hdr) (o : CopyOps)
  | gather (h : Hdr) (o : CopyOps)
  | scatter (h : Hdr) (o : CopyOps)
  | xchgAll (h : Hdr) (o : CopyOps)
  | dld (h : Hdr) (dd : DNum) (sa : SReg) (imm : Lane)
  | dst (h : Hdr) (ds : DNum) (sb : SReg) (imm : Lane)
  | wpwait (h : Hdr) (sd : SReg) (ch : BitVec 2) (sa : SReg) (imm : Word)
  -- matrix (09, 10)
  | mma (h : Hdr) (t : TileOps)
  | mmaG (h : Hdr) (t : TileOps) (gc : GNum) (sa sb : SReg)
  | msd (h : Hdr) (t : TileOps)
  | macc (h : Hdr) (ti : BitVec 4) (vr : VNum) (cnt : BitVec 7) (p : BitVec 4)
  | macw (h : Hdr) (ti : BitVec 4) (vr : VNum) (cnt : BitVec 7) (p : BitVec 4) (cl : Bool)
  | mzeroOpen (h : Hdr) (cnt : BitVec 7)
  | mzero (h : Hdr) (ti : BitVec 4) (cl : Bool)
  | mmode (h : Hdr) (rnd : Rnd) (zlog : Bool) (sa : SReg)
  | mlagset (h : Hdr) (n : BitVec 2)
  | mmerge (h : Hdr) (ti : BitVec 4) (kk np : BitVec 4) (tag : BitVec 8) (topk dao cl : Bool)
  | descStep (h : Hdr) (o : DescOps)
  | descWalk (h : Hdr) (o : DescOps)
  | descPath (h : Hdr) (vr : VNum)
  | descPathLoad (h : Hdr) (vr : VNum)
  | descGroup (h : Hdr) (gc : GNum) (sa sb : SReg) (vr : VNum) (keys spill bias : Bool) (g1 cap : BitVec 16)
  -- vector compute (05)
  | vadd (h : Hdr) (o : VOps) (b : VSrc) (rnd : Rnd)
  | vsub (h : Hdr) (o : VOps) (b : VSrc) (rnd : Rnd)
  | vmul (h : Hdr) (o : VOps) (b : VSrc) (rnd : Rnd)
  | vfma (h : Hdr) (o : VOps) (b : VSrc) (vc : VNum) (rnd : Rnd)
  | vfms (h : Hdr) (o : VOps) (b : VSrc) (vc : VNum) (rnd : Rnd)
  | vmin (h : Hdr) (o : VOps) (b : VSrc)
  | vmax (h : Hdr) (o : VOps) (b : VSrc)
  | vabs (h : Hdr) (o : VOps)
  | vneg (h : Hdr) (o : VOps)
  | vrcp (h : Hdr) (o : VOps) (rnd : Rnd)
  | vrsq (h : Hdr) (o : VOps) (rnd : Rnd)
  | vsqrt (h : Hdr) (o : VOps) (rnd : Rnd)
  | vdiv (h : Hdr) (o : VOps) (b : VSrc) (rnd : Rnd)
  | vexp2 (h : Hdr) (o : VOps) (rnd : Rnd)
  | vlog2 (h : Hdr) (o : VOps) (rnd : Rnd)
  | vtanh (h : Hdr) (o : VOps) (rnd : Rnd)
  | vsigm (h : Hdr) (o : VOps) (rnd : Rnd)
  | vcmp (h : Hdr) (md : MNum) (va : VNum) (b : VSrc) (mk : MNum) (z : Bool) (cc : CC)
  | vsel (h : Hdr) (vd va : VNum) (b : VSrc) (mk : MNum)
  | viadd (h : Hdr) (o : VOps) (b : VSrc)
  | visub (h : Hdr) (o : VOps) (b : VSrc)
  | vimul (h : Hdr) (o : VOps) (b : VSrc)
  | vimad (h : Hdr) (o : VOps) (b : VSrc) (vc : VNum)
  | vand (h : Hdr) (o : VOps) (b : VSrc)
  | vor (h : Hdr) (o : VOps) (b : VSrc)
  | vxor (h : Hdr) (o : VOps) (b : VSrc)
  | vnot (h : Hdr) (o : VOps)
  | vshl (h : Hdr) (o : VOps) (b : VSrc)
  | vshr (h : Hdr) (o : VOps) (b : VSrc)
  | vsra (h : Hdr) (o : VOps) (b : VSrc)
  | vbfx (h : Hdr) (o : VOps) (f : VSrc) (sx : Bool)
  | vbfi (h : Hdr) (o : VOps) (f : VSrc) (vc : VNum)
  | vpopc (h : Hdr) (o : VOps)
  | vclz (h : Hdr) (o : VOps)
  | vfshl (h : Hdr) (o : VOps) (vb : VNum) (n : VSrc)
  | vfshr (h : Hdr) (o : VOps) (vb : VNum) (n : VSrc)
  | vcvtI2f (h : Hdr) (o : VOps) (u : Bool) (rnd : Rnd)
  | vcvtF2i (h : Hdr) (o : VOps) (u : Bool) (rnd : Rnd)
  | vidot4 (h : Hdr) (o : VOps) (b : VSrc) (vc : VNum) (ua ub : Bool)
  | vidot8 (h : Hdr) (o : VOps) (b : VSrc) (vc : VNum) (ua ub : Bool)
  | vredr (h : Hdr) (vd va : VNum) (mk : MNum) (op : RedOp) (rnd : Rnd)
  | vredc (h : Hdr) (vd va : VNum) (mk : MNum) (op : RedOp) (rnd : Rnd)
  | vrotr (h : Hdr) (o : VOps) (ss : SReg) (imm : Lane)
  | vrotc (h : Hdr) (o : VOps) (ss : SReg) (imm : Lane)
  | vbcr (h : Hdr) (o : VOps) (ss : SReg) (imm : Lane)
  | vbcc (h : Hdr) (o : VOps) (ss : SReg) (imm : Lane)
  | vscanr (h : Hdr) (vd va : VNum) (mk : MNum) (op : RedOp) (rnd : Rnd) (ex : Bool)
  | viota (h : Hdr) (vd : VNum) (pat : Pattern) (imm : Lane) (mk : MNum) (z : Bool)
  | vmov (h : Hdr) (vd : VNum) (b : VSrc) (mk : MNum) (z : Bool)
  | vmovs (h : Hdr) (vd : VNum) (ss : SReg) (lane : BitVec 14)
  | vext (h : Hdr) (ss : SReg) (va : VNum) (lane : BitVec 14) (sx : Bool)
  | vperm (h : Hdr) (o : VOps) (b : VSrc)
  | vsortc (h : Hdr) (vd va vc : VNum) (n : BitVec 14) (ss : SReg) (mk : MNum)
  | vmand (h : Hdr) (md ma mb : MNum)
  | vmor (h : Hdr) (md ma mb : MNum)
  | vmxor (h : Hdr) (md ma mb : MNum)
  | vmnot (h : Hdr) (md ma : MNum)
  | vmpopc (h : Hdr) (ss : SReg) (ma : MNum)
  | vmff (h : Hdr) (ss : SReg) (ma : MNum)
  -- vector stores (06, 09, 16)
  | vst (h : Hdr) (r : RunOps) (fmt : Fmt) (cvt : Cvt) (mk : MNum) (idx : IdxMode)
  | vstAmx (h : Hdr) (r : RunOps) (fmt : Fmt) (rnd : Rnd) (amx : BitVec 3) (idx : IdxMode)
  | vstAmxDrain (h : Hdr) (base : SReg) (off : BitVec 32) (amx : BitVec 3)
  | vsct (h : Hdr) (va vb : VNum) (ss : SReg) (mk : MNum) (imm : Lane) (fmt : Fmt) (cvt : Cvt)
  | epi (h : Hdr) (sa sb : SReg) (vr : VNum) (cnt : BitVec 7) (fmt : Fmt) (cvt : Cvt) (act : Activation)
      (cols : BitVec 7) (imm : Lane) (bias scale : Bool)
  | stf (h : Hdr) (r : RunOps) (fmt : Fmt) (cvt : Cvt) (mk : MNum)
  -- common block (04, 07, 11)
  | fence (e : Eng) (h : Hdr) (scope : Scope)
  | mark (e : Eng) (h : Hdr)
  | barInit (e : Eng) (h : Hdr) (sa sb sc : SReg) (imm : Word) (scope : Scope) (tag : BitVec 3) (wire : Bool)
  | barInitInv (e : Eng) (h : Hdr) (sa : SReg) (imm : Word)
  | barArv (e : Eng) (h : Hdr) (sd sa : SReg) (imm : Word)
  | barArvx (e : Eng) (h : Hdr) (sd sa sb : SReg) (imm : Word)
  | barWait (e : Eng) (h : Hdr) (pd : PReg) (sa sb : SReg) (imm : Word)
  | barTest (e : Eng) (h : Hdr) (sd sa : SReg) (imm : Word)
  | ringWf (e : Eng) (h : Hdr) (sd : SReg) (g : GNum) (n : BitVec 13) (far : Option SReg)
  | ringWe (e : Eng) (h : Hdr) (sd : SReg) (g : GNum) (n : BitVec 13) (far : Option SReg)
  | ringWeLoad (e : Eng) (h : Hdr) (sd : SReg) (g : GNum) (sb : SReg)
  | ringClm (e : Eng) (h : Hdr) (sd : SReg) (g : GNum) (n : BitVec 13) (far : Option SReg)
  | ringPub (e : Eng) (h : Hdr) (sd : SReg) (g : GNum) (n : BitVec 13) (far : Option SReg)
  | ringPop (e : Eng) (h : Hdr) (sd : SReg) (g : GNum) (n : BitVec 13) (far : Option SReg)
  | qpop (e : Eng) (h : Hdr) (sd : SReg) (q : QNum)
  | qpopP (e : Eng) (h : Hdr) (pd : PReg) (q : QNum)
  | trap (e : Eng) (h : Hdr) (code : BitVec 16)
  -- control (04, 14, 15)
  | nop (h : Hdr)
  | br (h : Hdr) (t : Target)
  | brc (h : Hdr) (sa sb : SReg) (cc : CC) (disp : BitVec 32)
  | call (h : Hdr) (t : Target)
  | ret (h : Hdr)
  | loop (h : Hdr) (sa : SReg) (disp : BitVec 32)
  | halt (h : Hdr)
  | launch (h : Hdr) (sa : SReg) (q : BitVec 3)
  | launchNw (h : Hdr) (sa : SReg) (q : BitVec 3)
  | ckpt (h : Hdr) (idx : BitVec 16)
  | yield (h : Hdr) (idx : BitVec 16)
  -- events of a cell
  | queueTimeout (c : Nat) (e : Eng)
  | ckptTimeout (c : Nat)
  | deferredTrap (c : Nat) (e : Eng)
  | copyLand (c ord first n : Nat)
  | xchgAccept (c : Nat)
  | bWindowLoad (c : Nat)
  | tileCommandComplete (c : Nat)
  | partialDeliver (c : Nat)
  | mergePartials (c : Nat)
  | tileRelocate (c sib : Nat)
  | relocatedTileReturn (c sib : Nat)
  | atomicPerform (c : Nat) (e : Eng)
  | barWaitRelease (c : Nat) (e : Eng)
  | pageWalk (asid : BitVec 14) (va : Word)
  -- events of the task graph unit
  | iterationStart (c : Nat)
  | iterationEnd (c : Nat)
  | recordIssue (w : Nat)
  | recordComplete (r : Nat)
  | stealProbe (w : Nat)
  | stealAnswer (dev : BitVec 6)
  | stealGrant (g : Grant)
  | stealReport (dev : BitVec 6) (record : Word) (range : StolenEnd)
  | lqTail (q : BitVec 3) (v : Word)
  | tguCancel (v : Word)
  | preemptReq (hi : Bool) (v : Word)
  | preemptQuiesce (c : Nat)
  -- events of the fabric, the pool and the engines at memory
  | peerAccess (r : PeerReq)
  | poolAccess (r : PoolReq)
  | ownRevoke (region : Nat) (dev : BitVec 6)
  | switchFail (n : BitVec 3)
  | switchRebuildDone (n : BitVec 3)
  | stfFlagUpdate (c : Nat)
  | dfreeze (v : Word)
  | sreJobStart (st : BitVec 3)
  | sreJobComplete (st : BitVec 3)
  -- events of the host link and the management controller
  | hostBarWrite (bar : Nat) (off : Nat) (bytes : List Byte)
  | hostBarRead (bar : Nat) (off len : Nat)
  | registerWrite (off : Nat) (v : Word)
  | start (f : StartFacts)
  | startTimeout (step : BitVec 8)
  | evqHead (v : Word)
  | pwrLimit (v : Word)
  | powerSample (milliwatts : Nat) (dieTemp packageTemp : Nat) (sensor : BitVec 8)
  | telemetryRefresh (sensors : List Word)
  | scrubUnit (st : BitVec 3)
  | accessPerformed (c : Nat) (e : Eng) (i : Nat)
  | tileCommandStart (c : Nat)
  | barrierOperation (c : Nat) (e : Eng)
  | ringFarOperation (c : Nat) (e : Eng)
  | ownershipRequest (dev : BitVec 6) (region : Nat) (kind : OwnKind)
  | switchRepair (n : BitVec 3)
  | peerLeavesService (dev : BitVec 6)
  | peerReturnsToService (dev : BitVec 6)
  -- events without arguments
  | cellAssign
  | tguTakeEntry
  | walkerGiveBack
  | agingStep
  | stealPauseExpire
  | bootRestart
  | bootClearFails
  | bootRestartMinimal
  | recBegin
  | recPiece
  | recCommit
  | recAbort
  | attReport
  | attCert
  | pwrRun
  | pwrIdle
  | pwrStandby
  | pwrOff
  | pwrExitDone
  | supplyRemoved
  | resetPinAsserted
deriving DecidableEq, Repr

end Sys2Proof
end

