-- ==== Sys2Proof/WellFormed.lean ====
section
/-! DEFINITION. Which terms of the syntax stand for an instruction word or an event the device can
have: the field rules that a Lean type does not already keep (02 R42, R45, R46, R51, R62 and the
instructions' own rules). -/

namespace Sys2Proof

/-- No token bit set. -/
def Hdr.noTokens (h : Hdr) : Bool := !(h.rp || h.fp || h.rq || h.fq)

/-- The token bits that an engine may carry by its neighbours alone (R22); what M may carry also depends
on ENGCFG.vup and is checked when it runs. -/
def Hdr.tokensFor (h : Hdr) : Eng → Bool
  | .l => !(h.rp || h.fq)
  | .w => !(h.fp || h.rq)
  | .m | .v => true
  | .s | .sup => h.noTokens

/-- The header of a C word: no token, and not the false predicate p15 (R22, R51). -/
def Hdr.control (h : Hdr) : Bool := h.noTokens && !(h.pred == 15#4 && h.neg)

/-- A vector register number (R45). -/
def vnumOk (v : VNum) : Bool := v.toNat < 640

/-- The registers of a repeating vector instruction stay within v0–v639 (R46). -/
def RunOps.regsOk (r : RunOps) : Bool := r.reg.toNat + r.rep.toNat ≤ 639

/-- An operand b is a vector register, a scalar or an immediate (R131). -/
def VSrc.ok : VSrc → Bool
  | .vec v => vnumOk v
  | .sc _ | .imm _ => true

/-- The register fields of an elementwise vector instruction (R45). -/
def VOps.ok (o : VOps) : Bool := vnumOk o.vd && vnumOk o.va

/-- An immediate that stands for an FP32 value or a 32-bit word (R109). -/
def Src.fits (n : Nat) : Src → Bool
  | .reg _ => true
  | .imm w => w.toNat < 2 ^ n

/-- The scope field of an atomic is zero unless it acquires or releases (R114). -/
def AmoOps.ok (o : AmoOps) : Bool := o.acq || o.rel || o.scope == .eng

/-- A floating atomic: 4 bytes only (R114). -/
def AmoOps.okFloat (o : AmoOps) : Bool := o.ok && !o.dbl

/-- The floating element formats (R75). -/
def Fmt.floating : Fmt → Bool
  | .fp32 | .bf16 | .fp16 | .e4m3 | .e5m2 => true
  | _ => false

/-- The format and conversion pairs of a store (R162). -/
def storeOk (fmt : Fmt) (cvt : Cvt) : Bool :=
  fmt != .cb4 && !(cvt == .i32 && fmt.floating)

/-- The fields that a tile command may combine (R237). -/
def TileOps.ok (t : TileOps) : Bool :=
  t.ga != t.gb && decide (t.q.toNat ≤ t.np.toNat) &&
  (t.topk || (t.kk == 0#4 && t.colbase == 0#16)) &&
  decide (t.colbase.toNat % 128 = 0) && decide (t.colbase.toNat ≤ 65408) &&
  (t.np != 0#4 || (t.home == 0#2 && t.tag == 0#8)) &&
  !(t.cl && t.np != 0#4)

/-- The depth and split level of a descent (R262). -/
def DescOps.ok (o : DescOps) : Bool :=
  decide (1 ≤ o.depth.toNat) && decide (o.depth.toNat ≤ 16) && decide (o.split.toNat ≤ o.depth.toNat)

/-- The imm field of a copy holds a tile scale or zero (R201). -/
def CopyOps.immOk (o : CopyOps) : Bool := o.scl == .tile || o.imm == 0#32

/-- No ctl subfield beyond those that a command's row of R201 allows. -/
def CopyOps.plain (o : CopyOps) (rnd scl block tr fill grp : Bool) : Bool :=
  (rnd || o.rnd == .rne) && (scl || o.scl == .none) && (block || o.scl != .block) && (tr || !o.tr) &&
  (fill || (o.lo0 == 0#8 && o.lo1 == 0#8)) && (grp || o.grp == .clu) && o.immOk

/-- A slot count (R179). -/
def slotsOk (n : BitVec 13) : Bool := decide (1 ≤ n.toNat) && decide (n.toNat ≤ 4096)

/-- The engine that reads a queue (R24). -/
def queueReader (q : QNum) : Eng :=
  if q.toNat < 2 then .l else if q.toNat < 4 then .m else if q.toNat < 6 then .v else .w

/-- A common-block instruction names one of the five engines, with the tokens it may carry (R60, R124). -/
def commonOk (e : Eng) (h : Hdr) : Bool := e != .sup && h.tokensFor e

/-- A rounding is named only where one takes place (R42, R146). -/
def redOk (op : RedOp) (rnd : Rnd) : Bool := op == .fadd || rnd == .rne

/-- The special-register numbers that R30 lists. -/
def sprListed (n : BitVec 12) : Bool :=
  let k := n.toNat
  decide (k ≤ 2) || (decide (8 ≤ k) && decide (k ≤ 0xB)) || k == 0x10 || k == 0x11 ||
  (decide (0x18 ≤ k) && decide (k ≤ 0x1A)) || (decide (0x20 ≤ k) && decide (k ≤ 0x23)) ||
  (decide (0x40 ≤ k) && decide (k ≤ 0x5F))

/-- Whether a term is an instruction that some word encodes, or an event of this device. -/
def wellFormed : Instr → Bool
  | .add h _ _ _ | .sub h _ _ _ | .mul h _ _ _ | .and h _ _ _ | .or h _ _ _ | .xor h _ _ _
  | .shl h _ _ _ | .shr h _ _ _ | .sra h _ _ _ | .rol h _ _ _ | .ror h _ _ _ => h.noTokens
  | .mulh h _ _ _ _ | .div h _ _ _ _ | .rem h _ _ _ _ | .min h _ _ _ _ | .max h _ _ _ _ => h.noTokens
  | .clz h _ _ | .ctz h _ _ | .popc h _ _ | .brev h _ _ => h.noTokens
  | .bfx h _ _ f | .bfxs h _ _ f | .bfi h _ _ f _ => h.noTokens && f.fits 16
  | .sext h _ _ _ | .li h _ _ | .addx h _ _ _ _ _ => h.noTokens
  | .cmp h _ _ _ _ | .pand h _ _ _ _ _ | .por h _ _ _ _ _ | .pxor h _ _ _ _ _ | .pnot h _ _
  | .sel h _ _ _ _ => h.noTokens
  | .sfadd h _ _ b _ | .sfmul h _ _ b _ | .sfdiv h _ _ b _ => h.noTokens && b.fits 32
  | .sffma h _ _ _ _ _ | .sfcvt h _ _ _ _ => h.noTokens
  | .ld h _ _ _ _ sz u | .lda h _ _ _ _ sz u _ => h.noTokens && !(u && sz == .d)
  | .st h _ _ _ _ _ | .stl h _ _ _ _ _ _ => h.noTokens
  | .amoAdd h o | .amoAnd h o | .amoOr h o | .amoXor h o | .amoXchg h o | .amoMin h o _ | .amoMax h o _
  | .amoCas h o _ => h.noTokens && o.ok
  | .amoFadd h o | .amoFmin h o | .amoFmax h o => h.noTokens && o.okFloat
  | .amoFaddTree h _ _ _ _ rel scope => h.noTokens && (rel || scope == .eng)
  | .qpush h _ _ => h.noTokens
  | .mfs h _ n | .mts h n _ => h.noTokens && sprListed n
  | .poolAlloc h _ _ _ _ _ | .poolFree h _ _ | .poolStat h _ _ _ | .ownAcq h _ _ | .ownRel h _ _
  | .ownTest h _ _ | .sreRun h _ _ | .syscall h _ _ | .ctxSave h _ _ _ _ | .ctxLoad h _ _
  | .ctxResume h _ | .ctxSwitch h => h.noTokens
  | .watchSet h _ _ size rd wr => h.noTokens && (!(rd || wr) || (decide (6 ≤ size.toNat) && decide (size.toNat ≤ 30)))
  | .tlbInv h _ sb kind => h.noTokens && (kind == .page || sb == 0#6)
  | .vld h r fmt _ _ idx => h.tokensFor .l && r.regsOk && fmt != .cb4 && idx != .scale
  | .vldRaw h r _ _ _ idx => h.tokensFor .l && r.regsOk && idx != .scale
  | .vldb h r fmt _ _ idx _ => h.tokensFor .l && r.regsOk && fmt != .cb4 && idx != .scale
  | .pref h r _ => h.tokensFor .l && r.reg == 0#10
  | .copy h o => h.tokensFor .l && o.plain true true true true true false
  | .copyEnc h o | .copyDec h o => h.tokensFor .l && o.plain true true false false false false && !o.padskip
  | .copyExport h o =>
      h.tokensFor .l && o.plain false false false false false false && !o.padskip && o.dd == 0#5 && o.sx == 0#6
  | .gather h o | .scatter h o => h.tokensFor .l && o.plain true true false false false false
  | .xchgAll h o => h.tokensFor .l && o.plain false false false false false true && !o.padskip && o.sx == 0#6
  | .dld h _ _ _ | .dst h _ _ _ | .wpwait h _ _ _ _ => h.tokensFor .l
  | .mma _ t | .msd _ t => t.ok
  | .mmaG _ t _ _ sb => t.ok && (t.topk || sb == 0#6)
  | .macc _ _ vr cnt p | .macw _ _ vr cnt p _ =>
      decide (p.toNat + cnt.toNat ≤ 15) && decide (vr.toNat + cnt.toNat ≤ 639)
  | .mzeroOpen _ cnt => decide (cnt.toNat ≤ 15)
  | .mzero _ _ _ => true
  | .mmode _ _ zlog sa => zlog || sa == 0#6
  | .mlagset _ n => n != 0#2
  | .mmerge _ _ kk _ _ topk _ _ => topk || kk == 0#4
  | .descStep _ o | .descWalk _ o => o.ok
  | .descPath _ vr | .descPathLoad _ vr => vnumOk vr
  | .descGroup _ _ sa sb vr keys spill bias _ _ =>
      vnumOk vr && (keys || vr == 0#10) && (spill || sa == 0#6) && (bias || sb == 0#6)
  | .vadd _ o b _ | .vsub _ o b _ | .vmul _ o b _ | .vdiv _ o b _ => o.ok && b.ok
  | .vfma _ o b vc _ | .vfms _ o b vc _ => o.ok && b.ok && vnumOk vc
  | .vmin _ o b | .vmax _ o b | .viadd _ o b | .visub _ o b | .vimul _ o b | .vand _ o b | .vor _ o b
  | .vxor _ o b | .vshl _ o b | .vshr _ o b | .vsra _ o b | .vperm _ o b => o.ok && b.ok
  | .vabs _ o | .vneg _ o | .vnot _ o | .vpopc _ o | .vclz _ o => o.ok
  | .vrcp _ o _ | .vrsq _ o _ | .vsqrt _ o _ | .vexp2 _ o _ | .vlog2 _ o _ | .vtanh _ o _ | .vsigm _ o _ => o.ok
  | .vcmp _ _ va b _ _ _ => vnumOk va && b.ok
  | .vsel _ vd va b _ => vnumOk vd && vnumOk va && b.ok
  | .vimad _ o b vc | .vbfi _ o b vc => o.ok && b.ok && vnumOk vc
  | .vbfx _ o f _ => o.ok && f.ok
  | .vfshl _ o vb n | .vfshr _ o vb n => o.ok && vnumOk vb && n.ok
  | .vcvtI2f _ o _ _ | .vcvtF2i _ o _ _ => o.ok
  | .vidot4 _ o b vc _ _ | .vidot8 _ o b vc _ _ => o.ok && b.ok && vnumOk vc
  | .vredr _ vd va _ op rnd | .vredc _ vd va _ op rnd | .vscanr _ vd va _ op rnd _ =>
      vnumOk vd && vnumOk va && redOk op rnd
  | .vrotr _ o _ _ | .vrotc _ o _ _ | .vbcr _ o _ _ | .vbcc _ o _ _ => o.ok
  | .viota _ vd _ _ _ _ => vnumOk vd
  | .vmov _ vd b _ _ => vnumOk vd && b.ok
  | .vmovs _ vd _ lane => vnumOk vd && decide (lane.toNat < 1024)
  | .vext _ _ va lane _ => vnumOk va && decide (lane.toNat < 1024)
  | .vsortc _ vd va vc n _ _ =>
      vnumOk vd && vnumOk va && vnumOk vc && decide (1 ≤ n.toNat) && decide (n.toNat ≤ 1024) && vd != vc
  | .vmand _ _ _ _ | .vmor _ _ _ _ | .vmxor _ _ _ _ | .vmnot _ _ _ | .vmpopc _ _ _ | .vmff _ _ _ => true
  | .vst h r fmt cvt _ idx => h.tokensFor .w && r.regsOk && storeOk fmt cvt && !(idx == .scale && cvt == .i32)
  | .vstAmx h r fmt _ _ _ => h.tokensFor .w && r.regsOk && fmt.floating
  | .vstAmxDrain h _ _ _ => h.tokensFor .w
  | .vsct h va vb _ _ _ fmt cvt => h.tokensFor .w && vnumOk va && vnumOk vb && storeOk fmt cvt && fmt != .int4
  | .epi h _ _ vr _ fmt cvt act _ imm bias scale =>
      h.tokensFor .w && vnumOk vr && storeOk fmt cvt && !(cvt == .i32 && (act != .none || bias || scale)) &&
      (bias || vr == 0#10) && (scale || imm == 0#32)
  | .stf h r fmt cvt _ => h.tokensFor .w && r.regsOk && storeOk fmt cvt
  | .fence e h _ | .mark e h | .barInitInv e h _ _ | .barArv e h _ _ _ | .barArvx e h _ _ _ _
  | .barWait e h _ _ _ _ | .barTest e h _ _ _ | .ringWeLoad e h _ _ _ => commonOk e h
  | .barInit e h _ _ _ _ scope tag wire => commonOk e h && scope != .eng && (wire || tag == 0#3)
  | .ringWf e h _ _ n _ | .ringWe e h _ _ n _ | .ringClm e h _ _ n _ | .ringPub e h _ _ n _
  | .ringPop e h _ _ n _ => commonOk e h && slotsOk n
  | .qpop e h _ q | .qpopP e h _ q => commonOk e h && queueReader q == e
  | .trap e h code => commonOk e h && code != 0xFFFF#16
  | .nop h | .br h _ | .brc h _ _ _ _ | .call h _ | .ret h | .loop h _ _ | .halt h | .launch h _ _
  | .launchNw h _ _ | .ckpt h _ | .yield h _ => h.control
  | .queueTimeout c _ | .ckptTimeout c | .deferredTrap c _ | .copyLand c _ _ _ | .xchgAccept c
  | .bWindowLoad c | .tileCommandComplete c | .partialDeliver c | .mergePartials c | .atomicPerform c _
  | .barWaitRelease c _ | .iterationStart c | .iterationEnd c | .preemptQuiesce c | .stfFlagUpdate c
  | .accessPerformed c _ _ | .tileCommandStart c | .barrierOperation c _ | .ringFarOperation c _ => decide (c < 80)
  | .tileRelocate c sib | .relocatedTileReturn c sib => decide (c < 80) && decide (sib < 80)
  | .recordIssue w | .stealProbe w => decide (w < 8)
  | .pageWalk _ _ | .cellAssign | .tguTakeEntry | .walkerGiveBack | .agingStep | .recordComplete _
  | .stealPauseExpire | .stealAnswer _ | .stealGrant _ | .stealReport _ _ _ | .lqTail _ _ | .tguCancel _
  | .preemptReq _ _ | .peerAccess _ | .poolAccess _ | .ownRevoke _ _ | .switchFail _ | .switchRebuildDone _
  | .dfreeze _ | .sreJobStart _ | .sreJobComplete _ | .hostBarWrite _ _ _ | .hostBarRead _ _ _
  | .registerWrite _ _ | .start _ | .startTimeout _ | .bootRestart | .bootClearFails | .bootRestartMinimal
  | .recBegin | .recPiece | .recCommit | .recAbort | .attReport | .attCert | .evqHead _ | .pwrRun | .pwrIdle
  | .pwrStandby | .pwrOff | .pwrExitDone | .pwrLimit _ | .powerSample _ _ _ _ | .telemetryRefresh _
  | .scrubUnit _ | .supplyRemoved | .ownershipRequest _ _ _ | .switchRepair _ | .peerLeavesService _
  | .peerReturnsToService _ | .resetPinAsserted => true

end Sys2Proof
end

