-- ==== Sys2Proof/Decode.lean ====
section
/-! DEFINITION. The decoder, total on 128-bit words and refusing by the detail code of 02 R62, and the
encoder, both written from the layouts of 02 R41–R50 and the opcode map of R54–R61. -/

namespace Sys2Proof

/-! ## Fields -/

/-- Bits hi:lo of an instruction word. -/
def fld (w : InstrWord) (lo len : Nat) : BitVec len := w.extractLsb' lo len

/-- A mask over the 96 body bits with ones at hi:lo. -/
def bits (hi lo : Nat) : BitVec 96 := BitVec.ofNat 96 ((2 ^ (hi + 1 - lo) - 1) * 2 ^ lo)

/-- A modifier mask with ones at hi:lo. -/
def mbits (hi lo : Nat) : BitVec 11 := BitVec.ofNat 11 ((2 ^ (hi + 1 - lo) - 1) * 2 ^ lo)

/-- The header fields of a word (R41). -/
def hdrOf (w : InstrWord) : Hdr :=
  { rp := w.getLsbD 115, fp := w.getLsbD 114, rq := w.getLsbD 113, fq := w.getLsbD 112
    pred := fld w 108 4, neg := w.getLsbD 107 }

/-- The modifier bits, MOD[10:0]. -/
def modOf (w : InstrWord) : BitVec 11 := fld w 96 11

/-- MOD[i]. -/
def md (w : InstrWord) (i : Nat) : Bool := w.getLsbD (96 + i)

/-- The engine tag (R41). -/
def tagOf (w : InstrWord) : BitVec 3 := fld w 125 3

/-- The opcode (R41). -/
def opOf (w : InstrWord) : BitVec 9 := fld w 116 9

/-! ## Codes of small sets -/

/-- A rounding code (R82); `none` for the reserved codes 5–7. -/
def rndOf? (b : BitVec 3) : Option Rnd :=
  match b.toNat with
  | 0 => some .rne | 1 => some .rtz | 2 => some .rdn | 3 => some .rup | 4 => some .rsr | _ => none

/-- The rounding code of a mode. -/
def rndCode : Rnd → BitVec 3
  | .rne => 0#3 | .rtz => 1#3 | .rdn => 2#3 | .rup => 3#3 | .rsr => 4#3

/-- An element format code (R73); `none` for the reserved codes. -/
def fmtOf? (b : BitVec 4) : Option Fmt :=
  match b.toNat with
  | 0 => some .fp32 | 1 => some .bf16 | 2 => some .fp16 | 3 => some .e4m3 | 4 => some .e5m2 | 5 => some .cb4
  | 6 => some .int8 | 7 => some .uint8 | 8 => some .int4 | 9 => some .int32 | _ => none

/-- The code of an element format. -/
def fmtCode : Fmt → BitVec 4
  | .fp32 => 0#4 | .bf16 => 1#4 | .fp16 => 2#4 | .e4m3 => 3#4 | .e5m2 => 4#4 | .cb4 => 5#4
  | .int8 => 6#4 | .uint8 => 7#4 | .int4 => 8#4 | .int32 => 9#4

/-- A condition code (R106); code 15 is reserved. -/
def ccOf? (b : BitVec 4) : Option CC :=
  match b.toNat with
  | 0 => some .eq | 1 => some .ne | 2 => some .lt | 3 => some .ge | 4 => some .ltu | 5 => some .geu | 6 => some .le
  | 7 => some .gt | 8 => some .leu | 9 => some .gtu | 10 => some .feq | 11 => some .fne | 12 => some .flt
  | 13 => some .fle | 14 => some .funord | _ => none

/-- The code of a condition. -/
def ccCode : CC → BitVec 4
  | .eq => 0#4 | .ne => 1#4 | .lt => 2#4 | .ge => 3#4 | .ltu => 4#4 | .geu => 5#4 | .le => 6#4 | .gt => 7#4
  | .leu => 8#4 | .gtu => 9#4 | .feq => 10#4 | .fne => 11#4 | .flt => 12#4 | .fle => 13#4 | .funord => 14#4

/-- A scope code (R112); code 7 is reserved. -/
def scopeOf? (b : BitVec 3) : Option Scope :=
  match b.toNat with
  | 0 => some .eng | 1 => some .cell | 2 => some .clu | 3 => some .half | 4 => some .dev | 5 => some .pod
  | 6 => some .sys | _ => none

/-- The code of a scope. -/
def scopeCode : Scope → BitVec 3
  | .eng => 0#3 | .cell => 1#3 | .clu => 2#3 | .half => 3#3 | .dev => 4#3 | .pod => 5#3 | .sys => 6#3

/-- A reduction code (R146); codes 11–15 are reserved. -/
def redOf? (b : BitVec 4) : Option RedOp :=
  match b.toNat with
  | 0 => some .fadd | 1 => some .fmax | 2 => some .fmin | 3 => some .iadd | 4 => some .imax | 5 => some .imin
  | 6 => some .umax | 7 => some .umin | 8 => some .and | 9 => some .or | 10 => some .xor | _ => none

/-- The code of a reduction. -/
def redCode : RedOp → BitVec 4
  | .fadd => 0#4 | .fmax => 1#4 | .fmin => 2#4 | .iadd => 3#4 | .imax => 4#4 | .imin => 5#4 | .umax => 6#4
  | .umin => 7#4 | .and => 8#4 | .or => 9#4 | .xor => 10#4

/-- A source-lane and rounding code (R154); 5 and 6 are reserved. -/
def cvtOf? (b : BitVec 3) : Option Cvt :=
  if b = 7#3 then some .i32 else (rndOf? b).map .mode

/-- The code of a store conversion. -/
def cvtCode : Cvt → BitVec 3
  | .mode r => rndCode r
  | .i32 => 7#3

/-- A size code (R111). -/
def sizeOf2 (b : BitVec 2) : Size :=
  match b.toNat with
  | 0 => .b | 1 => .h | 2 => .w | _ => .d

/-- The code of a size. -/
def sizeCode : Size → BitVec 2
  | .b => 0#2 | .h => 1#2 | .w => 2#2 | .d => 3#2

/-- The engine tag of a common-block instruction (R12). -/
def engTag : Eng → BitVec 3
  | .s => 0#3 | .l => 1#3 | .m => 2#3 | .v => 3#3 | .w => 4#3 | .sup => 6#3

/-- The index mode of a vector memory access (R155); code 3 is the drain form. -/
def idxOf? (b : BitVec 2) : Option IdxMode :=
  match b.toNat with
  | 0 => some .none | 1 => some .scale | 2 => some .pitch | _ => Option.none

/-- The code of an index mode. -/
def idxCode : IdxMode → BitVec 2
  | .none => 0#2 | .scale => 1#2 | .pitch => 2#2

/-! ## What one opcode reads -/

/-- What the parse of one opcode finds: which modifier and body bits the form uses, whether the coded
fields it holds are not reserved, whether its register fields are in range, and the instruction. -/
structure Parse where
  mods : BitVec 11
  modOk : Bool
  body : BitVec 96
  bodyOk : Bool
  regOk : Bool
  i : Instr

/-- A form without reserved codes or register limits. -/
def form (mods : BitVec 11) (body : BitVec 96) (i : Instr) : Option Parse :=
  some { mods, modOk := true, body, bodyOk := true, regOk := true, i }

/-- Refine a form with its field rules: reserved modifiers, reserved body values, register ranges. -/
def Parse.rules (p : Option Parse) (modOk bodyOk regOk : Bool) : Option Parse :=
  p.map fun q => { q with modOk := q.modOk && modOk, bodyOk := q.bodyOk && bodyOk, regOk := q.regOk && regOk }

/-! ### Scalar layout (R44) -/

def xSd (w : InstrWord) : SReg := fld w 90 6
def xSa (w : InstrWord) : SReg := fld w 84 6
def xSb (w : InstrWord) : SReg := fld w 78 6
def xSc (w : InstrWord) : SReg := fld w 72 6
def xAux (w : InstrWord) : BitVec 8 := fld w 64 8
def xImm (w : InstrWord) : Word := fld w 0 64

/-- The body mask of the scalar fields named. -/
def sMask (sd sa sb sc : Bool) (aux : BitVec 96) (imm : BitVec 96) : BitVec 96 :=
  (if sd then bits 95 90 else 0) ||| (if sa then bits 89 84 else 0) ||| (if sb then bits 83 78 else 0) |||
  (if sc then bits 77 72 else 0) ||| aux ||| imm

/-- The second source under imm_sel (R99). -/
def xSrc (w : InstrWord) : Src := if md w 10 then .imm (xImm w) else .reg (xSb w)

/-- A scalar form with a second source under imm_sel: imm bits up to `hi`, or sb. -/
def srcForm (w : InstrWord) (sd sa sc : Bool) (hi : Nat) (mods : BitVec 11) (aux : BitVec 96) (i : Instr) : Option Parse :=
  form (mods ||| mbits 10 10)
    (if md w 10 then sMask sd sa false sc aux (bits hi 0) else sMask sd sa true sc aux 0) i

/-- A predicate field of six bits: its low four, valid when the high two are zero (R99). -/
def predField (f : BitVec 6) : PReg := f.setWidth 4
def predFieldOk (f : BitVec 6) : Bool := decide (f.toNat < 16)

/-- The scope in aux[2:0] (R112), engine scope standing for the reserved code. -/
def auxScope (w : InstrWord) : Scope := (scopeOf? (fld w 64 3)).getD .eng
def auxScopeOk (w : InstrWord) : Bool := (scopeOf? (fld w 64 3)).isSome

/-- A rounding mode in MOD[9:7] of a scalar float instruction (R109). -/
def sRnd (w : InstrWord) : Rnd := (rndOf? (fld w 103 3)).getD .rne
def sRndOk (w : InstrWord) : Bool := (rndOf? (fld w 103 3)).isSome

/-- The operands of an atomic (R114). -/
def amoOf (w : InstrWord) : AmoOps :=
  { sd := xSd w, sa := xSa w, sb := xSb w, imm := xImm w, dbl := md w 0, acq := md w 4, rel := md w 5
    scope := auxScope w }

/-- The form of an atomic: size codes 2 and 3 only, scope only under .acq or .rel. -/
def amoForm (w : InstrWord) (u float sc : Bool) (i : Instr) : Option Parse :=
  Parse.rules
    (form (mbits 1 0 ||| mbits 5 4 ||| (if u then mbits 2 2 else 0))
      (sMask true true true sc (if md w 4 || md w 5 then bits 66 64 else 0) (bits 63 0)) i)
    (md w 1 && !(float && md w 0)) (!(md w 4 || md w 5) || auxScopeOk w) true

/-- The tree form of AMO.FADD (R114, R117): no .acq, 4 bytes, sd zero. -/
def treeForm (w : InstrWord) : Option Parse :=
  Parse.rules
    (form (mbits 1 0 ||| mbits 6 5) (sMask false true true true (if md w 5 then bits 66 64 else 0) (bits 63 0))
      (.amoFaddTree (hdrOf w) (xSa w) (xSb w) (xSc w) (xImm w) (md w 5) (auxScope w)))
    (md w 1 && !md w 0) (!md w 5 || auxScopeOk w) true

/-- The opcodes of the S engine (R54). -/
def parseS (op : Nat) (w : InstrWord) : Option Parse :=
  let h := hdrOf w
  let d := xSd w
  let a := xSa w
  let b := xSrc w
  let bin (i : Instr) := srcForm w true true false 63 0 0 i
  let binU (i : Instr) := srcForm w true true false 63 (mbits 0 0) 0 i
  let una (i : Instr) := form 0 (sMask true true false false 0 0) i
  match op with
  | 0x001 => bin (.add h d a b)
  | 0x002 => bin (.sub h d a b)
  | 0x003 => bin (.mul h d a b)
  | 0x004 => binU (.mulh h d a b (md w 0))
  | 0x005 => binU (.div h d a b (md w 0))
  | 0x006 => binU (.rem h d a b (md w 0))
  | 0x007 => bin (.and h d a b)
  | 0x008 => bin (.or h d a b)
  | 0x009 => bin (.xor h d a b)
  | 0x00A => bin (.shl h d a b)
  | 0x00B => bin (.shr h d a b)
  | 0x00C => bin (.sra h d a b)
  | 0x00D => bin (.rol h d a b)
  | 0x00E => bin (.ror h d a b)
  | 0x00F => binU (.min h d a b (md w 0))
  | 0x010 => binU (.max h d a b (md w 0))
  | 0x018 => una (.clz h d a)
  | 0x019 => una (.ctz h d a)
  | 0x01A => una (.popc h d a)
  | 0x01B => una (.brev h d a)
  | 0x020 => srcForm w true true false 15 0 0 (.bfx h d a b)
  | 0x021 => srcForm w true true false 15 0 0 (.bfxs h d a b)
  | 0x022 => srcForm w true true true 15 0 0 (.bfi h d a b (xSc w))
  | 0x023 =>
    Parse.rules
      (form (mbits 1 0) (sMask true true false false 0 0)
        (.sext h d a (match (fld w 96 2).toNat with | 0 => .b | 1 => .h | _ => .w)))
      (fld w 96 2 != 3#2) true true
  | 0x028 => form 0 (sMask true false false false 0 (bits 63 0)) (.li h d (xImm w))
  | 0x029 => form (mbits 2 0) (sMask true true true false 0 (bits 63 0)) (.addx h d a (xSb w) (fld w 96 3) (xImm w))
  | 0x030 =>
    Parse.rules (srcForm w true true false 63 (mbits 3 0) 0 (.cmp h (predField d) a b ((ccOf? (fld w 96 4)).getD .eq)))
      (ccOf? (fld w 96 4)).isSome true (predFieldOk d)
  | 0x031 => pred3 w (.pand h (predField d) (predField a) (predField (xSb w)) (md w 1) (md w 0))
  | 0x032 => pred3 w (.por h (predField d) (predField a) (predField (xSb w)) (md w 1) (md w 0))
  | 0x033 => pred3 w (.pxor h (predField d) (predField a) (predField (xSb w)) (md w 1) (md w 0))
  | 0x034 =>
    Parse.rules (form 0 (sMask true true false false 0 0) (.pnot h (predField d) (predField a))) true true
      (predFieldOk d && predFieldOk a)
  | 0x035 =>
    Parse.rules (srcForm w true true true 63 0 0 (.sel h d a b (predField (xSc w)))) true true (predFieldOk (xSc w))
  | 0x038 => Parse.rules (srcForm w true true false 31 (mbits 9 7) 0 (.sfadd h d a b (sRnd w))) (sRndOk w) true true
  | 0x039 => Parse.rules (srcForm w true true false 31 (mbits 9 7) 0 (.sfmul h d a b (sRnd w))) (sRndOk w) true true
  | 0x03A =>
    Parse.rules (form (mbits 9 7) (sMask true true true true 0 0) (.sffma h d a (xSb w) (xSc w) (sRnd w)))
      (sRndOk w) true true
  | 0x03B => Parse.rules (srcForm w true true false 31 (mbits 9 7) 0 (.sfdiv h d a b (sRnd w))) (sRndOk w) true true
  | 0x03C =>
    Parse.rules
      (form (mbits 9 7 ||| mbits 5 4) (sMask true true false false 0 0)
        (.sfcvt h d a (match (fld w 100 2).toNat with | 0 => .f2i | 1 => .f2u | 2 => .i2f | _ => .u2f) (sRnd w)))
      (sRndOk w) true true
  | 0x040 =>
    Parse.rules
      (form (mbits 2 0) (sMask true true true false 0 (bits 63 0)) (.ld h d a (xSb w) (xImm w) (sizeOf2 (fld w 96 2)) (md w 2)))
      (!(md w 2 && fld w 96 2 == 3#2)) true true
  | 0x041 =>
    form (mbits 1 0) (sMask false true true true 0 (bits 63 0)) (.st h a (xSb w) (xSc w) (xImm w) (sizeOf2 (fld w 96 2)))
  | 0x042 =>
    Parse.rules
      (form (mbits 2 0) (sMask true true true false (bits 66 64) (bits 63 0))
        (.lda h d a (xSb w) (xImm w) (sizeOf2 (fld w 96 2)) (md w 2) (auxScope w)))
      (!(md w 2 && fld w 96 2 == 3#2)) (auxScopeOk w) true
  | 0x043 =>
    Parse.rules
      (form (mbits 1 0) (sMask false true true true (bits 66 64) (bits 63 0))
        (.stl h a (xSb w) (xSc w) (xImm w) (sizeOf2 (fld w 96 2)) (auxScope w)))
      true (auxScopeOk w) true
  | 0x048 => amoForm w false false false (.amoAdd h (amoOf w))
  | 0x049 => amoForm w false false false (.amoAnd h (amoOf w))
  | 0x04A => amoForm w false false false (.amoOr h (amoOf w))
  | 0x04B => amoForm w false false false (.amoXor h (amoOf w))
  | 0x04C => amoForm w true false false (.amoMin h (amoOf w) (md w 2))
  | 0x04D => amoForm w true false false (.amoMax h (amoOf w) (md w 2))
  | 0x04E => amoForm w false false false (.amoXchg h (amoOf w))
  | 0x04F => amoForm w false false true (.amoCas h (amoOf w) (xSc w))
  | 0x050 => if md w 6 then treeForm w else amoForm w false true false (.amoFadd h (amoOf w))
  | 0x051 => amoForm w false true false (.amoFmin h (amoOf w))
  | 0x052 => amoForm w false true false (.amoFmax h (amoOf w))
  | 0x058 =>
    if md w 10 then form (mbits 10 10) (bits 66 64 ||| bits 63 0) (.qpush h (fld w 64 3) (.imm (xImm w)))
    else form (mbits 10 10) (bits 89 84 ||| bits 66 64) (.qpush h (fld w 64 3) (.reg a))
  | 0x059 =>
    Parse.rules (form 0 (sMask true false false false 0 (bits 11 0)) (.mfs h d (fld w 0 12))) true (sprListed (fld w 0 12)) true
  | 0x05A =>
    Parse.rules (form 0 (sMask false true false false 0 (bits 11 0)) (.mts h (fld w 0 12) a)) true (sprListed (fld w 0 12)) true
  | _ => none
where
  /-- The three-predicate form of R107. -/
  pred3 (w : InstrWord) (i : Instr) : Option Parse :=
    Parse.rules (form (mbits 1 0) (sMask true true true false 0 0) i) true true
      (predFieldOk (xSd w) && predFieldOk (xSa w) && predFieldOk (xSb w))

/-- The opcodes of the X tag (R55, R372, R394, R410). -/
def parseX (op : Nat) (w : InstrWord) : Option Parse :=
  let h := hdrOf w
  let d := xSd w
  let a := xSa w
  let two (i : Instr) := form 0 (sMask true true false false 0 0) i
  match op with
  | 0x000 => form (mbits 0 0) (sMask true true false false 0 (bits 3 0)) (.poolAlloc h d a (md w 0) (fld w 0 3) (w.getLsbD 3))
  | 0x001 => two (.poolFree h d a)
  | 0x002 => form 0 (sMask true true true false 0 0) (.poolStat h d a (xSb w))
  | 0x008 => two (.ownAcq h d a)
  | 0x009 => two (.ownRel h d a)
  | 0x00A => two (.ownTest h d a)
  | 0x010 => two (.sreRun h d a)
  | 0x018 =>
    Parse.rules
      (form 0 (sMask false true false false (bits 65 64) (bits 5 0 ||| bits 9 8))
        (.watchSet h (fld w 64 2) a (fld w 0 6) (w.getLsbD 8) (w.getLsbD 9)))
      true (!(w.getLsbD 8 || w.getLsbD 9) || (decide (6 ≤ (fld w 0 6).toNat) && decide ((fld w 0 6).toNat ≤ 30))) true
  | 0x020 => form 0 (sMask false true false false 0 (bits 15 0)) (.syscall h a (fld w 0 16))
  | 0x028 =>
    Parse.rules
      (form (mbits 1 0) (sMask false true (fld w 96 2 == 1#2) false 0 0)
        (.tlbInv h a (xSb w) (match (fld w 96 2).toNat with | 0 => .asid | 1 => .page | _ => .every)))
      (fld w 96 2 != 3#2) true true
  | 0x030 => form (mbits 1 0) (sMask true true false false 0 0) (.ctxSave h d a (md w 0) (md w 1))
  | 0x031 => two (.ctxLoad h d a)
  | 0x032 => form (mbits 0 0) 0 (.ctxResume h (md w 0))
  | 0x033 => form 0 0 (.ctxSwitch h)
  | _ => none

/-! ### Run-length layout (R46, R154, R155) -/

/-- The run-length fields of a word. -/
def runOf (w : InstrWord) : RunOps :=
  { reg := fld w 86 10, base := fld w 80 6, index := fld w 74 6, rep := fld w 58 16, step := fld w 34 24, off := fld w 0 32 }

def mFmt? (w : InstrWord) : Option Fmt := fmtOf? (fld w 100 4)
def mFmt (w : InstrWord) : Fmt := (mFmt? w).getD .fp32
def mCvt? (w : InstrWord) : Option Cvt := cvtOf? (fld w 104 3)
def mCvt (w : InstrWord) : Cvt := (mCvt? w).getD (.mode .rne)
def mIdx? (w : InstrWord) : Option IdxMode := idxOf? (fld w 32 2)
def mIdx (w : InstrWord) : IdxMode := (mIdx? w).getD .none
def mMk (w : InstrWord) : MNum := fld w 96 4

/-- A vector load: formats, index modes and register range. -/
def loadForm (w : InstrWord) (raw shape : Bool) (i : Instr) : Option Parse :=
  Parse.rules (form (mbits 8 0 ||| (if shape then mbits 10 9 else 0)) (bits 95 0) i)
    ((mFmt? w).isSome && (raw || mFmt w != .cb4) && (!shape || fld w 105 2 != 3#2))
    (mIdx? w == some .none || mIdx? w == some .pitch) (runOf w).regsOk

/-! ### Copy layout (R48, R200) -/

/-- The copy fields of a word. -/
def copyOf (w : InstrWord) : CopyOps :=
  { ds := fld w 91 5, dd := fld w 86 5, sa := fld w 80 6, sb := fld w 74 6, sc := fld w 68 6, ch := fld w 66 2
    sx := fld w 60 6, grp := if fld w 55 2 == 1#2 then .half else .clu, lo1 := fld w 47 8, lo0 := fld w 39 8
    padskip := w.getLsbD 38
    scl := match (fld w 36 2).toNat with | 0 => .none | 1 => .tile | _ => .block
    tr := w.getLsbD 35, rnd := (rndOf? (fld w 32 3)).getD .rne, imm := fld w 0 32 }

/-- The reserved values of ctl (R200). -/
def copyCtlOk (w : InstrWord) : Bool :=
  fld w 57 3 == 0#3 && decide ((fld w 55 2).toNat < 2) && fld w 36 2 != 3#2 && (rndOf? (fld w 32 3)).isSome

/-- A copy command: no modifier; the fields of its row of R201. -/
def copyForm (w : InstrWord) (rowOk : Bool) (i : Instr) : Option Parse :=
  Parse.rules (form 0 (bits 95 0) i) true (copyCtlOk w && rowOk) true

/-- The opcodes of the L engine (R56). -/
def parseL (op : Nat) (w : InstrWord) : Option Parse :=
  let h := hdrOf w
  let o := copyOf w
  match op with
  | 0x000 => loadForm w false false (.vld h (runOf w) (mFmt w) (mMk w) (md w 8) (mIdx w))
  | 0x001 => loadForm w true false (.vldRaw h (runOf w) (mFmt w) (mMk w) (md w 8) (mIdx w))
  | 0x002 =>
    loadForm w false true (.vldb h (runOf w) (mFmt w) (mMk w) (md w 8) (mIdx w)
      (match (fld w 105 2).toNat with | 0 => .row | 1 => .col | _ => .one))
  | 0x003 =>
    Parse.rules
      (form (mbits 1 0) (bits 85 34 ||| bits 31 0)
        (.pref h (runOf w) (match (fld w 96 2).toNat with | 0 => .x256 | 1 => .x4k | _ => .x64k)))
      (fld w 96 2 != 3#2) true true
  | 0x010 => copyForm w (o.plain true true true true true false) (.copy h o)
  | 0x011 => copyForm w (o.plain true true false false false false && !o.padskip) (.copyEnc h o)
  | 0x012 => copyForm w (o.plain true true false false false false && !o.padskip) (.copyDec h o)
  | 0x013 =>
    copyForm w (o.plain false false false false false false && !o.padskip && o.dd == 0#5 && o.sx == 0#6) (.copyExport h o)
  | 0x014 => copyForm w (o.plain true true false false false false) (.gather h o)
  | 0x015 => copyForm w (o.plain true true false false false false) (.scatter h o)
  | 0x016 => copyForm w (o.plain false false false false false true && !o.padskip && o.sx == 0#6) (.xchgAll h o)
  | 0x020 => form 0 (bits 90 80 ||| bits 31 0) (.dld h o.dd o.sa o.imm)
  | 0x021 => form 0 (bits 95 91 ||| bits 79 74 ||| bits 31 0) (.dst h o.ds o.sb o.imm)
  | 0x028 =>
    form 0 (sMask true true false false (bits 65 64) (bits 63 0)) (.wpwait h (xSd w) (fld w 64 2) (xSa w) (xImm w))
  | _ => none

/-! ### Matrix layout (R49, R237, R249, R262) -/

/-- The tile-command fields of a word (R237). -/
def tileOf (w : InstrWord) : TileOps :=
  { ga := fld w 91 5, gb := fld w 86 5, ti := fld w 77 4, cnt := fld w 48 7, kk := fld w 44 4, np := fld w 40 4
    q := fld w 36 4, home := fld w 34 2, tag := fld w 0 8, colbase := fld w 8 16
    topk := md w 0, dao := md w 1, cl := md w 2, rel := md w 3 }

/-- A tile command: body bits used, and the rules of R237 split over details 4 and 5. -/
def tileForm (w : InstrWord) (body : BitVec 96) (extra : Bool) (i : Instr) : Option Parse :=
  let t := tileOf w
  Parse.rules (form (mbits 3 0) (bits 95 86 ||| bits 80 77 ||| bits 54 34 ||| bits 23 0 ||| body) i)
    (!(t.cl && t.np != 0#4)) (({ t with cl := false }).ok && extra) true

/-- The descent fields of a word (R262). -/
def descOf (w : InstrWord) : DescOps :=
  { ga := fld w 91 5, gc := fld w 81 5, ti := fld w 77 4, sb := fld w 65 6, depth := fld w 32 5, split := fld w 37 5
    init := md w 0, keep := md w 1, cl := md w 2 }

/-- A descent. -/
def descForm (w : InstrWord) (i : Instr) : Option Parse :=
  Parse.rules (form (mbits 2 0) (bits 95 91 ||| bits 85 77 ||| bits 70 65 ||| bits 41 32) i) true (descOf w).ok true

/-- The opcodes of the M engine (R57). -/
def parseM (op : Nat) (w : InstrWord) : Option Parse :=
  let h := hdrOf w
  let t := tileOf w
  let vr : VNum := fld w 55 10
  match op with
  | 0x000 => tileForm w 0 true (.mma h t)
  | 0x001 =>
    tileForm w (bits 85 81 ||| bits 76 65) (t.topk || fld w 65 6 == 0#6) (.mmaG h t (fld w 81 5) (fld w 71 6) (fld w 65 6))
  | 0x002 => tileForm w 0 true (.msd h t)
  | 0x008 =>
    Parse.rules (form 0 (bits 80 77 ||| bits 64 48 ||| bits 3 0) (.macc h t.ti vr t.cnt (fld w 0 4))) true
      (decide ((fld w 0 4).toNat + t.cnt.toNat ≤ 15)) (decide (vr.toNat + t.cnt.toNat ≤ 639))
  | 0x009 =>
    Parse.rules (form (mbits 2 2) (bits 80 77 ||| bits 64 48 ||| bits 3 0) (.macw h t.ti vr t.cnt (fld w 0 4) (md w 2))) true
      (decide ((fld w 0 4).toNat + t.cnt.toNat ≤ 15)) (decide (vr.toNat + t.cnt.toNat ≤ 639))
  | 0x00A =>
    if md w 0 then
      Parse.rules (form (mbits 0 0) (bits 54 48) (.mzeroOpen h t.cnt)) true (decide (t.cnt.toNat ≤ 15)) true
    else form (mbits 2 2) (bits 80 77) (.mzero h t.ti (md w 2))
  | 0x010 =>
    Parse.rules
      (form (mbits 0 0) ((if md w 0 then bits 76 71 else 0) ||| bits 2 0)
        (.mmode h ((rndOf? (fld w 0 3)).getD .rne) (md w 0) (fld w 71 6)))
      true (rndOf? (fld w 0 3)).isSome true
  | 0x011 => Parse.rules (form 0 (bits 1 0) (.mlagset h (fld w 0 2))) true (fld w 0 2 != 0#2) true
  | 0x012 =>
    Parse.rules
      (form (mbits 2 0) (bits 80 77 ||| bits 47 40 ||| bits 7 0)
        (.mmerge h t.ti t.kk t.np t.tag (md w 0) (md w 1) (md w 2)))
      true (md w 0 || t.kk == 0#4) true
  | 0x018 => descForm w (.descStep h (descOf w))
  | 0x019 => descForm w (.descWalk h (descOf w))
  | 0x01A =>
    Parse.rules (form (mbits 0 0) (bits 64 55) (if md w 0 then .descPathLoad h vr else .descPath h vr)) true true (vnumOk vr)
  | 0x01B =>
    Parse.rules
      (form (mbits 2 0)
        (bits 85 81 ||| (if md w 1 then bits 76 71 else 0) ||| (if md w 2 then bits 70 65 else 0) |||
          (if md w 0 then bits 64 55 else 0) ||| bits 47 32 ||| bits 15 0)
        (.descGroup h (fld w 81 5) (fld w 71 6) (fld w 65 6) vr (md w 0) (md w 1) (md w 2) (fld w 32 16) (fld w 0 16)))
      true true (vnumOk vr)
  | _ => none

/-! ### Vector layout (R45, R131) -/

def xVd (w : InstrWord) : VNum := fld w 86 10
def xVa (w : InstrWord) : VNum := fld w 76 10
def xVb (w : InstrWord) : VNum := fld w 66 10
def xVc (w : InstrWord) : VNum := fld w 56 10
def xSs (w : InstrWord) : SReg := fld w 50 6
def xMk (w : InstrWord) : MNum := fld w 46 4
def xAxc (w : InstrWord) : BitVec 14 := fld w 32 14
def xImm32 (w : InstrWord) : Lane := fld w 0 32
def bsel (w : InstrWord) : BitVec 2 := fld w 97 2
def fnOf (w : InstrWord) : BitVec 4 := fld w 100 4
def vRnd (w : InstrWord) : Rnd := (rndOf? (fld w 104 3)).getD .rne
def vRndOk (w : InstrWord) : Bool := (rndOf? (fld w 104 3)).isSome

/-- Operand b under bsel, with the register field that bsel 0 reads (R131, R140). -/
def vSrc (w : InstrWord) (v : VNum) : VSrc :=
  match (bsel w).toNat with
  | 0 => .vec v | 1 => .sc (xSs w) | _ => .imm (xImm32 w)

/-- The body bits that operand b uses under bsel. -/
def srcBits (w : InstrWord) (field : BitVec 96) : BitVec 96 :=
  match (bsel w).toNat with
  | 0 => field | 1 => bits 55 50 | _ => bits 31 0

def vOps (w : InstrWord) : VOps := { vd := xVd w, va := xVa w, msk := xMk w, z := md w 0 }

/-- What an elementwise form takes beside vd, va, mk and .z. -/
structure VTakes where
  rnd : Bool := false
  b : Bool := false
  vc : Bool := false
  mods : BitVec 11 := 0

/-- An elementwise vector form (R131): every register field in the word must name v0–v639 (R45). -/
def vecForm (w : InstrWord) (t : VTakes) (i : Instr) : Option Parse :=
  Parse.rules
    (form ((if t.rnd then mbits 10 8 else 0) ||| (if t.b then mbits 2 1 else 0) ||| mbits 0 0 ||| t.mods)
      (bits 95 76 ||| (if t.b then srcBits w (bits 75 66) else 0) ||| (if t.vc then bits 65 56 else 0) ||| bits 49 46) i)
    ((!t.rnd || vRndOk w) && (!t.b || bsel w != 3#2)) true
    (vnumOk (xVd w) && vnumOk (xVa w) && vnumOk (xVb w) && vnumOk (xVc w))

/-- A funnel shift: bsel chooses the amount, and vb is always the low word (R140). -/
def funnelForm (w : InstrWord) (i : Instr) : Option Parse :=
  Parse.rules (form (mbits 2 0) (bits 95 66 ||| srcBits w (bits 65 56) ||| bits 49 46) i) (bsel w != 3#2) true
    (vnumOk (xVd w) && vnumOk (xVa w) && vnumOk (xVb w) && vnumOk (xVc w))

/-- A reduction or scan (R145–R147). -/
def redForm (w : InstrWord) (ex : Bool) (i : Instr) : Option Parse :=
  Parse.rules
    (form (mbits 10 4 ||| (if ex then mbits 3 3 else 0)) (bits 95 76 ||| bits 49 46) i)
    ((redOf? (fnOf w)).isSome && vRndOk w && redOk ((redOf? (fnOf w)).getD .fadd) (vRnd w)) true
    (vnumOk (xVd w) && vnumOk (xVa w) && vnumOk (xVb w) && vnumOk (xVc w))

/-- A rotation or broadcast (R148). -/
def rotForm (w : InstrWord) (i : Instr) : Option Parse :=
  Parse.rules (form (mbits 0 0) (bits 95 76 ||| bits 55 46 ||| bits 31 0) i) true true (vnumOk (xVd w) && vnumOk (xVa w))

/-- A 10-bit field that names a mask register (R144, R150). -/
def mnumField (f : BitVec 10) : MNum := f.setWidth 4
def mnumOk (f : BitVec 10) : Bool := decide (f.toNat < 16)

/-- The opcodes of the V engine (R58). -/
def parseV (op : Nat) (w : InstrWord) : Option Parse :=
  let h := hdrOf w
  let o := vOps w
  let b := vSrc w (xVb w)
  let c := xVc w
  let r := vRnd w
  let red := (redOf? (fnOf w)).getD .fadd
  let mask3 (i : Instr) :=
    Parse.rules (form 0 (bits 95 66) i) true true (mnumOk (xVd w) && mnumOk (xVa w) && mnumOk (xVb w))
  match op with
  | 0x000 => vecForm w { rnd := true, b := true } (.vadd h o b r)
  | 0x001 => vecForm w { rnd := true, b := true } (.vsub h o b r)
  | 0x002 => vecForm w { rnd := true, b := true } (.vmul h o b r)
  | 0x003 => vecForm w { rnd := true, b := true, vc := true } (.vfma h o b c r)
  | 0x004 => vecForm w { rnd := true, b := true, vc := true } (.vfms h o b c r)
  | 0x005 => vecForm w { b := true } (.vmin h o b)
  | 0x006 => vecForm w { b := true } (.vmax h o b)
  | 0x007 => vecForm w {} (.vabs h o)
  | 0x008 => vecForm w {} (.vneg h o)
  | 0x009 => vecForm w { rnd := true } (.vrcp h o r)
  | 0x00A => vecForm w { rnd := true } (.vrsq h o r)
  | 0x00B => vecForm w { rnd := true } (.vsqrt h o r)
  | 0x00C => vecForm w { rnd := true, b := true } (.vdiv h o b r)
  | 0x00D => vecForm w { rnd := true } (.vexp2 h o r)
  | 0x00E => vecForm w { rnd := true } (.vlog2 h o r)
  | 0x00F => vecForm w { rnd := true } (.vtanh h o r)
  | 0x010 => vecForm w { rnd := true } (.vsigm h o r)
  | 0x011 =>
    Parse.rules
      (form (mbits 7 4 ||| mbits 2 0) (bits 95 76 ||| srcBits w (bits 75 66) ||| bits 49 46)
        (.vcmp h (mnumField (xVd w)) (xVa w) b (xMk w) (md w 0) ((ccOf? (fnOf w)).getD .eq)))
      ((ccOf? (fnOf w)).isSome && bsel w != 3#2) true (mnumOk (xVd w) && vnumOk (xVa w) && vnumOk (xVb w))
  | 0x012 =>
    Parse.rules
      (form (mbits 2 1) (bits 95 76 ||| srcBits w (bits 75 66) ||| bits 49 46) (.vsel h (xVd w) (xVa w) b (xMk w)))
      (bsel w != 3#2) true (vnumOk (xVd w) && vnumOk (xVa w) && vnumOk (xVb w))
  | 0x020 => vecForm w { b := true } (.viadd h o b)
  | 0x021 => vecForm w { b := true } (.visub h o b)
  | 0x022 => vecForm w { b := true } (.vimul h o b)
  | 0x023 => vecForm w { b := true, vc := true } (.vimad h o b c)
  | 0x024 => vecForm w { b := true } (.vand h o b)
  | 0x025 => vecForm w { b := true } (.vor h o b)
  | 0x026 => vecForm w { b := true } (.vxor h o b)
  | 0x027 => vecForm w {} (.vnot h o)
  | 0x028 => vecForm w { b := true } (.vshl h o b)
  | 0x029 => vecForm w { b := true } (.vshr h o b)
  | 0x02A => vecForm w { b := true } (.vsra h o b)
  | 0x02B => vecForm w { b := true, mods := mbits 3 3 } (.vbfx h o b (md w 3))
  | 0x02C => vecForm w { b := true, vc := true } (.vbfi h o b c)
  | 0x02D => vecForm w {} (.vpopc h o)
  | 0x02E => vecForm w {} (.vclz h o)
  | 0x030 => funnelForm w (.vfshl h o (xVb w) (vSrc w c))
  | 0x031 => funnelForm w (.vfshr h o (xVb w) (vSrc w c))
  | 0x038 => vecForm w { rnd := true, mods := mbits 3 3 } (.vcvtI2f h o (md w 3) r)
  | 0x039 => vecForm w { rnd := true, mods := mbits 3 3 } (.vcvtF2i h o (md w 3) r)
  | 0x040 => vecForm w { b := true, vc := true, mods := mbits 5 4 } (.vidot4 h o b c (md w 4) (md w 5))
  | 0x041 => vecForm w { b := true, vc := true, mods := mbits 5 4 } (.vidot8 h o b c (md w 4) (md w 5))
  | 0x048 => redForm w false (.vredr h (xVd w) (xVa w) (xMk w) red r)
  | 0x049 => redForm w false (.vredc h (xVd w) (xVa w) (xMk w) red r)
  | 0x04A => rotForm w (.vrotr h o (xSs w) (xImm32 w))
  | 0x04B => rotForm w (.vrotc h o (xSs w) (xImm32 w))
  | 0x04C => rotForm w (.vbcr h o (xSs w) (xImm32 w))
  | 0x04D => rotForm w (.vbcc h o (xSs w) (xImm32 w))
  | 0x04E => redForm w true (.vscanr h (xVd w) (xVa w) (xMk w) red r (md w 3))
  | 0x058 =>
    Parse.rules
      (form (mbits 7 4 ||| mbits 0 0) (bits 95 86 ||| bits 49 46 ||| bits 31 0)
        (.viota h (xVd w) (match (fnOf w).toNat with | 0 => .lane | 1 => .row | _ => .col) (xImm32 w) (xMk w) (md w 0)))
      (decide ((fnOf w).toNat ≤ 2)) true (vnumOk (xVd w))
  | 0x059 =>
    Parse.rules
      (form (mbits 2 0) (bits 95 86 ||| srcBits w (bits 75 66) ||| bits 49 46) (.vmov h (xVd w) b (xMk w) (md w 0)))
      (bsel w != 3#2) true (vnumOk (xVd w) && vnumOk (xVb w))
  | 0x05A =>
    Parse.rules (form 0 (bits 95 86 ||| bits 55 50 ||| bits 45 32) (.vmovs h (xVd w) (xSs w) (xAxc w))) true
      (decide ((xAxc w).toNat < 1024)) (vnumOk (xVd w))
  | 0x05B =>
    Parse.rules (form (mbits 3 3) (bits 85 76 ||| bits 55 50 ||| bits 45 32) (.vext h (xSs w) (xVa w) (xAxc w) (md w 3))) true
      (decide ((xAxc w).toNat < 1024)) (vnumOk (xVa w))
  | 0x05C => vecForm w { b := true } (.vperm h o b)
  | 0x05D =>
    Parse.rules
      (form 0 (bits 95 76 ||| bits 65 32) (.vsortc h (xVd w) (xVa w) (xVc w) (xAxc w) (xSs w) (xMk w))) true
      (decide (1 ≤ (xAxc w).toNat) && decide ((xAxc w).toNat ≤ 1024) && xVd w != xVc w)
      (vnumOk (xVd w) && vnumOk (xVa w) && vnumOk (xVc w))
  | 0x060 => mask3 (.vmand h (mnumField (xVd w)) (mnumField (xVa w)) (mnumField (xVb w)))
  | 0x061 => mask3 (.vmor h (mnumField (xVd w)) (mnumField (xVa w)) (mnumField (xVb w)))
  | 0x062 => mask3 (.vmxor h (mnumField (xVd w)) (mnumField (xVa w)) (mnumField (xVb w)))
  | 0x063 =>
    Parse.rules (form 0 (bits 95 76) (.vmnot h (mnumField (xVd w)) (mnumField (xVa w)))) true true
      (mnumOk (xVd w) && mnumOk (xVa w))
  | 0x064 =>
    Parse.rules (form 0 (bits 85 76 ||| bits 55 50) (.vmpopc h (xSs w) (mnumField (xVa w)))) true true (mnumOk (xVa w))
  | 0x065 =>
    Parse.rules (form 0 (bits 85 76 ||| bits 55 50) (.vmff h (xSs w) (mnumField (xVa w)))) true true (mnumOk (xVa w))
  | _ => none

/-- A vector store's form: formats and conversions (R154, R162), index modes (R155), registers (R46). -/
def storeForm (w : InstrWord) (idxOk : Bool) (i : Instr) : Option Parse :=
  Parse.rules (form (mbits 10 0) (bits 95 0) i)
    ((mFmt? w).isSome && (mCvt? w).isSome && storeOk (mFmt w) (mCvt w)) idxOk (runOf w).regsOk

/-- The rounding mode of VST.AMX, whose cvt is 0–4 (R163). -/
def amxRnd (w : InstrWord) : Rnd := vRnd w

/-- The opcodes of the W engine (R59). -/
def parseW (op : Nat) (w : InstrWord) : Option Parse :=
  let h := hdrOf w
  match op with
  | 0x000 =>
    storeForm w ((mIdx? w).isSome && !(mIdx w == .scale && mCvt w == .i32)) (.vst h (runOf w) (mFmt w) (mCvt w) (mMk w) (mIdx w))
  | 0x001 =>
    if fld w 32 2 == 3#2 then
      Parse.rules (form (mbits 10 4 ||| mbits 2 0) (bits 95 0) (.vstAmxDrain h (fld w 80 6) (fld w 0 32) (fld w 96 3)))
        (vRndOk w && (mFmt? w).isSome && (mFmt w).floating)
        (fld w 86 10 == 0#10 && fld w 34 46 == 0#46 && fld w 100 7 == 0#7) true
    else
      Parse.rules (form (mbits 10 4 ||| mbits 2 0) (bits 95 0) (.vstAmx h (runOf w) (mFmt w) (amxRnd w) (fld w 96 3) (mIdx w)))
        (vRndOk w && (mFmt? w).isSome && (mFmt w).floating) true (runOf w).regsOk
  | 0x002 =>
    Parse.rules
      (form (mbits 10 4) (bits 85 66 ||| bits 55 46 ||| bits 31 0)
        (.vsct h (xVa w) (xVb w) (xSs w) (xMk w) (xImm32 w) (mFmt w) (mCvt w)))
      ((mFmt? w).isSome && (mCvt? w).isSome && storeOk (mFmt w) (mCvt w) && mFmt w != .int4) true
      (vnumOk (xVa w) && vnumOk (xVb w))
  | 0x008 =>
    let fmt? := fmtOf? (fld w 32 4)
    let fmt := fmt?.getD .fp32
    let cvt? := cvtOf? (fld w 36 3)
    let cvt := cvt?.getD (.mode .rne)
    let act : Activation := match (fld w 39 2).toNat with | 0 => .none | 1 => .relu | 2 => .tanh | _ => .sigm
    Parse.rules
      (form (mbits 1 0) (bits 76 65 ||| (if md w 0 then bits 64 55 else 0) ||| bits 54 48 ||| bits 47 32 |||
          (if md w 1 then bits 31 0 else 0))
        (.epi h (fld w 71 6) (fld w 65 6) (fld w 55 10) (fld w 48 7) fmt cvt act (fld w 41 7) (fld w 0 32) (md w 0) (md w 1)))
      (fmt?.isSome && cvt?.isSome && storeOk fmt cvt && !(cvt == .i32 && (act != .none || md w 0 || md w 1))) true
      (vnumOk (fld w 55 10))
  | 0x010 => storeForm w (mIdx? w == some .none) (.stf h (runOf w) (mFmt w) (mCvt w) (mMk w))
  | _ => none

/-! ### Common block and control layout (R50, R60, R61) -/

/-- A ring form: the slot count in imm[12:0] and the far home in sa (R179). -/
def ringForm (w : InstrWord) (i : Instr) : Option Parse :=
  Parse.rules
    (form (mbits 0 0) (sMask true (md w 0) false false (bits 68 64) (bits 12 0)) i) true (slotsOk (fld w 0 13)) true

/-- The common block, the same on every engine (R12, R60). -/
def parseCommon (e : Eng) (op : Nat) (w : InstrWord) : Option Parse :=
  let h := hdrOf w
  let d := xSd w
  let a := xSa w
  let imm := xImm w
  let far : Option SReg := if md w 0 then some a else none
  match op with
  | 0x1C0 => Parse.rules (form 0 (bits 66 64) (.fence e h (auxScope w))) true (auxScopeOk w) true
  | 0x1C1 => form 0 0 (.mark e h)
  | 0x1C8 =>
    if md w 1 then form (mbits 1 1) (sMask false true false false 0 (bits 63 0)) (.barInitInv e h a imm)
    else
      Parse.rules
        (form (mbits 0 0) (sMask false true true true (bits 69 64) (bits 63 0))
          (.barInit e h a (xSb w) (xSc w) imm (auxScope w) (fld w 67 3) (md w 0)))
        true (auxScopeOk w && auxScope w != .eng && (md w 0 || fld w 67 3 == 0#3)) true
  | 0x1C9 => form 0 (sMask true true false false 0 (bits 63 0)) (.barArv e h d a imm)
  | 0x1CA => form 0 (sMask true true true false 0 (bits 63 0)) (.barArvx e h d a (xSb w) imm)
  | 0x1CB =>
    Parse.rules (form 0 (sMask true true true false 0 (bits 63 0)) (.barWait e h (predField d) a (xSb w) imm)) true true
      (predFieldOk d)
  | 0x1CC => form 0 (sMask true true false false 0 (bits 63 0)) (.barTest e h d a imm)
  | 0x1D0 => ringForm w (.ringWf e h d (fld w 64 5) (fld w 0 13) far)
  | 0x1D1 =>
    if md w 1 then form (mbits 1 1) (sMask true false true false (bits 68 64) 0) (.ringWeLoad e h d (fld w 64 5) (xSb w))
    else ringForm w (.ringWe e h d (fld w 64 5) (fld w 0 13) far)
  | 0x1D2 => ringForm w (.ringClm e h d (fld w 64 5) (fld w 0 13) far)
  | 0x1D3 => ringForm w (.ringPub e h d (fld w 64 5) (fld w 0 13) far)
  | 0x1D4 => ringForm w (.ringPop e h d (fld w 64 5) (fld w 0 13) far)
  | 0x1D8 =>
    Parse.rules (form 0 (sMask true false false false (bits 66 64) 0) (.qpop e h d (fld w 64 3))) true
      (queueReader (fld w 64 3) == e) true
  | 0x1D9 =>
    Parse.rules (form 0 (sMask true false false false (bits 66 64) 0) (.qpopP e h (predField d) (fld w 64 3))) true
      (queueReader (fld w 64 3) == e) (predFieldOk d)
  | 0x1F0 =>
    Parse.rules (form 0 (bits 15 0) (.trap e h (fld w 0 16))) true (fld w 0 16 != 0xFFFF#16) true
  | _ => none

/-- The opcodes of the C tag (R61, R125–R129). -/
def parseC (op : Nat) (w : InstrWord) : Option Parse :=
  let h := hdrOf w
  let a : SReg := fld w 90 6
  let disp : BitVec 32 := fld w 32 32
  let target : Target := if md w 0 then .ind a disp else .rel disp
  let tBits := (if md w 0 then bits 95 90 else 0) ||| bits 63 32
  match op with
  | 0x000 => form 0 0 (.nop h)
  | 0x001 => form (mbits 0 0) tBits (.br h target)
  | 0x002 =>
    Parse.rules (form 0 (bits 95 80 ||| bits 63 32) (.brc h a (fld w 84 6) ((ccOf? (fld w 80 4)).getD .eq) disp)) true
      (ccOf? (fld w 80 4)).isSome true
  | 0x003 => form (mbits 0 0) tBits (.call h target)
  | 0x004 => form 0 0 (.ret h)
  | 0x005 => form 0 (bits 95 90 ||| bits 63 32) (.loop h a disp)
  | 0x006 => form 0 0 (.halt h)
  | 0x008 => form 0 (bits 95 90 ||| bits 2 0) (.launch h a (fld w 0 3))
  | 0x009 => form 0 (bits 95 90 ||| bits 2 0) (.launchNw h a (fld w 0 3))
  | 0x00A => form 0 (bits 15 0) (.ckpt h (fld w 0 16))
  | 0x00B => form 0 (bits 15 0) (.yield h (fld w 0 16))
  | _ => none

/-! ## The decoder -/

/-- The engine of a tag from 0 to 4 (R11). -/
def tagEng (tag : Nat) : Eng :=
  match tag with
  | 0 => .s | 1 => .l | 2 => .m | 3 => .v | _ => .w

/-- The parse of an opcode under its tag; `none` where the opcode is unallocated. -/
def parseWord (w : InstrWord) : Option Parse :=
  let op := (opOf w).toNat
  let tag := (tagOf w).toNat
  if decide (0x1C0 ≤ op) && decide (tag ≤ 4) then parseCommon (tagEng tag) op w
  else
    match tag with
    | 0 => parseS op w
    | 1 => parseL op w
    | 2 => parseM op w
    | 3 => parseV op w
    | 4 => parseW op w
    | 5 => parseX op w
    | 7 => parseC op w
    | _ => none

/-- The token bits a tag may carry, given ENGCFG.vup (R22). -/
def tokensLegal (vup : Bool) (tag : Nat) (h : Hdr) : Bool :=
  match tag with
  | 1 => h.tokensFor .l
  | 2 => !vup || h.noTokens
  | 3 => true
  | 4 => h.tokensFor .w
  | _ => h.noTokens

/-- Decode a word, refusing with the detail code of the earliest failing check of R62. -/
def decode (vup : Bool) (w : InstrWord) : Except Nat Instr :=
  let tag := (tagOf w).toNat
  if tag = 6 then .error 1
  else
    match parseWord w with
    | none => .error 2
    | some p =>
      if !tokensLegal vup tag (hdrOf w) then .error 3
      else if modOf w &&& ~~~p.mods != 0#11 || !p.modOk then .error 4
      else if fld w 0 96 &&& ~~~p.body != 0#96 || !p.bodyOk then .error 5
      else if !p.regOk then .error 6
      else if tag = 7 && !(hdrOf w).control then .error 7
      else .ok p.i

/-- The word whose sixteen bytes, lowest address first, are given (R40). -/
def wordOfBytes (bs : List Byte) : InstrWord :=
  BitVec.ofNat 128 (bs.foldr (fun b acc => b.toNat + 256 * acc) 0)

/-- The sixteen bytes of a word, lowest address first (R40). -/
def bytesOfWord (w : InstrWord) : List Byte :=
  (List.range 16).map fun k => w.extractLsb' (8 * k) 8

/-- The instruction that a word of the opcode table's numbering stands for, under ENGCFG.vup = 0. -/
def decodeTableWord (nbits w : Nat) : Option Instr :=
  match decode false (wordOfBytes (bytesOfWord (BitVec.ofNat 128 (w % 2 ^ Nat.max nbits 128)))) with
  | .ok i => some i
  | .error _ => none

/-! ## The encoder -/

/-- A Bool as one bit. -/
def bit (b : Bool) : BitVec 1 := BitVec.ofBool b

/-- A word from its tag, opcode, header, modifiers and body (R41). -/
def word (tag : BitVec 3) (op : BitVec 9) (h : Hdr) (mods : BitVec 11) (body : BitVec 96) : InstrWord :=
  tag ++ op ++ bit h.rp ++ bit h.fp ++ bit h.rq ++ bit h.fq ++ h.pred ++ bit h.neg ++ mods ++ body

/-- The scalar body (R44). -/
def scalarBody (sd sa sb sc : BitVec 6) (aux : BitVec 8) (imm : BitVec 64) : BitVec 96 := sd ++ sa ++ sb ++ sc ++ aux ++ imm

/-- The vector body (R45). -/
def vectorBody (vd va vb vc : BitVec 10) (ss : BitVec 6) (mk : BitVec 4) (axc : BitVec 14) (imm : BitVec 32) : BitVec 96 :=
  vd ++ va ++ vb ++ vc ++ ss ++ mk ++ axc ++ imm

/-- The run-length body (R46). -/
def runBody (r : RunOps) (asz : BitVec 2) : BitVec 96 :=
  r.reg ++ r.base ++ r.index ++ r.rep ++ r.step ++ asz ++ r.off

/-- The copy body (R48). -/
def copyBody (o : CopyOps) : BitVec 96 :=
  o.ds ++ o.dd ++ o.sa ++ o.sb ++ o.sc ++ o.ch ++ o.sx ++ 0#3 ++
  ((match o.grp with | .clu => 0#2 | .half => 1#2) : BitVec 2) ++ o.lo1 ++ o.lo0 ++ bit o.padskip ++
  ((match o.scl with | .none => 0#2 | .tile => 1#2 | .block => 2#2) : BitVec 2) ++ bit o.tr ++ rndCode o.rnd ++ o.imm

/-- The matrix body (R49). -/
def matrixBody (ga gb gc : BitVec 5) (ti : BitVec 4) (sa sb : BitVec 6) (vr : BitVec 10) (cnt : BitVec 7) (ctl : BitVec 16)
    (imm : BitVec 32) : BitVec 96 := ga ++ gb ++ gc ++ ti ++ sa ++ sb ++ vr ++ cnt ++ ctl ++ imm

/-- The control body (R50). -/
def controlBody (sa sb : BitVec 6) (cond : BitVec 4) (disp imm : BitVec 32) : BitVec 96 :=
  sa ++ sb ++ cond ++ 0#16 ++ disp ++ imm

/-- A predicate number in a six-bit field. -/
def pfield (p : PReg) : BitVec 6 := 0#2 ++ p
/-- A mask number in a ten-bit field. -/
def mfield (m : MNum) : BitVec 10 := 0#6 ++ m

/-- An S word with a second source under imm_sel. -/
def srcWord (op : BitVec 9) (h : Hdr) (mods : BitVec 10) (sd sa : BitVec 6) (b : Src) (sc : BitVec 6) (aux : BitVec 8) : InstrWord :=
  match b with
  | .reg r => word 0#3 op h (0#1 ++ mods) (scalarBody sd sa r sc aux 0#64)
  | .imm w => word 0#3 op h (1#1 ++ mods) (scalarBody sd sa 0#6 sc aux w)

/-- An atomic's word. -/
def amoWord (op : BitVec 9) (h : Hdr) (o : AmoOps) (u : Bool) (sc : BitVec 6) : InstrWord :=
  word 0#3 op h (0#5 ++ bit o.rel ++ bit o.acq ++ 0#1 ++ bit u ++ 1#1 ++ bit o.dbl)
    (scalarBody o.sd o.sa o.sb sc (0#5 ++ scopeCode o.scope) o.imm)

/-- An X word. -/
def xWord (op : BitVec 9) (h : Hdr) (mods : BitVec 11) (sd sa sb : BitVec 6) (aux : BitVec 8) (imm : BitVec 64) : InstrWord :=
  word 5#3 op h mods (scalarBody sd sa sb 0#6 aux imm)

/-- A vector word whose operand b stands under bsel, with the register field for the vector form chosen. -/
def vecWord (op : BitVec 9) (h : Hdr) (rnd : Rnd) (fn : BitVec 4) (x : Bool) (o : VOps) (b : VSrc) (vc : BitVec 10) : InstrWord :=
  match b with
  | .vec vb => word 3#3 op h (rndCode rnd ++ fn ++ bit x ++ 0#2 ++ bit o.z) (vectorBody o.vd o.va vb vc 0#6 o.msk 0#14 0#32)
  | .sc s => word 3#3 op h (rndCode rnd ++ fn ++ bit x ++ 1#2 ++ bit o.z) (vectorBody o.vd o.va 0#10 vc s o.msk 0#14 0#32)
  | .imm w => word 3#3 op h (rndCode rnd ++ fn ++ bit x ++ 2#2 ++ bit o.z) (vectorBody o.vd o.va 0#10 vc 0#6 o.msk 0#14 w)

/-- A funnel shift's word (R140). -/
def funnelWord (op : BitVec 9) (h : Hdr) (o : VOps) (vb : VNum) (n : VSrc) : InstrWord :=
  match n with
  | .vec vc => word 3#3 op h (0#8 ++ 0#2 ++ bit o.z) (vectorBody o.vd o.va vb vc 0#6 o.msk 0#14 0#32)
  | .sc s => word 3#3 op h (0#8 ++ 1#2 ++ bit o.z) (vectorBody o.vd o.va vb 0#10 s o.msk 0#14 0#32)
  | .imm w => word 3#3 op h (0#8 ++ 2#2 ++ bit o.z) (vectorBody o.vd o.va vb 0#10 0#6 o.msk 0#14 w)

/-- A unary elementwise word. -/
def unWord (op : BitVec 9) (h : Hdr) (rnd : Rnd) (x : Bool) (o : VOps) : InstrWord :=
  vecWord op h rnd 0#4 x o (.vec 0#10) 0#10

/-- A plain vector word with its fields. -/
def vWord (op : BitVec 9) (h : Hdr) (mods : BitVec 11) (vd va vb vc : BitVec 10) (ss : BitVec 6) (mk : BitVec 4) (axc : BitVec 14)
    (imm : BitVec 32) : InstrWord := word 3#3 op h mods (vectorBody vd va vb vc ss mk axc imm)

/-- A run-length word. -/
def runWord (tag : BitVec 3) (op : BitVec 9) (h : Hdr) (hi : BitVec 3) (fmt : Fmt) (lo : BitVec 4) (r : RunOps) (asz : BitVec 2) :
    InstrWord := word tag op h (hi ++ fmtCode fmt ++ lo) (runBody r asz)

/-- A tile command's word (R237). -/
def tileWord (op : BitVec 9) (h : Hdr) (t : TileOps) (gc : GNum) (sa sb : SReg) : InstrWord :=
  word 2#3 op h (0#7 ++ bit t.rel ++ bit t.cl ++ bit t.dao ++ bit t.topk)
    (matrixBody t.ga t.gb gc t.ti sa sb 0#10 t.cnt (t.kk ++ t.np ++ t.q ++ t.home ++ 0#2) (0#8 ++ t.colbase ++ t.tag))

/-- A descent's word (R262). -/
def descWord (op : BitVec 9) (h : Hdr) (o : DescOps) : InstrWord :=
  word 2#3 op h (0#8 ++ bit o.cl ++ bit o.keep ++ bit o.init)
    (matrixBody o.ga 0#5 o.gc o.ti 0#6 o.sb 0#10 0#7 (0#6 ++ o.split ++ o.depth) 0#32)

/-- An M word without rings. -/
def mWord (op : BitVec 9) (h : Hdr) (mods : BitVec 11) (ti : BitVec 4) (sa : SReg) (vr : VNum) (cnt : BitVec 7) (ctl : BitVec 16)
    (imm : BitVec 32) : InstrWord := word 2#3 op h mods (matrixBody 0#5 0#5 0#5 ti sa 0#6 vr cnt ctl imm)

/-- A common-block word. -/
def comWord (e : Eng) (op : BitVec 9) (h : Hdr) (mods : BitVec 11) (sd sa sb sc : BitVec 6) (aux : BitVec 8) (imm : BitVec 64) :
    InstrWord := word (engTag e) op h mods (scalarBody sd sa sb sc aux imm)

/-- A ring instruction's word (R179). -/
def ringWord (e : Eng) (op : BitVec 9) (h : Hdr) (sd : SReg) (g : GNum) (n : BitVec 13) (far : Option SReg) : InstrWord :=
  match far with
  | none => comWord e op h 0#11 sd 0#6 0#6 0#6 (0#3 ++ g) (0#51 ++ n)
  | some a => comWord e op h 1#11 sd a 0#6 0#6 (0#3 ++ g) (0#51 ++ n)

/-- A control word. -/
def ctlWord (op : BitVec 9) (h : Hdr) (ind : Bool) (sa sb : SReg) (cond : BitVec 4) (disp imm : BitVec 32) : InstrWord :=
  word 7#3 op h (0#10 ++ bit ind) (controlBody sa sb cond disp imm)

/-- A branch's word. -/
def branchWord (op : BitVec 9) (h : Hdr) : Target → InstrWord
  | .rel disp => ctlWord op h false 0#6 0#6 0#4 disp 0#32
  | .ind sa disp => ctlWord op h true sa 0#6 0#4 disp 0#32

/-- The word of an instruction; `none` for the events, which no word encodes. -/
def encode : Instr → Option InstrWord
  | .add h d a b => some (srcWord 0x001#9 h 0#10 d a b 0#6 0#8)
  | .sub h d a b => some (srcWord 0x002#9 h 0#10 d a b 0#6 0#8)
  | .mul h d a b => some (srcWord 0x003#9 h 0#10 d a b 0#6 0#8)
  | .mulh h d a b u => some (srcWord 0x004#9 h (0#9 ++ bit u) d a b 0#6 0#8)
  | .div h d a b u => some (srcWord 0x005#9 h (0#9 ++ bit u) d a b 0#6 0#8)
  | .rem h d a b u => some (srcWord 0x006#9 h (0#9 ++ bit u) d a b 0#6 0#8)
  | .and h d a b => some (srcWord 0x007#9 h 0#10 d a b 0#6 0#8)
  | .or h d a b => some (srcWord 0x008#9 h 0#10 d a b 0#6 0#8)
  | .xor h d a b => some (srcWord 0x009#9 h 0#10 d a b 0#6 0#8)
  | .shl h d a b => some (srcWord 0x00A#9 h 0#10 d a b 0#6 0#8)
  | .shr h d a b => some (srcWord 0x00B#9 h 0#10 d a b 0#6 0#8)
  | .sra h d a b => some (srcWord 0x00C#9 h 0#10 d a b 0#6 0#8)
  | .rol h d a b => some (srcWord 0x00D#9 h 0#10 d a b 0#6 0#8)
  | .ror h d a b => some (srcWord 0x00E#9 h 0#10 d a b 0#6 0#8)
  | .min h d a b u => some (srcWord 0x00F#9 h (0#9 ++ bit u) d a b 0#6 0#8)
  | .max h d a b u => some (srcWord 0x010#9 h (0#9 ++ bit u) d a b 0#6 0#8)
  | .clz h d a => some (srcWord 0x018#9 h 0#10 d a (.reg 0#6) 0#6 0#8)
  | .ctz h d a => some (srcWord 0x019#9 h 0#10 d a (.reg 0#6) 0#6 0#8)
  | .popc h d a => some (srcWord 0x01A#9 h 0#10 d a (.reg 0#6) 0#6 0#8)
  | .brev h d a => some (srcWord 0x01B#9 h 0#10 d a (.reg 0#6) 0#6 0#8)
  | .bfx h d a f => some (srcWord 0x020#9 h 0#10 d a f 0#6 0#8)
  | .bfxs h d a f => some (srcWord 0x021#9 h 0#10 d a f 0#6 0#8)
  | .bfi h d a f sc => some (srcWord 0x022#9 h 0#10 d a f sc 0#8)
  | .sext h d a sz =>
      some (srcWord 0x023#9 h (0#8 ++ ((match sz with | .b => 0#2 | .h => 1#2 | .w => 2#2) : BitVec 2)) d a (.reg 0#6) 0#6 0#8)
  | .li h d imm => some (word 0#3 0x028#9 h 0#11 (scalarBody d 0#6 0#6 0#6 0#8 imm))
  | .addx h d a b sh imm => some (word 0#3 0x029#9 h (0#8 ++ sh) (scalarBody d a b 0#6 0#8 imm))
  | .cmp h pd a b cc => some (srcWord 0x030#9 h (0#6 ++ ccCode cc) (pfield pd) a b 0#6 0#8)
  | .pand h pd pa pb na nb => some (srcWord 0x031#9 h (0#8 ++ bit na ++ bit nb) (pfield pd) (pfield pa) (.reg (pfield pb)) 0#6 0#8)
  | .por h pd pa pb na nb => some (srcWord 0x032#9 h (0#8 ++ bit na ++ bit nb) (pfield pd) (pfield pa) (.reg (pfield pb)) 0#6 0#8)
  | .pxor h pd pa pb na nb => some (srcWord 0x033#9 h (0#8 ++ bit na ++ bit nb) (pfield pd) (pfield pa) (.reg (pfield pb)) 0#6 0#8)
  | .pnot h pd pa => some (srcWord 0x034#9 h 0#10 (pfield pd) (pfield pa) (.reg 0#6) 0#6 0#8)
  | .sel h d a b pc => some (srcWord 0x035#9 h 0#10 d a b (pfield pc) 0#8)
  | .sfadd h d a b r => some (srcWord 0x038#9 h (rndCode r ++ 0#7) d a b 0#6 0#8)
  | .sfmul h d a b r => some (srcWord 0x039#9 h (rndCode r ++ 0#7) d a b 0#6 0#8)
  | .sffma h d a b sc r => some (srcWord 0x03A#9 h (rndCode r ++ 0#7) d a (.reg b) sc 0#8)
  | .sfdiv h d a b r => some (srcWord 0x03B#9 h (rndCode r ++ 0#7) d a b 0#6 0#8)
  | .sfcvt h d a op r =>
      some (srcWord 0x03C#9 h (rndCode r ++ 0#1 ++ ((match op with | .f2i => 0#2 | .f2u => 1#2 | .i2f => 2#2 | .u2f => 3#2) : BitVec 2) ++ 0#4)
        d a (.reg 0#6) 0#6 0#8)
  | .ld h d a b imm sz u => some (word 0#3 0x040#9 h (0#8 ++ bit u ++ sizeCode sz) (scalarBody d a b 0#6 0#8 imm))
  | .st h a b c imm sz => some (word 0#3 0x041#9 h (0#9 ++ sizeCode sz) (scalarBody 0#6 a b c 0#8 imm))
  | .lda h d a b imm sz u sc =>
      some (word 0#3 0x042#9 h (0#8 ++ bit u ++ sizeCode sz) (scalarBody d a b 0#6 (0#5 ++ scopeCode sc) imm))
  | .stl h a b c imm sz sc =>
      some (word 0#3 0x043#9 h (0#9 ++ sizeCode sz) (scalarBody 0#6 a b c (0#5 ++ scopeCode sc) imm))
  | .amoAdd h o => some (amoWord 0x048#9 h o false 0#6)
  | .amoAnd h o => some (amoWord 0x049#9 h o false 0#6)
  | .amoOr h o => some (amoWord 0x04A#9 h o false 0#6)
  | .amoXor h o => some (amoWord 0x04B#9 h o false 0#6)
  | .amoMin h o u => some (amoWord 0x04C#9 h o u 0#6)
  | .amoMax h o u => some (amoWord 0x04D#9 h o u 0#6)
  | .amoXchg h o => some (amoWord 0x04E#9 h o false 0#6)
  | .amoCas h o sc => some (amoWord 0x04F#9 h o false sc)
  | .amoFadd h o => some (amoWord 0x050#9 h o false 0#6)
  | .amoFaddTree h a b c imm rel scope =>
      some (word 0#3 0x050#9 h (0#4 ++ 1#1 ++ bit rel ++ 0#3 ++ 2#2) (scalarBody 0#6 a b c (0#5 ++ scopeCode scope) imm))
  | .amoFmin h o => some (amoWord 0x051#9 h o false 0#6)
  | .amoFmax h o => some (amoWord 0x052#9 h o false 0#6)
  | .qpush h q b =>
      some (match b with
        | .reg a => word 0#3 0x058#9 h 0#11 (scalarBody 0#6 a 0#6 0#6 (0#5 ++ q) 0#64)
        | .imm w => word 0#3 0x058#9 h (1#1 ++ 0#10) (scalarBody 0#6 0#6 0#6 0#6 (0#5 ++ q) w))
  | .mfs h d n => some (word 0#3 0x059#9 h 0#11 (scalarBody d 0#6 0#6 0#6 0#8 (0#52 ++ n)))
  | .mts h n a => some (word 0#3 0x05A#9 h 0#11 (scalarBody 0#6 a 0#6 0#6 0#8 (0#52 ++ n)))
  | .poolAlloc h d a mir pref given => some (xWord 0x000#9 h (0#10 ++ bit mir) d a 0#6 0#8 (0#60 ++ bit given ++ pref))
  | .poolFree h d a => some (xWord 0x001#9 h 0#11 d a 0#6 0#8 0#64)
  | .poolStat h d a b => some (xWord 0x002#9 h 0#11 d a b 0#8 0#64)
  | .ownAcq h d a => some (xWord 0x008#9 h 0#11 d a 0#6 0#8 0#64)
  | .ownRel h d a => some (xWord 0x009#9 h 0#11 d a 0#6 0#8 0#64)
  | .ownTest h d a => some (xWord 0x00A#9 h 0#11 d a 0#6 0#8 0#64)
  | .sreRun h d a => some (xWord 0x010#9 h 0#11 d a 0#6 0#8 0#64)
  | .watchSet h n a size rd wr =>
      some (xWord 0x018#9 h 0#11 0#6 a 0#6 (0#6 ++ n) (0#54 ++ bit wr ++ bit rd ++ 0#2 ++ size))
  | .syscall h a code => some (xWord 0x020#9 h 0#11 0#6 a 0#6 0#8 (0#48 ++ code))
  | .tlbInv h a b kind =>
      some (xWord 0x028#9 h (0#9 ++ ((match kind with | .asid => 0#2 | .page => 1#2 | .every => 2#2) : BitVec 2)) 0#6 a b 0#8 0#64)
  | .ctxSave h d a full rel => some (xWord 0x030#9 h (0#9 ++ bit rel ++ bit full) d a 0#6 0#8 0#64)
  | .ctxLoad h d a => some (xWord 0x031#9 h 0#11 d a 0#6 0#8 0#64)
  | .ctxResume h fin => some (xWord 0x032#9 h (0#10 ++ bit fin) 0#6 0#6 0#6 0#8 0#64)
  | .ctxSwitch h => some (xWord 0x033#9 h 0#11 0#6 0#6 0#6 0#8 0#64)
  | .vld h r fmt mk z idx => some (runWord 1#3 0x000#9 h (0#2 ++ bit z) fmt mk r (idxCode idx))
  | .vldRaw h r fmt mk z idx => some (runWord 1#3 0x001#9 h (0#2 ++ bit z) fmt mk r (idxCode idx))
  | .vldb h r fmt mk z idx sh =>
      some (runWord 1#3 0x002#9 h (((match sh with | .row => 0#2 | .col => 1#2 | .one => 2#2) : BitVec 2) ++ bit z) fmt mk r (idxCode idx))
  | .pref h r x =>
      some (word 1#3 0x003#9 h (0#9 ++ ((match x with | .x256 => 0#2 | .x4k => 1#2 | .x64k => 2#2) : BitVec 2)) (runBody r 0#2))
  | .copy h o => some (word 1#3 0x010#9 h 0#11 (copyBody o))
  | .copyEnc h o => some (word 1#3 0x011#9 h 0#11 (copyBody o))
  | .copyDec h o => some (word 1#3 0x012#9 h 0#11 (copyBody o))
  | .copyExport h o => some (word 1#3 0x013#9 h 0#11 (copyBody o))
  | .gather h o => some (word 1#3 0x014#9 h 0#11 (copyBody o))
  | .scatter h o => some (word 1#3 0x015#9 h 0#11 (copyBody o))
  | .xchgAll h o => some (word 1#3 0x016#9 h 0#11 (copyBody o))
  | .dld h dd a imm => some (word 1#3 0x020#9 h 0#11 (0#5 ++ dd ++ a ++ 0#48 ++ imm))
  | .dst h ds b imm => some (word 1#3 0x021#9 h 0#11 (ds ++ 0#11 ++ b ++ 0#42 ++ imm))
  | .wpwait h d ch a imm => some (word 1#3 0x028#9 h 0#11 (scalarBody d a 0#6 0#6 (0#6 ++ ch) imm))
  | .mma h t => some (tileWord 0x000#9 h t 0#5 0#6 0#6)
  | .mmaG h t gc a b => some (tileWord 0x001#9 h t gc a b)
  | .msd h t => some (tileWord 0x002#9 h t 0#5 0#6 0#6)
  | .macc h ti vr cnt p => some (mWord 0x008#9 h 0#11 ti 0#6 vr cnt 0#16 (0#28 ++ p))
  | .macw h ti vr cnt p cl => some (mWord 0x009#9 h (0#8 ++ bit cl ++ 0#2) ti 0#6 vr cnt 0#16 (0#28 ++ p))
  | .mzeroOpen h cnt => some (mWord 0x00A#9 h 1#11 0#4 0#6 0#10 cnt 0#16 0#32)
  | .mzero h ti cl => some (mWord 0x00A#9 h (0#8 ++ bit cl ++ 0#2) ti 0#6 0#10 0#7 0#16 0#32)
  | .mmode h r zlog a => some (mWord 0x010#9 h (0#10 ++ bit zlog) 0#4 a 0#10 0#7 0#16 (0#29 ++ rndCode r))
  | .mlagset h n => some (mWord 0x011#9 h 0#11 0#4 0#6 0#10 0#7 0#16 (0#30 ++ n))
  | .mmerge h ti kk np tag topk dao cl =>
      some (mWord 0x012#9 h (0#8 ++ bit cl ++ bit dao ++ bit topk) ti 0#6 0#10 0#7 (kk ++ np ++ 0#8) (0#24 ++ tag))
  | .descStep h o => some (descWord 0x018#9 h o)
  | .descWalk h o => some (descWord 0x019#9 h o)
  | .descPath h vr => some (mWord 0x01A#9 h 0#11 0#4 0#6 vr 0#7 0#16 0#32)
  | .descPathLoad h vr => some (mWord 0x01A#9 h 1#11 0#4 0#6 vr 0#7 0#16 0#32)
  | .descGroup h gc a b vr keys spill bias g1 cap =>
      some (word 2#3 0x01B#9 h (0#8 ++ bit bias ++ bit spill ++ bit keys) (matrixBody 0#5 0#5 gc 0#4 a b vr 0#7 g1 (0#16 ++ cap)))
  | .vadd h o b r => some (vecWord 0x000#9 h r 0#4 false o b 0#10)
  | .vsub h o b r => some (vecWord 0x001#9 h r 0#4 false o b 0#10)
  | .vmul h o b r => some (vecWord 0x002#9 h r 0#4 false o b 0#10)
  | .vfma h o b vc r => some (vecWord 0x003#9 h r 0#4 false o b vc)
  | .vfms h o b vc r => some (vecWord 0x004#9 h r 0#4 false o b vc)
  | .vmin h o b => some (vecWord 0x005#9 h .rne 0#4 false o b 0#10)
  | .vmax h o b => some (vecWord 0x006#9 h .rne 0#4 false o b 0#10)
  | .vabs h o => some (unWord 0x007#9 h .rne false o)
  | .vneg h o => some (unWord 0x008#9 h .rne false o)
  | .vrcp h o r => some (unWord 0x009#9 h r false o)
  | .vrsq h o r => some (unWord 0x00A#9 h r false o)
  | .vsqrt h o r => some (unWord 0x00B#9 h r false o)
  | .vdiv h o b r => some (vecWord 0x00C#9 h r 0#4 false o b 0#10)
  | .vexp2 h o r => some (unWord 0x00D#9 h r false o)
  | .vlog2 h o r => some (unWord 0x00E#9 h r false o)
  | .vtanh h o r => some (unWord 0x00F#9 h r false o)
  | .vsigm h o r => some (unWord 0x010#9 h r false o)
  | .vcmp h m a b mk z cc => some (vecWord 0x011#9 h .rne (ccCode cc) false { vd := mfield m, va := a, msk := mk, z := z } b 0#10)
  | .vsel h d a b mk => some (vecWord 0x012#9 h .rne 0#4 false { vd := d, va := a, msk := mk, z := false } b 0#10)
  | .viadd h o b => some (vecWord 0x020#9 h .rne 0#4 false o b 0#10)
  | .visub h o b => some (vecWord 0x021#9 h .rne 0#4 false o b 0#10)
  | .vimul h o b => some (vecWord 0x022#9 h .rne 0#4 false o b 0#10)
  | .vimad h o b vc => some (vecWord 0x023#9 h .rne 0#4 false o b vc)
  | .vand h o b => some (vecWord 0x024#9 h .rne 0#4 false o b 0#10)
  | .vor h o b => some (vecWord 0x025#9 h .rne 0#4 false o b 0#10)
  | .vxor h o b => some (vecWord 0x026#9 h .rne 0#4 false o b 0#10)
  | .vnot h o => some (unWord 0x027#9 h .rne false o)
  | .vshl h o b => some (vecWord 0x028#9 h .rne 0#4 false o b 0#10)
  | .vshr h o b => some (vecWord 0x029#9 h .rne 0#4 false o b 0#10)
  | .vsra h o b => some (vecWord 0x02A#9 h .rne 0#4 false o b 0#10)
  | .vbfx h o f sx => some (vecWord 0x02B#9 h .rne 0#4 sx o f 0#10)
  | .vbfi h o f vc => some (vecWord 0x02C#9 h .rne 0#4 false o f vc)
  | .vpopc h o => some (unWord 0x02D#9 h .rne false o)
  | .vclz h o => some (unWord 0x02E#9 h .rne false o)
  | .vfshl h o vb n => some (funnelWord 0x030#9 h o vb n)
  | .vfshr h o vb n => some (funnelWord 0x031#9 h o vb n)
  | .vcvtI2f h o u r => some (unWord 0x038#9 h r u o)
  | .vcvtF2i h o u r => some (unWord 0x039#9 h r u o)
  | .vidot4 h o b vc ua ub => some (vecWord 0x040#9 h .rne (0#2 ++ bit ub ++ bit ua) false o b vc)
  | .vidot8 h o b vc ua ub => some (vecWord 0x041#9 h .rne (0#2 ++ bit ub ++ bit ua) false o b vc)
  | .vredr h d a mk op r => some (vWord 0x048#9 h (rndCode r ++ redCode op ++ 0#4) d a 0#10 0#10 0#6 mk 0#14 0#32)
  | .vredc h d a mk op r => some (vWord 0x049#9 h (rndCode r ++ redCode op ++ 0#4) d a 0#10 0#10 0#6 mk 0#14 0#32)
  | .vrotr h o ss imm => some (vWord 0x04A#9 h (0#10 ++ bit o.z) o.vd o.va 0#10 0#10 ss o.msk 0#14 imm)
  | .vrotc h o ss imm => some (vWord 0x04B#9 h (0#10 ++ bit o.z) o.vd o.va 0#10 0#10 ss o.msk 0#14 imm)
  | .vbcr h o ss imm => some (vWord 0x04C#9 h (0#10 ++ bit o.z) o.vd o.va 0#10 0#10 ss o.msk 0#14 imm)
  | .vbcc h o ss imm => some (vWord 0x04D#9 h (0#10 ++ bit o.z) o.vd o.va 0#10 0#10 ss o.msk 0#14 imm)
  | .vscanr h d a mk op r ex => some (vWord 0x04E#9 h (rndCode r ++ redCode op ++ bit ex ++ 0#3) d a 0#10 0#10 0#6 mk 0#14 0#32)
  | .viota h d pat imm mk z =>
      some (vWord 0x058#9 h (0#3 ++ ((match pat with | .lane => 0#4 | .row => 1#4 | .col => 2#4) : BitVec 4) ++ 0#3 ++ bit z)
        d 0#10 0#10 0#10 0#6 mk 0#14 imm)
  | .vmov h d b mk z => some (vecWord 0x059#9 h .rne 0#4 false { vd := d, va := 0#10, msk := mk, z := z } b 0#10)
  | .vmovs h d ss lane => some (vWord 0x05A#9 h 0#11 d 0#10 0#10 0#10 ss 0#4 lane 0#32)
  | .vext h ss a lane sx => some (vWord 0x05B#9 h (0#7 ++ bit sx ++ 0#3) 0#10 a 0#10 0#10 ss 0#4 lane 0#32)
  | .vperm h o b => some (vecWord 0x05C#9 h .rne 0#4 false o b 0#10)
  | .vsortc h d a vc n ss mk => some (vWord 0x05D#9 h 0#11 d a 0#10 vc ss mk n 0#32)
  | .vmand h m a b => some (vWord 0x060#9 h 0#11 (mfield m) (mfield a) (mfield b) 0#10 0#6 0#4 0#14 0#32)
  | .vmor h m a b => some (vWord 0x061#9 h 0#11 (mfield m) (mfield a) (mfield b) 0#10 0#6 0#4 0#14 0#32)
  | .vmxor h m a b => some (vWord 0x062#9 h 0#11 (mfield m) (mfield a) (mfield b) 0#10 0#6 0#4 0#14 0#32)
  | .vmnot h m a => some (vWord 0x063#9 h 0#11 (mfield m) (mfield a) 0#10 0#10 0#6 0#4 0#14 0#32)
  | .vmpopc h ss a => some (vWord 0x064#9 h 0#11 0#10 (mfield a) 0#10 0#10 ss 0#4 0#14 0#32)
  | .vmff h ss a => some (vWord 0x065#9 h 0#11 0#10 (mfield a) 0#10 0#10 ss 0#4 0#14 0#32)
  | .vst h r fmt cvt mk idx => some (runWord 4#3 0x000#9 h (cvtCode cvt) fmt mk r (idxCode idx))
  | .vstAmx h r fmt rnd amx idx => some (runWord 4#3 0x001#9 h (rndCode rnd) fmt (0#1 ++ amx) r (idxCode idx))
  | .vstAmxDrain h base off amx =>
      some (runWord 4#3 0x001#9 h 0#3 .fp32 (0#1 ++ amx) { reg := 0#10, base := base, index := 0#6, rep := 0#16, step := 0#24, off := off } 3#2)
  | .vsct h va vb ss mk imm fmt cvt =>
      some (word 4#3 0x002#9 h (cvtCode cvt ++ fmtCode fmt ++ 0#4) (vectorBody 0#10 va vb 0#10 ss mk 0#14 imm))
  | .epi h a b vr cnt fmt cvt act cols imm bias scale =>
      some (word 4#3 0x008#9 h (0#9 ++ bit scale ++ bit bias)
        (matrixBody 0#5 0#5 0#5 0#4 a b vr cnt
          (cols ++ ((match act with | .none => 0#2 | .relu => 1#2 | .tanh => 2#2 | .sigm => 3#2) : BitVec 2) ++ cvtCode cvt ++ fmtCode fmt)
          imm))
  | .stf h r fmt cvt mk => some (runWord 4#3 0x010#9 h (cvtCode cvt) fmt mk r 0#2)
  | .fence e h sc => some (comWord e 0x1C0#9 h 0#11 0#6 0#6 0#6 0#6 (0#5 ++ scopeCode sc) 0#64)
  | .mark e h => some (comWord e 0x1C1#9 h 0#11 0#6 0#6 0#6 0#6 0#8 0#64)
  | .barInit e h a b c imm sc tag wire =>
      some (comWord e 0x1C8#9 h (0#10 ++ bit wire) 0#6 a b c (0#2 ++ tag ++ scopeCode sc) imm)
  | .barInitInv e h a imm => some (comWord e 0x1C8#9 h 2#11 0#6 a 0#6 0#6 0#8 imm)
  | .barArv e h d a imm => some (comWord e 0x1C9#9 h 0#11 d a 0#6 0#6 0#8 imm)
  | .barArvx e h d a b imm => some (comWord e 0x1CA#9 h 0#11 d a b 0#6 0#8 imm)
  | .barWait e h pd a b imm => some (comWord e 0x1CB#9 h 0#11 (pfield pd) a b 0#6 0#8 imm)
  | .barTest e h d a imm => some (comWord e 0x1CC#9 h 0#11 d a 0#6 0#6 0#8 imm)
  | .ringWf e h d g n far => some (ringWord e 0x1D0#9 h d g n far)
  | .ringWe e h d g n far => some (ringWord e 0x1D1#9 h d g n far)
  | .ringWeLoad e h d g b => some (comWord e 0x1D1#9 h 2#11 d 0#6 b 0#6 (0#3 ++ g) 0#64)
  | .ringClm e h d g n far => some (ringWord e 0x1D2#9 h d g n far)
  | .ringPub e h d g n far => some (ringWord e 0x1D3#9 h d g n far)
  | .ringPop e h d g n far => some (ringWord e 0x1D4#9 h d g n far)
  | .qpop e h d q => some (comWord e 0x1D8#9 h 0#11 d 0#6 0#6 0#6 (0#5 ++ q) 0#64)
  | .qpopP e h pd q => some (comWord e 0x1D9#9 h 0#11 (pfield pd) 0#6 0#6 0#6 (0#5 ++ q) 0#64)
  | .trap e h code => some (comWord e 0x1F0#9 h 0#11 0#6 0#6 0#6 0#6 0#8 (0#48 ++ code))
  | .nop h => some (ctlWord 0x000#9 h false 0#6 0#6 0#4 0#32 0#32)
  | .br h t => some (branchWord 0x001#9 h t)
  | .brc h a b cc disp => some (ctlWord 0x002#9 h false a b (ccCode cc) disp 0#32)
  | .call h t => some (branchWord 0x003#9 h t)
  | .ret h => some (ctlWord 0x004#9 h false 0#6 0#6 0#4 0#32 0#32)
  | .loop h a disp => some (ctlWord 0x005#9 h false a 0#6 0#4 disp 0#32)
  | .halt h => some (ctlWord 0x006#9 h false 0#6 0#6 0#4 0#32 0#32)
  | .launch h a q => some (ctlWord 0x008#9 h false a 0#6 0#4 0#32 (0#29 ++ q))
  | .launchNw h a q => some (ctlWord 0x009#9 h false a 0#6 0#4 0#32 (0#29 ++ q))
  | .ckpt h idx => some (ctlWord 0x00A#9 h false 0#6 0#6 0#4 0#32 (0#16 ++ idx))
  | .yield h idx => some (ctlWord 0x00B#9 h false 0#6 0#6 0#4 0#32 (0#16 ++ idx))
  | .queueTimeout _ _ | .ckptTimeout _ | .deferredTrap _ _ | .copyLand _ _ _ _ | .xchgAccept _ | .bWindowLoad _
  | .tileCommandComplete _ | .partialDeliver _ | .mergePartials _ | .tileRelocate _ _ | .relocatedTileReturn _ _
  | .atomicPerform _ _ | .barWaitRelease _ _ | .pageWalk _ _ | .iterationStart _ | .iterationEnd _ | .cellAssign
  | .tguTakeEntry | .recordIssue _ | .walkerGiveBack | .agingStep | .recordComplete _ | .stealProbe _
  | .stealPauseExpire | .stealAnswer _ | .stealGrant _ | .stealReport _ _ _ | .lqTail _ _ | .tguCancel _
  | .preemptReq _ _ | .preemptQuiesce _ | .peerAccess _ | .poolAccess _ | .ownRevoke _ _ | .switchFail _
  | .switchRebuildDone _ | .stfFlagUpdate _ | .dfreeze _ | .sreJobStart _ | .sreJobComplete _ | .hostBarWrite _ _ _
  | .hostBarRead _ _ _ | .registerWrite _ _ | .start _ | .startTimeout _ | .bootRestart | .bootClearFails
  | .bootRestartMinimal | .recBegin | .recPiece | .recCommit | .recAbort | .attReport | .attCert | .evqHead _
  | .pwrRun | .pwrIdle | .pwrStandby | .pwrOff | .pwrExitDone | .pwrLimit _ | .powerSample _ _ _ _
  | .telemetryRefresh _ | .scrubUnit _ | .supplyRemoved | .accessPerformed _ _ _ | .tileCommandStart _
  | .barrierOperation _ _ | .ringFarOperation _ _ | .ownershipRequest _ _ _ | .switchRepair _
  | .peerLeavesService _ | .peerReturnsToService _ | .resetPinAsserted => none

end Sys2Proof
end

