-- ==== Sys2Proof/Config.lean ====
section
/-! DEFINITION. What one device fixes once (00 R3) and the values that the manual leaves to the
vendor's cryptography (18 R428, R433, R434): these have no body, so no proof can see them
(assumption log 10). -/

namespace Sys2Proof.Config

/-- Logical cells of a device, 0–79 (R3). -/
def cells : Nat := 80
/-- Bytes of one scratchpad slice, 8 MiB (R3). -/
def sliceBytes : Nat := 0x800000
/-- Lanes of one vector register (R130). -/
def lanes : Nat := 1024
/-- Vector registers of a cell (R3). -/
def vregs : Nat := 640
/-- Tiles of the result ring (R234). -/
def tiles : Nat := 16
/-- Entries of each token counter (R19). -/
def tokenDepth : Nat := 32
/-- Entries of each scalar data queue (R24). -/
def queueDepth : Nat := 16
/-- Entries of the broadcast condition queue (R18). -/
def condDepth : Nat := 128
/-- Entries of a return-address stack (R126). -/
def stackDepth : Nat := 64
/-- Copy commands of a cell accepted and not complete (R203). -/
def copyDepth : Nat := 128
/-- Commands of the array command queue (R238). -/
def arrayQueue : Nat := 4
/-- Partial tiles of a cluster's merge buffer (R242). -/
def mergeDepth : Nat := 8
/-- Records the TGU holds parked (R340). -/
def parkedMax : Nat := 4096
/-- Sync lines of a half, SRAM and overflow (R287). -/
def syncLines : Nat := 1114112
/-- Jobs one stack reduction engine queues (R411). -/
def sreDepth : Nat := 8
/-- Ownership tokens a device holds (R399). -/
def tokensMax : Nat := 64
/-- Bytes of a supervisor memory, 256 KiB (R369). -/
def superBytes : Nat := 0x40000
/-- Bytes of an ownership region and of a pool granule, 2 MiB (R393, R399). -/
def granule : Nat := 0x200000

/-- SHA3-256 of a byte string, as 32 bytes (R428, R433): vendor cryptography, no value assumed. -/
opaque sha3 : List Byte → BitVec 256
/-- The ML-DSA-65 signature made with the device's identity key (R433, R434). -/
opaque identitySign : BitVec 256 → List Byte
/-- Whether an ML-DSA-65 signature of a digest verifies under the vendor key (R428, R432). -/
opaque vendorVerifies : BitVec 256 → List Byte → Bool
/-- SHA3-256 of the identity public key (R434). -/
opaque identityKeyDigest : BitVec 256
/-- The digest of the fuse configuration recorded first in the measurement log (R433). -/
opaque fuseDigest : BitVec 256

/-- One image of an image set: its digest in the manifest, and its place and length in the set (R428, R432). -/
structure ImageEntry where
  digest : BitVec 256
  off : Nat
  len : Nat
deriving DecidableEq, Repr, Inhabited

/-- What a manifest says; its byte layout is the vendor's (R428). The images stand in the order MC,
HBM training, supervisor, fabric (R430). -/
structure Manifest where
  version : BitVec 32
  len : Nat
  signature : List Byte
  images : List ImageEntry
deriving DecidableEq, Repr, Inhabited

/-- The manifest at the front of an image set; `none` where the bytes hold none (R428, R432). -/
opaque manifest : List Byte → Option Manifest
/-- The size of one image set in boot flash (R432). -/
opaque imageSetSize : Nat
/-- The bytes of the identity certificate (R433). -/
opaque certificate : List Byte
/-- The supervisor memory that the supervisor-core image sets up (R428, R369): bytes of all 80 cores. -/
opaque supervisorImage : List Byte → List Byte
/-- CTX_BASE ÷ 64 KiB as the management firmware writes it at start-up (R360, R428): the manual names the act
and not the value (assumption log 13). -/
opaque firmwareCtxBase : BitVec 23
/-- The cause with which CTX.RESUME.end ends an iteration when no engine of the cell has a trap record (R377): the
manual gives none. The argument counts the free values drawn (assumption log 14). -/
opaque endCause : Nat → BitVec 8
/-- Which of the free ranges of a switch POOL.ALLOC takes (R396): the manual leaves it to the allocator. The argument
counts the free values drawn (assumption log 14). -/
opaque poolChoice : Nat → Nat

end Sys2Proof.Config
end

