-- ==== Sys2Proof/Machine/Tab.lean ====
section
/-! DEFINITION. Sparse tables: lists of (key, value) pairs in one canonical form, keys strictly rising and
no value equal to the default. Memory, register files and every other indexed store use them, so that equal
contents are equal data. -/

namespace Sys2Proof.Machine

/-- The value at a key; a key that is not listed holds the default. -/
def tabGet {α : Type} (d : α) : List (Nat × α) → Nat → α
  | [], _ => d
  | (j, v) :: r, k => if j = k then v else tabGet d r k

/-- The entries of a run of values that starts at key a, defaults left out. -/
def tabRun {α : Type} [DecidableEq α] (d : α) : Nat → List α → List (Nat × α)
  | _, [] => []
  | a, v :: r => if v = d then tabRun d (a + 1) r else (a, v) :: tabRun d (a + 1) r

/-- The table with a run of values stored from key a upwards. -/
def tabSplice {α : Type} [DecidableEq α] (d : α) (t : List (Nat × α)) (a : Nat) (vs : List α) : List (Nat × α) :=
  t.filter (fun e => decide (e.1 < a)) ++ tabRun d a vs ++ t.filter (fun e => decide (a + vs.length ≤ e.1))

/-- The table with one value stored. -/
def tabSet {α : Type} [DecidableEq α] (d : α) (t : List (Nat × α)) (k : Nat) (v : α) : List (Nat × α) :=
  tabSplice d t k [v]

/-- The table with every key in [a, a + n) back at its default. -/
def tabClear {α : Type} (t : List (Nat × α)) (a n : Nat) : List (Nat × α) :=
  t.filter fun e => decide (e.1 < a) || decide (a + n ≤ e.1)

/-- Keys strictly rise and no entry holds the default. -/
def tabWf {α : Type} [DecidableEq α] (d : α) : List (Nat × α) → Bool
  | [] => true
  | [(_, v)] => decide (v ≠ d)
  | (j, v) :: (k, w) :: r => decide (v ≠ d) && decide (j < k) && tabWf d ((k, w) :: r)

/-- The values at n keys from a upwards. -/
def tabRead {α : Type} (d : α) (t : List (Nat × α)) (a n : Nat) : List α :=
  (List.range n).map fun i => tabGet d t (a + i)

/-- The little-endian number of a byte list. -/
def leNat : List Byte → Nat
  | [] => 0
  | b :: r => b.toNat + 256 * leNat r

/-- The n lowest bytes of a number, little-endian. -/
def leBytes : Nat → Nat → List Byte
  | 0, _ => []
  | n + 1, x => BitVec.ofNat 8 x :: leBytes n (x / 256)

/-- The first element of a list that a test accepts, with its place. -/
def findIdx? {α : Type} (p : α → Bool) : List α → Option Nat
  | [] => none
  | x :: r => if p x then some 0 else (findIdx? p r).map (· + 1)

/-- A list with the element at one place replaced. -/
def setAt {α : Type} : List α → Nat → α → List α
  | [], _, _ => []
  | _ :: r, 0, v => v :: r
  | x :: r, n + 1, v => x :: setAt r n v

/-- A list without the element at one place. -/
def dropAt {α : Type} : List α → Nat → List α
  | [], _ => []
  | _ :: r, 0 => r
  | x :: r, n + 1 => x :: dropAt r n

/-- Round up to a multiple. -/
def roundUp (n m : Nat) : Nat := (n + m - 1) / m * m

/-- Integer ceiling of a quotient. -/
def ceilDiv (n m : Nat) : Nat := (n + m - 1) / m

end Sys2Proof.Machine
end

