-- ==== Sys2Proof/Machine/Num.lean ====
section
/-! DEFINITION. Number formats, rounding and the helpers of 03 (R73–R92): exact values as rationals, one
rounding to a format, saturation, narrowing and the FP32 operations that the engines share. -/

namespace Sys2Proof.Machine

/-- An exact value: a NaN with a sign, an infinity, or ± num ÷ den with den > 0 (R86). -/
inductive FVal
  | nan (neg : Bool)
  | inf (neg : Bool)
  | fin (neg : Bool) (num den : Nat)
deriving DecidableEq, Repr

/-- One group of sticky flags: NV 4, DZ 3, OF 2, UF 1, NX 0 (R34). -/
abbrev Flags := BitVec 5
def flNV : Flags := 16#5
def flDZ : Flags := 8#5
def flOF : Flags := 4#5
def flUF : Flags := 2#5
def flNX : Flags := 1#5

/-- A result with the flags it sets and its count of saturations (R92). -/
structure Res (α : Type) where
  val : α
  fl : Flags := 0#5
  sat : Nat := 0
deriving DecidableEq, Repr

/-- Parameters of a floating format: exponent bits, fraction bits (R75). -/
structure FPar where
  eb : Nat
  fb : Nat
  /-- significand field of the largest finite value in its top binade -/
  maxFrac : Nat
  maxExp : Nat
  hasInf : Bool
deriving DecidableEq, Repr

/-- The table of R75 and R76; integer formats and CB4 have none and take FP32's row. -/
def fpar : Fmt → FPar
  | .bf16 => { eb := 8, fb := 7, maxFrac := 127, maxExp := 254, hasInf := true }
  | .fp16 => { eb := 5, fb := 10, maxFrac := 1023, maxExp := 30, hasInf := true }
  | .e4m3 => { eb := 4, fb := 3, maxFrac := 6, maxExp := 15, hasInf := false }
  | .e5m2 => { eb := 5, fb := 2, maxFrac := 3, maxExp := 30, hasInf := true }
  | _ => { eb := 8, fb := 23, maxFrac := 8388607, maxExp := 254, hasInf := true }

/-- The exponent bias. -/
def FPar.bias (f : FPar) : Nat := 2 ^ (f.eb - 1) - 1

/-- The exponent of the smallest normal value. -/
def FPar.emin (f : FPar) : Int := 1 - (f.bias : Int)

/-- Bits of an element (R73). -/
def fmtBits : Fmt → Nat
  | .fp32 | .int32 => 32
  | .bf16 | .fp16 => 16
  | .cb4 | .int4 => 4
  | _ => 8

/-- ± m × 2^x. -/
def dyadic (neg : Bool) (m : Nat) (x : Int) : FVal :=
  if x ≥ 0 then .fin neg (m * 2 ^ x.toNat) 1 else .fin neg m (2 ^ (-x).toNat)

/-- The largest finite value of a format. -/
def maxFin (f : FPar) (neg : Bool) : FVal :=
  dyadic neg (2 ^ f.fb + f.maxFrac) ((f.maxExp : Int) - f.bias - f.fb)

/-- The exact value of a bit pattern of a floating format (R75, R76). -/
def floatValue (f : FPar) (b : Nat) : FVal :=
  let fr := b % 2 ^ f.fb
  let ex := b / 2 ^ f.fb % 2 ^ f.eb
  let neg := b / 2 ^ (f.fb + f.eb) % 2 = 1
  if f.hasInf && ex = 2 ^ f.eb - 1 then (if fr = 0 then .inf neg else .nan neg)
  else if !f.hasInf && ex = 2 ^ f.eb - 1 && fr = 2 ^ f.fb - 1 then .nan neg
  else if ex = 0 then dyadic neg fr (f.emin - f.fb)
  else dyadic neg (2 ^ f.fb + fr) ((ex : Int) - f.bias - f.fb)

/-- Two's complement of the low n bits. -/
def sextNat (n b : Nat) : Int :=
  let b := b % 2 ^ n
  if b < 2 ^ (n - 1) then (b : Int) else (b : Int) - 2 ^ n

/-- The integer that an element of an integer format encodes (R78). -/
def intElem (f : Fmt) (b : Nat) : Int :=
  match f with
  | .uint8 => ((b % 256 : Nat) : Int)
  | f => sextNat (fmtBits f) b

/-- An integer as an exact value; zero is +0. -/
def intVal (i : Int) : FVal := .fin (decide (i < 0)) i.natAbs 1

/-- Value(b, f) with a codebook for CB4 (R86, R79). -/
def value (f : Fmt) (cb : List (BitVec 16)) (b : Nat) : FVal :=
  if f.floating then floatValue (fpar f) b
  else match f with
    | .cb4 => floatValue (fpar .bf16) ((cb.getD (b % 16) 0#16).toNat)
    | f => intVal (intElem f b)

/-- The value of an FP32 lane. -/
def value32 (x : Lane) : FVal := floatValue (fpar .fp32) x.toNat

/-- floor(log2 (n ÷ d)) for n, d > 0. -/
def flog2 (n d : Nat) : Int :=
  let e : Int := (Nat.log2 n : Int) - (Nat.log2 d : Int)
  let below := if e ≥ 0 then decide (n < d * 2 ^ e.toNat) else decide (n * 2 ^ (-e).toNat < d)
  if below then e - 1 else e

/-- Mix of R83. -/
def mix (z : Word) : Word :=
  let z := (z ^^^ (z >>> 30)) * 0xBF58476D1CE4E5B9#64
  let z := (z ^^^ (z >>> 27)) * 0x94D049BB133111EB#64
  z ^^^ (z >>> 31)

/-- RsrBits of R83. -/
def rsrBits (seed c : Word) : Nat := ((mix (seed + mix (c + 0x9E3779B97F4A7C15#64))) >>> 32).toNat

/-- A rounding mode with the seed and coordinate that RSR draws from (R83, R84). -/
structure Rm where
  mode : Rnd
  seed : Word
  c : Word
deriving DecidableEq, Repr

/-- Round to nearest even, with no random bits. -/
def rmRne : Rm := { mode := .rne, seed := 0#64, c := 0#64 }

/-- Whether a significand lo + rem ÷ d rounds up (R86). -/
def roundsUp (m : Rm) (neg : Bool) (lo rem d : Nat) : Bool :=
  match m.mode with
  | .rne => decide (2 * rem > d) || (decide (2 * rem = d) && decide (lo % 2 = 1))
  | .rtz => false
  | .rdn => decide (rem > 0) && neg
  | .rup => decide (rem > 0) && !neg
  | .rsr => decide (rsrBits m.seed m.c * d < rem * 2 ^ 32)

/-- |num ÷ den| cut at spacing 2^q: (floor, remainder, divisor). -/
def cutAt (num den : Nat) (q : Int) : Nat × Nat × Nat :=
  let n := if q ≥ 0 then num else num * 2 ^ (-q).toNat
  let d := if q ≥ 0 then den * 2 ^ q.toNat else den
  (n / d, n % d, d)

/-- Round(x, f, mode, c) of R86. -/
def roundTo (x : FVal) (f : FPar) (m : Rm) : Res FVal :=
  match x with
  | .fin neg num den =>
    if num = 0 then { val := x }
    else
      let e := flog2 num den
      let q := max e f.emin - f.fb
      let (lo, rem, d) := cutAt num den q
      let y := if roundsUp m neg lo rem d then lo + 1 else lo
      let tiny := decide (e < f.emin)
      { val := dyadic neg y q
        fl := (if rem > 0 then flNX else 0) ||| (if rem > 0 && tiny then flUF else 0) }
  | x => { val := x }

/-- |x| > |y| for finite values. -/
def magGt : FVal → FVal → Bool
  | .fin _ a b, .fin _ c d => decide (a * d > c * b)
  | _, _ => false

/-- The sign of a value. -/
def FVal.neg : FVal → Bool
  | .nan n | .inf n | .fin n _ _ => n

/-- Whether a value is zero of either sign. -/
def FVal.isZero : FVal → Bool
  | .fin _ n _ => decide (n = 0)
  | _ => false

/-- Whether a value is a NaN. -/
def FVal.isNan : FVal → Bool
  | .nan _ => true
  | _ => false

/-- Whether a value is finite. -/
def FVal.isFin : FVal → Bool
  | .fin _ _ _ => true
  | _ => false

/-- The value with its sign replaced. -/
def FVal.withNeg (n : Bool) : FVal → FVal
  | .nan _ => .nan n
  | .inf _ => .inf n
  | .fin _ a b => .fin n a b

/-- Saturate of R86: narrowing only. -/
def saturate (r : Res FVal) (f : FPar) : Res FVal :=
  if magGt r.val (maxFin f false) then
    { val := maxFin f r.val.neg, fl := r.fl ||| flOF ||| flNX, sat := r.sat + 1 }
  else r

/-- Finish32 of R86: FP32 register results only. -/
def finish32 (r : Res FVal) (mode : Rnd) : Res FVal :=
  if magGt r.val (maxFin (fpar .fp32) false) then
    let neg := r.val.neg
    let keep := mode == .rtz || (mode == .rdn && !neg) || (mode == .rup && neg)
    { r with val := if keep then maxFin (fpar .fp32) neg else .inf neg, fl := r.fl ||| flOF ||| flNX }
  else r

/-- Bits(y, f) of R86, for a representable y. -/
def fEncode (f : FPar) (y : FVal) : Nat :=
  let sgn (n : Bool) := if n then 2 ^ (f.fb + f.eb) else 0
  match y with
  | .nan n => sgn n + (if f.hasInf then (2 ^ f.eb - 1) * 2 ^ f.fb + 2 ^ (f.fb - 1) else 2 ^ (f.fb + f.eb) - 1)
  | .inf n => sgn n + (2 ^ f.eb - 1) * 2 ^ f.fb
  | .fin n num den =>
    if num = 0 then sgn n
    else
      let e := flog2 num den
      let (mant, _, _) := cutAt num den (max e f.emin - f.fb)
      if e < f.emin then sgn n + mant
      else sgn n + (e + f.bias).toNat * 2 ^ f.fb + (mant - 2 ^ f.fb)

/-- The FP32 lane of a value that fits. -/
def lane32 (y : FVal) : Lane := BitVec.ofNat 32 (fEncode (fpar .fp32) y)

/-- The canonical FP32 NaN with sign 0. -/
def nan32 : Lane := 0x7FC00000#32

/-- A register result: Round to FP32, then Finish32; a NaN is canonical with sign 0 (R77, R87). -/
def toLane (x : FVal) (m : Rm) : Res Lane :=
  match x with
  | .nan _ => { val := nan32 }
  | x =>
    let r := finish32 (roundTo x (fpar .fp32) m) m.mode
    { val := lane32 r.val, fl := r.fl, sat := 0 }

/-! ## Exact operations -/

/-- Sum of finite values as a signed numerator over a common denominator. -/
def addNum (an : Bool) (a b : Nat) (cn : Bool) (c d : Nat) : Int × Nat :=
  let x : Int := (if an then -1 else 1) * ((a * d : Nat) : Int)
  let y : Int := (if cn then -1 else 1) * ((c * b : Nat) : Int)
  (x + y, b * d)

/-- The exact sum, with the zero sign of R87 and R94, and NV for ∞ − ∞. -/
def exactAdd (x y : FVal) (mode : Rnd) : Res FVal :=
  match x, y with
  | .nan _, _ | _, .nan _ => { val := .nan false }
  | .inf a, .inf b => if a = b then { val := .inf a } else { val := .nan false, fl := flNV }
  | .inf a, _ => { val := .inf a }
  | _, .inf b => { val := .inf b }
  | .fin an a b, .fin cn c d =>
    let (s, den) := addNum an a b cn c d
    if s = 0 then
      let n := if a = 0 && c = 0 && an = cn then an else decide (mode = .rdn)
      { val := .fin n 0 1 }
    else { val := .fin (decide (s < 0)) s.natAbs den }

/-- The exact product, with NV for 0 × ∞. -/
def exactMul (x y : FVal) : Res FVal :=
  match x, y with
  | .nan _, _ | _, .nan _ => { val := .nan false }
  | .inf a, .inf b => { val := .inf (a != b) }
  | .inf a, .fin b n _ | .fin b n _, .inf a =>
    if n = 0 then { val := .nan false, fl := flNV } else { val := .inf (a != b) }
  | .fin a n d, .fin b p q => { val := .fin (a != b) (n * p) (d * q) }

/-- The exact quotient: NV for 0 ÷ 0 and ∞ ÷ ∞, DZ for a finite nonzero value over zero. -/
def exactDiv (x y : FVal) : Res FVal :=
  match x, y with
  | .nan _, _ | _, .nan _ => { val := .nan false }
  | .inf _, .inf _ => { val := .nan false, fl := flNV }
  | .inf a, .fin b _ _ => { val := .inf (a != b) }
  | .fin a _ _, .inf b => { val := .fin (a != b) 0 1 }
  | .fin a n d, .fin b p q =>
    if p = 0 then
      if n = 0 then { val := .nan false, fl := flNV } else { val := .inf (a != b), fl := flDZ }
    else { val := .fin (a != b) (n * q) (d * p) }

/-- The negated value. -/
def FVal.negate (x : FVal) : FVal := x.withNeg (!x.neg)

/-- An exact result given to Round and Finish32, keeping the flags already raised. -/
def finishExact (x : Res FVal) (m : Rm) : Res Lane :=
  let r := toLane x.val m
  { val := r.val, fl := x.fl ||| r.fl }

/-- a + b. -/
def fadd (a b : Lane) (m : Rm) : Res Lane := finishExact (exactAdd (value32 a) (value32 b) m.mode) m
/-- a − b. -/
def fsub (a b : Lane) (m : Rm) : Res Lane := finishExact (exactAdd (value32 a) (value32 b).negate m.mode) m
/-- a × b. -/
def fmul (a b : Lane) (m : Rm) : Res Lane := finishExact (exactMul (value32 a) (value32 b)) m
/-- a ÷ b. -/
def fdiv (a b : Lane) (m : Rm) : Res Lane := finishExact (exactDiv (value32 a) (value32 b)) m

/-- a × b + c with one rounding; 0 × ∞ sets NV whatever c is (R137; for SFFMA a choice, assumption log 118). -/
def ffma (a b c : Lane) (negC : Bool) (m : Rm) : Res Lane :=
  let x := value32 a
  let y := value32 b
  let z := if negC then (value32 c).negate else value32 c
  if x.isNan || y.isNan then { val := nan32 }
  else
    let p := exactMul x y
    if p.val.isNan then { val := nan32, fl := p.fl }
    else finishExact (exactAdd p.val z m.mode) m

/-- x < y for numbers. -/
def fvLt : FVal → FVal → Bool
  | .nan _, _ | _, .nan _ => false
  | .inf a, .inf b => a && !b
  | .inf a, .fin _ _ _ => a
  | .fin _ _ _, .inf b => !b
  | .fin an a b, .fin cn c d => decide ((if an then -((a * d : Nat) : Int) else ((a * d : Nat) : Int)) <
      (if cn then -((c * b : Nat) : Int) else ((c * b : Nat) : Int)))

/-- x = y for numbers, −0 equal to +0. -/
def fvEq (x y : FVal) : Bool := !x.isNan && !y.isNan && !fvLt x y && !fvLt y x

/-- FMIN and FMAX: −0 below +0, a lone NaN ignored (R116). -/
def fminmax (isMax : Bool) (a b : Lane) : Lane :=
  let x := value32 a
  let y := value32 b
  if x.isNan && y.isNan then nan32
  else if x.isNan then b
  else if y.isNan then a
  else
    let aBelow := fvLt x y || (fvEq x y && x.neg && !y.neg)
    if aBelow = isMax then b else a

/-! ## Conversions -/

/-- RoundInt of R86: (rounded integer, NX). Infinities and NaNs are the caller's. -/
def roundInt (neg : Bool) (num den : Nat) (m : Rm) : Int × Flags :=
  let lo := num / den
  let rem := num % den
  let n := if roundsUp m neg lo rem den then lo + 1 else lo
  ((if neg then -(n : Int) else (n : Int)), if rem > 0 then flNX else 0)

/-- The range of an integer format (R78). -/
def intRange : Fmt → Int × Int
  | .uint8 => (0, 255)
  | .int4 => (-8, 7)
  | .int8 => (-128, 127)
  | _ => (-2147483648, 2147483647)

/-- SatInt of R86 over a range. -/
def satInt (n lo hi : Int) : Res Int :=
  if n < lo then { val := lo, sat := 1 } else if n > hi then { val := hi, sat := 1 } else { val := n }

/-- A conversion of an exact value to an integer range: NaN gives 0 and NV; a value out of range is
clamped with NV (R90, R110, R142). -/
def toIntRange (x : FVal) (lo hi : Int) (m : Rm) : Res Int :=
  match x with
  | .nan _ => { val := 0, fl := flNV }
  | .inf n => { val := if n then lo else hi, fl := flNV, sat := 1 }
  | .fin n num den =>
    let (v, fl) := roundInt n num den m
    let r := satInt v lo hi
    { r with fl := fl ||| (if r.sat > 0 then flNV else 0) }

/-- NarrowF of R89: one correctly rounded division by the scale. -/
def narrowF (x s : FVal) (f : Fmt) (m : Rm) : Res Nat :=
  let p := fpar f
  if x.isNan || s.isNan then { val := fEncode p (.nan x.neg) }
  else
    match x, s with
    | .inf _, .inf _ => { val := fEncode p (.nan false), fl := flNV }
    | .inf a, .fin b _ _ =>
      let neg := a != b
      if p.hasInf then { val := fEncode p (.inf neg) }
      else { val := fEncode p (maxFin p neg), fl := flOF ||| flNX, sat := 1 }
    | x, s =>
      if x.isZero && s.isZero then { val := fEncode p (.nan false), fl := flNV }
      else if s.isZero then
        { val := fEncode p (maxFin p (x.neg != s.neg)), fl := flDZ ||| flOF ||| flNX, sat := 1 }
      else
        let r := saturate (roundTo (exactDiv x s).val p m) p
        { val := fEncode p r.val, fl := r.fl, sat := r.sat }

/-- The FP32 rule of R90: a scaled value to an integer format. -/
def narrowInt (x s : FVal) (f : Fmt) (m : Rm) : Res Nat :=
  let (lo, hi) := intRange f
  let q := exactDiv x s
  let q : Res FVal := if x.isNan || s.isNan then { val := .nan false } else q
  let r := toIntRange q.val lo hi m
  { val := (r.val % 2 ^ (fmtBits f)).toNat, fl := r.fl ||| q.fl, sat := r.sat }

/-- The INT32 rule of R90: saturation, counted, no flag. -/
def narrowI32 (x : Lane) (f : Fmt) : Res Nat :=
  let (lo, hi) := intRange f
  let r := satInt x.toInt lo hi
  { val := (r.val % 2 ^ (fmtBits f)).toNat, sat := r.sat }

/-- |x − y| as a rational pair, for finite values. -/
def dist (x y : FVal) : Nat × Nat :=
  match x, y with
  | .fin an a b, .fin cn c d =>
    let (s, den) := addNum an a b (!cn) c d
    (s.natAbs, den)
  | _, _ => (0, 1)

/-- The nearest table code to a finite q, ties to the lowest code (R91). -/
def nearestCode (cb : List FVal) (q : FVal) : Nat :=
  (cb.zipIdx.foldl (fun (best : Nat × Nat × Nat) e =>
      let (n, d) := dist e.1 q
      if n * best.2.2 < best.2.1 * d then (e.2, n, d) else best)
    (0, dist (cb.getD 0 (.fin false 0 1)) q)).1

/-- The entry of largest magnitude. -/
def maxMag (cb : List FVal) : FVal :=
  cb.foldl (fun m v => if magGt v m then v.withNeg false else m) (.fin false 0 1)

/-- Narrowing to CB4 (R91). Every table value lies infinitely far from an infinite quotient: the code is that of the value
nearest to one just beyond the table on the quotient's side, with OF, NX and a count (assumption log 159). -/
def narrowCb (x s : FVal) (cbBits : List (BitVec 16)) : Res Nat :=
  let cb := cbBits.map fun b => floatValue (fpar .bf16) b.toNat
  let top := maxMag cb
  let q := exactDiv x s
  let q : Res FVal := if x.isNan || s.isNan then { val := .nan false } else q
  match q.val with
  | .nan _ => { val := 0, fl := q.fl ||| flNV }
  | .inf n =>
    { val := nearestCode cb (match top with | .fin _ a b => .fin n (a + b) b | v => v), fl := q.fl ||| flOF ||| flNX, sat := 1 }
  | .fin n a b =>
    let code := nearestCode cb (.fin n a b)
    let beyond := magGt (.fin n a b) top
    { val := code
      fl := q.fl ||| (if beyond then flOF else 0) |||
        (if (dist (cb.getD code (.fin false 0 1)) (.fin n a b)).1 > 0 then flNX else 0)
      sat := if beyond then 1 else 0 }

/-- A codebook is valid: finite entries whose nonzero magnitudes span at most 2^30 (R80). -/
def codebookOk (cb : List (BitVec 16)) : Bool :=
  let vs := cb.map fun b => floatValue (fpar .bf16) b.toNat
  let top := maxMag vs
  vs.all fun v =>
    match v, top with
    | .fin _ a b, .fin _ c d => decide (a = 0) || decide (c * b ≤ a * d * 2 ^ 30)
    | _, _ => false

/-- A stored element from an FP32 value under a scale: floating, CB4 or integer target (R89–R91). -/
def narrow (x s : FVal) (f : Fmt) (cb : List (BitVec 16)) (m : Rm) : Res Nat :=
  if f.floating then narrowF x s f m
  else match f with
    | .cb4 => narrowCb x s cb
    | f => narrowInt x s f m

/-- Widening of an element to a lane (R88, R157): floating formats to FP32, integers to INT32;
FP32 and INT32 unchanged. -/
def widen (f : Fmt) (b : Nat) : Lane :=
  match f with
  | .fp32 | .int32 => BitVec.ofNat 32 b
  | .bf16 | .fp16 | .e4m3 | .e5m2 => lane32 (floatValue (fpar f) b)
  | .cb4 => BitVec.ofNat 32 (b % 16)
  | f => BitVec.ofInt 32 (intElem f b)

/-! ## Special functions (R138)

Irrational results are taken as fixed-point numbers with `fixP` fraction bits, far beyond the 24 bits and
the smallest spacing that a rounding looks at, and rounded once (assumption log 12). -/

/-- Fraction bits of the fixed-point evaluation. -/
def fixP : Nat := 720

/-- Bitwise integer square root of n, of at most `k` bits. -/
def isqrt (n : Nat) : Nat → Nat → Nat
  | 0, r => r
  | k + 1, r => if (r + 2 ^ k) * (r + 2 ^ k) ≤ n then isqrt n k (r + 2 ^ k) else isqrt n k r

/-- Σ x^i ÷ i! at scale 2^fixP, from the last term inwards. -/
def expSeries (x : Nat) : Nat → Nat
  | 0 => 2 ^ fixP
  | k + 1 => expGo x (k + 1) (2 ^ fixP)
where
  /-- Horner steps from term k down to 1. -/
  expGo (x : Nat) : Nat → Nat → Nat
    | 0, acc => acc
    | k + 1, acc => expGo x k (2 ^ fixP + x * acc / 2 ^ fixP / (k + 1))

/-- 2 × atanh(z) at scale 2^fixP for z at the same scale: Σ 2 z^(2i+1) ÷ (2i+1). -/
def atanhSeries (z : Nat) (terms : Nat) : Nat :=
  let z2 := z * z / 2 ^ fixP
  2 * (z * go z2 terms (2 ^ fixP / (2 * terms + 1)) / 2 ^ fixP)
where
  /-- Horner steps of 1 ÷ (2i+1). -/
  go (z2 : Nat) : Nat → Nat → Nat
    | 0, acc => acc
    | k + 1, acc => go z2 k (2 ^ fixP / (2 * k + 1) + z2 * acc / 2 ^ fixP)

/-- ln 2 at scale 2^fixP: 2 atanh(1/3). -/
def ln2Fix : Nat := atanhSeries (2 ^ fixP / 3) 240

/-- e^y at scale 2^fixP for y = ± a at the same scale. -/
def expFix (neg : Bool) (a : Nat) : Nat :=
  let n := a / ln2Fix
  let r := a % ln2Fix
  let v := expSeries r 180
  if neg then 2 ^ fixP * 2 ^ fixP / (v * 2 ^ n) else v * 2 ^ n

/-- The exact or fixed-point value of a special function, with the flags of its corner (R138). -/
def special (op : Nat) (x : FVal) : Res FVal :=
  let one : FVal := .fin false 1 1
  match op, x with
  | _, .nan _ => { val := .nan false }
  | 0, x => exactDiv one x
  | 1, .fin n num den =>
    if num = 0 then { val := .inf n, fl := flDZ }
    else if n then { val := .nan false, fl := flNV }
    else { val := root den num }
  | 1, .inf n => if n then { val := .nan false, fl := flNV } else { val := .fin false 0 1 }
  | 2, .fin n num den =>
    if num = 0 then { val := x } else if n then { val := .nan false, fl := flNV } else { val := root num den }
  | 2, .inf n => if n then { val := .nan false, fl := flNV } else { val := .inf false }
  | 3, .inf n => if n then { val := .fin false 0 1 } else { val := .inf false }
  | 3, .fin n num den =>
    if num % den = 0 then
      if num / den > 200 then { val := dyadic false 1 (if n then -200 else 200) }
      else { val := dyadic false 1 (if n then -((num / den : Nat) : Int) else ((num / den : Nat) : Int)) }
    else
      let i := min (num / den) 200
      let f := (num % den) * 2 ^ fixP / den
      let v := expFix n (f * ln2Fix / 2 ^ fixP)
      { val := if n then .fin false v (2 ^ (fixP + i)) else .fin false (v * 2 ^ i) (2 ^ fixP) }
  | 4, .inf n => if n then { val := .nan false, fl := flNV } else { val := .inf false }
  | 4, .fin n num den =>
    if num = 0 then { val := .inf true, fl := flDZ }
    else if n then { val := .nan false, fl := flNV }
    else
      let e := flog2 num den
      let (a, b) := if e ≥ 0 then (num, den * 2 ^ e.toNat) else (num * 2 ^ (-e).toNat, den)
      if a = b then { val := intVal e }
      else
        let lnm := atanhSeries ((a - b) * 2 ^ fixP / (a + b)) 240
        let s : Int := e * (2 ^ fixP : Nat) + ((lnm * 2 ^ fixP / ln2Fix : Nat) : Int)
        { val := .fin (decide (s < 0)) s.natAbs (2 ^ fixP) }
  | 5, .inf n => { val := .fin n 1 1 }
  | 5, .fin n num den =>
    if num = 0 then { val := x }
    else
      let a := min (num * 2 ^ fixP / den) (150 * 2 ^ fixP)
      let v := expFix false (2 * a)
      { val := .fin n (v - 2 ^ fixP) (v + 2 ^ fixP) }
  | _, .inf n => if n then { val := .fin false 0 1 } else { val := one }
  | _, .fin n num den =>
    if num = 0 then { val := .fin false 1 2 }
    else
      let v := expFix false (min (num * 2 ^ fixP / den) (300 * 2 ^ fixP))
      if n then { val := .fin false (2 ^ fixP) (2 ^ fixP + v) } else { val := .fin false v (2 ^ fixP + v) }
where
  /-- √(a ÷ b): exact where it is rational on this grid, else a point strictly between two grid points,
  which every rounding treats as the exact root. -/
  root (a b : Nat) : FVal :=
    let n := a * b * 2 ^ 400
    let r := isqrt n (Nat.log2 n / 2 + 1) 0
    if r * r = n then .fin false r (b * 2 ^ 200) else .fin false (2 * r + 1) (2 * b * 2 ^ 200)

end Sys2Proof.Machine
end

