-- ==== Sys2Proof/Machine/State.lean ====
section
/-! DEFINITION. The state of one device, as plain data: the cells with their engines, queues, registers, array
and copy engines; memory and its errors; translation caches; barrier objects; the task graph unit; the fabric,
the pool and ownership; the stack reduction engines; the management plane; and the model's own schedule. Every
default below is the value after reset; assumption log 2 names those that the specification does not give. -/

namespace Sys2Proof.Machine

/-- Why the model stops an instruction. Raised where the specification gives no effect at all. -/
inductive Fault
  /-- raised by step: the supervisor core meets a trap of its own, for which the manual describes no entry
  (R369, R370); safe: the machine stops where the hardware's behaviour is not given -/
  | supervisorTrap (cause : BitVec 8) (detail : Nat)
deriving DecidableEq, Repr

/-- Why an instruction has no meaning in the model. -/
inductive Refusal
  /-- raised by exec for an instruction that is not modelled; safe -/
  | notModelled (mnemonic : String)
deriving DecidableEq, Repr

/-! ## Within an engine -/

/-- What an engine waits for (R25 counts `queue` alone; R35 and R233 tell the others apart). -/
inductive Stall
  | none | window | queue | ring | barrier | copies | slots | merge | save | other
  /-- older instructions have not retired, and a trap stands behind them (R36) -/
  | fault
deriving DecidableEq, Repr

/-- The fields of a trap record that depend on the cause (R370). -/
structure TrapRec where
  cause : BitVec 8
  detail : Nat := 0
  deferred : Bool := false
  sys : Bool := false
  x : Bool := false
  idx : Option Nat := none
  pc : Word := 0#64
  addr : Word := 0#64
  code : BitVec 16 := 0#16
  unit : Nat := 0
  /-- the record of R253, or empty -/
  info : List Byte := []
  /-- physical address of an uncorrectable error in memory; `none` for a register file or tile (R435) -/
  phys : Option Nat := none
  /-- the error lies in a translation cache (R435) -/
  cached : Bool := false
  /-- an empty-stack RET: retried although its cause is that of TRAP (R126, R371) -/
  retry : Bool := false
  /-- header of a TRAP or SYSCALL, whose tokens move as it passes (R123) -/
  hdr : Option Hdr := none
deriving DecidableEq, Repr

/-- An agent of R283: an engine of a cell of a device, a unit of a device outside its cells, or the host. -/
structure Agent where
  /-- the device; `none` for the host -/
  dev : Option (BitVec 6)
  /-- the cell; `none` for a unit outside the cells -/
  cell : Option Nat := none
  eng : Eng := .s
deriving DecidableEq, Repr

/-- The scopes at which an atomic acquires and releases (R302). -/
structure Order where
  acq : Option Scope := none
  rel : Option Scope := none
deriving DecidableEq, Repr

/-- A write of one byte under an enable mask: (physical address, enabled bits, value) (R153). -/
abbrev Put := Nat × Byte × Byte

/-- Where a queued load's bytes go. -/
inductive Dest
  /-- a scalar register: bytes, sign extension (R111) -/
  | scalar (r : SReg) (sext : Bool)
  /-- lanes of a vector register: each (lane, place of its element in nibbles from the first byte read); the
  other lanes become zero under z -/
  | lanes (v : VNum) (fmt : Fmt) (raw z : Bool) (els : List (Nat × Nat))
  /-- a descriptor register, with its image as read and checked at issue (R192) -/
  | desc (d : DNum) (image : BitVec 512)
deriving DecidableEq, Repr

/-- An entry of an engine's load and store queues, translated at issue (R113, R301). -/
inductive Access
  | load (pas : List Nat) (dest : Dest)
  /-- a store, with its scope when it is a release -/
  | store (puts : List Put) (rel : Option Scope)
  | mark
  /-- a notifying store's bytes (R406) -/
  | notify (puts : List Put)
  /-- an acquiring load at a scope (R302) -/
  | acquire (pas : List Nat) (dest : Dest) (scope : Scope)
  /-- an atomic: its place in both queues, its keys, operands, destination and order (R115, R302) -/
  | atomic (op : AmoOp) (dbl : Bool) (pas : List Nat) (b c : Word) (rd : SReg) (ord : Order := {})
deriving DecidableEq, Repr

/-- A queued access with its number in the engine, and the first key and virtual address of each of its elements. -/
structure Queued where
  id : Nat
  acc : Access
  places : List (Nat × Word) := []
deriving DecidableEq, Repr

/-- Token pushes that become visible once every earlier access and command has retired (R20). -/
structure Retire where
  stamp : Nat
  rq : Bool
  fq : Bool
deriving DecidableEq, Repr

/-- An instruction that has issued and not passed: a repetition to resume (R47), with the seed that it
read (R85), the instruction address it belongs to, and the instruction, which is not fetched again; `none` after a
context switch. -/
structure Progress where
  pc : Word
  idx : Nat
  seed : Word
  inst : Option Instr := none
deriving DecidableEq, Repr

/-- One engine of a cell, or its supervisor core: R26 gives the registers at an iteration's start. -/
structure EngState where
  pc : Word := 0#64
  /-- step count of R15 -/
  step : Nat := 0
  /-- s1–s63 by number; s0 is never listed -/
  sreg : List (Nat × Word) := []
  /-- p0–p14; bit 15 is not used -/
  preg : BitVec 16 := 0#16
  /-- return-address stack, oldest first (R126) -/
  ras : List Word := []
  halted : Bool := true
  progress : Option Progress := none
  stall : Stall := .none
  /-- the queues that the engine stalls on, each with the cycle in which that stall began (R25): token counters 0–7,
  scalar data queues from 8, the condition queue 16 -/
  stalled : List (Nat × Nat) := []
  /-- an atomic, barrier or .far ring operation on its way (R294, R182) -/
  flight : Option Instr := none
  /-- waiting at LAUNCH or YIELD (R357, R129) -/
  arrived : Bool := false
  /-- S has appended the outcome of the LAUNCH or YIELD at which it waits (R17) -/
  resolved : Bool := false
  /-- entries of the condition queue that this engine has popped and that are still held -/
  condPopped : Nat := 0
  queue : List Queued := []
  retire : List Retire := []
  nextId : Nat := 0
  trap : Option TrapRec := none
  /-- deferred faults not yet raised, oldest first (R206) -/
  deferred : List TrapRec := []
  /-- the retried access after a WATCH trap is not matched (R371) -/
  watchPass : Bool := false
  /-- stopped at the pre-emption target, or by CKPT_TIMEOUT (R380, R382) -/
  stopped : Bool := false
  /-- the cycle in which the engine last acted (R37) -/
  acted : Option Nat := none
  /-- bytes that later loads of the engine have read ahead of their turn: first key, bytes (R301, R305) -/
  ahead : List (Nat × List Byte) := []
  /-- the number of vector-register writes of the cell that are ordered before the engine's next access (R135) -/
  synced : Nat := 0
deriving DecidableEq, Repr

/-! ## Within a cell -/

/-- An entry of the broadcast condition queue: the outcome and, for an indirect branch, the target (R17). -/
structure Cond where
  taken : Bool
  target : Word
deriving DecidableEq, Repr

/-- A ring register (R176): the loaded fields and the three counters. -/
structure Ring where
  cbt : Nat := 0
  scStride : Nat := 0
  smode : Nat := 0
  kmaj : Bool := false
  kext : Nat := 0
  rowsM1 : Nat := 0
  gfmt : Nat := 0
  efmt : Nat := 0
  slotSize : Nat := 0
  nslots : Nat := 0
  cell : Nat := 0
  offset : Nat := 0
  h : BitVec 32 := 0#32
  t : BitVec 32 := 0#32
  k : BitVec 32 := 0#32
deriving DecidableEq, Repr

/-- A result tile: 128 rows of 128 FP32 bit patterns (R234). -/
abbrev Tile := List (List Lane)

/-- The matrix mode in force (R247): rounding and the log base of zero-and-log. -/
structure Mode where
  rnd : Rnd := .rne
  zlog : Option Word := none
deriving DecidableEq, Repr

/-- One block of a topology table as MMA.G read it (R275). -/
structure Block where
  group : Nat
  row0 : Nat
  rows : Nat
  w : Nat
deriving DecidableEq, Repr

/-- What a tile command computes: its tile, or one list per row; flags, the first bad byte that it met with its
physical address, and the counts of R233. -/
structure Computed where
  tile : Tile
  lists : List (Option (List (Lane × Lane))) := []
  fl : Flags := 0#5
  bad : Option (Word × Nat) := none
  entries : Nat := 0
  prods : Nat := 0
  gated : Nat := 0
deriving DecidableEq, Repr

/-- An accepted tile command or descent (R238, R263). -/
structure MCmd where
  id : Nat
  inst : Instr
  /-- address of the instruction -/
  pc : Word
  /-- scalar values read at issue: the two of the layout -/
  sa : Word
  sb : Word
  seq : Nat
  seed : Word
  mode : Mode
  lag : Nat
  /-- tile number -/
  tile : BitVec 32
  /-- rings ga and gb (or gc) as they stand when the command claims: K is the first slot it takes -/
  ra : Ring
  rb : Ring
  /-- whether the claims and holds stand -/
  claimed : Bool := true
  blocks : List Block := []
  /-- biases of the columns read at issue (R278) -/
  bias : List Lane := []
  started : Bool := false
  /-- sibling that runs the command (R250) -/
  sibling : Option Nat := none
  /-- k blocks of B loaded into the window since the start (R231) -/
  loaded : Nat := 0
  /-- the partial has entered the merge buffer (R242) -/
  delivered : Bool := false
  computed : Option Computed := none
  /-- metadata faults found by the pre-pass under zero-and-log, as records of R253 -/
  logs : List (List Byte) := []
deriving DecidableEq, Repr

/-- A partial tile in a cluster's merge buffer (R242), in arrival order. -/
structure Partial where
  asid : BitVec 14
  home : Nat
  tag : BitVec 8
  q : Nat
  p : Nat
  topk : Bool
  tile : Tile
  lists : List (Option (List (Lane × Lane)))
deriving DecidableEq, Repr

/-- An MMERGE that has bound its tag and waits (R243). -/
structure Merge where
  tag : BitVec 8
  tile : BitVec 32
deriving DecidableEq, Repr

/-- A page translated for a copy at issue: virtual address ÷ 2^16, physical address of its first byte, sl bit. -/
abbrev Page := Nat × Nat × Bool

/-- What an exchange reads in another cell of its group (R217): its source descriptor, base and pages. -/
structure XchgSource where
  cell : Nat
  ds : BitVec 512
  base : Word
  pages : List Page
deriving DecidableEq, Repr

/-- An accepted copy command (R203): everything it read at issue, and what has landed. Its units are the positions
of its channel order: elements, or bytes of an encoded image. -/
structure Copy where
  inst : Instr
  ord : Nat
  pc : Word
  /-- bytes issued on the channel before this command -/
  start : Nat := 0
  ds : BitVec 512
  dd : BitVec 512
  sa : Word
  sb : Word
  sx : Word
  /-- the barrier object's physical address -/
  bar : Option Nat := none
  seed : Word := 0#64
  asid : BitVec 14 := 0#14
  /-- header bytes of a Phiry tensor and the directory entry of a tile stream, as read at issue -/
  head : List Byte := []
  entry : List Byte := []
  /-- B of R204, and the units with their size in bits -/
  total : Nat
  units : Nat
  ubits : Nat
  /-- footprints as virtual ranges (base, length): reads, and the write (R219) -/
  reads : List (Nat × Nat)
  write : Nat × Nat
  pages : List Page := []
  /-- units landed as a run from the first, and further ones -/
  lead : Nat := 0
  extra : List Nat := []
  /-- landed units beyond the run that wrote nothing (R208, R215, R216) -/
  blank : List Nat := []
  /-- units of a row whose bytes are rounded up on their own (R216); 0 for none -/
  row : Nat := 0
  landedBytes : Nat := 0
  /-- stopped by a fault, with the record that L will raise (R206) -/
  halted : Bool := false
  /-- order of a SCATTER's rows, tiles encoded, or the directory of an export, kept from the first landing -/
  cache : List (Nat × List Nat) := []
  /-- number of the exchange, and the sources of its group in cell order (R217) -/
  xid : Nat := 0
  srcs : List XchgSource := []
  /-- first unit that met a watch block, and its address (R378) -/
  watched : Option (Nat × Word) := none
  /-- the barrier object's virtual address, for a command that translates it again (R373) -/
  barVa : Word := 0#64
  /-- bytes that L has read ahead at the command's acceptance, which its reads may return (R301, R305) -/
  ahead : List (Nat × List Byte) := []
deriving DecidableEq, Repr

/-- An XCHG.ALL that waits for its group (R218). -/
structure XchgWait where
  half : Bool
  inst : Instr
deriving DecidableEq, Repr

/-- An STF whose flag update has not been performed (R406). -/
structure Stf where
  asid : BitVec 14
  flagVa : Word
  /-- keys of the flag's 8 bytes -/
  flag : List Nat
  /-- number in W past the stores whose bytes must be performed first -/
  stamp : Nat
  /-- the first data byte that its target refuses: its address and the cause (R406, R409) -/
  bad : Option (Word × BitVec 8) := none
  /-- its repetitions have not all issued: a trap stands between them (R47, R408) -/
  issuing : Bool := false
deriving DecidableEq, Repr

/-- The iteration that a cell holds (R344, R386). -/
structure Iter where
  va : Word
  asid : BitVec 14
  pos : Nat
  /-- device whose walker placed it -/
  dev : BitVec 6
  /-- number of the record here, when this device holds it -/
  recId : Option Nat
  ckpt : Word
deriving DecidableEq, Repr

/-- A pending pre-emption request (R379, R380). -/
structure Preempt where
  limit : Nat
  target : Option Nat := none
  /-- checkpoint index of the target -/
  idx : Option (BitVec 16) := none
  since : Nat
  /-- CKPTLIM has passed, and the engines go no further than their stopping points (R382) -/
  timedOut : Bool := false
deriving DecidableEq, Repr

/-- A watch event (R378): channel, ordinal, first matching address. -/
structure WatchEvent where
  channel : BitVec 8
  ord : Nat
  addr : Word
deriving DecidableEq, Repr

/-- The latest write of a vector register: its engine, what the register held before, the lanes that it wrote, and the
write's number in the cell (R29, R135). -/
structure VWrite where
  by' : Eng
  old : List Lane
  lanes : BitVec 1024
  stamp : Nat
deriving DecidableEq, Repr

/-- The latest write of a mask register, likewise. -/
structure MWrite where
  by' : Eng
  old : BitVec 1024
  stamp : Nat
deriving DecidableEq, Repr

/-- What one cycle has set and counted (R34, R93): flags, and saturations. -/
structure Tally where
  cycle : Nat := 0
  flags : BitVec 25 := 0#25
  sat : Nat := 0
deriving DecidableEq, Repr

/-- One cell. -/
structure Cell where
  engS : EngState := {}
  engL : EngState := {}
  engM : EngState := {}
  engV : EngState := {}
  engW : EngState := {}
  sup : EngState := {}
  /-- token counters: 0–3 ready L-M, M-V, V-W, L-V; 4–7 free of the same pairs (R19) -/
  tok : List (Nat × Nat) := []
  /-- pushes reserved and not yet visible (R20) -/
  tokReserved : List (Nat × Nat) := []
  /-- q0–q7, oldest first (R24) -/
  q : List (Nat × List Word) := []
  condq : List Cond := []
  vreg : List (Nat × List Lane) := []
  /-- the latest write of each vector register, and the number of such writes (R29) -/
  vhist : List (Nat × Option VWrite) := []
  vstamp : Nat := 0
  /-- the latest write of each mask register; the writes of both files are numbered together -/
  mhist : List (Nat × Option MWrite) := []
  /-- m0–m14 (R26) -/
  mreg : List (Nat × BitVec 1024) := []
  ring : List (Nat × Ring) := []
  /-- hold counts, keyed ring × 4096 + slot (R277) -/
  hold : List (Nat × Nat) := []
  desc : List (Nat × BitVec 512) := []
  wp : List (Nat × Word) := []
  /-- bytes issued to each channel (R189) -/
  issued : List (Nat × Nat) := []
  /-- ordinals given to each channel's commands -/
  chOrd : List (Nat × Nat) := []
  amx : List (Nat × Lane) := []
  path : List (Nat × Word) := []
  /-- result ring by slot -/
  tiles : List (Nat × Tile) := []
  tF : BitVec 32 := 0#32
  tD : BitVec 32 := 0#32
  closed : BitVec 16 := 0#16
  mcmds : List MCmd := []
  /-- tile commands issued since the iteration began -/
  seq : Nat := 0
  mode : Mode := {}
  lag : Nat := 3
  merges : List Merge := []
  /-- an MMA.G at issue: its table is read, and whether its weight slots are held (R275) -/
  holding : Option (MCmd × Bool) := none
  copies : List Copy := []
  xchg : Option XchgWait := none
  vup : Bool := false
  slipw : BitVec 14 := 0x400#14
  qtimeout : BitVec 32 := 0x1000000#32
  ckptlim : BitVec 32 := 0x100000#32
  fflags : BitVec 25 := 0#25
  satcnt : Word := 0#64
  /-- flags set and saturations counted in the latest cycle that had any (R34, R93) -/
  tally : Tally := {}
  /-- for each ring, the cycle of its latest operation and the rank of its issuer (R182) -/
  ringTurn : List (Nat × Nat × Nat) := []
  seed : Word := 0#64
  watch : List (Nat × Word) := []
  pevsel : List (Nat × BitVec 17) := []
  pcnt : List (Nat × Word) := []
  /-- context that the cell and its slice belong to (R171) -/
  owner : Option (BitVec 14) := none
  iter : Option Iter := none
  /-- iteration placed on the cell and not yet started (R345) -/
  starting : Option Iter := none
  /-- record of the previous iteration, by its device, context and address, for the instruction cache (R53) -/
  lastRec : Option (BitVec 6 × BitVec 14 × Word) := none
  /-- walker reservation for a gang (R347) -/
  reserved : Bool := false
  /-- spill carve-out C (R174) and overflow area (R175) -/
  carve : Nat := 0
  ovfptr : Word := 0#64
  ovflen : BitVec 32 := 0#32
  frozen : Option Nat := none
  supRun : Bool := false
  preempt : Option Preempt := none
  /-- index of the checkpoint at which the cell is quiescent (R375, R381) -/
  ckptIdx : Option (BitVec 16) := none
  watchEvents : List WatchEvent := []
  /-- cached instruction words by virtual address ÷ 16 (R53) -/
  icache : List (Nat × Option InstrWord) := []
  stfs : List Stf := []
  /-- uncorrectable register and ring errors of this start (R436) -/
  uncorr : Nat := 0
  /-- registers and tiles with an uncorrectable error (R435): scalars at 64 × engine + number, vector registers
  at 1000 + number, result-ring slots at 2000 + slot, masks at 3000 + number, predicates at 4000 + 16 × engine + number,
  rings at 5000 + number, descriptors at 6000 + number, write pointers at 7000 + number, path trace words at 8000 + number,
  amx registers at 9000 + number -/
  regErr : List (Nat × Bool) := []
deriving DecidableEq, Repr

/-! ## Translation, barriers -/

/-- A cached translation (R367): context, virtual base, size, physical base and leaf bits. -/
structure Tlb where
  asid : BitVec 14
  va : Nat
  size : Nat
  pa : Nat
  r : Bool
  w : Bool
  x : Bool
  sl : Bool
  /-- the entry has an uncorrectable error (R435) -/
  bad : Bool := false
deriving DecidableEq, Repr

/-- Who waits at a barrier object: an engine of this device, or one of a peer (R292). -/
structure Waiter where
  cell : Nat
  eng : Eng
  phase : BitVec 32
  /-- the device, for a peer's waiter -/
  peer : Option (BitVec 6)
deriving DecidableEq, Repr

/-- A contribution to a tree reduction (R298). -/
structure Contribution where
  target : Nat
  /-- the address that its instruction names -/
  ea : Word := 0#64
  dev : BitVec 6
  cell : Nat
  ordinal : Nat
  /-- counted for the open phase, or early for the next -/
  early : Bool
  val : Lane
  /-- its agent, and the scope of a releasing one, with the first access of its engine after it (R302, R303) -/
  rel : Option (Agent × Scope × Nat) := none
deriving DecidableEq, Repr

/-- A live barrier object (R285). -/
structure Barrier where
  pa : Nat
  phase : BitVec 32
  pending : BitVec 40
  early : Nat
  arrivals : Nat
  expected : Nat
  wire : Bool
  tag : BitVec 3
  scope : BitVec 3
  waiters : List Waiter
  contribs : List Contribution
  /-- who arrived in each phase (R303, R304) -/
  arrivers : List (BitVec 32 × Agent) := []
deriving DecidableEq, Repr

/-- A release on its way to a waiter (R296). -/
structure Release where
  waiter : Waiter
  pa : Nat
  ok : Bool
  /-- the completed phase, or the BAR.INIT that sends the release, synchronises with the waiter (R292, R303, R304) -/
  sync : Bool := false
deriving DecidableEq, Repr

/-! ## The task graph unit -/

/-- The fields of a loop-nest record that the TGU keeps (R335). -/
structure RecFields where
  entry : Word
  params : Word
  ckpt : Word
  spill : Nat
  asid : BitVec 14
  ndim : Nat
  place : Nat
  prio : Nat
  stealable : Bool
  order : Bool
  gang : Nat
  bmode : BitVec 8
  succ : List Word
  bound : List Word
deriving DecidableEq, Repr

/-- Where a record stands (R340–R348). -/
inductive Phase
  | parked | ready | held (walker : Nat) | running
deriving DecidableEq, Repr

/-- A steal grant that has not reported: thief, first position, count (R354). -/
structure Given where
  dev : BitVec 6
  first : Nat
  count : Nat
deriving DecidableEq, Repr

/-- A record that the TGU holds. -/
structure Rec where
  id : Nat
  va : Word
  f : RecFields
  phase : Phase
  issued : Bool := false
  /-- bounds read at issue (R343) -/
  bounds : List Nat := []
  /-- positions not yet placed: next, and end -/
  next : Nat := 0
  last : Nat := 0
  running : Nat := 0
  grants : List Given := []
  /-- cycle since which w of R349 counts, and since which it stands at level 3 -/
  since : Nat := 0
  ready : Nat := 0
  /-- cluster of the group being placed (R346) -/
  group : Option Nat := none
  cancelled : Bool := false
  /-- detail and cause with which it fails (R337, R352) -/
  fail : Option (Nat × Nat) := none
  /-- origin device and record of a stolen range (R354) -/
  origin : Option (BitVec 6 × Word) := none
  /-- first position of the stolen range -/
  base : Nat := 0
deriving DecidableEq, Repr

/-- A launch queue (R338). -/
structure Lq where
  base : Word := 0#64
  size : Word := 0#64
  head : Word := 0#64
  tail : Word := 0#64
  ctl : BitVec 18 := 0#18
deriving DecidableEq, Repr

/-- The steal probe that a walker has out, by its direction, or the end of its pause (R353). -/
structure Probe where
  out : Option Nat := none
  pauseEnd : Option Nat := none
deriving DecidableEq, Repr

/-- What this TGU has sent to another device's TGU (R353, R354, R376). -/
inductive Message
  /-- a steal probe of a walker -/
  | probe (dev : BitVec 6)
  /-- positions granted to a thief -/
  | grant (dev : BitVec 6) (record : Word) (f : RecFields) (bounds : List Nat) (first count : Nat)
  /-- the report of a stolen range to its origin -/
  | report (dev : BitVec 6) (asid : BitVec 14) (record : Word) (first : Nat) (fault : Option Nat)
  /-- the cancel of a record whose positions a thief holds -/
  | cancel (dev : BitVec 6) (record : Word)
  /-- the end of a restored iteration, to the device that placed it -/
  | ended (dev : BitVec 6) (record : Word) (pos : Nat) (fault : Option Nat)
deriving DecidableEq, Repr

/-- The task graph unit. -/
structure Tgu where
  lq : List (Nat × Lq) := []
  age : Word := 0x10000#64
  steal : Word := 0x1000#64
  cancelAsid : BitVec 14 := 0#14
  /-- the queue last served -/
  served : Nat := 7
  recs : List Rec := []
  nextId : Nat := 0
  /-- counts readiness and placements -/
  clock : Nat := 0
  /-- walkers' last placement and the moment their record took them -/
  placed : List (Nat × Nat) := []
  took : List (Nat × Nat) := []
  /-- record that holds the gang reservation (R347) -/
  gang : Option Nat := none
  /-- each walker's probe (R353) -/
  probes : List (Nat × Probe) := []
  /-- messages to other devices, oldest first -/
  sent : List Message := []
  /-- successors that must fail with detail 5, and records to cancel, when they are taken (R342, R351) -/
  doomed : List (BitVec 14 × Word × Nat) := []
  /-- records that it has taken and that failed or were cancelled: it keeps their state itself (R337) -/
  ended : List (BitVec 14 × Word) := []
deriving DecidableEq, Repr

/-! ## Fabric, pool, ownership, stack reduction -/

/-- Health of a pool switch (R398). -/
inductive Health
  | healthy | failed | rebuilding | absent
deriving DecidableEq, Repr

/-- An allocated pool region (R396). -/
structure Region where
  base : Nat
  size : Nat
  tenant : BitVec 12
  mirror : Bool
  lost : Bool := false
deriving DecidableEq, Repr

/-- The pool as the device meets it (R393–R404). -/
structure Pool where
  health : List (Nat × Health) := []
  regions : List Region := []
  quota : List (Nat × Nat) := []
deriving DecidableEq, Repr

/-- A device's state for an ownership region (R399). -/
inductive Own
  | none | held | revoked
deriving DecidableEq, Repr

/-- What this device, as the home of a region, has sent to other devices (R402). -/
inductive OwnMessage
  /-- a revocation, to the holder -/
  | revoke (holder : BitVec 6) (region : Nat)
  /-- the token, to a device that waited for it -/
  | grant (dev : BitVec 6) (region : Nat)
deriving DecidableEq, Repr

/-- Ownership: this device's states by region number, the modified bytes it caches, and the holders that
the homes know. -/
structure Ownership where
  st : List (Nat × Own) := []
  cache : List (Nat × Option Byte) := []
  holder : List (Nat × Option (BitVec 6)) := []
  /-- tenant for which a region is held -/
  tenant : List (Nat × BitVec 12) := []
  /-- acquires that wait at this home for another device's token, by region, in order of arrival (R402) -/
  waiting : List (Nat × List (BitVec 6)) := []
  /-- messages of this home, oldest first -/
  sent : List OwnMessage := []
deriving DecidableEq, Repr

/-- A reduction job (R411). -/
structure Job where
  asid : BitVec 14
  n : Nat
  length : Nat
  dest : Word
  bufs : List Word
  /-- pages of the buffers and of dest as translated at issue -/
  pages : List Page
  /-- keys of the flag's 8 bytes, and its address -/
  flag : List Nat
  flagVa : Word
  fval : Word
  started : Bool := false
  /-- bytes of the buffers that the engine has read ahead of its sums (R305) -/
  ahead : List (Nat × List Byte) := []
deriving DecidableEq, Repr

/-- The fabric block (R408) and the peers (R390). -/
structure Fab where
  ports : BitVec 20 := 0#20
  asid : BitVec 14 := 0#14
  en : Bool := false
  /-- peers out of the pod's service -/
  out : List (Nat × Bool) := []
  /-- whether a peer's own entry accepts an ASID, keyed peer × 2^14 + ASID; `none` where it is like this device's
  entry (R360, R390): given from outside, as the peers' slices are -/
  peerCtx : List (Nat × Option Bool) := []
  /-- the context of a peer's slice, keyed peer × 128 + cell; `none` where it is the requester's -/
  peerSlice : List (Nat × Option (BitVec 14)) := []
deriving DecidableEq, Repr

/-! ## Management -/

/-- A posted or held event (R437): code, source, byte 3, data. -/
structure Event where
  code : BitVec 16
  src : Nat
  unit : BitVec 8
  d0 : Word
  d1 : Word
  cyc : Word
deriving DecidableEq, Repr

/-- Power states of R441. -/
inductive Power
  | run | idle | standby | off
deriving DecidableEq, Repr

/-- Ordering codes (R442). -/
inductive OrderCode
  | c | p | m
deriving DecidableEq, Repr

/-- The power limit of an ordering code at reset, in watts (R442). -/
def OrderCode.watts : OrderCode → BitVec 16
  | .c => 1600#16 | .p => 2000#16 | .m => 2400#16

/-- The management controller, its registers, the boot flash and the fuses (R427–R443). -/
structure Mc where
  set : Bool := false
  state : BitVec 4 := 0#4
  evqBase : Word := 0#64
  evqSize : Word := 0#64
  evqHead : Word := 0#64
  evqTail : Word := 0#64
  evqLost : Word := 0#64
  heldEvents : List Event := []
  counts : List (Nat × Nat) := []
  msix : Nat := 0
  pwrCtl : BitVec 2 := 0#2
  power : Power := .run
  pwrStatus : BitVec 8 := 0#8
  /-- the device's ordering code, a strap (R442) -/
  code : OrderCode := .m
  pwrLimit : BitVec 16 := 2400#16
  exiting : Bool := false
  tripped : Bool := false
  packageTemp : Nat := 0
  attAddr : Word := 0#64
  attStat : BitVec 2 := 0#2
  rsvOwn : Word := 0#64
  rsvSync : Word := 0#64
  clk : Nat := 1250
  slowCycles : Nat := 0
  recArg : Word := 0#64
  recCode : BitVec 8 := 0#8
  /-- the recovery command that the MC acts on (R432) -/
  recBusy : Option Nat := none
  /-- writes of boot flash fail (R432) -/
  flashBad : Bool := false
  recBuf : List Host.Cell := []
  stagedLen : Option Nat := none
  staged : List (Nat × Option Byte) := []
  log : List (List Byte) := []
  tel : List (Nat × Word) := []
  correctedHbm : List (Nat × Nat) := []
  correctedSram : Nat := 0
  uncorrectable : Nat := 0
  scrubPos : List (Nat × Nat) := []
  scrubPasses : Nat := 0
  half : Bool := false
  stack : Nat := 0
  /-- physical cells that minimal mode numbers 0 to 7, as 42 × half + position (R431) -/
  cellMap : List Nat := []
  starting : Bool := false
  minimalAsked : Bool := false
  /-- SPARE_MAP and the spares in use -/
  spares : Word := 0#64
  /-- ports that trained at the last start (R428) -/
  trained : BitVec 20 := 0#20
deriving DecidableEq, Repr

/-- Boot flash and fuses: the only state that outlives the supply (R440). -/
structure Flash where
  fails : BitVec 8 := 0#8
  bootLog : BitVec 48 := 0#48
  /-- physical cells marked for replacement, by 42 × half + position -/
  marks : List (Nat × Bool) := []
  setA : List Byte := []
  setB : List Byte := []
  rollback : BitVec 32 := 0#32
deriving DecidableEq, Repr

/-- What a request from outside the device was answered with. -/
structure Reply where
  ok : Bool := true
  cause : BitVec 8 := 0#8
  data : List Byte := []
deriving DecidableEq, Repr

/-! ## Who moves next -/

/-- A soft error that strikes a place (R435), or a change of the boot flash's health (R432): events of the physical world
that no row of the table names. -/
inductive Upset
  /-- a protected unit of memory -/
  | unit (k : Nat)
  /-- a register, mask or tile of a cell, as `Cell.regErr` numbers them -/
  | reg (c k : Nat)
  /-- an entry of the translation caches -/
  | cached (asid : BitVec 14) (va : Nat)
  /-- a correctable error that a read or the scrubber corrects, in HBM or in SRAM -/
  | corrected (k : Nat)
  | flash (bad : Bool)
deriving DecidableEq, Repr

/-- The next mover: an engine (with whether an access it issues waits in its queue, and whether its fetch
misses the instruction cache), a supervisor core, or an event of the table. -/
inductive Actor
  | engine (c : Nat) (e : Eng) (wait miss : Bool)
  | supervisor (c : Nat)
  | event (i : Instr)
  | upset (u : Upset)
  /-- a later load of an engine reads an aligned element of n bytes ahead of its turn (R301, R305) -/
  | ahead (c : Nat) (e : Eng) (k n : Nat)
  /-- the job that an engine of stack reduction runs reads an aligned element of n bytes ahead of its sums (R305) -/
  | jobAhead (q : BitVec 3) (k n : Nat)
  /-- a cell's instruction cache takes the line of an address that its engines may fetch later (R53) -/
  | line (c : Nat) (pc : Word)
deriving DecidableEq, Repr

/-- One turn: cycles that pass before it, who moves, and the lanes in which an access of a vector register that races with
an earlier write sees, or leaves, the older value (R29): vector registers under their numbers, mask registers from 1000; and
the 8-byte granules of virtual addresses whose translation walks the tables whatever the caches hold (R368). -/
structure Turn where
  dt : Nat
  who : Actor
  old : List (Nat × BitVec 1024) := []
  walk : List Nat := []
deriving DecidableEq, Repr

/-- Who executes: a cell, an engine, whether accesses wait, and which translations walk. -/
structure Cur where
  cell : Nat := 0
  eng : Eng := .s
  wait : Bool := false
  /-- the 8-byte granules of virtual addresses for which this turn walks the tables whatever the caches hold (R368) -/
  walk : List Nat := []
  /-- lanes of vector and mask registers that keep the older value of a race (R29) -/
  old : List (Nat × BitVec 1024) := []
deriving DecidableEq, Repr

/-- The device. -/
structure State where
  /-- CYCLE (R30) -/
  cycle : Nat := 0
  agenda : List Turn := []
  rota : Nat := 0
  cur : Cur := {}
  /-- bytes of every class, keyed by global physical address; an unlisted byte reads zero -/
  mem : List Host.Cell := []
  /-- protected units with an uncorrectable error, by first address -/
  ecc : List (Nat × Bool) := []
  cells : List (Nat × Cell) := []
  /-- the releases that wrote a byte, each with the scope that it names and the number of its agent's first access after it,
  and none for a byte that a plain write covers (R303) -/
  relTags : List (Nat × List (Agent × Scope × Nat)) := []
  podDev : BitVec 6 := 0#6
  ctxBase : Word := 0#64
  tlb : List Tlb := []
  barriers : List Barrier := []
  released : List Release := []
  mergeBuf : List Partial := []
  tgu : Tgu := {}
  fab : Fab := {}
  pool : Pool := {}
  own : Ownership := {}
  sre : List (Nat × List Job) := []
  mc : Mc := {}
  flash : Flash := {}
  /-- entry points of the supervisor cores for traps and for pre-emption (R369, R381) -/
  supTrap : Word := 0x400#64
  supPreempt : Word := 0x800#64
  reply : Reply := {}
  /-- the model's own count of free values drawn (assumption log 14): none of the device's state -/
  draws : Nat := 0
deriving DecidableEq, Repr

/-- The machine right after reset: nothing runs, no queue is enabled, memory lists nothing. -/
def State.reset : State := {}

end Sys2Proof.Machine
end

