-- ==== Sys2Proof/Machine/Ops.lean ====
section
/-! DEFINITION. The named operations that every meaning shares: registers, memory and its canonical addresses,
address translation and permission, watchpoints, events, taking a trap and returning from one, tokens, and the
frame in which every program instruction runs. -/

namespace Sys2Proof.Machine

/-! ## Cells and engines -/

/-- A cell of the device. -/
def State.cell (s : State) (c : Nat) : Cell := tabGet {} s.cells c

/-- The device with one cell replaced. -/
def State.setCell (s : State) (c : Nat) (x : Cell) : State := { s with cells := tabSet {} s.cells c x }

/-- The device with one cell changed. -/
def State.modCell (s : State) (c : Nat) (f : Cell → Cell) : State := s.setCell c (f (s.cell c))

/-- An engine of a cell. -/
def Cell.eng (x : Cell) : Eng → EngState
  | .s => x.engS | .l => x.engL | .m => x.engM | .v => x.engV | .w => x.engW | .sup => x.sup

/-- A cell with one engine replaced. -/
def Cell.setEng (x : Cell) (e : Eng) (st : EngState) : Cell :=
  match e with
  | .s => { x with engS := st } | .l => { x with engL := st } | .m => { x with engM := st }
  | .v => { x with engV := st } | .w => { x with engW := st } | .sup => { x with sup := st }

/-- An engine of the device. -/
def State.eng (s : State) (c : Nat) (e : Eng) : EngState := (s.cell c).eng e

/-- The device with one engine changed. -/
def State.modEng (s : State) (c : Nat) (e : Eng) (f : EngState → EngState) : State :=
  s.modCell c fun x => x.setEng e (f (x.eng e))

/-- The engine whose turn it is. -/
def State.me (s : State) : EngState := s.eng s.cur.cell s.cur.eng

/-- The cell whose turn it is. -/
def State.here (s : State) : Cell := s.cell s.cur.cell

/-- Change the engine whose turn it is. -/
def State.modMe (s : State) (f : EngState → EngState) : State := s.modEng s.cur.cell s.cur.eng f

/-- Change the cell whose turn it is. -/
def State.modHere (s : State) (f : Cell → Cell) : State := s.modCell s.cur.cell f

/-- The five engines in the order in which traps are handled (R37). -/
def engines : List Eng := [.s, .l, .m, .v, .w]

/-- The number of an engine (R370). -/
def engNum : Eng → Nat
  | .s => 0 | .l => 1 | .m => 2 | .v => 3 | .w => 4 | .sup => 5

/-! ## Registers -/

/-- A scalar register; s0 reads zero (R26). -/
def EngState.getS (st : EngState) (r : SReg) : Word := if r = 0#6 then 0#64 else tabGet 0#64 st.sreg r.toNat

/-- Write a scalar register; a write to s0 is discarded (R99). -/
def EngState.setS (st : EngState) (r : SReg) (v : Word) : EngState :=
  if r = 0#6 then st else { st with sreg := tabSet 0#64 st.sreg r.toNat v }

/-- A predicate register; p15 reads true (R26). -/
def EngState.getP (st : EngState) (p : PReg) : Bool := p == 15#4 || st.preg.getLsbD p.toNat

/-- Write a predicate register; a write to p15 is discarded (R99). -/
def EngState.setP (st : EngState) (p : PReg) (v : Bool) : EngState :=
  if p = 15#4 then st
  else
    let bit : BitVec 16 := BitVec.ofNat 16 (2 ^ p.toNat)
    { st with preg := if v then st.preg ||| bit else st.preg &&& ~~~bit }

/-- A scalar register of the executing engine's bank. -/
def State.getS (s : State) (r : SReg) : Word := s.me.getS r

/-- A younger write of a scalar register stands: a load of that register still outstanding no longer writes it. -/
def EngState.supersede (st : EngState) (r : SReg) : EngState :=
  { st with queue := st.queue.map fun q =>
      match q.acc with
      | .load ks (.scalar d sx) => if d = r then { q with acc := .load ks (.scalar 0#6 sx) } else q
      | .acquire ks (.scalar d sx) sc => if d = r then { q with acc := .acquire ks (.scalar 0#6 sx) sc } else q
      | .atomic op dbl ks b c d o => if d = r then { q with acc := .atomic op dbl ks b c 0#6 o } else q
      | _ => q }

/-- Write a scalar register of the executing engine's bank. -/
def State.setS (s : State) (r : SReg) (v : Word) : State :=
  let s := s.modMe fun st => (st.supersede r).setS r v
  if s.here.regErr.isEmpty then s
  else s.modHere fun x => { x with regErr := tabSet false x.regErr (64 * engNum s.cur.eng + r.toNat) false }

/-- A predicate of the executing engine's bank. -/
def State.getP (s : State) (p : PReg) : Bool := s.me.getP p

/-- Write a predicate of the executing engine's bank. -/
def State.setP (s : State) (p : PReg) (v : Bool) : State :=
  let s := s.modMe fun st => st.setP p v
  if s.here.regErr.isEmpty then s
  else s.modHere fun x => { x with regErr := tabSet false x.regErr (4000 + 16 * engNum s.cur.eng + p.toNat) false }

/-- A register or tile with an uncorrectable error (R435). -/
def Cell.badReg (x : Cell) (k : Nat) : Bool := !x.regErr.isEmpty && tabGet false x.regErr k

/-- A write of a whole register clears its error (R435). -/
def Cell.healReg (x : Cell) (k : Nat) : Cell :=
  if x.regErr.isEmpty then x else { x with regErr := tabSet false x.regErr k false }

/-- A mask register with an uncorrectable error; m15 is no storage (R132, R435). -/
def Cell.badMask (x : Cell) (m : MNum) : Bool := m != 15#4 && x.badReg (3000 + m.toNat)

/-- A predicate register of an engine with an uncorrectable error; p15 is no storage (R26, R435). -/
def Cell.badPred (x : Cell) (e : Eng) (p : PReg) : Bool := p != 15#4 && x.badReg (4000 + 16 * engNum e + p.toNat)

/-- The lanes of a cleared vector register (R26). -/
def zeroLanes : List Lane := List.replicate 1024 0#32

/-- Lane l of a register image. -/
def lane (x : List Lane) (l : Nat) : Lane := x.getD l 0#32

/-- A register image given lane by lane. -/
def lanesOf (f : Nat → Lane) : List Lane := (List.range 1024).map f

/-- A register image of exactly 1,024 lanes (R130). -/
def fitLanes (x : List Lane) : List Lane := (x ++ zeroLanes).take 1024

/-- A vector register. -/
def Cell.getV (x : Cell) (v : Nat) : List Lane := fitLanes (tabGet zeroLanes x.vreg v)

/-- Write a vector register. -/
def Cell.setV (x : Cell) (v : Nat) (val : List Lane) : Cell := { x with vreg := tabSet zeroLanes x.vreg v val }

/-- An access of an engine to a vector register is ordered by nothing after the latest write of another engine (R29,
R135). -/
def Cell.racing (x : Cell) (e : Eng) (v : Nat) : Option VWrite :=
  if x.vhist.isEmpty then none
  else (tabGet none x.vhist v).filter fun w => w.by' != e && decide ((x.eng e).synced < w.stamp)

/-- Lanes of one image where a mask has bits, and of another elsewhere. -/
def mixLanes (mk : BitVec 1024) (a b : List Lane) : List Lane :=
  if mk = 0#1024 then b else if mk = BitVec.allOnes 1024 then a else lanesOf fun l => if mk.getLsbD l then lane a l else lane b l

/-- A vector register as an engine reads it: in a race, each lane is the old value or the new, as the turn says (R29). -/
def Cell.readV (x : Cell) (e : Eng) (older : List (Nat × BitVec 1024)) (v : Nat) : List Lane :=
  match x.racing e v with
  | none => x.getV v
  | some w => mixLanes (tabGet 0#1024 older v) (fitLanes w.old) (x.getV v)

/-- An engine writes some lanes of a vector register: where two writes race, each lane that both write is the value of one
of them (R29). -/
def Cell.putV (x : Cell) (e : Eng) (older : List (Nat × BitVec 1024)) (v : Nat) (mk : BitVec 1024) (val : List Lane) : Cell :=
  let keep := match x.racing e v with
    | none => 0#1024
    | some w => tabGet 0#1024 older v &&& w.lanes
  { x.setV v (mixLanes (mk &&& ~~~keep) val (x.getV v)) with
    vhist := tabSet none x.vhist v (some { by' := e, old := x.getV v, lanes := mk, stamp := x.vstamp + 1 })
    vstamp := x.vstamp + 1 }

/-- An engine passes an acquire, or takes a token: no later access of it has been performed before, and what the others
wrote to vector registers is ordered (R135, R302). -/
def Cell.acquire (x : Cell) (e : Eng) : Cell :=
  x.setEng e { x.eng e with ahead := [], synced := x.vstamp }

/-- A mask register; m15 reads all ones (R26). -/
def Cell.getM (x : Cell) (m : MNum) : BitVec 1024 := if m = 15#4 then BitVec.allOnes 1024 else tabGet 0#1024 x.mreg m.toNat

/-- Write a mask register; a write to m15 is discarded (R132). -/
def Cell.setM (x : Cell) (m : MNum) (v : BitVec 1024) : Cell :=
  if m = 15#4 then x else { x with mreg := tabSet 0#1024 x.mreg m.toNat v }

/-- A mask register as an engine reads it: in a race with another engine's latest write, each lane is the old value or the
new, as the turn says (R29). -/
def Cell.readM (x : Cell) (e : Eng) (older : List (Nat × BitVec 1024)) (m : MNum) : BitVec 1024 :=
  match (if m = 15#4 then none else tabGet none x.mhist m.toNat) with
  | none => x.getM m
  | some w =>
    if w.by' == e || decide (w.stamp ≤ (x.eng e).synced) then x.getM m
    else
      let k := tabGet 0#1024 older (1000 + m.toNat)
      (w.old &&& k) ||| (x.getM m &&& ~~~k)

/-- An engine writes a mask register. -/
def Cell.putM (x : Cell) (e : Eng) (m : MNum) (v : BitVec 1024) : Cell :=
  { x.setM m v with
    mhist := if m = 15#4 then x.mhist else tabSet none x.mhist m.toNat (some { by' := e, old := x.getM m, stamp := x.vstamp + 1 })
    vstamp := x.vstamp + 1 }

/-- A ring register. -/
def Cell.getR (x : Cell) (g : Nat) : Ring := tabGet {} x.ring g

/-- Write a ring register. -/
def Cell.setR (x : Cell) (g : Nat) (r : Ring) : Cell := { x with ring := tabSet {} x.ring g r }

/-! ## Performance counters (R35) -/

/-- Add a count to every enabled counter that selects an event. -/
def Cell.count (x : Cell) (ev n : Nat) : Cell :=
  x.pevsel.foldl (fun x e =>
    if e.2.getLsbD 16 && e.2.toNat % 65536 == ev then
      { x with pcnt := tabSet 0#64 x.pcnt e.1 (tabGet 0#64 x.pcnt e.1 + BitVec.ofNat 64 n) }
    else x) x

/-- Count an event in a cell. -/
def State.count (s : State) (c ev n : Nat) : State := if n = 0 || ev = 0 then s else s.modCell c fun x => x.count ev n

/-! ## Physical addresses (R366, R389)

A byte has one key: its class in bits 55:52 and its fields below. Class 0x0 keys are in the sl = 0 view. -/

/-- The class of a physical address. -/
def paClass (pa : Nat) : Nat := pa / 2 ^ 52 % 16

/-- The key of a slice byte (R170). -/
def slicePa (cell off : Nat) : Nat := 2 ^ 52 + cell * 0x800000 + off

/-- The key of a supervisor-memory byte (R415). -/
def supPa (cell off : Nat) : Nat := 8 * 2 ^ 52 + 0x1000000 + cell * 0x40000 + off

/-- A stack-local address in the sl = 0 view (R366). -/
def slView (a : Nat) : Nat :=
  let stack := a / 2 ^ 36 % 8
  let off := a % 2 ^ 36
  off / 256 * 2048 + stack * 256 + off % 256

/-- Stack and offset within it of a class 0x0 key (R366). -/
def stackOf (a : Nat) : Nat := a / 256 % 8

/-- Whether the fields of a physical address meet R389; minimal mode narrows class 0x0 (R431). -/
def paOk (minimal : Bool) (pa : Nat) : Bool :=
  let low := pa % 2 ^ 52
  match paClass pa with
  | 0 => if minimal then decide (low < 2 ^ 36) else decide (low < 2 ^ 39)
  | 1 => decide (low < 80 * 0x800000)
  | 2 => decide (low < 2 ^ 46) && decide (low / 2 ^ 39 % 2 = 0)
  | 3 => decide (low < 2 ^ 46) && decide (low % 2 ^ 40 < 80 * 0x800000)
  | 4 => decide (low < 2 ^ 45) && decide (low / 2 ^ 39 % 8 = 0)
  | 8 => decide (low < 2 ^ 26)
  | _ => false

/-- The device runs minimal mode (R431). -/
def State.minimal (s : State) : Bool := s.mc.state == 2#4

/-- A byte of a mirror copy has the key of the primary (R396, R404). -/
def State.mirrorKey (s : State) (pa : Nat) : Nat :=
  let twin := (pa ^^^ 2 ^ 44)
  if s.pool.regions.any fun r => r.mirror && decide (r.base ≤ twin) && decide (twin < r.base + r.size) then twin else pa

/-- The key of a byte from a page's physical address and sl bit, with the own device's peer classes folded
onto classes 0x0 and 0x1 (R390); minimal mode reaches no class 0x2 or 0x3 at all (R431). -/
def State.key (s : State) (pa : Nat) (sl : Bool) : Nat :=
  let low := pa % 2 ^ 52
  match paClass pa with
  | 0 => if sl && !s.minimal then slView low else low
  | 2 => if low / 2 ^ 40 = s.podDev.toNat && !s.minimal then low % 2 ^ 40 else pa
  | 3 => if low / 2 ^ 40 = s.podDev.toNat && !s.minimal then 2 ^ 52 + low % 2 ^ 40 else pa
  | 4 => s.mirrorKey pa
  | _ => pa

/-! ## Bytes -/

/-- The canonical form of memory: addresses strictly rise, and no entry holds the zero that an unlisted byte reads. -/
def Memory.wf (m : List Host.Cell) : Bool := tabWf 0#8 m

/-- Region number of a byte for ownership (R399). -/
def regionOf (pa : Nat) : Nat := pa / 0x200000

/-- This device holds the token of a byte's region. -/
def State.held (s : State) (pa : Nat) : Bool := tabGet Own.none s.own.st (regionOf pa) == .held

/-- The byte at a key: the ownership cache before the home (R399). -/
def State.byte (s : State) (pa : Nat) : Byte :=
  match tabGet none s.own.cache pa with
  | some b => b
  | none => tabGet 0#8 s.mem pa

/-- Store a run of bytes at consecutive keys; a held region takes them in the ownership area (R399). -/
def State.setBytes (s : State) (pa : Nat) (bs : List Byte) : State :=
  if s.held pa then { s with own := { s.own with cache := tabSplice none s.own.cache pa (bs.map some) } }
  else { s with mem := tabSplice 0#8 s.mem pa bs }

/-- The bytes at n consecutive keys. -/
def State.bytes (s : State) (pa n : Nat) : List Byte := (List.range n).map fun i => s.byte (pa + i)

/-- The little-endian number at n consecutive keys. -/
def State.num (s : State) (pa n : Nat) : Nat := leNat (s.bytes pa n)

/-- A unit of error protection: 8 bytes in SRAM, 32 in HBM and elsewhere (R435). -/
def eccUnit (pa : Nat) : Nat := if paClass pa = 1 || paClass pa = 8 then pa / 8 * 8 else pa / 32 * 32

/-- A byte of a unit with an uncorrectable error. -/
def State.bad (s : State) (pa : Nat) : Bool := tabGet false s.ecc (eccUnit pa)

/-- Clear the errors of units that a write covers wholly (R435). -/
def State.scrubbed (s : State) (puts : List Put) : State :=
  if s.ecc.isEmpty then s
  else { s with ecc := s.ecc.filter fun e =>
           !((List.range (if paClass e.1 = 1 || paClass e.1 = 8 then 8 else 32)).all fun i =>
               puts.any fun p => p.1 == e.1 + i && p.2.1 == 0xFF#8) }

/-- Store a run of bytes, with the errors of the units that it covers wholly gone (R435). -/
def State.storeRun (s : State) (pa : Nat) (bs : List Byte) : State :=
  let s := s.setBytes pa bs
  if s.ecc.isEmpty then s
  else { s with ecc := s.ecc.filter fun e =>
           !(decide (pa ≤ e.1) && decide (e.1 + (if paClass e.1 = 1 || paClass e.1 = 8 then 8 else 32) ≤ pa + bs.length)) }

/-- Store one byte under its enable mask (R153). -/
def State.put (s : State) (p : Put) : State :=
  s.setBytes p.1 [(s.byte p.1 &&& ~~~p.2.1) ||| (p.2.2 &&& p.2.1)]

/-- Bytes that a write covers belong to no earlier release (R303). -/
def State.untagged (s : State) (ks : List Nat) : State :=
  if s.relTags.isEmpty then s else { s with relTags := ks.foldl (fun t k => tabSet [] t k []) s.relTags }

/-- Perform a list of masked byte writes, in order. -/
def State.puts (s : State) (ps : List Put) : State := ((ps.foldl State.put s).scrubbed ps).untagged (ps.map (·.1))

/-- Writes of an atomic: its bytes keep the releases that its place in their coherence order follows (R303). -/
def State.putsAfter (s : State) (ps : List Put) : State := { s.puts ps with relTags := s.relTags }

/-- Whole-byte writes at given keys. -/
def fullPuts (pas : List Nat) (bs : List Byte) : List Put := (pas.zip bs).map fun e => (e.1, 0xFF#8, e.2)

/-! ## Events (R437) -/

/-- The 32 bytes of an entry. -/
def Event.bytes (e : Event) (n : Nat) : List Byte :=
  leBytes 2 e.code.toNat ++ leBytes 1 e.src ++ [e.unit] ++ leBytes 4 n ++ leBytes 8 e.cyc.toNat ++
  leBytes 8 e.d0.toNat ++ leBytes 8 e.d1.toNat

/-- Write an event to the queue, hold it while the queue is disabled, or count it lost. -/
def State.enqueue (s : State) (e : Event) : State :=
  let m := s.mc
  if m.evqSize = 0#64 then
    if m.heldEvents.length < 256 then { s with mc := { m with heldEvents := m.heldEvents ++ [e] } }
    else { s with mc := { m with evqLost := if m.evqLost = BitVec.allOnes 64 then m.evqLost else m.evqLost + 1 } }
  else if m.evqTail - m.evqHead = m.evqSize then
    { s with mc := { m with evqLost := if m.evqLost = BitVec.allOnes 64 then m.evqLost else m.evqLost + 1 } }
  else
    let n := tabGet 0 m.counts e.src + 1
    let s := s.storeRun (m.evqBase.toNat + 32 * (m.evqTail.toNat % m.evqSize.toNat)) (e.bytes n)
    { s with mc := { m with evqTail := m.evqTail + 1, counts := tabSet 0 m.counts e.src n, msix := m.msix + 1 } }

/-- Post an event with its source, byte 3 and data (R438). -/
def State.post (s : State) (code : BitVec 16) (src : Nat) (unit : Nat) (d0 d1 : Nat) : State :=
  s.enqueue { code, src, unit := BitVec.ofNat 8 unit, d0 := BitVec.ofNat 64 d0, d1 := BitVec.ofNat 64 d1,
              cyc := BitVec.ofNat 64 s.cycle }

/-- Events held while the queue was disabled, written now. -/
def State.drainEvents (s : State) : State :=
  if s.mc.evqSize = 0#64 then s
  else s.mc.heldEvents.foldl State.enqueue { s with mc := { s.mc with heldEvents := [] } }

/-! ## Trap causes (R36) -/

def cEnc : BitVec 8 := 0x01#8
def cPriv : BitVec 8 := 0x02#8
def cAlign : BitVec 8 := 0x03#8
def cXlate : BitVec 8 := 0x04#8
def cPerm : BitVec 8 := 0x05#8
def cMeta : BitVec 8 := 0x06#8
def cRing : BitVec 8 := 0x07#8
def cOverlap : BitVec 8 := 0x08#8
def cBar : BitVec 8 := 0x09#8
def cPoolLost : BitVec 8 := 0x0A#8
def cOwnMiss : BitVec 8 := 0x0B#8
def cWatch : BitVec 8 := 0x0C#8
def cEcc : BitVec 8 := 0x0D#8
def cQueue : BitVec 8 := 0x0E#8
def cCkpt : BitVec 8 := 0x0F#8
def cSpill : BitVec 8 := 0x10#8
def cTrap : BitVec 8 := 0x11#8
def cSre : BitVec 8 := 0x12#8

/-! ## Contexts and translation (R360–R368) -/

/-- What an access asks for. -/
inductive Need
  | load | store | atomic | barrier | fetch | copyLoad | copyStore | far | notify | area
deriving DecidableEq, Repr

def Need.reads : Need → Bool
  | .load | .atomic | .barrier | .copyLoad | .far => true
  | _ => false

def Need.writes : Need → Bool
  | .store | .atomic | .barrier | .copyStore | .notify | .area => true
  | _ => false

/-- A context-table entry (R360). -/
structure Ctx where
  root : Nat
  podWide : Bool
  tenant : BitVec 12
  ovfBase : Word
  ovfLen : BitVec 32
deriving DecidableEq, Repr

/-- The context entry of an ASID; `none` when it is not valid or holds a nonzero reserved byte. -/
def State.ctx (s : State) (asid : BitVec 14) : Option Ctx :=
  let a := s.ctxBase.toNat + 64 * asid.toNat
  let flags := s.num (a + 8) 1
  let tenant := s.num (a + 10) 2
  if flags % 2 = 1 && decide (flags < 4) && s.num (a + 9) 1 == 0 && decide (tenant < 4096) &&
     s.num (a + 12) 4 == 0 && s.num (a + 28) 36 == 0 then
    some { root := s.num a 8, podWide := decide (flags / 2 % 2 = 1), tenant := BitVec.ofNat 12 tenant
           ovfBase := BitVec.ofNat 64 (s.num (a + 16) 8), ovfLen := BitVec.ofNat 32 (s.num (a + 24) 4) }
  else none

/-- A mapping that a walk found or a cache holds. -/
structure Leaf where
  pa : Nat
  size : Nat
  r : Bool
  w : Bool
  x : Bool
  sl : Bool
deriving DecidableEq, Repr

/-- One walk from a table at level n (4 = PT4) under R362–R364: a leaf, or the cause. -/
def State.walkFrom (s : State) (va : Nat) : Nat → Nat → Except (BitVec 8) Leaf
  | lvl, table =>
    let shift := if lvl = 0 then 16 else 21 + 9 * (lvl - 1)
    let idx := if lvl = 0 then va / 2 ^ 16 % 32 else va / 2 ^ shift % 512
    let align := if lvl = 0 then 256 else 4096
    if paClass table ≠ 0 || !paOk s.minimal table || table % align ≠ 0 then .error cXlate
    else
      let a := table + 8 * idx
      if s.bad a then .error cEcc
      else
        let e := s.num a 8
        let bit (i : Nat) : Bool := e / 2 ^ i % 2 == 1
        let base := e / 2 ^ 12 % 2 ^ 44 * 2 ^ 12
        let paLo := e / 256 % 16
        let leaf := bit 1
        if !bit 0 || decide (e / 2 ^ 56 ≠ 0) || bit 6 || bit 2 then .error cXlate
        else if leaf then
          let size := 2 ^ shift
          if lvl ≥ 3 || paLo ≠ 0 || base % size ≠ 0 || !paOk s.minimal base || (bit 7 && paClass base ≠ 0) then
            .error cXlate
          else .ok { pa := base, size, r := bit 3, w := bit 4, x := bit 5, sl := bit 7 }
        else if bit 3 || bit 4 || bit 5 || bit 7 || (paLo ≠ 0 && lvl ≠ 1) then .error cXlate
        else
          match lvl with
          | 0 => .error cXlate
          | n + 1 => s.walkFrom va n (base + paLo * 256)

/-- The unit with an uncorrectable error of an ASID's context entry, if it has one (R360, R364). -/
def State.ctxBad (s : State) (asid : BitVec 14) : Option Nat :=
  let a := s.ctxBase.toNat + 64 * asid.toNat
  if s.bad a then some a else if s.bad (a + 32) then some (a + 32) else none

/-- A whole walk for an ASID (R364). -/
def State.walk (s : State) (asid : BitVec 14) (va : Nat) : Except (BitVec 8) Leaf :=
  if (s.ctxBad asid).isSome then .error cEcc
  else
    match s.ctx asid with
    | none => .error cXlate
    | some c => s.walkFrom va 4 c.root

/-- The first entry with an uncorrectable error on the way of a walk from a table at level n (R364). -/
def State.badEntry (s : State) (va : Nat) : Nat → Nat → Option Nat
  | lvl, table =>
    let a := table + 8 * (if lvl = 0 then va / 2 ^ 16 % 32 else va / 2 ^ (21 + 9 * (lvl - 1)) % 512)
    if s.bad a then some a
    else
      match lvl with
      | 0 => none
      | n + 1 =>
        let e := s.num a 8
        s.badEntry va n (e / 2 ^ 12 % 2 ^ 44 * 2 ^ 12 + e / 256 % 16 * 256)

/-- The physical address of the error that a walk for an ASID meets: its context entry, or a table entry. -/
def State.walkError (s : State) (asid : BitVec 14) (va : Nat) : Option Nat :=
  match s.ctxBad asid with
  | some a => some a
  | none => (s.ctx asid).bind fun c => s.badEntry va 4 c.root

/-- A cached entry of an ASID covers an address. -/
def Tlb.covers (t : Tlb) (asid : BitVec 14) (va : Nat) : Bool :=
  t.asid == asid && decide (t.va ≤ va) && decide (va < t.va + t.size)

/-- The mapping that an access uses: a cached entry of the ASID, or a walk; of an entry that has changed, the schedule
says whether the access uses the old one or the new (R367, R368). A cached entry with an uncorrectable error gives none
(R435). -/
def State.leafFor (s : State) (asid : BitVec 14) (va : Nat) : Except (BitVec 8) Leaf :=
  match (if s.cur.walk.contains (va / 8) then none else s.tlb.find? fun t => t.covers asid va) with
  | some t => if t.bad then .error cEcc else .ok { pa := t.pa, size := t.size, r := t.r, w := t.w, x := t.x, sl := t.sl }
  | none => s.walk asid va

/-- The pool region that holds an address (R393). -/
def State.regionAt (s : State) (pa : Nat) : Option Region :=
  s.pool.regions.find? fun r => decide (r.base ≤ pa) && decide (pa < r.base + r.size)

/-- Health of a switch. -/
def State.switch (s : State) (n : Nat) : Health := tabGet Health.healthy s.pool.health n

/-- The switch of a class 0x4 key. -/
def switchOf (pa : Nat) : Nat := pa / 2 ^ 42 % 8

/-- What this device's own state of a region says of an access (R399, R401). -/
def State.ownLocal (s : State) (tenant : BitVec 12) (pa : Nat) : Option (BitVec 8) :=
  let rg := regionOf pa
  match tabGet Own.none s.own.st rg with
  | .revoked => some cOwnMiss
  | .held => if tabGet 0#12 s.own.tenant rg = tenant then none else some cPerm
  | .none => none

/-- What the home of a region says: another device holds its token (R401). -/
def State.ownHome (s : State) (pa : Nat) : Option (BitVec 8) :=
  let rg := regionOf pa
  match tabGet Own.none s.own.st rg with
  | .none =>
    match tabGet none s.own.holder rg with
    | some d => if d = s.podDev then none else some cOwnMiss
    | none => none
  | _ => none

/-- The tenant of an ASID. -/
def State.tenantOf (s : State) (asid : BitVec 14) : BitVec 12 := ((s.ctx asid).map Ctx.tenant).getD 0#12

/-- The peer of a class 0x2 or 0x3 key. -/
def peerOf (pa : Nat) : Nat := pa / 2 ^ 40 % 64

/-- A peer that answers nothing (R390, R431). -/
def State.peerGone (s : State) (pa : Nat) : Bool := s.minimal || tabGet false s.fab.out (peerOf pa)

/-- A peer's own entry for an ASID accepts it: as this device's entry does, where nothing else is given (R360, R390). -/
def State.peerTakes (s : State) (asid : BitVec 14) (pa : Nat) : Bool :=
  (tabGet none s.fab.peerCtx (peerOf pa * 2 ^ 14 + asid.toNat)).getD (((s.ctx asid).map Ctx.podWide).getD false)

/-- A class 0x3 slice belongs to an ASID at its peer (R171, R390). -/
def State.peerSliceOf (s : State) (asid : BitVec 14) (pa : Nat) : Bool :=
  (tabGet none s.fab.peerSlice (peerOf pa * 128 + pa / 0x800000 % 128)).getD asid == asid

/-- Pool memory that a failed switch has lost (R403). -/
def State.poolGone (s : State) (pa : Nat) : Bool :=
  s.minimal ||
  match s.regionAt pa with
  | some r => r.lost
  | none => s.switch (switchOf pa) = .failed

/-- The checks that this device makes of a byte: slices (R171, R174), the loss of a peer or of pool memory (R390, R403),
and its own region states (R399, R401). -/
def State.knownCheck (s : State) (asid : BitVec 14) (pa : Nat) : Option (BitVec 8) :=
  match paClass pa with
  | 0 => (s.ownLocal (s.tenantOf asid) pa).or (s.ownHome pa)
  | 1 =>
    let c := s.cell (pa / 0x800000 % 128)
    if c.owner ≠ some asid then some cPerm
    else if pa % 0x800000 ≥ 0x800000 - c.carve then some cPerm
    else none
  | 2 => if s.peerGone pa then some cPoolLost else s.ownLocal (s.tenantOf asid) pa
  | 3 => if s.peerGone pa then some cPoolLost else none
  | 4 => if s.poolGone pa then some cPoolLost else s.ownLocal (s.tenantOf asid) pa
  | _ => some cPerm

/-- The checks that the target of a byte makes: a peer's entry and slices (R390), the granule table (R393), the home's
token (R401). -/
def State.targetCheck (s : State) (asid : BitVec 14) (pa : Nat) : Option (BitVec 8) :=
  match paClass pa with
  | 2 => if s.peerTakes asid pa then s.ownHome pa else some cPerm
  | 3 => if s.peerTakes asid pa && s.peerSliceOf asid pa then none else some cPerm
  | 4 =>
    match s.regionAt pa with
    | some r => if r.tenant = s.tenantOf asid then s.ownHome pa else some cPerm
    | none => some cPerm
  | _ => none

/-- Every check at a byte's home (R171, R390, R393, R401, R403). -/
def State.homeCheck (s : State) (asid : BitVec 14) (pa : Nat) : Option (BitVec 8) :=
  (s.knownCheck asid pa).or (s.targetCheck asid pa)

/-- The checks before an access: a notifying store leaves its target's to the target (R406, R409). -/
def State.accessCheck (s : State) (need : Need) (asid : BitVec 14) (pa : Nat) : Option (BitVec 8) :=
  if need = .notify then s.knownCheck asid pa else s.homeCheck asid pa

/-- Base addresses of the windows (R170, R393). -/
def windowBase : Nat := 0x01FFFE0000000000
def spillBase : Nat := 0x01FFFF0000000000
def poolBase : Nat := 0x01FFF00000000000

/-- The windows that a cell translates itself: the device scratchpad window, the spill window and the pool window
(R170, R175, R393). -/
def inWindows (va : Nat) : Bool :=
  (decide (windowBase ≤ va) && decide (va < windowBase + 0x40000000)) || decide (spillBase ≤ va) ||
  (decide (poolBase ≤ va) && decide (va < poolBase + 2 ^ 42))

/-- The classes that a use of the tables admits: fetches reach classes 0x0 and 0x1 (R52), far nodes 0x0, 0x2 and 0x4
(R258), the spill area of a topology table 0x0 (R272), the overflow part of the spill space 0x0 (R175). -/
def classFits (need : Need) (spill : Bool) (key : Nat) : Bool :=
  !(need = .fetch && 1 < paClass key) && !((spill || need = .area) && paClass key ≠ 0) &&
  !(need = .far && paClass key ≠ 0 && paClass key ≠ 2 && paClass key ≠ 4)

/-- Translate through the tables, check the class, then r, w and x (R365, R52). -/
def State.viaTables (s : State) (asid : BitVec 14) (va : Nat) (need : Need) (spill : Bool := false) : Except (BitVec 8) Nat :=
  match s.leafFor asid va with
  | .error c => .error c
  | .ok l =>
    let raw := l.pa + va % l.size
    if !paOk s.minimal raw then .error cXlate
    else
      let key := s.key raw l.sl
      if !classFits need spill key then .error cXlate
      else if paClass key = 8 || (need = .barrier && paClass key = 4) then .error cPerm
      else if (need.reads && !l.r) || (need.writes && !l.w) || (need = .fetch && !l.x) then .error cPerm
      else
        match s.accessCheck need asid key with
        | some c => .error c
        | none => .ok key

/-- The key of one byte of a cell program's address space, or the cause of the trap (R170, R175, R361, R393). -/
def State.resolve (s : State) (c : Nat) (asid : BitVec 14) (need : Need) (va : Nat) : Except (BitVec 8) Nat :=
  if va ≥ 2 ^ 57 then .error cXlate
  else if windowBase ≤ va && va < windowBase + 0x40000000 then
    let o := va - windowBase
    if o ≥ 80 * 0x800000 || need = .far then .error cXlate
    else
      match s.accessCheck need asid (2 ^ 52 + o) with
      | some e => .error e
      | none => .ok (2 ^ 52 + o)
  else if spillBase ≤ va then
    let x := s.cell c
    let o := va - spillBase
    match need with
    | .fetch | .far | .area => .error cXlate
    | .copyLoad | .copyStore | .barrier => .error cPerm
    | _ =>
      if o < x.carve then .ok (slicePa c (0x800000 - x.carve + o))
      else if o - x.carve < x.ovflen.toNat then
        let va' := (x.ovfptr.toNat + (o - x.carve)) % 2 ^ 64
        if va' ≥ 2 ^ 57 || inWindows va' then .error cXlate else s.viaTables asid va' need true
      else .error cSpill
  else if poolBase ≤ va && va < poolBase + 2 ^ 42 then
    if need = .fetch || need = .area then .error cXlate
    else if need = .barrier then .error cPerm
    else
      let a := va - poolBase
      let key := s.mirrorKey (4 * 2 ^ 52 + a / 2 ^ 39 * 2 ^ 42 + a % 2 ^ 39)
      match s.accessCheck need asid key with
      | some e => .error e
      | none => .ok key
  else s.viaTables asid va need

/-- The address that the tables translate for an address: the overflow part of the spill space lies elsewhere (R175). -/
def Cell.walked (x : Cell) (va : Nat) : Nat :=
  if spillBase ≤ va then (x.ovfptr.toNat + (va - spillBase - x.carve)) % 2 ^ 64 else va

/-- The trap of an address that does not resolve for a cell; an uncorrectable error in its walk carries the entry's
physical address (R364, R435). -/
def State.addrTrap (s : State) (c : Nat) (asid : BitVec 14) (va : Nat) (cause : BitVec 8) : TrapRec :=
  let e := s.walkError asid ((s.cell c).walked va)
  { cause, addr := BitVec.ofNat 64 va, phys := if cause ≠ cEcc then none else e, cached := cause = cEcc && e.isNone }

/-- The ASID of a cell. -/
def Cell.asid (x : Cell) : BitVec 14 := x.owner.getD 0#14

/-- A key at which no barrier object may lie: the carve-out of its slice, pool memory, the MMIO class (R284). -/
def State.noBarrier (s : State) (key : Nat) : Bool :=
  paClass key = 4 || paClass key = 8 ||
  (paClass key = 1 && decide (0x800000 - (s.cell (key / 0x800000 % 128)).carve ≤ key % 0x800000))

/-- The key of a physical address that a supervisor core uses (R369): no translation, and the checks of the byte's home
under the ASID of its cell (R390, R393, R401, R403); its own slices and the MMIO class need none. -/
def State.resolvePhys (s : State) (need : Need) (pa : Nat) : Except (BitVec 8) Nat :=
  if pa ≥ 2 ^ 56 || !paOk s.minimal pa then .error cXlate
  else
    let key := s.key pa false
    if need = .barrier && s.noBarrier key then .error cPerm
    else if paClass key = 1 || paClass key = 8 then .ok key
    else
      match s.homeCheck s.here.asid key with
      | some e => .error e
      | none => .ok key

/-- The live barrier object at a line, if any (R286). -/
def State.barrierAt (s : State) (line : Nat) : Option Barrier := s.barriers.find? fun b => b.pa == line

/-- The keys of n bytes from va upwards for the executing engine, or the trap of the first that fails. -/
def State.span (s : State) (need : Need) (va : Word) (n : Nat) : Except TrapRec (List Nat) :=
  (List.range n).foldr (fun i acc =>
    let a := (va.toNat + i) % 2 ^ 64
    let r := if s.cur.eng = .sup then s.resolvePhys need a else s.resolve s.cur.cell s.here.asid need a
    match r with
    | .error c => .error (s.addrTrap s.cur.cell s.here.asid a c)
    | .ok k =>
      match acc with
      | .error t => .error t
      | .ok ks => .ok (k :: ks)) (.ok [])

/-- Whether an access meets an enabled watch block of its kind (R378): the first matching byte. -/
def Cell.watched (x : Cell) (rd wr : Bool) (va n : Nat) : Option Nat :=
  (List.range n).map (va + ·) |>.find? fun a =>
    x.watch.any fun e =>
      let size := e.2.toNat % 64
      let addr := e.2.toNat % 2 ^ 57 / 64 * 64
      ((rd && e.2.getLsbD 61) || (wr && e.2.getLsbD 62)) && a / 2 ^ size == addr / 2 ^ size

/-- The watch check of an access of the executing engine, passed once after a WATCH trap (R371). -/
def State.watchTrap (s : State) (rd wr : Bool) (va : Word) (n : Nat) : Option TrapRec :=
  if s.cur.eng = .sup || s.me.watchPass || s.here.watch.isEmpty then none
  else (s.here.watched rd wr va.toNat n).map fun a => { cause := cWatch, addr := BitVec.ofNat 64 a }

/-- Whether any of some keys lies in a live barrier object. -/
def State.meetsBarrier (s : State) (ks : List Nat) : Bool :=
  !s.barriers.isEmpty && ks.any fun k => (s.barrierAt (k / 64 * 64)).isSome

/-- The image of a live object as loads read it (R285). -/
def Barrier.image (b : Barrier) : Nat :=
  b.scope.toNat + b.tag.toNat * 2 ^ 7 + (if b.wire then 2 ^ 10 else 0) + 2 ^ 11 + b.expected * 2 ^ 32 +
  b.arrivals * 2 ^ 56 + b.early * 2 ^ 80 + b.pending.toNat * 2 ^ 112 + b.phase.toNat * 2 ^ 160

/-- A byte as a load reads it: the image of a live barrier object, or memory (R286). -/
def State.view (s : State) (k : Nat) : Byte :=
  if s.barriers.isEmpty then s.byte k
  else
    match s.barrierAt (k / 64 * 64) with
    | some b => BitVec.ofNat 8 (b.image / 2 ^ (8 * (k % 64)))
    | none => s.byte k

/-- The uncorrectable-error check of a read of the keys of consecutive bytes from va (R435). -/
def State.eccTrap (s : State) (va : Word) (ks : List Nat) : Option TrapRec :=
  if s.ecc.isEmpty then none
  else (findIdx? s.bad ks).map fun i => { cause := cEcc, addr := va + BitVec.ofNat 64 i, phys := ks[i]? }

/-! ## Taking a trap and returning (R36, R37, R370, R371) -/

/-- The first performance event of a stall, per engine (R35). -/
def stallEvent : Stall → Nat
  | .window => 0x18 | .queue => 0x20 | .ring => 0x28 | .barrier => 0x30 | _ => 0

/-- The event that each cycle of an engine's stall counts; 0 for none (R35, R233). -/
def stallCount (e : Eng) (why : Stall) : Nat :=
  match why with
  | .copies => 0x52
  | .slots => 0x107
  | .merge => 0x108
  | _ => if stallEvent why = 0 then 0 else stallEvent why + engNum e

/-- A cell's counters over n cycles that it is not frozen: the cycles, and the stalls of its engines (R35, R37). -/
def State.countCycles (s : State) (c n : Nat) : State :=
  let x := s.cell c
  if x.frozen.isSome || x.iter.isNone || x.pevsel.isEmpty then s
  else [Eng.s, .l, .m, .v, .w].foldl (fun s e => s.count c (stallCount e (x.eng e).stall) n) (s.count c 0x01 n)

/-- Pad or cut a byte list to a length. -/
def fitBytes (n : Nat) (bs : List Byte) : List Byte := (bs ++ List.replicate n 0#8).take n

/-- The 64 bytes of a trap record. -/
def TrapRec.bytes (t : TrapRec) (e : Eng) : List Byte :=
  [t.cause] ++ leBytes 1 (engNum e) ++ leBytes 1 t.detail ++
  leBytes 1 ((if t.deferred then 1 else 0) + (if t.sys then 2 else 0) + (if t.x then 4 else 0) +
    (if t.idx.isSome then 8 else 0)) ++
  leBytes 4 (t.idx.getD 0) ++ leBytes 8 t.pc.toNat ++ leBytes 8 t.addr.toNat ++ leBytes 2 t.code.toNat ++
  leBytes 1 t.unit ++ List.replicate 5 0#8 ++ fitBytes 32 t.info

/-- An engine gives up a wait at a barrier object: its place among the waiters and any release on its way. -/
def State.withdraw (s : State) (c : Nat) (e : Eng) : State :=
  let mine (w : Waiter) : Bool := w.peer.isNone && w.cell == c && w.eng == e
  { s with
    barriers := s.barriers.map fun b => { b with waiters := b.waiters.filter fun w => !mine w }
    released := s.released.filter fun r => !mine r.waiter }

/-- Freeze a cell and start its supervisor core at an entry point; the core of a cell that is already frozen
goes on (R37, R369). -/
def State.freeze (s : State) (c : Nat) (entry : Word) : State :=
  let s := if (s.eng c .sup).flight.isSome && (s.cell c).frozen.isNone then s.withdraw c .sup else s
  s.modCell c fun x =>
    { x with
      frozen := some (x.frozen.getD s.cycle)
      sup := if x.frozen.isSome && x.supRun then x.sup else { x.sup with pc := entry, halted := false, flight := none }
      supRun := true }

/-- The half of a logical cell: minimal mode has one half alone (R3, R431). -/
def State.cellHalf (s : State) (c : Nat) : Nat := if s.minimal then (if s.mc.half then 1 else 0) else c / 40

/-- The HBM stack of a class 0x0 key: minimal mode has one stack alone (R366, R431). -/
def State.stackAt (s : State) (k : Nat) : Nat := if s.minimal then s.mc.stack else stackOf k

/-- The instance that a scope names for one agent contains another (R283). The cells of a cluster, of a half and of a
device are those of one device; a unit outside the cells belongs to its device. -/
def State.inScope (s : State) (sc : Scope) (a b : Agent) : Bool :=
  let near (f : Nat → Nat) : Bool :=
    match a.cell, b.cell with
    | some c, some d => a.dev.isSome && a.dev == b.dev && f c == f d
    | _, _ => a == b
  match sc with
  | .eng => a == b
  | .cell => near id
  | .clu => near (· / 4)
  | .half => near s.cellHalf
  | .dev => a.dev.isSome && a.dev == b.dev
  | .pod => a.dev.isSome && b.dev.isSome
  | .sys => true

/-- The executing engine as an agent: X instructions act as S (R283). -/
def State.agentOf (s : State) (c : Nat) (e : Eng) : Agent := { dev := some s.podDev, cell := some c, eng := e }

/-- A release of an agent at a scope synchronises with an acquire of another at a scope: each instance contains the other
agent (R304). -/
def State.mutual (s : State) (a : Agent) (sa : Scope) (b : Agent) (sb : Scope) : Bool := s.inScope sa a b && s.inScope sb b a

/-- An acquire that returns some bytes synchronises with a release that wrote one of them (R300, R303, R304). -/
def State.syncsWith (s : State) (b : Agent) (sb : Scope) (ks : List Nat) : Bool :=
  ks.any fun k => (tabGet [] s.relTags k).any fun t => s.mutual t.1 t.2.1 b sb

/-- An engine passes an acquire. -/
def State.acquired (s : State) (c : Nat) (e : Eng) : State := s.modCell c fun x => x.acquire e

/-- A release writes some bytes: an acquire that returns one of them may synchronise with it (R303). Of its agent's queued
accesses, those numbered below n precede it. -/
def State.tagged (s : State) (a : Agent) (sc : Option Scope) (ks : List Nat) (n : Nat := 0) : State :=
  match sc with
  | none => s
  | some sc => { s with relTags := ks.foldl (fun t k => tabSet [] t k (tabGet [] t k ++ [(a, sc, n)])) s.relTags }

/-- The physical cell that carries a logical number, as 42 × half + position (R431, R436). -/
def State.physicalCell (s : State) (c : Nat) : Nat :=
  if s.minimal then s.mc.cellMap.getD c 0
  else
  let h := c / 40
  let carries (i : Nat) : Bool := s.mc.spares.toNat / 2 ^ (16 * h + 8 * i) % 256 == 128 + c
  42 * h + (if carries 0 then 40 else if carries 1 then 41 else c % 40)

/-- Count an uncorrectable error in the telemetry (R443). -/
def State.countUncorrectable (s : State) : State := { s with mc := { s.mc with uncorrectable := s.mc.uncorrectable + 1 } }

/-- Count an uncorrectable error at a requesting cell and post its event; more than 16 in a cell's registers or
result ring mark the cell (R435, R436). -/
def State.countEcc (s : State) (c : Nat) (phys : Option Nat) (cached : Bool := false) : State :=
  let s := s.countUncorrectable
  match phys with
  | some k => s.post 0x0601#16 6 (if paClass k = 0 then s.stackAt k else 0xFF) k (13 + 256 * c)
  | none =>
    let s := s.post 0x0601#16 6 0xFF 0 (13 + 256 * c)
    if cached then s
    else
    let s := s.modCell c fun x => { x with uncorr := x.uncorr + 1 }
    if (s.cell c).uncorr = 17 then
      let s := s.post 0x0002#16 0 (s.cellHalf c) c 17
      { s with flash := { s.flash with marks := tabSet false s.flash.marks (s.physicalCell c) true } }
    else s

/-- An uncorrectable error met outside the cells: it counts, and its event has cell 0 (R435, R438; assumption log 141). -/
def State.errorAt (s : State) (k : Nat) : State :=
  s.countUncorrectable.post 0x0601#16 6 (if paClass k = 0 then s.stackAt k else 0xFF) k 13

/-- A fault on an address: the caches keep no entry that covers it, so that its retry walks the tables (R364, R368). -/
def State.dropFaulted (s : State) (c : Nat) (t : TrapRec) : State :=
  if (t.cause = cPerm || t.cause = cXlate) && !s.tlb.isEmpty then
    { s with tlb := s.tlb.filter fun l => !l.covers (s.cell c).asid ((s.cell c).walked t.addr.toNat) }
  else s

/-- An engine takes a trap at an instruction: its record, the freeze and the start of the supervisor core (R37, R370). An
MMERGE that waits gives up its tag with its wait. -/
def State.takeTrapAt (s : State) (c : Nat) (e : Eng) (pc : Word) (t : TrapRec) : State :=
  let t := { t with pc }
  let s := if t.cause = cEcc then s.countEcc c t.phys t.cached else s
  let s := s.dropFaulted c t
  let s := s.storeRun (supPa c (64 * engNum e)) (t.bytes e)
  let s := if (s.eng c e).flight.isSome then s.withdraw c e else s
  let s := s.modEng c e fun st =>
    { st with trap := some t, halted := false, arrived := false, flight := none, stall := .none, stalled := [], ahead := [] }
  let s := if e = .m && !(s.cell c).merges.isEmpty then s.modCell c fun x => { x with merges := [] } else s
  s.freeze c s.supTrap

/-- An engine takes a trap where it stands. -/
def State.takeTrap (s : State) (c : Nat) (e : Eng) (t : TrapRec) : State := s.takeTrapAt c e (s.eng c e).pc t

/-- The engine stalls for a reason other than a queue. -/
def State.stallOn (s : State) (c : Nat) (e : Eng) (why : Stall) : State :=
  s.modEng c e fun st => { st with stall := why, stalled := [] }

/-- The engine stalls on some queues; each keeps the cycle in which its own stall began (R25). -/
def State.starve (s : State) (c : Nat) (e : Eng) (ks : List Nat) : State :=
  s.modEng c e fun st =>
    { st with
      stall := .queue
      stalled := ks.map fun k => (k, ((st.stalled.find? fun w => w.1 == k).map (·.2)).getD s.cycle) }

/-- The number of a scalar data queue among the queues that an engine may stall on. -/
def dataQueue (n : Nat) : Nat := 8 + n

/-- The number of the broadcast condition queue. -/
def condQueue : Nat := 16

/-- Every older instruction of an engine has retired: its queues hold nothing, and M has no command (R36, R238). -/
def Cell.retired (x : Cell) (e : Eng) : Bool := (x.eng e).queue.isEmpty && (e != .m || x.mcmds.isEmpty)

/-- The outcome of a trap: it waits until every older instruction of the engine has retired (R36, R238); the supervisor
core's own trap has no entry in the manual. -/
def raise (s : State) (c : Nat) (e : Eng) (t : TrapRec) : Host.Outcome State Fault Refusal :=
  if e = .sup then .fault (.supervisorTrap t.cause t.detail)
  else if !(s.cell c).retired e then .next (s.stallOn c e .fault)
  else .next (s.takeTrap c e t)

/-! ## Tokens (R19–R23) -/

/-- The pair of engines upstream of an engine: 0 L-M, 1 M-V, 2 V-W, 3 L-V (R19). -/
def upPair (vup : Bool) : Eng → Option Nat
  | .m => if vup then none else some 0
  | .v => some (if vup then 3 else 1)
  | .w => some 2
  | _ => none

/-- The pair downstream of an engine. -/
def downPair (vup : Bool) : Eng → Option Nat
  | .l => some (if vup then 3 else 0)
  | .m => if vup then none else some 1
  | .v => some 2
  | _ => none

/-- Counters that an instruction pops: ready tokens of the upstream pair, free tokens of the downstream pair. -/
def popsOf (vup : Bool) (e : Eng) (h : Hdr) : List Nat :=
  (if h.rp then (upPair vup e).toList else []) ++ (if h.fp then (downPair vup e).toList.map (4 + ·) else [])

/-- Counters that it pushes: ready tokens downstream, free tokens upstream. -/
def pushesOf (vup : Bool) (e : Eng) (rq fq : Bool) : List Nat :=
  (if rq then (downPair vup e).toList else []) ++ (if fq then (upPair vup e).toList.map (4 + ·) else [])

/-- Every token bit names a neighbour that exists (R22). -/
def tokensExist (vup : Bool) (e : Eng) (h : Hdr) : Bool :=
  (!(h.rp || h.fq) || (upPair vup e).isSome) && (!(h.fp || h.rq) || (downPair vup e).isSome)

/-- Every popped queue holds a token and every pushed one has room (R20). -/
def Cell.tokensReady (x : Cell) (e : Eng) (h : Hdr) (popped : Bool) : Bool :=
  (popped || (popsOf x.vup e h).all fun k => decide (0 < tabGet 0 x.tok k)) &&
  (popped || (pushesOf x.vup e h.rq h.fq).all fun k => decide (tabGet 0 x.tok k + tabGet 0 x.tokReserved k < 32))

/-- The queues that hold an instruction up: popped ones without a token, then pushed ones without room (R20, R25). -/
def Cell.starving (x : Cell) (e : Eng) (h : Hdr) : List Nat :=
  ((popsOf x.vup e h).filter fun k => decide (tabGet 0 x.tok k = 0)) ++
  ((pushesOf x.vup e h.rq h.fq).filter fun k => decide (32 ≤ tabGet 0 x.tok k + tabGet 0 x.tokReserved k))

/-- Take the pops and reserve the pushes. -/
def Cell.takeTokens (x : Cell) (e : Eng) (h : Hdr) : Cell :=
  { x with
    tok := (popsOf x.vup e h).foldl (fun t k => tabSet 0 t k (tabGet 0 t k - 1)) x.tok
    tokReserved := (pushesOf x.vup e h.rq h.fq).foldl (fun t k => tabSet 0 t k (tabGet 0 t k + 1)) x.tokReserved }

/-- Make reserved pushes visible. -/
def Cell.showPushes (x : Cell) (e : Eng) (r : Retire) : Cell :=
  let ks := pushesOf x.vup e r.rq r.fq
  { x with
    tok := ks.foldl (fun t k => tabSet 0 t k (tabGet 0 t k + 1)) x.tok
    tokReserved := ks.foldl (fun t k => tabSet 0 t k (tabGet 0 t k - 1)) x.tokReserved }

/-- The least number of an access or command of an engine that has not been performed. -/
def Cell.oldest (x : Cell) (e : Eng) : Option Nat :=
  match ((x.eng e).queue.map (·.id) ++ (if e = .m then x.mcmds.map (·.id) else [])) with
  | [] => none
  | a :: r => some (r.foldl min a)

/-- Retire in program order: show the pushes of every instruction before the oldest outstanding access (R20). -/
def Cell.flush (x : Cell) (e : Eng) : Cell :=
  let ready (r : Retire) : Bool :=
    match x.oldest e with
    | none => true
    | some id => decide (r.stamp ≤ id)
  let now := (x.eng e).retire.takeWhile ready
  let rest := (x.eng e).retire.dropWhile ready
  if now.isEmpty then x
  else (now.foldl (fun x r => x.showPushes e r) x).setEng e { x.eng e with retire := rest }

/-- Push the tokens of an instruction that has issued, behind what is outstanding. -/
def Cell.pushTokens (x : Cell) (e : Eng) (h : Hdr) : Cell :=
  if h.rq || h.fq then
    let st := x.eng e
    (x.setEng e { st with retire := st.retire ++ [{ stamp := st.nextId, rq := h.rq, fq := h.fq }] }).flush e
  else x

/-! ## The frame of a program instruction -/

/-- What the body of an instruction does when it reaches its effect. -/
inductive Act
  /-- the effect has taken place; the engine passes to pc + 16 -/
  | done (s : State)
  /-- the effect has taken place; the engine passes to a target -/
  | goto (s : State) (target : Word)
  /-- the instruction waits; the state given differs only in what the wait itself registers or, at
  CTX.SAVE, settles -/
  | wait (s : State) (why : Stall)
  /-- the instruction waits on a scalar data queue or on the condition queue -/
  | starve (s : State) (q : Nat)
  /-- the request has left; the engine stands at the instruction until the reply -/
  | hold (s : State)
  /-- a precise trap: nothing has changed -/
  | trap (t : TrapRec)
  /-- a precise trap; the state given differs in the order of ring operations alone (R182) -/
  | trapIn (s : State) (t : TrapRec)
  /-- a trap in repetition i of an instruction: the repetitions before it stand (R47) -/
  | trapAt (s : State) (inst : Instr) (i : Nat) (seed : Word) (t : TrapRec)

/-- The least step count among the engines that have not halted (R15). -/
def Cell.trailing (x : Cell) : Option Nat :=
  match (engines.filter fun e => !(x.eng e).halted).map fun e => (x.eng e).step with
  | [] => none
  | a :: r => some (r.foldl min a)

/-- The slip window lets an engine pass one instruction (R15). -/
def Cell.windowOpen (x : Cell) (e : Eng) : Bool :=
  e == .sup ||
  match x.trailing with
  | none => true
  | some t => decide ((x.eng e).step + 1 ≤ t + x.slipw.toNat)

/-- A scalar register that a queued load of the engine will write. -/
def EngState.loading (st : EngState) (r : SReg) : Bool :=
  r != 0#6 && st.queue.any fun q =>
    match q.acc with
    | .load _ (.scalar d _) | .acquire _ (.scalar d _) _ => d == r
    | .atomic _ _ _ _ _ d _ => d == r
    | _ => false

/-- The engine passes its instruction: program counter, step count, and the end of any wait. -/
def State.pass (s : State) (c : Nat) (e : Eng) (target : Word) : State :=
  s.modEng c e fun st =>
    { st with pc := target, step := st.step + 1, stall := .none, stalled := [], progress := none, flight := none
              arrived := false, resolved := false, watchPass := false }

/-- Tokens of the instruction have been taken by an earlier part of it (R47). -/
def EngState.resumes (st : EngState) : Bool :=
  match st.progress with
  | some p => p.pc == st.pc
  | none => false

/-- The repetition at which an instruction goes on (R47). -/
def EngState.repetition (st : EngState) : Option Nat := if st.resumes then st.progress.map (·.idx) else none

/-- The instruction passes: its tokens, then the engine. -/
def State.finish (s : State) (c : Nat) (e : Eng) (h : Hdr) (popped : Bool) (target : Word) : State :=
  let s := s.modCell c fun x => (if popped then x else x.takeTokens e h).pushTokens e h
  s.pass c e target

/-- Carry out what a body decided. An instruction that waits takes its pops and reserves its pushes when the wait ends and
it passes: of one that waits for a reply, R20 does not say whether its request takes them earlier (assumption log 148). -/
def conclude (h : Hdr) (s : State) (a : Act) : Host.Outcome State Fault Refusal :=
  let c := s.cur.cell
  let e := s.cur.eng
  let popped := s.me.resumes
  match a with
  | .done s' => .next ((s'.count c (0x10 + engNum e) 1).finish c e h popped (s.me.pc + 16))
  | .goto s' t => .next ((s'.count c (0x10 + engNum e) 1).finish c e h popped t)
  | .wait s' why => .next (s'.stallOn c e why)
  | .starve s' q => .next (s'.starve c e [q])
  | .hold s' => .next s'
  | .trap t => raise s c e t
  | .trapIn s' t => raise s' c e t
  | .trapAt s' inst i seed t =>
    if i = 0 && !popped then raise s c e { t with idx := some 0 }
    else
    let s' := s'.modCell c fun x => if popped then x else x.takeTokens e h
    raise (s'.modEng c e fun st => { st with progress := some { pc := st.pc, idx := i, seed, inst := some inst } }) c e
      { t with idx := some i }


/-- Mark the trap of an X instruction (R370). -/
def Act.asX : Act → Act
  | .trap t => .trap { t with x := true }
  | .trapIn s t => .trapIn s { t with x := true }
  | .trapAt s inst i seed t => .trapAt s inst i seed { t with x := true }
  | a => a

/-- Every program instruction runs in this frame: token bits that exist (R22), the slip window (R15), and for a true
predicate the scalar loads still outstanding (R113) and errors of the predicate and the scalars read; then tokens (R20), and its own
effect under a true predicate (R21). A false one reads no scalar and raises nothing (R36), and outside C it is not counted
as executed (R35; assumption log 115). -/
def issueAs (x? : Bool) (h : Hdr) (uses : List SReg) (s : State) (body : State → Act) : Host.Outcome State Fault Refusal :=
  let c := s.cur.cell
  let e := s.cur.eng
  let x := s.here
  let st := s.me
  if !tokensExist x.vup e h then raise s c e { cause := cEnc, detail := 3, x := x? }
  else if !x.windowOpen e then .next (s.stallOn c e .window)
  else if x.badPred e h.pred then raise s c e { cause := cEcc, x := x?, idx := st.repetition }
  else if st.getP h.pred != h.neg && uses.any st.loading then .next (s.stallOn c e .other)
  else if st.getP h.pred != h.neg && uses.any (fun r => x.badReg (64 * engNum e + r.toNat)) then
    raise s c e { cause := cEcc, x := x?, idx := st.repetition }
  else if !x.tokensReady e h st.resumes then .next (s.starve c e (x.starving e h))
  else if st.getP h.pred == h.neg then .next (s.finish c e h st.resumes (st.pc + 16))
  else conclude h s (if x? then (body s).asX else body s)

/-- The frame of an instruction of the engine's own tag, of the common block or of the memory block. -/
def issue (h : Hdr) (uses : List SReg) (s : State) (body : State → Act) : Host.Outcome State Fault Refusal :=
  issueAs false h uses s body

/-- The frame of an X instruction. -/
def issueX (h : Hdr) (uses : List SReg) (s : State) (body : State → Act) : Host.Outcome State Fault Refusal :=
  issueAs true h uses s body

/-- An engine may still act or trap: its cell is not frozen, or was frozen in this very cycle, in which each engine acts once
more (R37). -/
def State.unfrozen (s : State) (c : Nat) (e : Eng) : Bool :=
  e == .sup || (s.cell c).frozen.isNone || ((s.cell c).frozen == some s.cycle && (s.eng c e).acted != some s.cycle)

/-- The engine acts in this cycle; a supervisor core is frozen by none. -/
def State.acts (s : State) (c : Nat) (e : Eng) : State := if e = .sup then s else s.modEng c e fun st => { st with acted := some s.cycle }

/-- An event of the table that this state does not allow changes nothing. -/
def idle (s : State) : Host.Outcome State Fault Refusal := .next s

end Sys2Proof.Machine
end

