-- ==== Sys2Proof/Machine/Flags.lean ====
section
/-! DEFINITION. Flag and count computations: FFLAGS, SATCNT (R34, R92, R93) and the truth of a condition
(R106). -/

namespace Sys2Proof.Machine

/-- The place of an engine's group in FFLAGS (R34). -/
def flagShift : Eng → Nat
  | .s | .sup => 0 | .l => 5 | .m => 10 | .v => 15 | .w => 20

/-- Set flags of an engine's group; flags are sticky (R34). -/
def Cell.raiseFlags (x : Cell) (e : Eng) (fl : Flags) : Cell :=
  { x with fflags := x.fflags ||| (fl.setWidth 25 <<< flagShift e) }

/-- Add saturations to SATCNT, which holds at 2^64 − 1, and count them (R86, R35). -/
def Cell.addSat (x : Cell) (n : Nat) : Cell :=
  if n = 0 then x
  else ({ x with satcnt := BitVec.ofNat 64 (min (x.satcnt.toNat + n) (2 ^ 64 - 1)) }).count 0x68 n

/-- What the present cycle has set and counted so far. -/
def Cell.tallyAt (x : Cell) (now : Nat) : Tally := if x.tally.cycle = now then x.tally else { cycle := now }

/-- Remember the flags and saturations of the present cycle, which an MTS of the same cycle does not undo (R34, R93). -/
def Cell.note (x : Cell) (now : Nat) (e : Eng) (fl : Flags) (sat : Nat) : Cell :=
  let t := x.tallyAt now
  { x with tally := { t with flags := t.flags ||| (fl.setWidth 25 <<< flagShift e), sat := t.sat + sat } }

/-- Set flags and count saturations of a cell. -/
def State.effects (s : State) (c : Nat) (e : Eng) (fl : Flags) (sat : Nat) : State :=
  if fl = 0#5 && sat = 0 then s else s.modCell c fun x => ((x.raiseFlags e fl).addSat sat).note s.cycle e fl sat

/-- Flags of an S instruction: the S group of the executing cell. -/
def State.flagsS (s : State) (fl : Flags) : State := s.effects s.cur.cell .s fl 0

/-- A condition on integers of one width and on FP32 values (R106, R144). -/
def ccHolds (cc : CC) {n : Nat} (a b : BitVec n) (fa fb : Lane) : Bool :=
  let x := value32 fa
  let y := value32 fb
  match cc with
  | .eq => a == b
  | .ne => a != b
  | .lt => a.slt b
  | .ge => !a.slt b
  | .ltu => a.ult b
  | .geu => !a.ult b
  | .le => !b.slt a
  | .gt => b.slt a
  | .leu => !b.ult a
  | .gtu => b.ult a
  | .feq => fvEq x y
  | .fne => !fvEq x y
  | .flt => fvLt x y
  | .fle => fvLt x y || fvEq x y
  | .funord => x.isNan || y.isNan

/-- The condition of CMP and BRC on 64-bit operands (R106). -/
def cc64 (cc : CC) (a b : Word) : Bool := ccHolds cc a b (a.setWidth 32) (b.setWidth 32)

/-- The condition of VCMP on 32-bit lanes (R144). -/
def cc32 (cc : CC) (a b : Lane) : Bool := ccHolds cc a b a b

end Sys2Proof.Machine
end

