-- ==== Sys2Proof/Machine/Operands.lean ====
section
/-! DEFINITION. Operand forms: second sources, rounding coordinates (R84), lanes and masks (R131, R132), and
the memory image of elements (R74, R153, R155). -/

namespace Sys2Proof.Machine

/-! ## Scalars -/

/-- The value of a second source (R99). -/
def State.src (s : State) : Src → Word
  | .reg r => s.getS r
  | .imm w => w

/-- The scalar registers that a second source reads. -/
def srcRegs : Src → List SReg
  | .reg r => [r]
  | .imm _ => []

/-- The low lane of a scalar: an FP32 value (R109). -/
def lo32 (w : Word) : Lane := w.setWidth 32

/-- FP32 sum under RNE, values only (R116, R298, R412). -/
def rneAdd (a b : Lane) : Lane := (fadd a b rmRne).val

/-- The coordinate of a register result: step × 2^20 + n × 1024 + l (R84). -/
def coordReg (step n l : Nat) : Word := BitVec.ofNat 64 (step * 2 ^ 20 + n * 1024 + l)

/-- Rounding of a register result of the executing engine. -/
def State.rmReg (s : State) (mode : Rnd) (n l : Nat) : Rm := { mode, seed := s.here.seed, c := coordReg s.me.step n l }

/-- The coordinate of an element written to memory at virtual address a, high nibble or not (R84). -/
def coordMem (c : Nat) (a : Nat) (hi : Bool) : Word :=
  let h := if hi then 1 else 0
  if windowBase ≤ a && a < windowBase + 0x40000000 then
    let o := a - windowBase
    let cell := o / 0x800000
    BitVec.ofNat 64 (2 * ((cell + 128 - c) % 128 * 2 ^ 23 + o % 0x800000) + h)
  else BitVec.ofNat 64 (2 * a + h)

/-! ## Vector operands -/

/-- Operand b of a vector instruction, lane by lane (R131). -/
def State.vsrc (s : State) : VSrc → Nat → Lane
  | .vec v => let x := s.here.readV s.cur.eng s.cur.old v.toNat; fun l => lane x l
  | .sc r => let x := lo32 (s.getS r); fun _ => x
  | .imm w => fun _ => w

/-- A vector register of the executing cell by its number, as the executing engine reads it (R29). -/
def State.vrAt (s : State) (n : Nat) : List Lane := s.here.readV s.cur.eng s.cur.old n

/-- A mask register of the executing cell, as the executing engine reads it (R29). -/
def State.mr (s : State) (m : MNum) : BitVec 1024 := s.here.readM s.cur.eng s.cur.old m

/-- A vector register of the executing cell. -/
def State.vr (s : State) (v : VNum) : List Lane := s.vrAt v.toNat

/-- Write lanes of a vector register of the executing cell; of a race, the turn gives the lanes that keep the other write
(R29). Only the latest write and the value before it are kept (assumption log 119). -/
def State.setVr (s : State) (v : VNum) (mk : BitVec 1024) (x : List Lane) : State :=
  s.modHere fun y => y.putV s.cur.eng s.cur.old v.toNat mk x

/-- The scalar registers that a vector source reads. -/
def vsrcRegs : VSrc → List SReg
  | .sc r => [r]
  | _ => []

/-- Elementwise write under mask use d (R132): active lanes take the result, the others keep or clear. -/
def maskWrite (mk : BitVec 1024) (z : Bool) (old : List Lane) (f : Nat → Lane) : List Lane :=
  lanesOf fun l => if mk.getLsbD l then f l else if z then 0#32 else lane old l

/-! ## Elements in memory -/

/-- An element's place: first byte, and which nibble under a 4-bit format (R74). -/
structure Place where
  va : Word
  hi : Bool
deriving DecidableEq, Repr

/-- The place of element j of a run that starts at a byte (R74, R153). -/
def placeAt (f : Fmt) (base : Word) (j : Nat) : Place :=
  if fmtBits f = 4 then { va := base + BitVec.ofNat 64 (j / 2), hi := decide (j % 2 = 1) }
  else { va := base + BitVec.ofNat 64 (j * (fmtBits f / 8)), hi := false }

/-- The place of lane l in a contiguous or pitched image (R153). -/
def lanePlace (f : Fmt) (ea : Word) (pitch : Option Word) (l : Nat) : Place :=
  match pitch with
  | none => placeAt f ea l
  | some p => placeAt f (ea + BitVec.ofNat 64 (l / 64) * p) (l % 64)

/-- Bytes that an element touches. -/
def elemBytes (f : Fmt) : Nat := if fmtBits f = 4 then 1 else fmtBits f / 8

/-- The bit pattern of an element from the bytes it lies in. -/
def elemOf (f : Fmt) (hi : Bool) (bs : List Byte) : Nat :=
  if fmtBits f = 4 then (if hi then leNat bs / 16 else leNat bs % 16) else leNat bs

/-- The masked byte writes of one element at its keys (R153). -/
def elemPuts (f : Fmt) (hi : Bool) (ks : List Nat) (v : Nat) : List Put :=
  if fmtBits f = 4 then
    ks.map fun k => (k, (if hi then 0xF0#8 else 0x0F#8), BitVec.ofNat 8 (if hi then v % 16 * 16 else v % 16))
  else fullPuts ks (leBytes (fmtBits f / 8) v)

/-- The base address of repetition i (R155). -/
def State.runBase (s : State) (r : RunOps) (addIndex : Bool) (i : Nat) : Word :=
  s.getS r.base + (if addIndex then s.getS r.index else 0#64) + r.off.signExtend 64 +
  BitVec.ofNat 64 i * r.step.signExtend 64

/-! ## Plain accesses of an engine (R301) -/

/-- The keys that an access touches. -/
def accessKeys : Access → List Nat
  | .load ks _ | .acquire ks _ _ => ks
  | .store ps _ | .notify ps => ps.map (·.1)
  | .atomic _ _ ks _ _ _ _ => ks
  | .mark => []

/-- Two loads write one register. -/
def Dest.meets : Dest → Dest → Bool
  | .scalar a _, .scalar b _ => a == b && a != 0#6
  | .lanes a _ _ _ _, .lanes b _ _ _ _ => a == b
  | .desc a _, .desc b _ => a == b
  | _, _ => false

/-- The byte writes of a plain or notifying store. -/
def Access.puts : Access → List Put
  | .store ps _ | .notify ps => ps
  | _ => []

/-- The bytes and the destination of a load. -/
def Access.reads : Access → Option (List Nat × Dest)
  | .load ks d | .acquire ks d _ => some (ks, d)
  | _ => none

/-- A load, a store or a mark that nothing but its own queue holds back. -/
def Access.plain : Access → Bool
  | .acquire .. | .atomic .. => false
  | _ => true

/-- A releasing store. -/
def Access.releases : Access → Bool
  | .store _ rel => rel.isSome
  | _ => false

/-- An access that waits for an older one of its engine: two of one kind that share a byte or a destination; every one
after an acquiring load; an acquiring load after a releasing store; and a mark or an atomic, which stands in both queues (R13,
R115, R122, R301, R302). -/
def mustFollow (older newer : Access) : Bool :=
  match older, newer with
  | .mark, _ | _, .mark | .atomic .., _ | _, .atomic .. | .acquire .., _ => true
  | .store _ (some _), .acquire .. => true
  | a, b =>
    match a.reads, b.reads with
    | some (ks, d), some (ls, d') => ks.any ls.contains || d.meets d'
    | none, none => a.puts.any fun p => b.puts.any fun q => q.1 == p.1
    | _, _ => false

/-- The value that the bytes of a scalar load give (R111). -/
def loadValue (sext : Bool) (bs : List Byte) : Word :=
  let v := leNat bs
  if sext then BitVec.ofInt 64 (sextNat (8 * bs.length) v) else BitVec.ofNat 64 v

/-- A register image whose listed lanes, rising from lane l, take new values; the others keep or clear. -/
def fillLanes (get : Nat → Lane) (z : Bool) : Nat → List (Nat × Nat) → List Lane → List Lane
  | _, _, [] => []
  | l, (k, nib) :: els, o :: os =>
    if k = l then get nib :: fillLanes get z (l + 1) els os
    else (if z then 0#32 else o) :: fillLanes get z (l + 1) ((k, nib) :: els) os
  | l, [], o :: os => (if z then 0#32 else o) :: fillLanes get z (l + 1) [] os

/-- A scalar register of an engine takes a value that memory returns, and its recorded error goes (R435). -/
def State.returnS (s : State) (c : Nat) (e : Eng) (r : SReg) (v : Word) : State :=
  let s := s.modEng c e fun st => st.setS r v
  if (s.cell c).regErr.isEmpty then s
  else s.modCell c fun x => { x with regErr := tabSet false x.regErr (64 * engNum e + r.toNat) false }

/-- Drop the bytes of a store that lie in a live object of a peer, whose home discards them (R286). -/
def State.notPeerObject (s : State) (ps : List Put) : List Put :=
  if s.barriers.isEmpty then ps else ps.filter fun p => paClass p.1 < 2 || (s.barrierAt (p.1 / 64 * 64)).isNone

/-- The new value of an atomic over n-bit operands: old M, operand b, CAS value c (R114, R116). -/
def amoNew {n : Nat} (op : AmoOp) (m b c : BitVec n) : BitVec n :=
  match op with
  | .add => m + b
  | .and => m &&& b
  | .or => m ||| b
  | .xor => m ^^^ b
  | .min u => if (if u then b.ult m else b.slt m) then b else m
  | .max u => if (if u then m.ult b else m.slt b) then b else m
  | .xchg => b
  | .cas => if m = b then c else m
  | .fadd => (rneAdd (m.setWidth 32) (b.setWidth 32)).setWidth n
  | .fmin => (fminmax false (m.setWidth 32) (b.setWidth 32)).setWidth n
  | .fmax => (fminmax true (m.setWidth 32) (b.setWidth 32)).setWidth n

/-- Perform an atomic at given keys: the new memory and the old value, zero-extended (R115). -/
def State.atomic (s : State) (op : AmoOp) (dbl : Bool) (ks : List Nat) (b c : Word) : State × Word :=
  let old := leNat (ks.map s.view)
  if dbl then
    let m : Word := BitVec.ofNat 64 old
    (s.putsAfter (fullPuts ks (leBytes 8 (amoNew op m b c).toNat)), m)
  else
    let m : Lane := BitVec.ofNat 32 old
    (s.putsAfter (fullPuts ks (leBytes 4 (amoNew op m (lo32 b) (lo32 c)).toNat)), m.setWidth 64)

/-- An atomic at its home: a live object of a peer keeps its bytes (R286). -/
def State.atomicAt (s : State) (op : AmoOp) (dbl : Bool) (ks : List Nat) (b c : Word) : State × Word :=
  let r := s.atomic op dbl ks b c
  (if s.meetsBarrier ks then s else r.1, r.2)

/-- A list in parts of n. -/
def partsBy {α : Type} (n : Nat) : Nat → List α → List (List α)
  | 0, _ => []
  | _, [] => []
  | m + 1, l => l.take (max n 1) :: partsBy n m (l.drop (max n 1))

/-- An element that has been read ahead whole (R300). -/
def readAhead (ah : List (Nat × List Byte)) (ks : List Nat) : Option (List Byte) :=
  match ah.find? fun a => ks.all fun k => decide (a.1 ≤ k) && decide (k < a.1 + a.2.length) with
  | some a => some (ks.map fun k => a.2.getD (k - a.1) 0#8)
  | none => none

/-- The bytes of some keys, in elements of n bytes: each element as memory holds it, or as it has been read ahead (R301,
R305). -/
def State.readVia (s : State) (ah : List (Nat × List Byte)) (n : Nat) (ks : List Nat) : List Byte :=
  if ah.isEmpty then ks.map s.view
  else (partsBy n ks.length ks).flatMap fun l => (readAhead ah l).getD (l.map s.view)

/-- The bytes that a load of an engine returns. -/
def State.readFor (s : State) (c : Nat) (e : Eng) (n : Nat) (ks : List Nat) : List Byte := s.readVia (s.eng c e).ahead n ks

/-- A byte that an engine has read is never returned older by a later read of it (R301). -/
def State.spent (s : State) (c : Nat) (e : Eng) (ks : List Nat) : State :=
  if (s.eng c e).ahead.isEmpty then s
  else s.modEng c e fun st =>
    { st with ahead := st.ahead.filter fun a => !ks.any fun k => decide (a.1 ≤ k) && decide (k < a.1 + a.2.length) }

/-- A load of an engine has read some bytes: its destination takes them. -/
def State.loaded (s : State) (c : Nat) (e : Eng) (bs : List Byte) : Dest → State
  | .scalar r sx => s.returnS c e r (loadValue sx bs)
  | .desc dn image => s.modCell c fun x => { x.healReg (6000 + dn.toNat) with desc := tabSet 0#512 x.desc dn.toNat image }
  | .lanes v f raw z els =>
    let get (nib : Nat) : Lane :=
      let n := elemBytes f
      let b := elemOf f (decide (nib % 2 = 1)) ((bs.drop (nib / 2)).take n)
      if raw then BitVec.ofNat 32 b else widen f b
    s.modCell c fun x =>
      let y := x.putV e s.cur.old v.toNat
        (if z || decide (els.length = 1024) then BitVec.allOnes 1024 else BitVec.ofNat 1024 (els.foldl (fun m l => m ||| 2 ^ l.1) 0))
        (fillLanes get z 0 els (x.getV v.toNat))
      if z || decide (els.length = 1024) then y.healReg (1000 + v.toNat) else y

/-- Perform a plain access of an engine: read into its destination, or write (R300). A MARK lets no later load be older
(R122). -/
def State.performPlain (s : State) (c : Nat) (e : Eng) (a : Access) (id : Nat) : State :=
  match a with
  | .mark => s.modEng c e fun st => { st with ahead := [] }
  | .store ps rel => (s.puts ps).tagged (s.agentOf c e) rel (ps.map (·.1)) id
  | .notify ps => s.puts ps
  | .load ks d =>
    (s.spent c e ks).loaded c e (s.readFor c e (match d with | .lanes _ f .. => elemBytes f | _ => 8) ks) d
  | .acquire .. | .atomic .. => s

/-- An entry of an engine's queues has been performed: it leaves them, and what it held back retires. -/
def State.dequeue (s : State) (c : Nat) (e : Eng) (id : Nat) : State :=
  s.modCell c fun x => (x.setEng e { x.eng e with queue := (x.eng e).queue.filter fun q => q.id != id }).flush e

/-- Perform an engine's queued accesses numbered below n, in order: loads and stores alone can precede a release that has
been performed. -/
def State.performBelow (s : State) (c : Nat) (e : Eng) (n : Nat) : State :=
  ((s.eng c e).queue.filter fun q => decide (q.id < n) && q.acc.plain).foldl
    (fun s q => (s.performPlain c e q.acc q.id).dequeue c e q.id) s

/-- What precedes the releases with which an acquire of some bytes synchronises has been performed before the acquire: a
releasing store itself may have been performed before older accesses, which only an acquire within its scope must find
performed (R302–R305). -/
def State.settleDebts (s : State) (b : Agent) (sb : Scope) (ks : List Nat) : State :=
  if s.relTags.isEmpty then s
  else
    (ks.flatMap fun k => (tabGet [] s.relTags k).filter fun t => s.mutual t.1 t.2.1 b sb).eraseDups.foldl (fun s t =>
      match t.1.cell with
      | some c => if t.1.dev = some s.podDev then s.performBelow c t.1.eng t.2.2 else s
      | none => s) s

/-- An acquire of an engine has returned some bytes: no later read has been performed before it (R302), and where the scopes
say so it synchronises (R303, R304). -/
def State.acquireAt (s : State) (c : Nat) (e : Eng) (sc : Scope) (ks : List Nat) : State :=
  if s.syncsWith (s.agentOf c e) sc ks then s.acquired c e else s.modEng c e fun st => { st with ahead := [] }

/-- Perform one access of an engine. An atomic leaves its bytes to the releases before it, and orders as it says (R302,
R303). -/
def State.perform (s : State) (c : Nat) (e : Eng) (a : Access) (id : Nat) : State :=
  match a with
  | .acquire ks d sc =>
    let s := s.settleDebts (s.agentOf c e) sc ks
    (s.acquireAt c e sc ks).loaded c e (ks.map s.view) d
  | .atomic op dbl ks b c' rd o =>
    let s := match o.acq with | some sc => s.settleDebts (s.agentOf c e) sc ks | none => s
    let r := s.atomicAt op dbl ks b c'
    let t := r.1.tagged (s.agentOf c e) o.rel ks
    let t := match o.acq with
      | some sc => if s.syncsWith (s.agentOf c e) sc ks then t.acquired c e else t.modEng c e fun st => { st with ahead := [] }
      | none => t.spent c e ks
    t.returnS c e rd r.2
  | a => s.performPlain c e a id

/-- Memory that a failed switch or a peer that has left takes no write of (R390, R403). -/
def State.lostKey (s : State) (k : Nat) : Bool :=
  match paClass k with
  | 2 | 3 => s.peerGone k
  | 4 => s.poolGone k
  | _ => false

/-- The target of a notifying store's byte refuses it (R171, R390, R393, R401, R406); bytes of the storing cell's own slice
were checked as it issued (R175). -/
def State.noteCheck (s : State) (c k : Nat) : Option (BitVec 8) :=
  if paClass k = 1 && k / 0x800000 % 128 = c then none else s.homeCheck (s.cell c).asid k

/-- The virtual address of a key of a queued access. -/
def Queued.va (q : Queued) (k : Nat) : Word :=
  match q.places.find? fun p => decide (p.1 ≤ k) && decide (k < p.1 + 8) with
  | some p => p.2 + BitVec.ofNat 64 (k - p.1)
  | none => 0#64

/-- The home of a notifying store refuses bytes: the STF that they belong to keeps the first refusal (R406). -/
def Cell.noteRefused (x : Cell) (id : Nat) (va : Word) (cause : BitVec 8) : Cell :=
  match findIdx? (fun f => f.issuing || decide (id < f.stamp)) x.stfs with
  | none => x
  | some i =>
    { x with stfs := x.stfs.zipIdx.map fun p => if p.2 = i then { p.1 with bad := p.1.bad.or (some (va, cause)) } else p.1 }

/-- An access reaches its homes and is performed: whatever would change a home's answer first lets what has passed its checks
be performed (`State.drainQueues`), so a fault stays precise (R113, R156). Only what R403, R406 and R409 leave to the reply differs:
a store to lost memory has no effect, an atomic whose switch has failed raises a deferred POOL_LOST, and of a notifying
store's bytes the refused ones do not land. -/
def State.land (s : State) (c : Nat) (e : Eng) (q : Queued) : State :=
  match q.acc with
  | .notify ps =>
    let t := s.puts (ps.filter fun p => (s.noteCheck c p.1).isNone)
    match ps.findSome? fun p => (s.noteCheck c p.1).map fun d => (p.1, d) with
    | some (k, d) => t.modCell c fun x => x.noteRefused q.id (q.va k) d
    | none => t
  | .store ps rel => s.perform c e (.store (ps.filter fun p => !s.lostKey p.1) rel) q.id
  | .atomic _ _ ks .. =>
    match ks.find? s.lostKey with
    | some k => s.modEng c e fun st => { st with deferred := st.deferred ++ [{ cause := cPoolLost, deferred := true, addr := q.va k }] }
    | none => s.perform c e q.acc q.id
  | a => s.perform c e a q.id

/-- Perform the queued accesses of an engine that meet a condition, and those that they must follow. -/
def State.drainEng (s : State) (p : Queued → Bool) (c : Nat) (e : Eng) : State :=
  ((s.eng c e).queue.foldr (fun a acc => if p a || acc.any (fun b => mustFollow a.acc b.acc) then a :: acc else acc) []).foldl
    (fun s a => (s.land c e a).dequeue c e a.id) s

/-- A home is about to answer otherwise for some bytes: the queued accesses of them, which passed their checks as they
issued, are performed first. -/
def State.drainQueues (s : State) (p : Queued → Bool) : State :=
  s.cells.foldl (fun s x => [Eng.s, .l, .m, .v, .w, .sup].foldl (fun s e => s.drainEng p x.1 e) s) s

/-- Perform every queued access of some bytes. -/
def State.drainKeys (s : State) (p : Nat → Bool) : State := s.drainQueues fun q => (accessKeys q.acc).any p

/-- Perform every queued load of some bytes. -/
def State.drainLoads (s : State) (p : Nat → Bool) : State :=
  s.drainQueues fun q => match q.acc.reads with | some (ks, _) => ks.any p | none => false

/-- Issue an access, given the first key and virtual address of each of its elements: performed now, or queued when the
schedule says so or an older access stands before it. -/
def State.access (s : State) (places : List (Nat × Word)) (a : Access) : State :=
  let c := s.cur.cell
  let e := s.cur.eng
  let st := s.me
  if s.cur.wait || st.queue.any (fun q => mustFollow q.acc a) then
    s.modMe fun st => { st with queue := st.queue ++ [{ id := st.nextId, acc := a, places }], nextId := st.nextId + 1 }
  else
    match a with
    | .notify _ => s.land c e { id := st.nextId, acc := a, places }
    | _ => s.perform c e a st.nextId

/-- The engine's earlier accesses have all been performed. -/
def State.quiet (s : State) : Bool := s.me.queue.isEmpty

/-- A queued release store, or an atomic, stands before a later acquire (R302). -/
def EngState.releasing (st : EngState) : Bool :=
  st.queue.any fun q => match q.acc with | .atomic .. => true | a => a.releases

/-- A read of these bytes that does not wait in the queue lets the older loads of them go first (R301). -/
def EngState.loadBlocked (st : EngState) (ks : List Nat) : Bool :=
  st.queue.any fun q => mustFollow q.acc (.load ks (.scalar 0#6 false))

/-- Count the translations of some addresses that the caches do not hold: a miss of the micro-TLB, one of the cell's TLB
and a walk for each page of 64 KiB (R35, R367). -/
def State.countWalks (s : State) (c : Nat) (vas : List Word) : State :=
  if (s.cell c).pevsel.isEmpty then s
  else
    let asid := (s.cell c).asid
    let missed := (vas.map (·.toNat)).filter fun a => !inWindows a && (s.cur.walk.contains (a / 8) || !s.tlb.any fun t => t.covers asid a)
    let n := (missed.map (· / 0x10000)).eraseDups.length
    ((s.count c 0x48 n).count c 0x49 n).count c 0x4A n

/-- Count the bytes of an access by the path they take, and its walks (R35). -/
def State.countBytes (s : State) (c : Nat) (vas : List Word) (ks : List Nat) : State :=
  if (s.cell c).pevsel.isEmpty then s
  else ks.foldl (fun s k =>
    let ev := match paClass k with
      | 0 => 0x5A
      | 1 => if k / 0x800000 % 128 = c then 0x58 else 0x59
      | 4 => 0x5C
      | _ => 0x5B
    s.count c ev 1) (s.countWalks c vas)

end Sys2Proof.Machine
end

