-- ==== Sys2Proof/Machine/Sync.lean ====
section
/-! DEFINITION. Barriers, atomics and the fixed tree (04 R114–R117, 05 R145, 11 R284–R298): the operations at an
object's owning half, and the barrier instructions over them. -/

namespace Sys2Proof.Machine

/-! ## The fixed tree (R145) -/

/-- Tree over 2^d values from `lo`, nodes numbered in heap order from j; absent values leave no node. -/
def treeOf {α : Type} (op : Nat → α → α → α) (get : Nat → Option α) : Nat → Nat → Nat → Option α
  | 0, _, lo => get lo
  | d + 1, j, lo =>
    match treeOf op get d (2 * j) lo, treeOf op get d (2 * j + 1) (lo + 2 ^ d) with
    | none, r => r
    | l, none => l
    | some l, some r => some (op j l r)

/-- The least d with n ≤ 2^d. -/
def treeDepth (n : Nat) : Nat := if n ≤ 1 then 0 else Nat.log2 (n - 1) + 1

/-- The RNE tree sum of a list. -/
def treeSum (vs : List Lane) : Option Lane := treeOf (fun _ => rneAdd) (fun i => vs[i]?) (treeDepth vs.length) 1 0

/-! ## Barrier objects at their owning half -/

/-- The owning half of a byte: 0 and 1 here, further numbers for the halves of peers (R284). -/
def halfOf (k : Nat) : Nat :=
  match paClass k with
  | 1 => if k / 0x800000 % 128 < 40 then 0 else 1
  | 2 => 2 + 2 * (k / 2 ^ 40 % 64) + (if stackOf k < 4 then 0 else 1)
  | 3 => 2 + 2 * (k / 2 ^ 40 % 64) + (if k / 0x800000 % 128 < 40 then 0 else 1)
  | _ => if stackOf k < 4 then 0 else 1

/-- The owning half of a byte; minimal mode has one half alone (R284, R431). -/
def State.halfAt (s : State) (k : Nat) : Nat :=
  if s.minimal && paClass k < 2 then (if s.mc.half then 1 else 0) else halfOf k

/-- Lines of sync memory that an object takes: its own, and one for each waiter record and each contribution of a
reduction in progress (R287). -/
def Barrier.lines (b : Barrier) : Nat := 1 + b.waiters.length + b.contribs.length

/-- A half of this device has n further lines for objects, waiter records and reductions; those of a peer's half are the
peer's own (R287). -/
def State.linesFree (s : State) (half n : Nat) : Bool :=
  decide (2 ≤ half) ||
  decide (((s.barriers.filter fun o => s.halfAt o.pa == half).map Barrier.lines).foldl (· + ·) n ≤ Config.syncLines)

/-- Replace the object of one line. -/
def State.setBarrier (s : State) (b : Barrier) : State :=
  { s with barriers := s.barriers.map fun o => if o.pa = b.pa then b else o }

/-- The agent that waits. -/
def State.waiterAgent (s : State) (w : Waiter) : Agent :=
  match w.peer with
  | none => s.agentOf w.cell w.eng
  | some d => { dev := some d }

/-- The completion of a phase synchronises with an agent that observes it: one that arrived in it lies in the scope of
the object, and so does the observer (R303, R304). -/
def State.phaseSyncs (s : State) (b : Barrier) (phase : BitVec 32) (a : Agent) : Bool :=
  match scopeOf? b.scope with
  | none => false
  | some sc => b.arrivers.any fun p => p.1 == phase && s.mutual p.2 sc a sc

/-- Send the releases of some waiters; a peer's waiter is answered over the fabric. -/
def State.release (s : State) (pa : Nat) (ok : Bool) (ws : List Waiter) (sync : Waiter → Bool := fun _ => false) : State :=
  { s with released := s.released ++ (ws.filter fun w => w.peer.isNone).map fun w => { waiter := w, pa, ok, sync := sync w } }

/-- Bytes of an object's image, which a release at a scope writes (R289, R302, R303): acquires of them synchronise with it,
and with what wrote them before when an arrival keeps their place as an atomic does. -/
def State.imageTagged (s : State) (who : Agent) (sc : Option Scope) (pa : Nat) : State :=
  s.tagged who sc ((List.range 64).map (pa + ·))

/-- The 64 bytes that an object leaves in memory when it dies: its last image with live cleared (R286). -/
def State.bury (s : State) (b : Barrier) : State :=
  let s := { s with barriers := s.barriers.filter fun o => o.pa != b.pa }
  s.storeRun b.pa (leBytes 64 (b.image - 2 ^ 11))

/-- Key order of contributions (R298). -/
def Contribution.before (a b : Contribution) : Bool :=
  decide ((a.dev.toNat, a.cell, a.ordinal).1 < b.dev.toNat) ||
  (a.dev == b.dev && (decide (a.cell < b.cell) || (a.cell == b.cell && decide (a.ordinal < b.ordinal))))

/-- Insert in key order. -/
def insertContrib (c : Contribution) : List Contribution → List Contribution
  | [] => [c]
  | d :: r => if c.before d then c :: d :: r else d :: insertContrib c r

/-- Add one tree's sum to its target as an atomic, which releases for the contributions that do (R117, R303), or drop the
update; an owning half of this device then posts event 0x0202 (R298). -/
def State.treeUpdate (s : State) (half target : Nat) (cs : List Contribution) : State :=
  let vs := cs.map (·.val)
  let ks := (List.range 4).map (target + ·)
  let dropped (why : Nat) : State := if half < 2 then s.post 0x0202#16 (2 + half) half target why else s
  let lost := (paClass target = 2 || paClass target = 3) && tabGet false s.fab.out (peerOf target) ||
    paClass target = 4 && ((s.regionAt target).isNone || s.poolGone target)
  if s.meetsBarrier ks then dropped 1
  else if lost then dropped 3
  else if ks.any s.bad then (dropped 2).errorAt ((ks.find? s.bad).getD target)
  else
    match treeSum vs with
    | none => s
    | some root =>
      cs.foldl (fun t c => match c.rel with | some r => t.tagged r.1 (some r.2.1) ks r.2.2 | none => t)
        (s.putsAfter (fullPuts ks (leBytes 4 (rneAdd (BitVec.ofNat 32 (leNat (ks.map s.byte))) root).toNat)))

/-- Every tree of a phase, one for each address that its contributions name, written in the order of their first
contributions. -/
def State.applyTrees (s : State) (half : Nat) (cs : List Contribution) : State :=
  let sorted := cs.foldr insertContrib []
  (sorted.map fun c => (c.ea, c.target)).eraseDups.foldl
    (fun s t => s.treeUpdate half t.2 (sorted.filter fun c => c.ea == t.1 && c.target == t.2)) s

/-- Complete() of R291; three rounds suffice, since a completed phase leaves at most one more open and full. -/
def State.complete (s : State) (pa : Nat) : Nat → State
  | 0 => s
  | n + 1 =>
    match s.barrierAt pa with
    | none => s
    | some b =>
      if b.arrivals = b.expected ∧ b.pending = 0#40 then
        let s := s.applyTrees (s.halfAt pa) (b.contribs.filter fun c => !c.early)
        let woken := b.waiters.filter fun w => w.phase == b.phase
        let b' := { b with
          phase := b.phase + 1, arrivals := b.early, early := 0
          waiters := b.waiters.filter fun w => w.phase != b.phase
          contribs := (b.contribs.filter fun c => c.early).map fun c => { c with early := false } }
        ((s.setBarrier b').release pa true woken fun w => s.phaseSyncs b b.phase (s.waiterAgent w)).complete pa n
      else s

/-- The false release that an agent's BAR.INIT sends to a waiter synchronises with it (R292): each lies in the scope of the
object that ends. -/
def State.endSyncs (s : State) (who : Agent) (b : Barrier) (w : Waiter) : Bool :=
  match scopeOf? b.scope with
  | none => false
  | some sc => s.mutual who sc (s.waiterAgent w) sc

/-- BAR.INIT at the owning half (R289): the detail of BAR_CORRUPT, or the new state. What the queues hold for the line
reaches it first, and the image that it writes is a release at the new scope. -/
def State.barInit (s : State) (who : Agent) (pa : Nat) (n b : Word) (scope tag : BitVec 3) (wire : Bool) : Except Nat State :=
  if n.toNat = 0 ∨ n.toNat ≥ 2 ^ 24 then .error 6
  else if b.toInt < -(2 ^ 39) ∨ b.toInt ≥ 2 ^ 39 then .error 2
  else if wire ∧ s.barriers.any (fun o => o.wire && o.tag == tag && o.pa != pa && s.halfAt o.pa == s.halfAt pa) then .error 5
  else
    let new : Barrier :=
      { pa, phase := 0#32, pending := b.setWidth 40, early := 0, arrivals := 0, expected := n.toNat, wire, tag, scope
        waiters := [], contribs := [] }
    let written (s : State) : State :=
      ({ s with ecc := s.ecc.filter fun u => !(decide (pa ≤ u.1) && decide (u.1 < pa + 64)) }.untagged
        ((List.range 64).map (pa + ·))).imageTagged who (scopeOf? scope) pa
    match s.barrierAt pa with
    | some old => .ok (written ((s.release pa false old.waiters (s.endSyncs who old)).setBarrier new))
    | none =>
      if !s.linesFree (s.halfAt pa) 1 then .error 7
      else
        let s := s.drainKeys fun k => k / 64 * 64 == pa
        .ok (written { s with barriers := s.barriers ++ [new] })

/-- BAR.INIT.inv (R289): the bytes that it leaves are a release at the scope of the object that ends. -/
def State.barInv (s : State) (who : Agent) (pa : Nat) : State :=
  match s.barrierAt pa with
  | none => s
  | some b =>
    (((s.release pa false b.waiters (s.endSyncs who b)).bury b).untagged ((List.range 64).map (pa + ·))).imageTagged who
      (scopeOf? b.scope) pa

/-- An agent has arrived in a phase of an object. -/
def Barrier.met (b : Barrier) (phase : BitVec 32) (a : Agent) : Barrier :=
  if b.arrivers.contains (phase, a) then b else { b with arrivers := b.arrivers ++ [(phase, a)] }

/-- An arrival of an agent (R290), with bytes to add and, for a tree reduction, its contribution (R298): the detail of
BAR_CORRUPT, or the new state and the phase counted. -/
def State.arrive (s : State) (who : Agent) (pa : Nat) (add : Int) (tree : Option Contribution) :
    Except Nat (State × BitVec 32) :=
  match s.barrierAt pa with
  | none => .error 4
  | some b =>
    let p := b.pending.toInt + add
    if p < -(2 ^ 39) ∨ p ≥ 2 ^ 39 then .error 2
    else if b.arrivals ≥ b.expected ∧ b.early ≥ b.expected then .error 3
    else
      let isEarly := decide (b.arrivals ≥ b.expected)
      let phase := if isEarly then b.phase + 1 else b.phase
      let contribs := match tree with
        | none => b.contribs
        | some t =>
          let ord := (b.contribs.filter fun c => c.early == isEarly && c.dev == t.dev && c.cell == t.cell).length
          b.contribs ++ [{ t with ordinal := ord, early := isEarly }]
      let b' := { b with
        arrivals := if isEarly then b.arrivals else b.arrivals + 1
        early := if isEarly then b.early + 1 else b.early
        pending := BitVec.ofInt 40 p, contribs }
      .ok (((s.setBarrier (b'.met phase who)).imageTagged who (scopeOf? b.scope) pa).complete pa 3, phase)

/-- Bytes of a copy of an agent land: the object's pending count falls, modulo 2^40, if an object stands there (R205,
R290). -/
def State.countOff (s : State) (who : Agent) (pa n : Nat) : State :=
  match s.barrierAt pa with
  | none => s
  | some b => (s.setBarrier ({ b with pending := b.pending - BitVec.ofNat 40 n }.met b.phase who)).complete pa 3

/-- The status word of BAR.TEST (R293). -/
def Barrier.status (b : Barrier) : Word :=
  BitVec.ofNat 64 (b.phase.toNat + b.arrivals % 2 ^ 24 * 2 ^ 32 + 2 ^ 56 + (if b.pending = 0#40 then 0 else 2 ^ 57))

/-! ## Waits that releases, fences and the barrier instructions share -/

/-- Every earlier access of the executing engine has been performed: its queues, for M its commands, for W its
notifying stores (R290, R121). -/
def State.settled (s : State) : Bool :=
  s.quiet &&
  (match s.cur.eng with
   | .m => s.here.mcmds.isEmpty
   | .w => s.here.stfs.isEmpty
   | _ => true)

/-- The key of a barrier object named by an instruction, checked under R284. -/
def State.barrierKey (s : State) (va : Word) : Except TrapRec Nat :=
  if va.toNat % 64 ≠ 0 then .error { cause := cAlign, addr := va }
  else
    match s.span .barrier va 1 with
    | .error t => .error t
    | .ok ks =>
      let k := ks.headD 0
      if paClass k = 4 || paClass k = 8 then .error { cause := cPerm, addr := va }
      else .ok k

/-- The trap of an operation that reads a live object's line of sync memory with an uncorrectable error (R435). -/
def State.lineTrap (s : State) (va : Word) (k : Nat) : Option TrapRec :=
  if (s.barrierAt k).isNone then none else s.eccTrap va ((List.range 64).map (k + ·))

/-- The trap of a refused barrier operation (R295); no virtual address is at fault in it (R370). -/
def barTrap (detail : Nat) : TrapRec := { cause := cBar, detail }

/-- The request leaves when the schedule says that its reply waits; the engine then stands at it (R294). -/
def State.sent (s : State) (i : Instr) : Bool := s.cur.wait && s.me.flight != some i

/-- The engine stands at an instruction whose request is on its way. -/
def State.send (s : State) (i : Instr) : Act := .hold (s.modMe fun st => { st with flight := some i })

/-- The executing engine observes completed phases of an object, of which it synchronises with some: an acquire (R302–R304). -/
def State.phaseObserved (s : State) (syncs : Bool) : State :=
  if syncs then s.acquired s.cur.cell s.cur.eng else s.modMe fun st => { st with ahead := [] }

/-- BAR.WAIT finds the phase that it names complete (R292). -/
def State.observePhase (s : State) (b : Barrier) (phase : BitVec 32) : State :=
  s.phaseObserved (phase != b.phase + 1 && s.phaseSyncs b phase (s.agentOf s.cur.cell s.cur.eng))

/-- BAR.TEST reports every phase of the object before the open one as completed (R293). -/
def State.observeAll (s : State) (b : Barrier) : State :=
  s.phaseObserved ((b.arrivers.filter fun p => p.1 != b.phase && p.1 != b.phase + 1).any fun p =>
    s.phaseSyncs b p.1 (s.agentOf s.cur.cell s.cur.eng))

/-- What a barrier instruction does, at issue or when its request reaches the owning half (R289–R293); no acquire passes
an earlier release of its engine (R302). -/
def barBody (i : Instr) (s : State) : Act :=
  let go (va : Word) (f : Nat → Act) : Act :=
    match s.barrierKey va with
    | .error t => .trap t
    | .ok k =>
      if s.me.releasing then .wait s .other
      else if s.sent i then s.send i
      else
        match s.lineTrap va k with
        | some t => .trap t
        | none => f k
  let arrival (va : Word) (sd : SReg) (add : Int) : Act :=
    match s.barrierKey va with
    | .error t => .trap t
    | .ok k =>
      if !s.settled then .wait s .other
      else if s.sent i then s.send i
      else
        match s.lineTrap va k, s.arrive (s.agentOf s.cur.cell s.cur.eng) k add none with
        | some t, _ => .trap t
        | none, .error d => .trap (barTrap d)
        | none, .ok (s', ph) => .done (s'.setS sd (ph.setWidth 64))
  match i with
  | .barInit _ _ sa sb sc imm scope tag wire =>
    let va := s.getS sa + imm
    match s.barrierKey va with
    | .error t => .trap t
    | .ok k =>
      if !s.settled then .wait s .other
      else if s.sent i then s.send i
      else
        match s.barInit (s.agentOf s.cur.cell s.cur.eng) k (s.getS sb) (s.getS sc) (scopeCode scope) tag wire with
        | .error d => .trap (barTrap d)
        | .ok s' => .done s'
  | .barInitInv _ _ sa imm =>
    let va := s.getS sa + imm
    match s.barrierKey va with
    | .error t => .trap t
    | .ok k =>
      if !s.settled then .wait s .other
      else if s.sent i then s.send i
      else
        match s.lineTrap va k with
        | some t => .trap t
        | none => .done (s.barInv (s.agentOf s.cur.cell s.cur.eng) k)
  | .barArv _ _ sd sa imm => arrival (s.getS sa + imm) sd 0
  | .barArvx _ _ sd sa sb imm => arrival (s.getS sa + imm) sd (s.getS sb).toInt
  | .barWait _ _ pd sa sb imm =>
    go (s.getS sa + imm) fun k =>
      let want : BitVec 32 := (s.getS sb).setWidth 32
      match s.barrierAt k with
      | none => .done (s.setP pd false)
      | some b =>
        if b.phase ≠ want then .done ((s.observePhase b want).setP pd true)
        else if !s.linesFree (s.halfAt k) 1 then .wait s .barrier
        else
          let w : Waiter := { cell := s.cur.cell, eng := s.cur.eng, phase := want, peer := none }
          let s' := s.setBarrier { b with waiters := b.waiters ++ [w] }
          .wait (s'.modMe fun st => { st with flight := some i }) .barrier
  | .barTest _ _ sd sa imm =>
    go (s.getS sa + imm) fun k =>
      match s.barrierAt k with
      | none => .done (s.setS sd 0#64)
      | some b => .done ((s.observeAll b).setS sd b.status)
  | _ => .wait s .other

/-- The plain part of a watch, translation and error check that an atomic makes (R114, R365, R378); a tree
contribution reads nothing at issue, so it meets no error there (R298). -/
def State.atomicKeys (s : State) (reads : Bool) (va : Word) (n : Nat) : Except TrapRec (List Nat) :=
  if va.toNat % n ≠ 0 then .error { cause := cAlign, addr := va }
  else
    match s.span .atomic va n with
    | .error t => .error t
    | .ok ks =>
      if ks.any (fun k => paClass k = 8) then .error { cause := cPerm, addr := va }
      else if s.meetsBarrier (ks.filter fun k => paClass k < 2) then .error { cause := cBar, detail := 1, addr := va }
      else
        match s.watchTrap true true va n with
        | some t => .error t
        | none =>
          match (if reads then s.eccTrap va ks else none) with
          | some t => .error t
          | none => .ok ks

/-- AMO.FADD.tree: a contribution that counts as an arrival (R117, R298), and that waits for a line at the owning half
(R287). -/
def treeBody (i : Instr) (s : State) : Act :=
  match i with
  | .amoFaddTree _ sa sb sc imm rel scope =>
    let bar := s.getS sc
    let ea := s.getS sa + imm
    match s.atomicKeys false ea 4 with
    | .error t => .trap t
    | .ok ks =>
      match s.barrierKey bar with
      | .error t => .trap t
      | .ok k =>
        if !s.settled then .wait s .other
        else if s.sent i then s.send i
        else if (s.barrierAt k).isSome && !s.linesFree (s.halfAt k) 1 then .wait s .other
        else
          let who := s.agentOf s.cur.cell s.cur.eng
          match s.lineTrap bar k with
          | some t => .trap t
          | none =>
          match s.arrive who k 0 (some { target := ks.headD 0, ea, dev := s.podDev, cell := s.cur.cell, ordinal := 0, early := false
                                         val := (s.getS sb).setWidth 32, rel := if rel then some (who, scope, 0) else none }) with
          | .error d => .trap (barTrap d)
          | .ok (s', _) => .done (s'.count s.cur.cell 0x60 1)
  | _ => .wait s .other

/-- The header of an instruction that leaves requests. -/
def hdrOfInstr : Instr → Hdr
  | .barInit _ h _ _ _ _ _ _ _ | .barInitInv _ h _ _ | .barArv _ h _ _ _ | .barArvx _ h _ _ _ _
  | .barWait _ h _ _ _ _ | .barTest _ h _ _ _ | .ringWf _ h _ _ _ _ | .ringWe _ h _ _ _ _ | .ringClm _ h _ _ _ _
  | .ringPub _ h _ _ _ _ | .ringPop _ h _ _ _ _ | .amoAdd h _ | .amoAnd h _ | .amoOr h _ | .amoXor h _
  | .amoMin h _ _ | .amoMax h _ _ | .amoXchg h _ | .amoCas h _ _ | .amoFadd h _ | .amoFaddTree h _ _ _ _ _ _
  | .amoFmin h _ | .amoFmax h _ => h
  | _ => { rp := false, fp := false, rq := false, fq := false, pred := 15#4, neg := false }

/-! ## The barrier instructions (R288–R294) -/

/-- BAR.INIT. -/
def execBarInit (e : Eng) (h : Hdr) (sa sb sc : SReg) (imm : Word) (scope : Scope) (tag : BitVec 3) (wire : Bool)
    (s : State) : Host.Outcome State Fault Refusal :=
  issue h [sa, sb, sc] s (barBody (.barInit e h sa sb sc imm scope tag wire))

/-- BAR.INIT.inv. -/
def execBarInitInv (e : Eng) (h : Hdr) (sa : SReg) (imm : Word) (s : State) : Host.Outcome State Fault Refusal :=
  issue h [sa] s (barBody (.barInitInv e h sa imm))

/-- BAR.ARV. -/
def execBarArv (e : Eng) (h : Hdr) (sd sa : SReg) (imm : Word) (s : State) : Host.Outcome State Fault Refusal :=
  issue h [sd, sa] s (barBody (.barArv e h sd sa imm))

/-- BAR.ARVX. -/
def execBarArvx (e : Eng) (h : Hdr) (sd sa sb : SReg) (imm : Word) (s : State) : Host.Outcome State Fault Refusal :=
  issue h [sd, sa, sb] s (barBody (.barArvx e h sd sa sb imm))

/-- BAR.WAIT. -/
def execBarWait (e : Eng) (h : Hdr) (pd : PReg) (sa sb : SReg) (imm : Word) (s : State) :
    Host.Outcome State Fault Refusal :=
  issue h [sa, sb] s (barBody (.barWait e h pd sa sb imm))

/-- BAR.TEST. -/
def execBarTest (e : Eng) (h : Hdr) (sd sa : SReg) (imm : Word) (s : State) : Host.Outcome State Fault Refusal :=
  issue h [sd, sa] s (barBody (.barTest e h sd sa imm))

/-! ## Events of the sync engines -/

/-- An engine in an event: its cell must run, and the event then acts as that engine. -/
def State.asEngine (s : State) (c : Nat) (e : Eng) : State :=
  { s with cur := { s.cur with cell := c, eng := e, wait := false } }

/-- A barrier request reaches the owning half, acts, and its reply returns (R294). -/
def execBarrierOperation (c : Nat) (e : Eng) (s : State) : Host.Outcome State Fault Refusal :=
  if !s.unfrozen c e || !(s.eng c e).deferred.isEmpty then idle s
  else
    let s := (s.acts c e).asEngine c e
    match s.me.flight with
    | some i =>
      match i with
      | .barInit .. | .barInitInv .. | .barArv .. | .barArvx .. | .barTest .. => conclude (hdrOfInstr i) s (barBody i s)
      | .amoFaddTree .. => conclude (hdrOfInstr i) s (treeBody i s)
      | .barWait .. =>
        if s.me.stall = .barrier then idle s else conclude (hdrOfInstr i) s (barBody i s)
      | _ => idle s
    | none => idle s

/-- A release reaches its waiter (R292, R296). -/
def execBarWaitRelease (c : Nat) (e : Eng) (s : State) : Host.Outcome State Fault Refusal :=
  if !s.unfrozen c e || !(s.eng c e).deferred.isEmpty then idle s
  else
  let s := (s.acts c e).asEngine c e
  match s.me.flight with
  | some (.barWait e' h pd sa sb imm) =>
    match findIdx? (fun r => r.waiter.peer.isNone && r.waiter.cell == c && r.waiter.eng == e) s.released with
    | none => idle s
    | some n =>
        let ok := (s.released[n]?.map (·.ok)).getD false
        let sync := (s.released[n]?.map (·.sync)).getD false
        let _ := (e', sa, sb, imm)
        let t := { s with released := dropAt s.released n }
        conclude h s (.done ((if ok || sync then t.phaseObserved sync else t).setP pd ok))
  | _ => idle s

end Sys2Proof.Machine
end

