-- ==== Sys2Proof/Machine/Tgu.lean ====
section
/-! DEFINITION. The task graph unit (14 R335–R359): records and their status words, launch queues, parking,
successors, issue, placement on cells, the start and the end of iterations, cancelling and stealing. -/

namespace Sys2Proof.Machine

/-! ## The device as the TGU sees it -/

/-- Cells of the device (R3, R431). -/
def State.cellCount (s : State) : Nat := if s.minimal then 8 else Config.cells

/-- The compute side runs: a start has succeeded and the arithmetic clock turns (R428, R441). -/
def State.awake (s : State) : Bool := (s.mc.state == 1#4 || s.mc.state == 2#4) && s.mc.power == .run && !s.mc.exiting

/-- Send a message to another device's TGU. -/
def State.tell (s : State) (m : Message) : State := { s with tgu := { s.tgu with sent := s.tgu.sent ++ [m] } }

/-- A block other than the management block answers the host (R428, R441). -/
def State.open (s : State) : Bool := (s.mc.state == 1#4 || s.mc.state == 2#4) && s.mc.power != .off

/-- The arithmetic clock turns: in the run state alone, and not while an exit from another is on its way (R441). -/
def State.clocked (s : State) : Bool := s.mc.power == .run && !s.mc.exiting

/-- The keys of n bytes of a context's address space for an access of the TGU, or the cause. No cell's spill
space belongs to the TGU. -/
def State.tguSpan (s : State) (asid : BitVec 14) (need : Need) (va n : Nat) : Except (BitVec 8) (List Nat) :=
  (List.range n).foldr (fun i acc =>
    let a := (va + i) % 2 ^ 64
    match (if spillBase ≤ a && a < 2 ^ 57 then .error cXlate else s.resolve Config.cells asid need a) with
    | .error c => .error c
    | .ok k =>
      match acc with
      | .error c => .error c
      | .ok ks => if s.bad k then .error cEcc else .ok (k :: ks)) (.ok [])

/-- The TGU as an agent. -/
def State.tguAgent (s : State) : Agent := { dev := some s.podDev }

/-- The first uncorrectable error among n bytes that the TGU accesses, in the bytes or on the way of a walk (R435). -/
def State.tguBad (s : State) (asid : BitVec 14) (need : Need) (va n : Nat) : Option Nat :=
  (List.range n).findSome? fun i =>
    let a := (va + i) % 2 ^ 64
    match s.resolve Config.cells asid need a with
    | .ok k => if s.bad k then some k else none
    | .error c => if c = cEcc then some ((s.walkError asid a).getD 0) else none

/-- An access of the TGU has failed: an uncorrectable error counts and posts its event (R435, R443). -/
def State.tguMeets (s : State) (asid : BitVec 14) (need : Need) (va n : Nat) (cause : BitVec 8) : State :=
  if cause = cEcc then s.errorAt ((s.tguBad asid need va n).getD 0) else s

/-- A free cell: no iteration, none placed, none loaded, not reserved (R346). -/
def Cell.free (x : Cell) : Bool := x.iter.isNone && x.starting.isNone && !x.reserved && x.frozen.isNone

/-- The free cells of the device, ascending. -/
def State.freeCells (s : State) : List Nat := (List.range s.cellCount).filter fun c => (s.cell c).free

/-- Change the TGU. -/
def State.modTgu (s : State) (f : Tgu → Tgu) : State := { s with tgu := f s.tgu }

/-- A record that the TGU holds, by number. -/
def State.rec? (s : State) (id : Nat) : Option Rec := s.tgu.recs.find? fun r => r.id == id

/-- Change a record that the TGU holds. -/
def State.modRec (s : State) (id : Nat) (f : Rec → Rec) : State :=
  s.modTgu fun t => { t with recs := t.recs.map fun r => if r.id = id then f r else r }

/-- The TGU lets a record go, and knows that it has ended (R337); completeRec forgets one that is complete, which no later
failure reaches. -/
def State.dropRec (s : State) (id : Nat) : State :=
  s.modTgu fun t => { t with
    recs := t.recs.filter fun r => r.id != id, gang := if t.gang = some id then none else t.gang
    ended := ((t.recs.filter fun r => r.id == id && r.origin.isNone).map fun r => (r.f.asid, r.va)) ++ t.ended }

/-! ## Records and status words (R335–R337) -/

/-- A field of a record's bytes. -/
def field (bs : List Byte) (off n : Nat) : Nat := leNat ((bs.drop off).take n)

/-- The doublewords of a byte range. -/
def dwords (bs : List Byte) (off n : Nat) : List Word := (List.range n).map fun i => BitVec.ofNat 64 (field bs (off + 8 * i) 8)

/-- Read a record's fields in the ASID of its submitter, under R336: the fields, or the detail of the failure. -/
def parseRecord (asid : BitVec 14) (bs : List Byte) : Except Nat RecFields :=
  let w := field bs 0x1C 2
  let ctl := field bs 0x1F 1
  let ndim := field bs 0x1E 1
  let gang := field bs 0x20 1
  let bmode := field bs 0x21 1
  let nsucc := field bs 0x2C 4
  let place := ctl % 4
  let steal := decide (ctl / 16 % 2 = 1)
  let given := decide (w / 2 ^ 14 % 2 = 1)
  let named := w % 2 ^ 14
  if field bs 0 8 % 16 ≠ 0 || field bs 0x18 4 > 0x400000 || w / 2 ^ 15 ≠ 0 || (!given && named ≠ 0) || ndim > 6 ||
     ctl / 64 ≠ 0 || place = 3 || (if place = 2 then gang = 0 || gang > 80 || steal else gang ≠ 0) ||
     bmode / 2 ^ ndim ≠ 0 || field bs 0x22 2 ≠ 0 || nsucc > 4 ||
     ((dwords bs 0x30 4).drop nsucc).any (· != 0#64) || ((dwords bs 0x50 6).drop ndim).any (· != 0#64) then .error 1
  else if given && named ≠ asid.toNat then .error 8
  else .ok
    { entry := BitVec.ofNat 64 (field bs 0 8), params := BitVec.ofNat 64 (field bs 8 8)
      ckpt := BitVec.ofNat 64 (field bs 0x10 8), spill := field bs 0x18 4, asid, ndim, place
      prio := ctl / 4 % 4, stealable := steal, order := decide (ctl / 32 % 2 = 1), gang
      bmode := BitVec.ofNat 8 bmode, succ := (dwords bs 0x30 4).take nsucc, bound := (dwords bs 0x50 6).take ndim }

/-- Write a record's status word, or post event 0x0106; a write of state 3, 4 or 5 is a release at system scope, and every one
an atomic (R337). -/
def State.writeStatus (s : State) (asid : BitVec 14) (va : Word) (state detail cause : Nat) : State :=
  match s.tguSpan asid .atomic (va.toNat + 0x28) 4 with
  | .error c => (s.tguMeets asid .atomic (va.toNat + 0x28) 4 c).post 0x0106#16 1 0 va.toNat c.toNat
  | .ok ks =>
    if s.meetsBarrier ks then s.post 0x0106#16 1 0 va.toNat cBar.toNat
    else
      (s.putsAfter (fullPuts ks (leBytes 4 (state + detail * 2 ^ 16 + cause * 2 ^ 24)))).tagged s.tguAgent
        (if 3 ≤ state then some .sys else none) ks

/-- A launch queue of a context holds an entry of a record that has yet to be taken (R338, R340). -/
def State.submitted (s : State) (asid : BitVec 14) (va : Word) : Bool :=
  (List.range 8).any fun n =>
    let l := tabGet {} s.tgu.lq n
    l.ctl.getLsbD 16 && l.ctl.setWidth 14 == asid &&
    (List.range (min (l.tail - l.head).toNat l.size.toNat)).any fun i =>
      s.num (l.base.toNat + 16 * ((l.head.toNat + i) % l.size.toNat)) 8 == va.toNat

/-- The TGU has not taken a record: it neither holds it nor has seen it fail or be cancelled since (R337), or the record has
been submitted again (assumption log 160). -/
def State.untaken (s : State) (asid : BitVec 14) (va : Word) : Bool :=
  !s.tgu.recs.any (fun r => r.f.asid == asid && r.va == va && r.origin.isNone) &&
  (!s.tgu.ended.contains (asid, va) || s.submitted asid va)

/-- A record that failed or was cancelled before it ran takes its successors with it: the parked ones now, those not yet
taken once they are (R342); one that has been taken and has ended stands. The first argument bounds the walk over records
held. -/
def State.spread : Nat → State → List (BitVec 14 × Word) → State
  | 0, s, _ => s
  | _, s, [] => s
  | n + 1, s, (asid, va) :: rest =>
    match s.tgu.recs.find? fun r => r.f.asid == asid && r.va == va && r.phase == .parked && r.origin.isNone with
    | some r =>
      let s := (s.dropRec r.id).writeStatus asid va 4 5 0
      s.spread n (rest ++ r.f.succ.map fun v => (asid, v))
    | none =>
      if s.untaken asid va && !s.tgu.doomed.any (fun e => e.1 == asid && e.2.1 == va) then
        (s.modTgu fun t => { t with doomed := t.doomed ++ [(asid, va, 5)] }).spread n rest
      else s.spread n rest

/-- Spread a failure to a list of successors. -/
def State.doom (s : State) (asid : BitVec 14) (succ : List Word) : State :=
  s.spread (5 * (s.tgu.recs.length + 1) + succ.length) (succ.map fun v => (asid, v))

/-- Fail or cancel a record that the TGU lets go: status, then successors. -/
def State.endRec (s : State) (asid : BitVec 14) (va : Word) (succ : List Word) (state detail cause : Nat) : State :=
  (s.writeStatus asid va state detail cause).doom asid succ

/-! ## Launch queues (R338–R340) -/

/-- A launch queue. -/
def Tgu.q (t : Tgu) (n : Nat) : Lq := tabGet {} t.lq n

/-- Change a launch queue. -/
def State.modLq (s : State) (n : Nat) (f : Lq → Lq) : State :=
  s.modTgu fun t => { t with lq := tabSet {} t.lq n (f (t.q n)) }

def Lq.asid (l : Lq) : BitVec 14 := l.ctl.setWidth 14
def Lq.enabled (l : Lq) : Bool := l.ctl.getLsbD 16
def Lq.cellsLaunch (l : Lq) : Bool := l.ctl.getLsbD 17

/-- Records parked (R338, R340). -/
def Tgu.parked (t : Tgu) : Nat := (t.recs.filter fun r => r.phase == .parked).length

/-- A host write of LQ_TAIL (R339). -/
def State.lqTail (s : State) (n : Nat) (v : Word) : State :=
  let l := s.tgu.q n
  if l.cellsLaunch then s
  else if v - l.head > l.size || v - l.head < l.tail - l.head then s.post 0x0101#16 1 n v.toNat l.head.toNat
  else s.modLq n fun l => { l with tail := v }

/-- Mark a record ready now (R348, R349). -/
def State.makeReady (s : State) (id : Nat) : State :=
  let t := s.tgu
  (s.modRec id fun r => { r with phase := .ready, since := s.cycle, ready := t.clock }).modTgu fun t =>
    { t with clock := t.clock + 1 }

/-- The TGU acts on a record that it has read (R340): fails, cancels, accepts or parks it. -/
def State.accept (s : State) (asid : BitVec 14) (va : Word) (bs : List Byte) : State :=
  let succ := (dwords bs 0x30 4).take (min 4 (field bs 0x2C 4))
  let fate := s.tgu.doomed.find? fun e => e.1 == asid && e.2.1 == va
  let s := s.modTgu fun t => { t with
    doomed := t.doomed.filter fun e => !(e.1 == asid && e.2.1 == va)
    ended := t.ended.filter fun e => e != (asid, va) }
  let refused (state detail : Nat) : State :=
    (s.modTgu fun t => { t with ended := (asid, va) :: t.ended }).endRec asid va succ state detail 0
  match parseRecord asid bs with
  | .error d => refused 4 d
  | .ok f =>
    if (s.ctx asid).isNone then refused 4 8
    else
      match fate with
      | some e => if e.2.2 = 6 then refused 5 6 else refused 4 5
      | none =>
        let id := s.tgu.nextId
        let s := s.modTgu fun t => { t with recs := t.recs ++ [{ id, va, f, phase := .parked }], nextId := id + 1 }
        let s := s.writeStatus asid va 1 0 0
        if field bs 0x24 4 = 0 then s.makeReady id else s

/-- Take one entry of one queue (R340). -/
def State.takeEntry (s : State) (n : Nat) : State :=
  let l := s.tgu.q n
  let a := l.base.toNat + 16 * (l.head.toNat % l.size.toNat)
  let va : Word := BitVec.ofNat 64 (s.num a 8)
  let hi := s.num (a + 8) 8
  let unread := (List.range 16).any fun i => s.bad (a + i)
  let s := (s.modLq n fun l => { l with head := l.head + 1 }).modTgu fun t => { t with served := n }
  if unread then (s.errorAt (((List.range 16).map (a + ·)).find? s.bad |>.getD a)).post 0x0102#16 1 n 0 cEcc.toNat
  else if hi ≠ 0 then s.post 0x0103#16 1 n va.toNat 1
  else if va.toNat % 128 ≠ 0 then s.post 0x0102#16 1 n va.toNat cAlign.toNat
  else
    match s.tguSpan l.asid .load va.toNat 128 with
    | .error c => (s.tguMeets l.asid .load va.toNat 128 c).post 0x0102#16 1 n va.toNat c.toNat
    | .ok ks =>
      let bs := ks.map s.view
      if ks.any (fun k => paClass k ≠ 0) then s.post 0x0102#16 1 n va.toNat cPerm.toNat
      else if s.tgu.recs.any (fun r => r.f.asid == l.asid && r.va == va && r.origin.isNone) then
        s.post 0x0103#16 1 n va.toNat 3
      else if field bs 0x28 4 % 16 ≠ 0 then s.post 0x0103#16 1 n va.toNat 2
      else s.accept l.asid va bs

/-- The queue that the rotation serves next (R340). -/
def Tgu.nextQueue (t : Tgu) : Option Nat :=
  ((List.range 8).map fun i => (t.served + 1 + i) % 8).find? fun n =>
    let l := t.q n
    l.enabled && l.size != 0#64 && l.head != l.tail

/-- TGU_TAKE_ENTRY. -/
def execTguTakeEntry (s : State) : Host.Outcome State Fault Refusal :=
  if !s.awake || s.tgu.parked ≥ Config.parkedMax then idle s
  else
    match s.tgu.nextQueue with
    | none => idle s
    | some n => .next (s.takeEntry n)

/-- LQ_TAIL: a host write (R339). -/
def execLqTail (q : BitVec 3) (v : Word) (s : State) : Host.Outcome State Fault Refusal :=
  if s.open then .next (s.lqTail q.toNat v) else idle s

/-! ## Completion and successors (R341, R342) -/

/-- One successor decrement (R341). -/
def State.decrement (s : State) (asid : BitVec 14) (va pred : Word) : State :=
  let lost := s.post 0x0105#16 1 0 va.toNat pred.toNat
  if va.toNat % 128 ≠ 0 then lost
  else
    match s.tguSpan asid .atomic (va.toNat + 0x24) 4 with
    | .error c => (s.tguMeets asid .atomic (va.toNat + 0x24) 4 c).post 0x0105#16 1 0 va.toNat pred.toNat
    | .ok ks =>
      if ks.any (fun k => paClass k ≠ 0) || s.meetsBarrier ks then lost
      else
        let deps := leNat (ks.map s.byte)
        let s := if deps = 0 then s.post 0x0104#16 1 0 va.toNat pred.toNat
                 else s.putsAfter (fullPuts ks (leBytes 4 (deps - 1)))
        match s.tgu.recs.find? fun r => r.f.asid == asid && r.va == va && r.phase == .parked && r.origin.isNone with
        | some r => if deps ≤ 1 then s.makeReady r.id else s
        | none => s

/-- A record whose iterations have all ended: it has issued, and nothing of it is unplaced, runs or is away. -/
def Rec.over (r : Rec) : Bool := r.issued && r.next == r.last && r.running == 0 && r.grants.isEmpty

/-- The final state of a record: complete with its successor decrements, failed or cancelled (R342, R351, R352).
A stolen range reports to its origin instead (R354). -/
def State.completeRec (s : State) (r : Rec) : State :=
  let s := s.dropRec r.id
  match r.origin with
  | some (dev, record) => s.tell (.report dev r.f.asid record r.base (r.fail.map (·.2)))
  | none =>
    match r.fail with
    | some (d, c) => s.endRec r.f.asid r.va r.f.succ 4 d c
    | none =>
      if r.cancelled then s.endRec r.f.asid r.va r.f.succ 5 6 0
      else
        let s := s.modTgu fun t => { t with ended := t.ended.filter fun e => e != (r.f.asid, r.va) }
        r.f.succ.foldl (fun s v => s.decrement r.f.asid v r.va) (s.writeStatus r.f.asid r.va 3 0 0)

/-- RECORD_COMPLETE. -/
def execRecordComplete (id : Nat) (s : State) : Host.Outcome State Fault Refusal :=
  match s.rec? id with
  | none => idle s
  | some r => if s.awake && r.over then .next (s.completeRec r) else idle s

/-! ## Issue (R343, R348, R349) -/

/-- The effective level of a record (R349). -/
def State.level (s : State) (r : Rec) : Nat :=
  if s.tgu.age = 0#64 then r.f.prio else min 3 (r.f.prio + (s.cycle - r.since) / s.tgu.age.toNat)

/-- The best element of a list under a strict order. -/
def bestBy {α : Type} (lt : α → α → Bool) : List α → Option α
  | [] => none
  | a :: r => some (r.foldl (fun m b => if lt b m then b else m) a)

/-- The ready record that the next free walker takes: highest level, ties to the first ready. -/
def State.topReady (s : State) : Option Rec :=
  bestBy (fun a b => decide (s.level a > s.level b) || (s.level a == s.level b && decide (a.ready < b.ready)))
    (s.tgu.recs.filter fun r => r.phase == .ready)

/-- The record that a walker holds. -/
def State.heldBy (s : State) (w : Nat) : Option Rec := s.tgu.recs.find? fun r => r.phase == .held w

/-- The bounds of a record, read where bmode says so (R343): the values, or detail and cause. Of several faulty bounds that of
the lowest dimension decides, which R343 leaves open (assumption log 152); one in a region whose token another device holds fails
with OWN_MISS, a cause that R337 does not list (assumption log 153). -/
def State.readBounds (s : State) (f : RecFields) : Except (Nat × Nat) (List Nat) :=
  (List.range f.ndim).foldr (fun d acc =>
    let w := f.bound.getD d 0#64
    let b : Except (Nat × Nat) Nat :=
      if f.bmode.getLsbD d then
        if w.toNat % 8 ≠ 0 then .error (4, cAlign.toNat)
        else
          match s.tguSpan f.asid .load w.toNat 8 with
          | .error c => .error (4, c.toNat)
          | .ok ks => .ok (leNat (ks.map s.view))
      else .ok w.toNat
    match b with
    | .error e => .error e
    | .ok v =>
      if v ≥ 2 ^ 32 then .error (2, 0)
      else
        match acc with
        | .error e => .error e
        | .ok vs => .ok (v :: vs)) (.ok [])

/-- The uncorrectable error that the read of a record's bounds meets (R435). -/
def State.boundError (s : State) (f : RecFields) : Option Nat :=
  ((List.range f.ndim).filter f.bmode.getLsbD).findSome? fun d => s.tguBad f.asid .load (f.bound.getD d 0#64).toNat 8

/-- Each bound is read with acquire at system scope (R343): what precedes the releases that wrote it has been performed. -/
def State.boundsAcquired (s : State) (f : RecFields) : State :=
  if s.relTags.isEmpty then s
  else
    ((List.range f.ndim).filter f.bmode.getLsbD).foldl (fun s d =>
      match s.tguSpan f.asid .load (f.bound.getD d 0#64).toNat 8 with
      | .ok ks => s.settleDebts s.tguAgent .sys ks
      | .error _ => s) s

/-- Issue of a record that a walker takes for the first time (R343, R347). -/
def State.issueRec (s : State) (r : Rec) (w : Nat) : State :=
  let gone (d c : Nat) : State := (s.dropRec r.id).endRec r.f.asid r.va r.f.succ 4 d c
  match s.readBounds r.f with
  | .error (d, c) => if c = cEcc.toNat then ((s.errorAt ((s.boundError r.f).getD 0)).dropRec r.id).endRec r.f.asid r.va r.f.succ 4 d c else gone d c
  | .ok bs =>
    let s := s.boundsAcquired r.f
    let n := bs.foldl (· * ·) 1
    if r.f.place = 2 ∧ (n ≠ r.f.gang ∨ r.f.gang > s.cellCount) then gone 3 0
    else
      let s := s.writeStatus r.f.asid r.va 2 0 0
      let r' := { r with issued := true, bounds := bs, next := 0, last := n, phase := Phase.held w }
      if n = 0 then s.completeRec r' else s.modRec r.id fun _ => r'

/-- RECORD_ISSUE: walker w takes the top ready record. -/
def execRecordIssue (w : Nat) (s : State) : Host.Outcome State Fault Refusal :=
  if !s.awake || w ≥ 8 || (s.heldBy w).isSome then idle s
  else
    match s.topReady with
    | none => idle s
    | some r =>
      let s := s.modTgu fun t => { t with took := tabSet 0 t.took w t.clock, clock := t.clock + 1 }
      .next (if r.issued then s.modRec r.id fun r => { r with phase := .held w } else s.issueRec r w)

/-- A held record goes back to ready, its position kept (R348). -/
def State.giveBack (s : State) (r : Rec) : State := s.makeReady r.id

/-- The walker that took its record earliest among some records. -/
def State.earliest (s : State) (rs : List Rec) : Option Rec :=
  let key (r : Rec) : Nat := match r.phase with | .held w => tabGet 0 s.tgu.took w | _ => 0
  bestBy (fun a b => decide (key a < key b)) rs

/-- WALKER_GIVE_BACK (R348): all walkers hold records and a ready record stands above one of them, or has waited
TGU_AGE cycles at level 3. -/
def execWalkerGiveBack (s : State) : Host.Outcome State Fault Refusal :=
  let held := s.tgu.recs.filter fun r => match r.phase with | .held _ => true | _ => false
  let givable := held.filter fun r => s.tgu.gang != some r.id
  if !s.awake || held.length < 8 then idle s
  else
    match s.topReady with
    | none => idle s
    | some r =>
      let low := givable.foldl (fun m h => min m (s.level h)) 4
      let age := s.tgu.age.toNat
      if low < s.level r then
        match s.earliest (givable.filter fun h => s.level h == low) with
        | some h => .next (s.giveBack h)
        | none => idle s
      else if age ≠ 0 ∧ s.tgu.recs.any (fun r => r.phase == .ready &&
          decide (r.since + (3 - min 3 r.f.prio) * age + age ≤ s.cycle)) then
        match s.earliest givable with
        | some h => .next (s.giveBack h)
        | none => idle s
      else idle s

/-- Cycles pass: the cycle counters of R30, R35 and the slow cycles of R443. No cycle passes while the arithmetic clock
stands (R441, R442). -/
def State.advance (s : State) (n : Nat) : State :=
  if n = 0 || !s.clocked then s
  else
    let s := { s with cycle := s.cycle + n, mc := { s.mc with slowCycles := s.mc.slowCycles + (if s.mc.clk < 1250 then n else 0) } }
    if s.cells.all fun e => e.2.pevsel.isEmpty then s
    else s.cells.foldl (fun s e => s.countCycles e.1 n) s

/-- AGING_STEP (R349): time passes to the next moment at which a waiting record rises by one level. -/
def execAgingStep (s : State) : Host.Outcome State Fault Refusal :=
  let age := s.tgu.age.toNat
  if !s.awake || age = 0 then idle s
  else
    let waits := (s.tgu.recs.filter fun r =>
      (match r.phase with | .ready | .held _ => true | _ => false) && decide (s.level r < 3)).map fun r =>
        r.since + ((s.cycle - r.since) / age + 1) * age
    match waits with
    | [] => idle s
    | a :: r => .next (s.advance (r.foldl min a - s.cycle))

/-! ## Placement (R346, R347) -/

/-- A set of the shape that a gang of n cells needs, from some cells (R347). -/
def gangSet (cells : List Nat) (n : Nat) : Option (List Nat) :=
  let unit := if n % 40 = 0 then 40 else if n % 4 = 0 then 4 else 1
  let whole := (List.range (80 / unit)).filter fun u => (List.range unit).all fun i => cells.contains (u * unit + i)
  let got := whole.take (n / unit)
  if got.length = n / unit then some (got.flatMap fun u => (List.range unit).map fun i => u * unit + i) else none

/-- Place one position of a record on a cell (R344, R346). -/
def State.place (s : State) (r : Rec) (pos c : Nat) : State :=
  s.modCell c fun x =>
    { x with reserved := false
             starting := some { va := r.va, asid := r.f.asid, pos, dev := s.podDev, recId := some r.id, ckpt := r.f.ckpt } }

/-- Record that a walker placed n positions of its record. -/
def State.placedBy (s : State) (r : Rec) (n : Nat) (group : Option Nat) : State :=
  let w := match r.phase with | .held w => w | _ => 0
  (s.modRec r.id fun r =>
    { r with next := r.next + n, running := r.running + n, since := s.cycle, group
             phase := if r.next + n = r.last then .running else r.phase }).modTgu fun t =>
    { t with placed := tabSet 0 t.placed w (t.clock + 1), clock := t.clock + 1 }

/-- Place the next iteration of a held record, or all of a gang's, on free cells. -/
def State.tryPlace (s : State) (r : Rec) : Option State :=
  let free := s.freeCells
  match r.f.place with
  | 2 =>
    match gangSet free r.f.gang with
    | none => none
    | some cs => some (((cs.zipIdx).foldl (fun s e => s.place r e.2 e.1) s).placedBy r r.f.gang none)
  | 1 =>
    let allowed := match r.group with | none => free | some k => free.filter fun c => c / 4 == k
    match allowed with
    | [] => none
    | c :: _ => some ((s.place r r.next c).placedBy r 1 (if r.next % 4 = 3 then none else some (c / 4)))
  | _ =>
    match free with
    | [] => none
    | c :: _ => some ((s.place r r.next c).placedBy r 1 none)

/-- Held records with unplaced iterations in the order in which R346 serves them. -/
def State.ranked (s : State) : List Rec :=
  let held := s.tgu.recs.filter fun r => match r.phase with | .held _ => decide (r.next < r.last) | _ => false
  let num (r : Rec) : Nat := match r.phase with | .held w => w | _ => 0
  let before (a b : Rec) : Bool :=
    let la := s.level a
    let lb := s.level b
    let pa := tabGet 0 s.tgu.placed (num a)
    let pb := tabGet 0 s.tgu.placed (num b)
    decide (la > lb) || (la == lb && (decide (pa < pb) || (pa == pb && decide (num a < num b))))
  held.foldr (fun r acc => (acc.takeWhile fun x => before x r) ++ r :: acc.dropWhile fun x => before x r) []

/-- Reserve every free cell for the gang that holds the reservation. -/
def State.reserveFree (s : State) : State :=
  s.freeCells.foldl (fun s c => s.modCell c fun x => { x with reserved := true }) s

/-- Every reserved cell becomes free again. -/
def State.unreserve (s : State) : State :=
  (List.range Config.cells).foldl (fun s c => if (s.cell c).reserved then s.modCell c fun x => { x with reserved := false } else s)
    (s.modTgu fun t => { t with gang := none })

/-- One act of placement (R346, R347): the reserved gang first, then the walkers in order. -/
def State.assign (s : State) : State :=
  let ranked := s.ranked
  match s.tgu.gang.bind s.rec? with
  | some g =>
    let s := s.reserveFree
    let mine := (List.range s.cellCount).filter fun c => (s.cell c).reserved
    match gangSet mine g.f.gang with
    | some cs => (((cs.zipIdx).foldl (fun s e => s.place g e.2 e.1) s.unreserve)).placedBy g g.f.gang none
    | none =>
      match ranked.find? fun r => r.f.place == 2 && decide (s.level r > s.level g) with
      | some top => s.modTgu fun t => { t with gang := some top.id }
      | none => s
  | none =>
    let s := if s.tgu.gang.isSome || (List.range Config.cells).any (fun c => (s.cell c).reserved) then s.unreserve else s
    match ranked with
    | [] => s
    | top :: rest =>
      match s.tryPlace top with
      | some s' => s'
      | none =>
        if top.f.place = 2 then (s.modTgu fun t => { t with gang := some top.id }).reserveFree
        else (rest.findSome? s.tryPlace).getD s

/-- CELL_ASSIGN. -/
def execCellAssign (s : State) : Host.Outcome State Fault Refusal := if s.awake then .next s.assign else idle s

/-! ## Iterations (R344, R345, R128, R352) -/

/-- The indices of a position, dimension 1 first (R344). -/
def indicesOf (bounds : List Nat) (outerFast : Bool) (m : Nat) : List Nat :=
  let step (st : Nat × List Nat) (b : Nat) : Nat × List Nat := (st.1 / b, st.2 ++ [st.1 % b])
  if outerFast then (bounds.foldl step (m, [])).2 else (bounds.reverse.foldl step (m, [])).2.reverse

/-- The row-major number of some indices (R344). -/
def linearOf (bounds idx : List Nat) : Nat := (bounds.zip idx).foldl (fun n e => n * e.1 + e.2) 0

/-- An engine's bank at the start of an iteration (R26, R27, R345); the model goes on numbering its accesses. -/
def startBank (entry : Word) (s1to8 : List Word) (n : Nat) : EngState :=
  { pc := entry, halted := false, nextId := n
    sreg := ((s1to8.zipIdx).foldl (fun t e => tabSet 0#64 t (e.2 + 1) e.1) []) }

/-- A byte of a cell's slice. -/
def sliceKey (c k : Nat) : Bool := decide (slicePa c 0 ≤ k) && decide (k < slicePa c 0 + Config.sliceBytes)

/-- Clear a slice for a new context: its bytes, its errors and its barrier objects (R171). -/
def State.clearSlice (s : State) (c : Nat) : State :=
  let a := slicePa c 0
  let mine (k : Nat) : Bool := sliceKey c k
  let dead := s.barriers.filter fun b => mine b.pa
  let s := dead.foldl (fun s b => s.release b.pa false b.waiters) s
  { s with mem := tabClear s.mem a Config.sliceBytes, ecc := s.ecc.filter fun e => !mine e.1
           barriers := s.barriers.filter fun b => !mine b.pa }

/-- An iteration of the same record with a lower position is placed on some cell and has not started (R345). -/
def State.earlierStart (s : State) (it : Iter) : Bool :=
  s.cells.any fun e =>
    match e.2.starting with
    | some o => o.recId == it.recId && decide (o.pos < it.pos)
    | none => false

/-- A tile command of another context has claimed slots in a cell's slice and has yet to read them. -/
def State.slotsHeld (s : State) (c : Nat) (asid : BitVec 14) : Bool :=
  s.cells.any fun e => e.1 != c && e.2.owner != some asid &&
    e.2.mcmds.any fun m => m.claimed && (m.ra.cell == c || m.rb.cell == c)

/-- The record of an iteration that a TGU runs: the device and the context that it belongs to, and its address (R53). -/
def State.recordOf (s : State) (r : Rec) : BitVec 6 × BitVec 14 × Word :=
  match r.origin with
  | some (dev, va) => (dev, r.f.asid, va)
  | none => (s.podDev, r.f.asid, r.va)

/-- ITERATION_START (R345, R26–R28, R171, R174, R360). The carve-out of an iteration keeps the bytes that stand there, as
the rest of the slice does (assumption log 121). What the queues of other engines still hold for the slice is performed
first, and tile commands that have claimed slots of a slice that changes its context complete first: they have passed their
checks (R171; assumption log 127). -/
def execIterationStart (c : Nat) (s : State) : Host.Outcome State Fault Refusal :=
  let old := s.cell c
  match old.starting with
  | none => idle s
  | some it =>
    if s.earlierStart it then idle s
    else
    match it.recId.bind s.rec? with
    | none => .next (s.modCell c fun x => { x with starting := none, reserved := s.tgu.gang.isSome })
    | some r =>
      if old.owner != some r.f.asid && s.slotsHeld c r.f.asid then idle s
      else
      let idx := indicesOf r.bounds r.f.order it.pos
      let regs := (List.range 6).map (fun d => BitVec.ofNat 64 (idx.getD d 0)) ++
        [r.f.params, BitVec.ofNat 64 (linearOf r.bounds idx)]
      let s := s.drainKeys (sliceKey c)
      let bank (e : Eng) : EngState := startBank r.f.entry regs (old.eng e).nextId
      let ctx := s.ctx r.f.asid
      let len := ((ctx.map Ctx.ovfLen).getD 0#32)
      let s := if old.owner = some r.f.asid then s else s.clearSlice c
      .next (s.setCell c
        { engS := bank .s, engL := bank .l, engM := bank .m, engV := bank .v, engW := bank .w
          sup := (s.cell c).sup, supRun := old.supRun, ckptlim := old.ckptlim
          owner := some r.f.asid, iter := some it, lastRec := some (s.recordOf r)
          icache := if old.lastRec = some (s.recordOf r) then old.icache else []
          carve := roundUp r.f.spill 0x10000
          ovfptr := (ctx.map Ctx.ovfBase).getD 0#64 + BitVec.ofNat 64 (c * len.toNat), ovflen := len
          watchEvents := old.watchEvents, uncorr := old.uncorr })

/-- The registers and queues of a cell whose iteration is over: it becomes free (R128, R377). -/
def Cell.emptied (x : Cell) : Cell :=
  { engS := { nextId := x.engS.nextId }, engL := { nextId := x.engL.nextId }, engM := { nextId := x.engM.nextId }
    engV := { nextId := x.engV.nextId }, engW := { nextId := x.engW.nextId }
    sup := x.sup, supRun := x.supRun, ckptlim := x.ckptlim, owner := x.owner, lastRec := x.lastRec, icache := x.icache
    carve := x.carve, ovfptr := x.ovfptr, ovflen := x.ovflen, watchEvents := x.watchEvents, uncorr := x.uncorr }

/-- A cell becomes free, or reserved for the gang that holds the reservation (R347). -/
def State.vacate (s : State) (c : Nat) : State :=
  s.modCell c fun x => { x.emptied with reserved := s.tgu.gang.isSome }

/-- A record with a fault of one of its iterations: what is unplaced is not placed, and the first cause stays (R352). -/
def Rec.faulted (r : Rec) (c : Nat) : Rec :=
  let stop := { r with last := r.next, phase := Phase.running, group := none }
  if r.fail.isSome || r.cancelled then stop else { stop with fail := some (7, c) }

/-- One running iteration of a record has ended, with the cause of a fault if it had one (R342, R352). -/
def Rec.ended (r : Rec) (cause : Option Nat) : Rec :=
  let r := { r with running := r.running - 1 }
  match cause with
  | none => r
  | some c => r.faulted c

/-- Count an ended iteration towards its record (R342, R352, R376): here, or by a message to the device whose walker placed
it. -/
def State.countEnd (s : State) (it : Iter) (cause : Option Nat) : State :=
  match it.recId with
  | none => if it.dev = s.podDev then s else s.tell (.ended it.dev it.va it.pos cause)
  | some id => s.modRec id fun r => r.ended cause

/-- No engine of a cell has an access, a reply or a deferred fault outstanding, and every asynchronous command
has completed. -/
def Cell.drained (x : Cell) : Bool :=
  engines.all (fun e => (x.eng e).queue.isEmpty && (x.eng e).flight.isNone && (x.eng e).deferred.isEmpty) &&
  x.copies.isEmpty && x.mcmds.isEmpty && x.stfs.isEmpty && x.xchg.isNone

/-- ITERATION_END: all five engines have halted and every command has completed (R128). -/
def execIterationEnd (c : Nat) (s : State) : Host.Outcome State Fault Refusal :=
  let x := s.cell c
  match x.iter with
  | none => idle s
  | some it =>
    if engines.all (fun e => (x.eng e).halted) && x.drained && x.frozen.isNone then
      .next ((s.vacate c).countEnd it none)
    else idle s

/-! ## Cancelling (R351) -/

/-- Cancel a record that the TGU holds: at once where it has not issued, else it stops placing, and so do its thieves, who
still report (R354). -/
def State.cancelRec (s : State) (r : Rec) : State :=
  if !r.issued then (s.dropRec r.id).endRec r.f.asid r.va r.f.succ 5 6 0
  else
    let s := if s.tgu.gang = some r.id then s.unreserve else s
    let s := r.grants.foldl (fun s g => s.tell (.cancel g.dev r.va)) s
    s.modRec r.id fun r => { r with cancelled := true, last := r.next, phase := .running, group := none }

/-- A write of TGU_CANCEL cancels this device's own record of the address, or one that it has not taken and whose deps count
down (R351). A range stolen from another device is that device's to cancel (R354). -/
def State.cancel (s : State) (va : Word) : State :=
  let asid := s.tgu.cancelAsid
  match s.tgu.recs.find? fun r => r.f.asid == asid && r.va == va && r.origin.isNone with
  | some r => s.cancelRec r
  | none =>
    match s.tguSpan asid .load va.toNat 128 with
    | .error _ => s
    | .ok ks =>
      let bs := ks.map s.view
      if va.toNat % 128 = 0 && s.untaken asid va && field bs 0x28 4 % 16 = 0 && decide (field bs 0x24 4 ≠ 0) &&
         !s.tgu.doomed.any (fun e => e.1 == asid && e.2.1 == va) then
        s.modTgu fun t => { t with doomed := t.doomed ++ [(asid, va, 6)] }
      else s

/-- TGU_CANCEL: a host write. -/
def execTguCancel (v : Word) (s : State) : Host.Outcome State Fault Refusal :=
  if s.open then .next (s.cancel v) else idle s

/-! ## Stealing (R353, R354, R387) -/

/-- Torus coordinates of a device: x, y, z (R387). -/
def torusOf (n : BitVec 6) : Nat × Nat × Nat := (n.toNat % 4, n.toNat / 4 % 4, n.toNat / 16)

/-- The device at some coordinates, each modulo 4. -/
def deviceAt (x y z : Nat) : BitVec 6 := BitVec.ofNat 6 (x % 4 + 4 * (y % 4) + 16 * (z % 4))

/-- The neighbour in direction 0 to 5: +X, −X, +Y, −Y, +Z, −Z (R353, R387). -/
def neighbour (n : BitVec 6) (dir : Nat) : BitVec 6 :=
  let (x, y, z) := torusOf n
  match dir with
  | 0 => deviceAt (x + 1) y z
  | 1 => deviceAt (x + 3) y z
  | 2 => deviceAt x (y + 1) z
  | 3 => deviceAt x (y + 3) z
  | 4 => deviceAt x y (z + 1)
  | _ => deviceAt x y (z + 3)

/-- The neighbours of a device in the order of the directions. -/
def neighbours (n : BitVec 6) : List (BitVec 6) := (List.range 6).map (neighbour n)

/-- A walker's probe. -/
def Tgu.probe (t : Tgu) (w : Nat) : Probe := tabGet {} t.probes w

/-- Set a walker's probe. -/
def Tgu.setProbe (t : Tgu) (w : Nat) (p : Probe) : Tgu := { t with probes := tabSet {} t.probes w p }

/-- STEAL_PROBE: an idle walker sends a probe to its next neighbour. A probe still out when the next is sent has been
refused; six refusals end the round with a pause. -/
def execStealProbe (w : Nat) (s : State) : Host.Outcome State Fault Refusal :=
  let t := s.tgu
  if !s.awake || s.minimal || w ≥ 8 || t.steal = 0#64 || (s.heldBy w).isSome || s.topReady.isSome || s.freeCells.isEmpty ||
     (t.probe w).pauseEnd.isSome then idle s
  else
    let dir := match (t.probe w).out with | none => 0 | some d => d + 1
    if dir ≥ 6 then .next (s.modTgu fun t => t.setProbe w { pauseEnd := some (s.cycle + t.steal.toNat) })
    else .next ((s.modTgu fun t => t.setProbe w { out := some dir }).tell (.probe (neighbour s.podDev dir)))

/-- STEAL_PAUSE_EXPIRE: every pause that has run its time ends. -/
def execStealPauseExpire (s : State) : Host.Outcome State Fault Refusal :=
  let ended (p : Probe) : Bool := match p.pauseEnd with | some e => decide (e ≤ s.cycle) | none => false
  .next (s.modTgu fun t => { t with probes := t.probes.filter fun e => !ended e.2 })

/-- A record that a neighbour may steal from: held, stealable, in a pod-wide context, with two positions left. -/
def State.stealableRec (s : State) (r : Rec) : Bool :=
  (match r.phase with | .held _ => true | _ => false) && r.f.stealable && r.f.place != 2 && !r.cancelled &&
  decide (r.next + 2 ≤ r.last) && ((s.ctx r.f.asid).map Ctx.podWide) == some true

/-- STEAL_ANSWER: a neighbour's probe arrives here; this device grants the last half of the unplaced positions of
its best stealable record, or refuses, which changes nothing here. -/
def execStealAnswer (dev : BitVec 6) (s : State) : Host.Outcome State Fault Refusal :=
  let num (r : Rec) : Nat := match r.phase with | .held w => w | _ => 0
  let best := bestBy (fun a b => decide (s.level a > s.level b) || (s.level a == s.level b && decide (num a < num b)))
    (s.tgu.recs.filter s.stealableRec)
  match best with
  | none => idle s
  | some r =>
    if !s.awake || s.minimal || !(neighbours s.podDev).contains dev then idle s
    else
      let g := (r.last - r.next) / 2
      .next ((s.modRec r.id fun r =>
        { r with last := r.last - g, grants := r.grants ++ [{ dev, first := r.last - g, count := g }] }).tell
          (.grant dev r.va r.f r.bounds (r.last - g) g))

/-- The walker whose probe a neighbour answers: the lowest that has one out to it. -/
def State.probing (s : State) (dev : BitVec 6) : Option Nat :=
  (List.range 8).find? fun w => match (s.tgu.probe w).out with | some d => neighbour s.podDev d == dev | none => false

/-- STEAL_GRANT: a grant reaches this device, which runs the positions as a record of its own. -/
def execStealGrant (g : Grant) (s : State) : Host.Outcome State Fault Refusal :=
  match s.probing g.dev with
  | none => idle s
  | some w =>
  if !s.awake then idle s
  else
    match parseRecord g.asid g.fields with
    | .error _ => .next (s.modTgu fun t => t.setProbe w {})
    | .ok f =>
      let id := s.tgu.nextId
      let r : Rec := { id, va := g.record, f, phase := .ready, issued := true, bounds := g.bounds, next := g.first
                       last := g.first + g.count, origin := some (g.dev, g.record), base := g.first }
      .next ((s.modTgu fun t => { t.setProbe w {} with recs := t.recs ++ [r], nextId := id + 1 }).makeReady id)

/-- STEAL_REPORT: a thief reports that its granted positions have ended, with the cause of the first fault among them. -/
def execStealReport (dev : BitVec 6) (record : Word) (range : StolenEnd) (s : State) :
    Host.Outcome State Fault Refusal :=
  match s.tgu.recs.find? fun r => r.f.asid == range.asid && r.va == record && r.grants.any (fun g => g.dev == dev && g.first == range.first) with
  | none => idle s
  | some r =>
    .next (s.modRec r.id fun r =>
      let r := { r with grants := r.grants.filter fun g => !(g.dev == dev && g.first == range.first) }
      match range.fault with
      | none => r
      | some c => r.faulted c.toNat)

/-- A record some of whose positions went to a thief that leaves the pod's service: nothing of it is placed any more, and it
keeps no walker (R348, R354). -/
def Rec.losesThief (r : Rec) (dev : BitVec 6) : Rec :=
  if r.grants.any (fun g => g.dev == dev) then
    { r with grants := r.grants.filter (fun g => g.dev != dev), last := r.next
             phase := .running, group := none
             fail := if r.fail.isSome || r.cancelled then r.fail else some (7, cPoolLost.toNat) }
  else r

/-- Grants to a thief that leaves the pod's service fail their origin with detail 7 and POOL_LOST (R354). -/
def State.thiefLeaves (s : State) (dev : BitVec 6) : State :=
  s.modTgu fun t => { t with recs := t.recs.map fun r => r.losesThief dev }

end Sys2Proof.Machine
end

