-- ==== Sys2Proof/Machine/Mgmt.lean ====
section
/-! DEFINITION. The management plane (18 R427–R443), the register map of the device (14 R338, 15 R379, 16 R408,
R415, 18 R427), pre-emption requests (15 R379), dispatch freezes (16 R408) and the host link (16 R414–R416). -/

namespace Sys2Proof.Machine

/-- Change the management controller. -/
def State.modMc (s : State) (f : Mc → Mc) : State := { s with mc := f s.mc }

/-- Change the boot flash. -/
def State.modFlash (s : State) (f : Flash → Flash) : State := { s with flash := f s.flash }

/-! ## Start-up (R428–R431, R433, R436) -/

/-- A physical address of the pod outside this device: a peer's HBM or slices, or pool memory (R389). -/
def outsideKey (k : Nat) : Bool := paClass k == 2 || paClass k == 3 || paClass k == 4

/-- What the homes outside this device know of tokens once its own are gone (R399, R442). -/
def State.othersTokens (s : State) : List (Nat × Option (BitVec 6)) :=
  s.own.holder.filter fun e => outsideKey (e.1 * 0x200000) && e.2 != some s.podDev

/-- Barrier objects that the sync engines of peers keep, without the waiters of this device (R286, R441). -/
def State.othersObjects (s : State) : List Barrier :=
  (s.barriers.filter fun b => outsideKey b.pa).map fun b => { b with waiters := b.waiters.filter (·.peer.isSome) }

/-- The device back at reset: flash, straps, the measured package temperature, the schedule, and what stands outside the
device, its peers and the switches, remain. -/
def State.reboot (s : State) : State :=
  { State.reset with
    mem := s.mem.filter (fun e => outsideKey e.1), ecc := s.ecc.filter (fun e => outsideKey e.1)
    flash := s.flash, podDev := s.podDev, agenda := s.agenda, rota := s.rota, cur := s.cur
    pool := s.pool, own := { holder := s.othersTokens }, barriers := s.othersObjects
    fab := { State.reset.fab with out := s.fab.out, peerCtx := s.fab.peerCtx, peerSlice := s.fab.peerSlice }
    mc := { State.reset.mc with
      packageTemp := s.mc.packageTemp, flashBad := s.mc.flashBad, code := s.mc.code, pwrLimit := s.mc.code.watts } }

/-- BOOT_STAT (R429). -/
def State.bootStat (s : State) : Word :=
  BitVec.ofNat 64 (s.mc.state.toNat + s.flash.fails.toNat * 2 ^ 8 + (if s.mc.set then 2 ^ 16 else 0))

/-- A start fails with a cause and a detail (R429–R431): with image set B the device halts. -/
def State.startFails (s : State) (minimal : Bool) (cause detail : Nat) : State :=
  let s := s.reboot.modFlash fun f =>
    { f with fails := if f.fails = 255#8 then f.fails else f.fails + 1
             bootLog := (f.bootLog <<< 16) ||| BitVec.ofNat 48 (cause * 256 + detail % 256) }
  if minimal then s.modMc fun m => { m with state := 3#4 } else s

/-- The bytes of one image in an image set. -/
def imageBytes (set : List Byte) (e : Config.ImageEntry) : List Byte := (set.drop e.off).take e.len

/-- Lose the compute dies and HBM (R441, R442). -/
def State.offLoss (s : State) : State :=
  { s with
    mem := s.mem.filter (fun e => outsideKey e.1), ecc := s.ecc.filter (fun e => outsideKey e.1)
    cells := [], tlb := [], barriers := s.othersObjects, released := [], mergeBuf := [], tgu := {}
    ctxBase := 0#64, fab := { s.fab with ports := 0#20, asid := 0#14, en := false }, own := { holder := s.othersTokens }, sre := [] }

/-- A thermal trip: its event, then power is removed from the compute dies and HBM (R442). -/
def State.trip (s : State) (sensor : BitVec 8) (temp : Nat) : State :=
  (s.post 0x0001#16 0 sensor.toNat temp 0).offLoss.modMc fun m => { m with power := .off, tripped := true, exiting := false }

/-- Check an image set as R428 and R432 do: the manifest, or the cause and detail of R430. -/
def checkSet (rollback : BitVec 32) (set : List Byte) : Except (Nat × Nat) Config.Manifest :=
  match Config.manifest set with
  | none => .error (4, 0)
  | some m =>
    if !Config.vendorVerifies (Config.sha3 (set.take m.len)) m.signature then .error (4, 0)
    else if m.version < rollback then .error (6, 0)
    else
      match findIdx? (fun e => Config.sha3 (imageBytes set e) != e.digest) m.images with
      | some i => .error (5, i)
      | none => .ok m

/-- One entry of the measurement log (R433). -/
def measure (kind : Nat) (version : BitVec 32) (digest : BitVec 256) : List Byte :=
  leBytes 1 kind ++ List.replicate 3 0#8 ++ leBytes 4 version.toNat ++ leBytes 32 digest.toNat ++ List.replicate 24 0#8

/-- The measurement log of a start: fuses first, then each image (R433). -/
def logOf (m : Config.Manifest) : List (List Byte) :=
  measure 0xFF 0#32 Config.fuseDigest :: m.images.zipIdx.map fun e => measure e.2 m.version e.1.digest

/-- Failed physical positions of a half: by test and by mark (R436). -/
def State.failedCells (s : State) (f : StartFacts) (h : Nat) : List Nat :=
  (List.range 42).filter fun p => f.failedCells.contains (h, p) || tabGet false s.flash.marks (42 * h + p)

/-- The spares of a half in use: for each of its two spares, the logical number it carries (R436). -/
def sparesOf (h : Nat) (failed : List Nat) : Nat :=
  let bad := failed.filter (· < 40)
  let good := [0, 1].filter fun i => !failed.contains (40 + i)
  ((good.zip bad).map fun e => (128 + 40 * h + e.2) * 2 ^ (16 * h + 8 * e.1)).foldl (· + ·) 0

/-- The supervisor memories as the supervisor image sets them up (R369, R428). -/
def State.loadSupervisors (s : State) (set : List Byte) (m : Config.Manifest) : State :=
  match m.images[2]? with
  | none => s
  | some e => s.storeRun (supPa 0 0) ((Config.supervisorImage (imageBytes set e)).take (80 * Config.superBytes))

/-- What the board may report against a start before the cells are tested (R430), in the order of R428. -/
def earlyFailure (f : StartFacts) : Option (Nat × Nat) :=
  match f.rail with
  | some r => some (1, r.toNat)
  | none =>
    if f.mcSram then some (2, 0)
    else f.flashSector.map fun x => (3, x.toNat)

/-- A start with image set A (R428). -/
def State.startFull (s : State) (f : StartFacts) : State :=
  let fail (e : Nat × Nat) : State := s.startFails false e.1 e.2
  match earlyFailure f with
  | some e => fail e
  | none =>
    match checkSet s.flash.rollback s.flash.setA with
    | .error e => fail e
    | .ok m =>
      let f0 := s.failedCells f 0
      let f1 := s.failedCells f 1
      match (List.range 8).find? f.hbmStacks.contains, f.syncSram with
      | some k, _ => fail (7, k)
      | none, some h => fail (9, h.toNat)
      | none, none =>
        if f0.length > 2 then fail (8, 0)
        else if f1.length > 2 then fail (8, 1)
        else
          match f.sensor with
          | some t => (fail (10, t.toNat)).trip t f.tripTemp
          | none =>
            let s := s.reboot.loadSupervisors s.flash.setA m
            let s := s.modFlash fun fl => { fl with fails := 0#8 }
            { s with
              ctxBase := (Config.firmwareCtxBase.setWidth 64) <<< 16
              fab := { s.fab with ports := f.ports }
              mc := { s.mc with
                state := 1#4, log := logOf m, spares := BitVec.ofNat 64 (sparesOf 0 f0 + sparesOf 1 f1)
                rsvOwn := BitVec.ofNat 64 (2 ^ 39 - 0x8000000), rsvSync := 64#64, trained := f.ports } }

/-- A start with image set B into minimal mode (R431). -/
def State.startMinimal (s : State) (f : StartFacts) : State :=
  let fail (e : Nat × Nat) : State := s.startFails true e.1 e.2
  match earlyFailure f with
  | some e => fail e
  | none =>
    match checkSet s.flash.rollback s.flash.setB with
    | .error e => fail e
    | .ok m =>
      let passes (h : Nat) : Bool := decide ((s.failedCells f h).length ≤ 34)
      if !passes 0 && !passes 1 then fail (8, 0)
      else
        let h := if passes 0 then 0 else 1
        let failed := s.failedCells f h
        let cellMap := (((List.range 42).filter fun p => !failed.contains p).take 8).map (42 * h + ·)
        match ((List.range 4).map (4 * h + ·)).find? (fun k => !f.hbmStacks.contains k), f.syncSram, f.sensor with
        | none, _, _ => fail (7, 4 * h)
        | some _, some x, _ => fail (9, x.toNat)
        | some _, none, some t => (fail (10, t.toNat)).trip t f.tripTemp
        | some stack, none, none =>
          let s := s.reboot.loadSupervisors s.flash.setB m
          { s with
            ctxBase := (Config.firmwareCtxBase.setWidth 64) <<< 16 &&& 0xFFFFFFFFF#64
            mc := { s.mc with
              set := true, state := 2#4, log := logOf m, half := decide (h = 1), stack, cellMap
              rsvOwn := BitVec.ofNat 64 (2 ^ 36 - 0x8000000), rsvSync := 64#64 } }

/-- START: the whole start sequence, with what the board and the silicon report; a device without power starts no more
until BOOT_CTL or the reset pin gives it power again (R442). -/
def execStart (f : StartFacts) (s : State) : Host.Outcome State Fault Refusal :=
  if s.mc.state ≠ 0#4 || s.mc.power == .off then idle s
  else if s.flash.fails.toNat ≥ 3 || s.mc.minimalAsked then .next (s.startMinimal f)
  else .next (s.startFull f)

/-- START_TIMEOUT: 4 s after reset without state 1 (R428, cause 0x0B). -/
def execStartTimeout (step : BitVec 8) (s : State) : Host.Outcome State Fault Refusal :=
  if s.mc.state ≠ 0#4 || s.mc.power == .off then idle s
  else .next (s.startFails (decide (s.flash.fails.toNat ≥ 3) || s.mc.minimalAsked) 11 step.toNat)

/-- BOOT_CTL bit 0: start again, refused while the package is hot after a trip (R427, R442). -/
def State.bootRestart (s : State) : State :=
  if s.mc.tripped && decide (s.mc.packageTemp ≥ 8500) then s.modMc fun m => { m with pwrStatus := 5#8 } else s.reboot

/-- BOOT_RESTART. -/
def execBootRestart (s : State) : Host.Outcome State Fault Refusal := .next s.bootRestart

/-- BOOT_CTL bit 1 (R431). -/
def State.clearFails (s : State) : State := s.modFlash fun f => { f with fails := 0#8 }

/-- BOOT_CLEAR_FAILS. -/
def execBootClearFails (s : State) : Host.Outcome State Fault Refusal := .next s.clearFails

/-- BOOT_CTL bit 2: restart into minimal mode (R427, R431). -/
def State.restartMinimal (s : State) : State := s.reboot.modMc fun m => { m with minimalAsked := true }

/-- BOOT_RESTART_MINIMAL. -/
def execBootRestartMinimal (s : State) : Host.Outcome State Fault Refusal := .next s.restartMinimal

/-- RESET_PIN_ASSERTED (R428). -/
def execResetPinAsserted (s : State) : Host.Outcome State Fault Refusal := .next s.reboot

/-- SUPPLY_REMOVED: only flash and fuses keep state (R440). -/
def execSupplyRemoved (s : State) : Host.Outcome State Fault Refusal :=
  .next (s.reboot.modMc fun m => { m with packageTemp := 0 })

/-! ## Recovery (R432) -/

/-- Set REC_STAT.code. -/
def State.recCode (s : State) (c : Nat) : State := s.modMc fun m => { m with recCode := BitVec.ofNat 8 c }

/-- Recovery commands are accepted in states 2 and 3 alone. -/
def State.recovery (s : State) (f : State → State) : State :=
  if s.mc.state = 2#4 ∨ s.mc.state = 3#4 then f s else s.recCode 5

/-- A command that writes boot flash: code 6 where the flash fails. -/
def State.flashWrite (s : State) (f : State → State) : State := if s.mc.flashBad then s.recCode 6 else f s

/-- REC_CMD 1. -/
def State.recBegin (s : State) : State :=
  s.recovery fun s =>
    if s.mc.recArg.toNat > Config.imageSetSize then (s.modMc fun m => { m with stagedLen := none, staged := [] }).recCode 1
    else (s.modMc fun m => { m with stagedLen := some m.recArg.toNat, staged := [] }).recCode 0

/-- REC_CMD 2. -/
def State.recPiece (s : State) : State :=
  s.recovery fun s =>
    let a := s.mc.recArg.toNat
    let off := a % 2 ^ 32
    let len := a / 2 ^ 32 % 2 ^ 16 + 1
    match s.mc.stagedLen with
    | none => s.recCode 1
    | some n =>
      if off + len > n then s.recCode 1
      else s.flashWrite fun s => (s.modMc fun m =>
        { m with staged := tabSplice none m.staged off ((tabRead 0#8 m.recBuf 0 len).map some) }).recCode 0

/-- REC_CMD 3. -/
def State.recCommit (s : State) : State :=
  s.recovery fun s =>
    match s.mc.stagedLen with
    | none => s.recCode 1
    | some n =>
      let bs := tabRead none s.mc.staged 0 n
      if bs.any (·.isNone) then s.recCode 2
      else
        let set := bs.map fun b => b.getD 0#8
        match checkSet s.flash.rollback set with
        | .error (5, _) => s.recCode 4
        | .error _ => s.recCode 3
        | .ok _ => s.flashWrite fun s => (s.modFlash fun f => { f with setA := set, fails := 0#8 }).recCode 0

/-- REC_CMD 4. -/
def State.recAbort (s : State) : State :=
  s.recovery fun s => (s.modMc fun m => { m with stagedLen := none, staged := [] }).recCode 0

/-- The MC acts on recovery command n: one that it has taken and is busy with, or one written now; a command written while
it is busy with another is ignored. -/
def recAct (n : Nat) (f : State → State) (s : State) : Host.Outcome State Fault Refusal :=
  if s.mc.recBusy = none || s.mc.recBusy = some n then .next (f (s.modMc fun m => { m with recBusy := none })) else idle s

/-- REC_BEGIN. -/
def execRecBegin (s : State) : Host.Outcome State Fault Refusal := recAct 1 State.recBegin s
/-- REC_PIECE. -/
def execRecPiece (s : State) : Host.Outcome State Fault Refusal := recAct 2 State.recPiece s
/-- REC_COMMIT. -/
def execRecCommit (s : State) : Host.Outcome State Fault Refusal := recAct 3 State.recCommit s
/-- REC_ABORT. -/
def execRecAbort (s : State) : Host.Outcome State Fault Refusal := recAct 4 State.recAbort s

/-! ## Attestation (R434) -/

/-- An attestation command: refused while busy, or outside local HBM, which only a started device has. -/
def State.attest (s : State) (body : List Byte) : State :=
  let a := s.mc.attAddr.toNat
  if s.mc.attStat = 1#2 || paClass a ≠ 0 || a ≥ 2 ^ 56 || !paOk s.minimal a || !s.open then
    s.modMc fun m => { m with attStat := 3#2 }
  else (s.storeRun (a + 64) body).modMc fun m => { m with attStat := 2#2 }

/-- The signed report. -/
def State.report (s : State) : List Byte :=
  let n := s.mc.log.length
  let head := leBytes 4 0x54414B44 ++ leBytes 4 1 ++ leBytes 4 n ++ leBytes 4 (96 + 64 * n + 3309) ++
    s.bytes s.mc.attAddr.toNat 32 ++ leBytes 32 Config.identityKeyDigest.toNat ++
    leBytes 8 s.bootStat.toNat ++ leBytes 8 s.mc.spares.toNat ++ s.mc.log.flatten
  head ++ fitBytes 3309 (Config.identitySign (Config.sha3 head))

/-- ATT_REPORT. -/
def execAttReport (s : State) : Host.Outcome State Fault Refusal := .next (s.attest s.report)

/-- The certificate with its length before it. -/
def certBytes : List Byte := leBytes 8 Config.certificate.length ++ Config.certificate

/-- ATT_CERT. -/
def execAttCert (s : State) : Host.Outcome State Fault Refusal := .next (s.attest certBytes)

/-! ## Power, clock, telemetry, scrubbing (R435, R441–R443) -/

/-- A request of a power state with its conditions (R441): the status that refuses it. -/
def State.powerRefused (s : State) (n : Nat) : Option Nat :=
  let queues := (List.range 8).any fun q => (s.tgu.q q).enabled
  let busy := (List.range Config.cells).any fun c => !(s.cell c).free
  if queues || busy then some 1
  else if n < 2 then none
  else if (List.range 8).any (fun k => !(tabGet [] s.sre k).isEmpty) then some 2
  else if s.own.st.any (fun e => e.2 == .held) || s.own.holder.any (fun e => e.2.isSome && paClass (e.1 * 0x200000) == 0) then some 3
  else if s.tgu.parked ≠ 0 then some 4
  else none

/-- Every live barrier object of this device's sync engines dies with its image in memory (R441). -/
def State.buryAll (s : State) : State :=
  (s.barriers.filter fun b => !outsideKey b.pa).foldl (fun s b => s.bury { b with waiters := [] }) s

/-- Lose what standby does not keep (R441). -/
def State.standbyLoss (s : State) : State :=
  let s := s.buryAll
  let slices (k : Nat) : Bool := paClass k == 1
  { s with
    mem := s.mem.filter (fun e => !slices e.1), ecc := s.ecc.filter (fun e => !slices e.1)
    cells := s.cells.filterMap fun e => if e.2.uncorr = 0 then none else some (e.1, { uncorr := e.2.uncorr })
    tlb := [], tgu := {}, mergeBuf := [], released := [], ctxBase := 0#64
    fab := { s.fab with ports := 0#20, asid := 0#14, en := false } }

/-- A write of PWR_CTL (R441). -/
def State.pwrRequest (s : State) (n : Nat) : State :=
  let s := s.modMc fun m => { m with pwrCtl := BitVec.ofNat 2 n }
  let grant (f : State → State) (p : Power) : State := (f s).modMc fun m => { m with power := p, pwrStatus := 0#8 }
  let refused := s.powerRefused n
  let refuse (c : Nat) : State := s.modMc fun m => { m with pwrStatus := BitVec.ofNat 8 c }
  if s.mc.exiting || s.mc.power == .off then s
  else
    match n, s.mc.power, refused with
    | 0, .run, _ => s.modMc fun m => { m with pwrStatus := 0#8 }
    | 0, _, _ => s.modMc fun m => { m with exiting := true, pwrStatus := 0#8 }
    | _, _, some c => refuse c
    | 1, .standby, none => s
    | 1, _, none => grant id .idle
    | 2, .standby, none => s
    | 2, _, none => grant State.standbyLoss .standby
    | _, _, none => grant (fun s => s.buryAll.offLoss) .off

/-- PWR_RUN. -/
def execPwrRun (s : State) : Host.Outcome State Fault Refusal := .next (s.pwrRequest 0)
/-- PWR_IDLE. -/
def execPwrIdle (s : State) : Host.Outcome State Fault Refusal := .next (s.pwrRequest 1)
/-- PWR_STANDBY. -/
def execPwrStandby (s : State) : Host.Outcome State Fault Refusal := .next (s.pwrRequest 2)
/-- PWR_OFF. -/
def execPwrOff (s : State) : Host.Outcome State Fault Refusal := .next (s.pwrRequest 3)

/-- PWR_EXIT_DONE: from standby the firmware writes CTX_BASE and retrains the ports (R441). -/
def execPwrExitDone (s : State) : Host.Outcome State Fault Refusal :=
  if !s.mc.exiting then idle s
  else
    let back := s.modMc fun m => { m with power := .run, exiting := false }
    if s.mc.power = .standby then
      .next { back with ctxBase := (Config.firmwareCtxBase.setWidth 64) <<< 16 &&& (if s.minimal then 0xFFFFFFFFF#64 else 0x7FFFFFFFFF#64)
                        fab := { s.fab with ports := s.mc.trained } }
    else .next back

/-- A write of PWR_LIMIT: watts in bits 15:0, clipped to the DK4-M maximum (R442). -/
def State.setLimit (s : State) (v : Word) : State :=
  s.modMc fun m => { m with pwrLimit := BitVec.ofNat 16 (min (v.toNat % 65536) 2400) }

/-- PWR_LIMIT. -/
def execPwrLimit (v : Word) (s : State) : Host.Outcome State Fault Refusal := .next (s.setLimit v)

/-- A thermal trip in boot state 0 also fails the start that is under way (R430, R442). -/
def State.tripAt (s : State) (sensor : BitVec 8) (temp : Nat) : State :=
  (if s.mc.state = 0#4 then s.startFails (decide (s.flash.fails.toNat ≥ 3) || s.mc.minimalAsked) 10 sensor.toNat else s).trip sensor temp

/-- POWER_SAMPLE: input power in milliwatts, temperatures in 0.01 °C (R442). -/
def execPowerSample (milliwatts dieTemp packageTemp : Nat) (sensor : BitVec 8) (s : State) :
    Host.Outcome State Fault Refusal :=
  let s := s.modMc fun m => { m with packageTemp }
  let limit := 1000 * s.mc.pwrLimit.toNat
  if s.mc.power = .off then .next s
  else if dieTemp ≥ 10500 then
    .next (s.tripAt sensor dieTemp)
  else if milliwatts > limit ∨ dieTemp > 9500 then .next (s.modMc fun m => { m with clk := max 600 (m.clk - 25) })
  else if milliwatts < limit ∧ dieTemp < 9500 then .next (s.modMc fun m => { m with clk := min 1250 (m.clk + 25) })
  else .next s

/-- TELEMETRY_REFRESH: the sensors' values for TEL0–TEL10, and the MC's own counts (R443). -/
def execTelemetryRefresh (sensors : List Word) (s : State) : Host.Outcome State Fault Refusal :=
  let m := s.mc
  let vals := (List.range 11).map (fun i => sensors.getD i 0#64) ++ [BitVec.ofNat 64 m.slowCycles] ++
    (List.range 8).map (fun i => BitVec.ofNat 64 (tabGet 0 m.correctedHbm i)) ++
    [BitVec.ofNat 64 m.correctedSram, BitVec.ofNat 64 m.uncorrectable, BitVec.ofNat 64 m.scrubPasses]
  .next (s.modMc fun m => { m with tel := tabSplice 0#64 [] 0 vals })

/-- SCRUB_UNIT: the MC reads the next 32-byte unit of a stack (R435); in minimal mode the one stack is all of local HBM
(R431). An error that it finds counts in TEL21 (R443). -/
def execScrubUnit (st : BitVec 3) (s : State) : Host.Outcome State Fault Refusal :=
  let k := st.toNat
  let pos := tabGet 0 s.mc.scrubPos k
  let a := if s.minimal then pos * 32 else slView (k * 2 ^ 36 + pos * 32)
  if s.minimal && k != s.mc.stack then idle s
  else
  let last := decide (pos + 1 = 2 ^ 31)
  let s := if s.bad a then s.countUncorrectable.post 0x0602#16 6 k a 0 else s
  .next (s.modMc fun m =>
    { m with scrubPos := tabSet 0 m.scrubPos k (if last then 0 else pos + 1)
             scrubPasses := if last then m.scrubPasses + 1 else m.scrubPasses })

/-- A write of EVQ_HEAD: consumes entries, ignored beyond the tail (R437). -/
def State.setEvqHead (s : State) (v : Word) : State :=
  if v - s.mc.evqHead > s.mc.evqTail - s.mc.evqHead then s else s.modMc fun m => { m with evqHead := v }

/-- EVQ_HEAD. -/
def execEvqHead (v : Word) (s : State) : Host.Outcome State Fault Refusal := .next (s.setEvqHead v)

/-! ## Pre-emption requests and dispatch freezes (R379, R380, R408) -/

/-- A pre-emption request for a cell: ignored without an iteration, merged with one that is pending. -/
def State.requestPreempt (s : State) (c : Nat) : State :=
  let x := s.cell c
  if x.iter.isNone || x.preempt.isSome then s
  else
    let l := (engines.map fun e => (x.eng e).step).foldl max 0
    s.modCell c fun x => { x with preempt := some { limit := l, since := s.cycle } }

/-- A write of PREEMPT_REQ0 or, with `hi`, PREEMPT_REQ1. -/
def State.preemptReq (s : State) (hi : Bool) (v : Word) : State :=
  (List.range (if hi then 16 else 64)).foldl (fun s i =>
    if v.getLsbD i then s.requestPreempt (if hi then 64 + i else i) else s) s

/-- PREEMPT_REQ. -/
def execPreemptReq (hi : Bool) (v : Word) (s : State) : Host.Outcome State Fault Refusal :=
  if s.open then .next (s.preemptReq hi v) else idle s

/-- A write of DFREEZE. -/
def State.setDfreeze (s : State) (v : Word) : State :=
  { s with fab := { s.fab with asid := v.setWidth 14, en := v.getLsbD 16 } }

/-- DFREEZE. -/
def execDfreeze (v : Word) (s : State) : Host.Outcome State Fault Refusal :=
  if s.open then .next (s.setDfreeze v) else idle s

/-- STFs of the frozen ASID whose flags have not been performed. -/
def State.drain (s : State) : Nat :=
  (s.cells.map fun e => (e.2.stfs.filter fun f => f.asid == s.fab.asid).length).foldl (· + ·) 0

/-- FAB_STAT: a pool port reads down while its switch is failed or absent (R408). -/
def State.fabStat (s : State) : Word :=
  let up (i : Nat) : Bool :=
    s.fab.ports.getLsbD i && (decide (i < 12) || (s.switch (i - 12) != .failed && s.switch (i - 12) != .absent))
  BitVec.ofNat 64 (((List.range 20).filter up).foldl (fun n i => n + 2 ^ i) 0)

/-- PREEMPT_PEND0 or PREEMPT_PEND1. -/
def State.pending (s : State) (hi : Bool) : Word :=
  let cs := (List.range (if hi then 16 else 64)).filter fun i => (s.cell (if hi then 64 + i else i)).preempt.isSome
  BitVec.ofNat 64 (cs.foldl (fun n i => n + 2 ^ i) 0)

/-! ## The register map (R415) -/

def mgmtBase : Nat := 0x3000000
def recBufBase : Nat := 0x3010000
def supBase : Nat := 0x1000000

def powerCode : Power → Nat
  | .run => 0 | .idle => 1 | .standby => 2 | .off => 3

/-- Read the 8-byte register at an MMIO offset; an offset that no table lists reads zero. -/
def State.regRead (s : State) (off : Nat) : Word :=
  let m := s.mc
  if off < 0x200 then
    let l := s.tgu.q (off / 0x40)
    match off % 0x40 with
    | 0x00 => l.base | 0x08 => l.size | 0x10 => l.head | 0x18 => l.tail | 0x20 => l.ctl.setWidth 64
    | _ => 0#64
  else if 0x3000100 ≤ off && off < 0x3000200 then tabGet 0#64 m.tel ((off - 0x3000100) / 8)
  else if recBufBase ≤ off && off < recBufBase + 0x10000 then
    BitVec.ofNat 64 (leNat (tabRead 0#8 m.recBuf (off - recBufBase) 8))
  else
    match off with
    | 0x200 => s.tgu.age
    | 0x208 => s.tgu.steal
    | 0x218 => s.tgu.cancelAsid.setWidth 64
    | 0x220 => BitVec.ofNat 64 s.tgu.parked
    | 0x10000 => s.ctxBase
    | 0x10018 => s.pending false
    | 0x10020 => s.pending true
    | 0x20000 => s.fabStat
    | 0x20008 => BitVec.ofNat 64 (s.fab.asid.toNat + (if s.fab.en then 2 ^ 16 else 0))
    | 0x20010 => BitVec.ofNat 64 (s.drain % 2 ^ 32)
    | 0x3000000 => s.bootStat
    | 0x3000008 => s.flash.bootLog.setWidth 64
    | 0x3000018 => m.spares
    | 0x3000020 => m.evqBase
    | 0x3000028 => m.evqSize
    | 0x3000030 => m.evqHead
    | 0x3000038 => m.evqTail
    | 0x3000040 => m.evqLost
    | 0x3000048 => m.pwrCtl.setWidth 64
    | 0x3000050 => BitVec.ofNat 64 (powerCode m.power + m.pwrStatus.toNat * 256)
    | 0x3000058 => m.pwrLimit.setWidth 64
    | 0x3000068 => m.attAddr
    | 0x3000070 => m.attStat.setWidth 64
    | 0x3000078 => m.rsvOwn
    | 0x3000080 => m.rsvSync
    | 0x3000088 => BitVec.ofNat 64 m.clk
    | 0x3000098 => m.recArg
    | 0x30000A0 => BitVec.ofNat 64 (m.recCode.toNat + (if m.recBusy.isSome then 256 else 0))
    | _ => 0#64

/-- A power of two within bounds, or zero. -/
def sizeOk (v : Word) (lo hi : Nat) : Bool :=
  v == 0#64 || (decide (lo ≤ v.toNat) && decide (v.toNat ≤ hi) && v &&& (v - 1) == 0#64)

/-- A local HBM address that is a multiple of n. -/
def State.hbmAddr (s : State) (v : Word) (n : Nat) : Bool :=
  decide (v.toNat < 2 ^ 39) && paOk s.minimal v.toNat && decide (v.toNat % n = 0)

/-- Write a register of one launch queue (R338): base, size and asid stand while the queue is enabled. -/
def State.lqWrite (s : State) (n off : Nat) (v : Word) : State :=
  let l := s.tgu.q n
  match off with
  | 0x00 => if l.enabled || !s.hbmAddr v 64 then s else s.modLq n fun l => { l with base := v }
  | 0x08 => if l.enabled || !sizeOk v 16 65536 then s else s.modLq n fun l => { l with size := v }
  | 0x18 => s.lqTail n v
  | 0x20 =>
    let new : BitVec 18 := v.setWidth 18 &&& 0x33FFF#18
    s.modLq n fun l => { l with ctl := if l.enabled then (new &&& 0x30000#18) ||| (l.ctl &&& 0x3FFF#18) else new }
  | _ => s

/-- A write of REC_CMD: ignored while the MC is busy; else the MC takes the command, and acts on it in its own time (R432). -/
def State.recCmd (s : State) (v : Word) : State :=
  if s.mc.recBusy.isSome then s
  else s.recovery fun s => if 1 ≤ v.toNat && v.toNat ≤ 4 then s.modMc fun m => { m with recBusy := some v.toNat } else s

/-- Act on a write of BOOT_CTL (R427). -/
def State.bootCtl (s : State) (v : Word) : State :=
  let s := if v.getLsbD 1 then s.clearFails else s
  if v.getLsbD 2 then s.restartMinimal else if v.getLsbD 0 then s.bootRestart else s

/-- Write the 8-byte register at an MMIO offset (R6, R7): read-only and unlisted offsets ignore it. -/
def State.regWrite (s : State) (off : Nat) (v : Word) : State :=
  if off < 0x200 then s.lqWrite (off / 0x40) (off % 0x40) v
  else if recBufBase ≤ off && off < recBufBase + 0x10000 then
    s.modMc fun m => { m with recBuf := tabSplice 0#8 m.recBuf (off - recBufBase) (leBytes 8 v.toNat) }
  else
    match off with
    | 0x200 => s.modTgu fun t => { t with age := v }
    | 0x208 => s.modTgu fun t => { t with steal := v }
    | 0x210 => s.cancel v
    | 0x218 => s.modTgu fun t => { t with cancelAsid := v.setWidth 14 }
    | 0x10000 => if s.hbmAddr v 0x10000 then { s with ctxBase := v } else s
    | 0x10008 => s.preemptReq false v
    | 0x10010 => s.preemptReq true v
    | 0x20008 => s.setDfreeze v
    | 0x3000010 => s.bootCtl v
    | 0x3000020 => if s.hbmAddr v 4096 then s.modMc fun m => { m with evqBase := v } else s
    | 0x3000028 => if sizeOk v 64 65536 then (s.modMc fun m => { m with evqSize := v }).drainEvents else s
    | 0x3000030 => s.setEvqHead v
    | 0x3000048 => s.pwrRequest (v.toNat % 4)
    | 0x3000058 => s.setLimit v
    | 0x3000060 =>
      if v.toNat % 4 = 1 then s.attest s.report else if v.toNat % 4 = 2 then s.attest certBytes else s
    | 0x3000068 => if v.toNat % 64 = 0 then s.modMc fun m => { m with attAddr := v } else s
    | 0x3000090 => s.recCmd v
    | 0x3000098 => s.modMc fun m => { m with recArg := v }
    | _ => s

/-- An MMIO offset in a supervisor memory (R415). -/
def inSupervisors (off : Nat) : Bool := decide (supBase ≤ off) && decide (off < supBase + 80 * Config.superBytes)

/-- Read n bytes (4 or 8, aligned) at an MMIO offset (R415). -/
def State.mmioRead (s : State) (off n : Nat) : List Byte :=
  if inSupervisors off then s.bytes (8 * 2 ^ 52 + off) n
  else ((leBytes 8 (s.regRead (off / 8 * 8)).toNat).drop (off % 8)).take n

/-- Write 4 or 8 aligned bytes at an MMIO offset: a 4-byte write keeps the register's other half. -/
def State.mmioWrite (s : State) (off : Nat) (bs : List Byte) : State :=
  if inSupervisors off then s.storeRun (8 * 2 ^ 52 + off) bs
  else
    let old := leBytes 8 (s.regRead (off / 8 * 8)).toNat
    s.regWrite (off / 8 * 8) (BitVec.ofNat 64 (leNat (old.take (off % 8) ++ bs ++ old.drop (off % 8 + bs.length))))

/-- The size and alignment that an MMIO access must have (R415). -/
def mmioOk (off n : Nat) : Bool := (n == 4 || n == 8) && off % n == 0 && decide (off + n ≤ 2 ^ 26)

/-! ## Accesses from outside the device (R286, R414–R416) -/

/-- Write bytes from outside: live barrier objects keep theirs, with one event each (R286). -/
def State.outsideWrite (s : State) (who : Nat) (ps : List Put) : State :=
  let hit := s.barriers.filter fun b => ps.any fun p => decide (p.1 / 64 * 64 = b.pa)
  let s := (hit.filter fun b => decide (s.halfAt b.pa < 2)).foldl
    (fun s b => s.post 0x0201#16 (2 + s.halfAt b.pa) (s.halfAt b.pa) b.pa who) s
  s.puts (ps.filter fun p => !hit.any fun b => decide (p.1 / 64 * 64 = b.pa))

/-- The answer of all ones that a closed window gives (R428, R431). -/
def allOnes (n : Nat) : List Byte := List.replicate n 0xFF#8

/-- Keys of a BAR 2 access; `none` beyond local HBM. -/
def State.barKeys (s : State) (off n : Nat) : Option (List Nat) :=
  if (List.range n).all fun i => decide (off + i < 2 ^ 39) && paOk s.minimal (off + i) then
    some ((List.range n).map (off + ·))
  else none

/-- An ownership region of this device's HBM whose token another device holds (R401). -/
def State.foreign (s : State) (k : Nat) : Bool :=
  match tabGet none s.own.holder (regionOf k) with
  | some d => d != s.podDev
  | none => false

/-- HOST_BAR_WRITE. -/
def execHostBarWrite (bar off : Nat) (bs : List Byte) (s : State) : Host.Outcome State Fault Refusal :=
  let ack (s : State) (ok : Bool) : State := { s with reply := { ok } }
  if bar = 0 then
    if !mmioOk off bs.length then .next (ack s false)
    else if !s.open && off < mgmtBase then .next (ack s true)
    else .next (ack (s.mmioWrite off bs) true)
  else if bar = 2 then
    if !s.open then .next (ack s true)
    else
      match s.barKeys off bs.length with
      | none => .next (ack s true)
      | some ks =>
        if ks.any s.foreign then .next (ack (s.post 0x0701#16 7 0 off 2) true)
        else .next (ack ((s.outsideWrite 256 (fullPuts ks bs)).tagged { dev := none } (some .sys) ks) true)
  else .next (ack s false)

/-- HOST_BAR_READ. -/
def execHostBarRead (bar off len : Nat) (s : State) : Host.Outcome State Fault Refusal :=
  let answer (s : State) (bs : List Byte) : State := { s with reply := { ok := true, data := bs } }
  if bar = 0 then
    if !mmioOk off len then .next { s with reply := { ok := false } }
    else if !s.open && off < mgmtBase then .next (answer s (allOnes len))
    else if inSupervisors off && s.bad (8 * 2 ^ 52 + off) then
      .next { s.countEcc 0 (some (8 * 2 ^ 52 + off)) with reply := { ok := false, cause := cEcc } }
    else .next (answer s (s.mmioRead off len))
  else if bar = 2 then
    match (if s.open then s.barKeys off len else none) with
    | none => .next (answer s (allOnes len))
    | some ks =>
      if ks.any s.foreign then .next (answer (s.post 0x0701#16 7 0 off 1) (allOnes len))
      else
        match ks.find? s.bad with
        | some k => .next { s.countEcc 0 (some k) with reply := { ok := false, cause := cEcc } }
        | none =>
          let t := s.settleDebts { dev := none } .sys ks
          .next (answer t (ks.map t.view))
  else .next { s with reply := { ok := false } }

/-- REGISTER_WRITE: a host write of 8 bytes to a register without a row of its own. -/
def execRegisterWrite (off : Nat) (v : Word) (s : State) : Host.Outcome State Fault Refusal :=
  if !s.open && off < mgmtBase then idle s else .next (s.regWrite off v)

end Sys2Proof.Machine
end

