-- ==== Sys2Proof/Machine/Scalar.lean ====
section
/-! DEFINITION. The S instructions and the common block's fences, marks, traps and queue reads (04 R99–R123). -/

namespace Sys2Proof.Machine

/-- A register result: it is written and the engine passes. -/
def give (sd : SReg) (v : Word) (s : State) : Act := .done (s.setS sd v)

/-- The frame of an S instruction that computes one register from a first source and a second one. -/
def binary (h : Hdr) (sd sa : SReg) (b : Src) (f : Word → Word → Word) (s : State) : Host.Outcome State Fault Refusal :=
  issue h (sa :: srcRegs b) s fun s => give sd (f (s.getS sa) (s.src b)) s

/-- The frame of an S instruction that computes one register from one source. -/
def unary (h : Hdr) (sd sa : SReg) (f : Word → Word) (s : State) : Host.Outcome State Fault Refusal :=
  issue h [sa] s fun s => give sd (f (s.getS sa)) s

/-! ## Integer arithmetic and logic (R101, R102) -/

/-- ADD. -/
def execAdd (h : Hdr) (sd sa : SReg) (b : Src) (s : State) : Host.Outcome State Fault Refusal :=
  binary h sd sa b (· + ·) s

/-- SUB. -/
def execSub (h : Hdr) (sd sa : SReg) (b : Src) (s : State) : Host.Outcome State Fault Refusal :=
  binary h sd sa b (· - ·) s

/-- MUL. -/
def execMul (h : Hdr) (sd sa : SReg) (b : Src) (s : State) : Host.Outcome State Fault Refusal :=
  binary h sd sa b (· * ·) s

/-- The high half of a product (R101). -/
def mulHigh (u : Bool) (a b : Word) : Word :=
  if u then BitVec.ofNat 64 (a.toNat * b.toNat / 2 ^ 64) else BitVec.ofInt 64 (a.toInt * b.toInt / 2 ^ 64)

/-- MULH. -/
def execMulh (h : Hdr) (sd sa : SReg) (b : Src) (u : Bool) (s : State) : Host.Outcome State Fault Refusal :=
  binary h sd sa b (mulHigh u) s

/-- The quotient of R102, rounded toward zero; division by zero gives all ones. -/
def quotient (u : Bool) (a b : Word) : Word :=
  if b = 0#64 then BitVec.allOnes 64 else if u then a / b else BitVec.ofInt 64 (a.toInt.tdiv b.toInt)

/-- The remainder of R102, with the sign of a; division by zero gives a. -/
def remainder (u : Bool) (a b : Word) : Word :=
  if b = 0#64 then a else if u then a % b else BitVec.ofInt 64 (a.toInt.tmod b.toInt)

/-- DIV. -/
def execDiv (h : Hdr) (sd sa : SReg) (b : Src) (u : Bool) (s : State) : Host.Outcome State Fault Refusal :=
  binary h sd sa b (quotient u) s

/-- REM. -/
def execRem (h : Hdr) (sd sa : SReg) (b : Src) (u : Bool) (s : State) : Host.Outcome State Fault Refusal :=
  binary h sd sa b (remainder u) s

/-- AND. -/
def execAnd (h : Hdr) (sd sa : SReg) (b : Src) (s : State) : Host.Outcome State Fault Refusal :=
  binary h sd sa b (· &&& ·) s

/-- OR. -/
def execOr (h : Hdr) (sd sa : SReg) (b : Src) (s : State) : Host.Outcome State Fault Refusal :=
  binary h sd sa b (· ||| ·) s

/-- XOR. -/
def execXor (h : Hdr) (sd sa : SReg) (b : Src) (s : State) : Host.Outcome State Fault Refusal :=
  binary h sd sa b (· ^^^ ·) s

/-- A left shift by an unsigned 64-bit amount (R101). -/
def shiftLeft (a b : Word) : Word := if b.toNat ≥ 64 then 0#64 else a <<< b.toNat

/-- A right shift with zero fill (R101). -/
def shiftRight (a b : Word) : Word := if b.toNat ≥ 64 then 0#64 else a >>> b.toNat

/-- A right shift with sign fill (R101). -/
def shiftArith (a b : Word) : Word := a.sshiftRight (min b.toNat 63)

/-- SHL. -/
def execShl (h : Hdr) (sd sa : SReg) (b : Src) (s : State) : Host.Outcome State Fault Refusal :=
  binary h sd sa b shiftLeft s

/-- SHR. -/
def execShr (h : Hdr) (sd sa : SReg) (b : Src) (s : State) : Host.Outcome State Fault Refusal :=
  binary h sd sa b shiftRight s

/-- SRA. -/
def execSra (h : Hdr) (sd sa : SReg) (b : Src) (s : State) : Host.Outcome State Fault Refusal :=
  binary h sd sa b shiftArith s

/-- ROL. -/
def execRol (h : Hdr) (sd sa : SReg) (b : Src) (s : State) : Host.Outcome State Fault Refusal :=
  binary h sd sa b (fun a b => a.rotateLeft (b.toNat % 64)) s

/-- ROR. -/
def execRor (h : Hdr) (sd sa : SReg) (b : Src) (s : State) : Host.Outcome State Fault Refusal :=
  binary h sd sa b (fun a b => a.rotateRight (b.toNat % 64)) s

/-- Less than, signed or unsigned. -/
def less (u : Bool) (a b : Word) : Bool := if u then a.ult b else a.slt b

/-- MIN. -/
def execMin (h : Hdr) (sd sa : SReg) (b : Src) (u : Bool) (s : State) : Host.Outcome State Fault Refusal :=
  binary h sd sa b (fun a b => if less u b a then b else a) s

/-- MAX. -/
def execMax (h : Hdr) (sd sa : SReg) (b : Src) (u : Bool) (s : State) : Host.Outcome State Fault Refusal :=
  binary h sd sa b (fun a b => if less u a b then b else a) s

/-! ## Bit counts and bit fields (R103–R105) -/

/-- Leading zero bits of an n-bit value; n when it is zero. -/
def leadingZeros {n : Nat} (a : BitVec n) : Nat := ((List.range n).takeWhile fun i => !a.getLsbD (n - 1 - i)).length

/-- Trailing zero bits of an n-bit value; n when it is zero. -/
def trailingZeros {n : Nat} (a : BitVec n) : Nat := ((List.range n).takeWhile fun i => !a.getLsbD i).length

/-- One bits of an n-bit value. -/
def oneBits {n : Nat} (a : BitVec n) : Nat := ((List.range n).filter fun i => a.getLsbD i).length

/-- CLZ. -/
def execClz (h : Hdr) (sd sa : SReg) (s : State) : Host.Outcome State Fault Refusal :=
  unary h sd sa (fun a => BitVec.ofNat 64 (leadingZeros a)) s

/-- CTZ. -/
def execCtz (h : Hdr) (sd sa : SReg) (s : State) : Host.Outcome State Fault Refusal :=
  unary h sd sa (fun a => BitVec.ofNat 64 (trailingZeros a)) s

/-- POPC. -/
def execPopc (h : Hdr) (sd sa : SReg) (s : State) : Host.Outcome State Fault Refusal :=
  unary h sd sa (fun a => BitVec.ofNat 64 (oneBits a)) s

/-- BREV. -/
def execBrev (h : Hdr) (sd sa : SReg) (s : State) : Host.Outcome State Fault Refusal :=
  unary h sd sa BitVec.reverse s

/-- Bits that a field descriptor extracts from a value of a width (R104, R141). -/
def fieldLen (width pos w : Nat) : Nat := if pos < width then min w (width - pos) else 0

/-- A field of an n-bit value, zero- or sign-extended (R104, R141). -/
def extractField {n : Nat} (sx : Bool) (a : BitVec n) (pos w : Nat) : BitVec n :=
  let k := fieldLen n pos w
  let v := a.toNat / 2 ^ pos % 2 ^ k
  if k = 0 then 0#n else if sx then BitVec.ofInt n (sextNat k v) else BitVec.ofNat n v

/-- A value with a field replaced (R104, R141). -/
def insertField {n : Nat} (c a : BitVec n) (pos w : Nat) : BitVec n :=
  let k := fieldLen n pos w
  if k = 0 then c
  else
    let m : BitVec n := BitVec.ofNat n ((2 ^ k - 1) * 2 ^ pos)
    (c &&& ~~~m) ||| ((a <<< pos) &&& m)

/-- Position of a field descriptor. -/
def fieldPos (f : Word) : Nat := f.toNat % 256
/-- Width of a field descriptor. -/
def fieldWidth (f : Word) : Nat := f.toNat / 256 % 256

/-- BFX. -/
def execBfx (h : Hdr) (sd sa : SReg) (f : Src) (s : State) : Host.Outcome State Fault Refusal :=
  binary h sd sa f (fun a f => extractField false a (fieldPos f) (fieldWidth f)) s

/-- BFXS. -/
def execBfxs (h : Hdr) (sd sa : SReg) (f : Src) (s : State) : Host.Outcome State Fault Refusal :=
  binary h sd sa f (fun a f => extractField true a (fieldPos f) (fieldWidth f)) s

/-- BFI. -/
def execBfi (h : Hdr) (sd sa : SReg) (f : Src) (sc : SReg) (s : State) : Host.Outcome State Fault Refusal :=
  issue h (sa :: sc :: srcRegs f) s fun s =>
    give sd (insertField (s.getS sc) (s.getS sa) (fieldPos (s.src f)) (fieldWidth (s.src f))) s

/-- SEXT. -/
def execSext (h : Hdr) (sd sa : SReg) (sz : ExtSize) (s : State) : Host.Outcome State Fault Refusal :=
  unary h sd sa (fun a =>
    match sz with
    | .b => (a.setWidth 8).signExtend 64
    | .h => (a.setWidth 16).signExtend 64
    | .w => (a.setWidth 32).signExtend 64) s

/-- LI. -/
def execLi (h : Hdr) (sd : SReg) (imm : Word) (s : State) : Host.Outcome State Fault Refusal :=
  issue h [] s fun s => give sd imm s

/-- ADDX. -/
def execAddx (h : Hdr) (sd sa sb : SReg) (sh : BitVec 3) (imm : Word) (s : State) : Host.Outcome State Fault Refusal :=
  issue h [sa, sb] s fun s => give sd (s.getS sa + (s.getS sb <<< sh.toNat) + imm) s

/-! ## Compares, predicates, selection (R106–R108) -/

/-- CMP. -/
def execCmp (h : Hdr) (pd : PReg) (sa : SReg) (b : Src) (cc : CC) (s : State) : Host.Outcome State Fault Refusal :=
  issue h (sa :: srcRegs b) s fun s => .done (s.setP pd (cc64 cc (s.getS sa) (s.src b)))

/-- The effect of an instruction that reads further predicates: one with an uncorrectable error traps (R435). -/
def State.withPreds (s : State) (ps : List PReg) (a : Act) : Act :=
  if ps.any (s.here.badPred s.cur.eng) then .trap { cause := cEcc } else a

/-- PAND. -/
def execPand (h : Hdr) (pd pa pb : PReg) (na nb : Bool) (s : State) : Host.Outcome State Fault Refusal :=
  issue h [] s fun s => s.withPreds [pa, pb] (.done (s.setP pd ((s.getP pa ^^ na) && (s.getP pb ^^ nb))))

/-- POR. -/
def execPor (h : Hdr) (pd pa pb : PReg) (na nb : Bool) (s : State) : Host.Outcome State Fault Refusal :=
  issue h [] s fun s => s.withPreds [pa, pb] (.done (s.setP pd ((s.getP pa ^^ na) || (s.getP pb ^^ nb))))

/-- PXOR. -/
def execPxor (h : Hdr) (pd pa pb : PReg) (na nb : Bool) (s : State) : Host.Outcome State Fault Refusal :=
  issue h [] s fun s => s.withPreds [pa, pb] (.done (s.setP pd ((s.getP pa ^^ na) ^^ (s.getP pb ^^ nb))))

/-- PNOT. -/
def execPnot (h : Hdr) (pd pa : PReg) (s : State) : Host.Outcome State Fault Refusal :=
  issue h [] s fun s => s.withPreds [pa] (.done (s.setP pd (!s.getP pa)))

/-- SEL. -/
def execSel (h : Hdr) (sd sa : SReg) (b : Src) (pc : PReg) (s : State) : Host.Outcome State Fault Refusal :=
  issue h (sa :: srcRegs b) s fun s => s.withPreds [pc] (give sd (if s.getP pc then s.getS sa else s.src b) s)

/-! ## Scalar floating point (R109, R110) -/

/-- An FP32 result in a register, with its flags. -/
def giveFloat (sd : SReg) (r : Res Lane) (s : State) : Act := give sd (r.val.setWidth 64) (s.flagsS r.fl)

/-- The frame of a scalar float instruction with two sources. -/
def floatOp (h : Hdr) (sd sa : SReg) (b : Src) (rnd : Rnd) (f : Lane → Lane → Rm → Res Lane) (s : State) :
    Host.Outcome State Fault Refusal :=
  issue h (sa :: srcRegs b) s fun s => giveFloat sd (f (lo32 (s.getS sa)) (lo32 (s.src b)) (s.rmReg rnd sd.toNat 0)) s

/-- SFADD. -/
def execSfadd (h : Hdr) (sd sa : SReg) (b : Src) (rnd : Rnd) (s : State) : Host.Outcome State Fault Refusal :=
  floatOp h sd sa b rnd fadd s

/-- SFMUL. -/
def execSfmul (h : Hdr) (sd sa : SReg) (b : Src) (rnd : Rnd) (s : State) : Host.Outcome State Fault Refusal :=
  floatOp h sd sa b rnd fmul s

/-- SFDIV. -/
def execSfdiv (h : Hdr) (sd sa : SReg) (b : Src) (rnd : Rnd) (s : State) : Host.Outcome State Fault Refusal :=
  floatOp h sd sa b rnd fdiv s

/-- SFFMA. -/
def execSffma (h : Hdr) (sd sa sb sc : SReg) (rnd : Rnd) (s : State) : Host.Outcome State Fault Refusal :=
  issue h [sa, sb, sc] s fun s =>
    giveFloat sd (ffma (lo32 (s.getS sa)) (lo32 (s.getS sb)) (lo32 (s.getS sc)) false (s.rmReg rnd sd.toNat 0)) s

/-- SFCVT (R110). -/
def execSfcvt (h : Hdr) (sd sa : SReg) (op : CvtOp) (rnd : Rnd) (s : State) : Host.Outcome State Fault Refusal :=
  issue h [sa] s fun s =>
    let m := s.rmReg rnd sd.toNat 0
    let a := s.getS sa
    let toInt (lo hi : Int) : Act :=
      let r := toIntRange (value32 (lo32 a)) lo hi m
      give sd (BitVec.ofInt 64 r.val) (s.flagsS r.fl)
    match op with
    | .f2i => toInt (-(2 ^ 63)) (2 ^ 63 - 1)
    | .f2u => toInt 0 (2 ^ 64 - 1)
    | .i2f => giveFloat sd (toLane (intVal a.toInt) m) s
    | .u2f => giveFloat sd (toLane (intVal a.toNat) m) s

/-! ## Loads and stores (R111–R113) -/

/-- Bytes of an access size. -/
def sizeBytes : Size → Nat
  | .b => 1 | .h => 2 | .w => 4 | .d => 8

/-- An MMIO register of a supervisor core's access (R369, R415): the offset, when the key is one. -/
def mmioOf (k : Nat) : Option Nat :=
  if paClass k = 8 && !inSupervisors (k % 2 ^ 52) then some (k % 2 ^ 52) else none

/-- The keys of the n bytes of one element, checked whole: translation and permission, live barrier objects for a store
(R286), watches (R378), and errors for a load (R435). -/
def State.element (s : State) (need : Need) (va : Word) (n : Nat) : Except TrapRec (List Nat) :=
  match s.span need va n with
  | .error t => .error t
  | .ok ks =>
    if need.writes && s.meetsBarrier (ks.filter fun k => paClass k < 2) then .error { cause := cBar, detail := 1, addr := va }
    else
      match s.watchTrap (!need.writes) need.writes va n with
      | some t => .error t
      | none =>
        match (if need.writes then none else s.eccTrap va ks) with
        | some t => .error t
        | none => .ok ks

/-- The checks of a scalar access (R111, R113): alignment, then those of an element. -/
def State.scalarKeys (s : State) (store : Bool) (va : Word) (n : Nat) : Except TrapRec (List Nat) :=
  if va.toNat % n ≠ 0 then .error { cause := cAlign, addr := va }
  else s.element (if store then .store else .load) va n

/-- The effect of a scalar load, plain or acquiring at a scope (R111, R302). -/
def loadBody (sd : SReg) (va : Word) (n : Nat) (sx : Bool) (acquire : Option Scope) (s : State) : Act :=
  match s.scalarKeys false va n with
  | .error t => .trap t
  | .ok ks =>
    match mmioOf (ks.headD 0) with
    | some off => give sd (if mmioOk off n then loadValue sx (s.mmioRead off n) else 0#64) s
    | none =>
      let dest : Dest := .scalar sd sx
      .done ((s.countBytes s.cur.cell [va] ks).access [(ks.headD 0, va)]
        (match acquire with | some sc => .acquire ks dest sc | none => .load ks dest))

/-- The effect of a scalar store, plain or releasing at a scope (R111). A release need not wait: an acquire within its scope
that returns its bytes finds what precedes it performed (R302–R305). -/
def storeBody (va : Word) (n : Nat) (v : Word) (release : Option Scope) (s : State) : Act :=
  match s.scalarKeys true va n with
  | .error t => .trap t
  | .ok ks =>
    match mmioOf (ks.headD 0) with
    | some off => .done (if mmioOk off n then s.mmioWrite off (leBytes n v.toNat) else s)
    | none =>
      .done ((s.countBytes s.cur.cell [va] ks).access [(ks.headD 0, va)]
        (.store (s.notPeerObject (fullPuts ks (leBytes n v.toNat))) release))

/-- LD. -/
def execLd (h : Hdr) (sd sa sb : SReg) (imm : Word) (sz : Size) (u : Bool) (s : State) :
    Host.Outcome State Fault Refusal :=
  issue h [sa, sb] s fun s => loadBody sd (s.getS sa + s.getS sb + imm) (sizeBytes sz) (!u) none s

/-- LDA. -/
def execLda (h : Hdr) (sd sa sb : SReg) (imm : Word) (sz : Size) (u : Bool) (scope : Scope) (s : State) :
    Host.Outcome State Fault Refusal :=
  issue h [sa, sb] s fun s => loadBody sd (s.getS sa + s.getS sb + imm) (sizeBytes sz) (!u) (some scope) s

/-- ST. -/
def execSt (h : Hdr) (sa sb sc : SReg) (imm : Word) (sz : Size) (s : State) : Host.Outcome State Fault Refusal :=
  issue h [sa, sb, sc] s fun s => storeBody (s.getS sa + s.getS sb + imm) (sizeBytes sz) (s.getS sc) none s

/-- STL. -/
def execStl (h : Hdr) (sa sb sc : SReg) (imm : Word) (sz : Size) (scope : Scope) (s : State) :
    Host.Outcome State Fault Refusal :=
  issue h [sa, sb, sc] s fun s => storeBody (s.getS sa + s.getS sb + imm) (sizeBytes sz) (s.getS sc) (some scope) s

/-! ## Atomics (R114–R116) -/

/-- The operation, the fields and the CAS register of an atomic. -/
def amoParts : Instr → Option (AmoOp × AmoOps × SReg)
  | .amoAdd _ o => some (.add, o, 0#6)
  | .amoAnd _ o => some (.and, o, 0#6)
  | .amoOr _ o => some (.or, o, 0#6)
  | .amoXor _ o => some (.xor, o, 0#6)
  | .amoMin _ o u => some (.min u, o, 0#6)
  | .amoMax _ o u => some (.max u, o, 0#6)
  | .amoXchg _ o => some (.xchg, o, 0#6)
  | .amoCas _ o sc => some (.cas, o, sc)
  | .amoFadd _ o => some (.fadd, o, 0#6)
  | .amoFmin _ o => some (.fmin, o, 0#6)
  | .amoFmax _ o => some (.fmax, o, 0#6)
  | _ => none

/-- What an atomic does at issue: its checks, then a place in both queues of S, behind every older access (R114, R115). -/
def amoBody (i : Instr) (s : State) : Act :=
  match amoParts i with
  | none => .wait s .other
  | some (op, o, sc) =>
    let va := s.getS o.sa + o.imm
    match s.atomicKeys true va (if o.dbl then 8 else 4) with
    | .error t => .trap t
    | .ok ks =>
      .done (((s.countBytes s.cur.cell [va] ks).count s.cur.cell 0x60 1).access [(ks.headD 0, va)]
        (.atomic op o.dbl ks (s.getS o.sb) (s.getS sc) o.sd
          { acq := if o.acq then some o.scope else none, rel := if o.rel then some o.scope else none }))

/-- AMO.ADD. -/
def execAmoAdd (h : Hdr) (o : AmoOps) (s : State) : Host.Outcome State Fault Refusal :=
  issue h [o.sa, o.sb] s (amoBody (.amoAdd h o))

/-- AMO.AND. -/
def execAmoAnd (h : Hdr) (o : AmoOps) (s : State) : Host.Outcome State Fault Refusal :=
  issue h [o.sa, o.sb] s (amoBody (.amoAnd h o))

/-- AMO.OR. -/
def execAmoOr (h : Hdr) (o : AmoOps) (s : State) : Host.Outcome State Fault Refusal :=
  issue h [o.sa, o.sb] s (amoBody (.amoOr h o))

/-- AMO.XOR. -/
def execAmoXor (h : Hdr) (o : AmoOps) (s : State) : Host.Outcome State Fault Refusal :=
  issue h [o.sa, o.sb] s (amoBody (.amoXor h o))

/-- AMO.MIN. -/
def execAmoMin (h : Hdr) (o : AmoOps) (u : Bool) (s : State) : Host.Outcome State Fault Refusal :=
  issue h [o.sa, o.sb] s (amoBody (.amoMin h o u))

/-- AMO.MAX. -/
def execAmoMax (h : Hdr) (o : AmoOps) (u : Bool) (s : State) : Host.Outcome State Fault Refusal :=
  issue h [o.sa, o.sb] s (amoBody (.amoMax h o u))

/-- AMO.XCHG. -/
def execAmoXchg (h : Hdr) (o : AmoOps) (s : State) : Host.Outcome State Fault Refusal :=
  issue h [o.sa, o.sb] s (amoBody (.amoXchg h o))

/-- AMO.CAS. -/
def execAmoCas (h : Hdr) (o : AmoOps) (sc : SReg) (s : State) : Host.Outcome State Fault Refusal :=
  issue h [o.sa, o.sb, sc] s (amoBody (.amoCas h o sc))

/-- AMO.FADD. -/
def execAmoFadd (h : Hdr) (o : AmoOps) (s : State) : Host.Outcome State Fault Refusal :=
  issue h [o.sa, o.sb] s (amoBody (.amoFadd h o))

/-- AMO.FMIN. -/
def execAmoFmin (h : Hdr) (o : AmoOps) (s : State) : Host.Outcome State Fault Refusal :=
  issue h [o.sa, o.sb] s (amoBody (.amoFmin h o))

/-- AMO.FMAX. -/
def execAmoFmax (h : Hdr) (o : AmoOps) (s : State) : Host.Outcome State Fault Refusal :=
  issue h [o.sa, o.sb] s (amoBody (.amoFmax h o))

/-- AMO.FADD.tree (R117). -/
def execAmoFaddTree (h : Hdr) (sa sb sc : SReg) (imm : Word) (rel : Bool) (scope : Scope) (s : State) :
    Host.Outcome State Fault Refusal :=
  issue h [sa, sb, sc] s (treeBody (.amoFaddTree h sa sb sc imm rel scope))

/-- ATOMIC_PERFORM: the atomic at the head of an engine's queues is performed at its home and its reply returns (R115,
R297). -/
def execAtomicPerform (c : Nat) (e : Eng) (s : State) : Host.Outcome State Fault Refusal :=
  match (s.eng c e).queue with
  | q :: _ =>
    match q.acc with
    | .atomic .. => .next ((s.land c e q).dequeue c e q.id)
    | _ => idle s
  | [] => idle s

/-! ## Queues and special registers (R30–R35, R118–R120) -/

/-- QPUSH. -/
def execQpush (h : Hdr) (q : QNum) (b : Src) (s : State) : Host.Outcome State Fault Refusal :=
  issue h (srcRegs b) s fun s =>
    let old := tabGet [] s.here.q q.toNat
    if old.length ≥ Config.queueDepth then .starve s (dataQueue q.toNat)
    else .done (s.modHere fun x => { x with q := tabSet [] x.q q.toNat (old ++ [s.src b]) })

/-- What a queue read does with the oldest entry (R119). -/
def popBody (q : QNum) (f : Word → State → State) (s : State) : Act :=
  match tabGet [] s.here.q q.toNat with
  | [] => .starve s (dataQueue q.toNat)
  | v :: rest => .done (f v (s.modHere fun x => { x with q := tabSet [] x.q q.toNat rest }))

/-- QPOP. -/
def execQpop (_e : Eng) (h : Hdr) (sd : SReg) (q : QNum) (s : State) : Host.Outcome State Fault Refusal :=
  issue h [] s (popBody q fun v s => s.setS sd v)

/-- QPOP.P. -/
def execQpopP (_e : Eng) (h : Hdr) (pd : PReg) (q : QNum) (s : State) : Host.Outcome State Fault Refusal :=
  issue h [] s (popBody q fun v s => s.setP pd (v.getLsbD 0))

/-- The code of a rounding mode (R82). -/
def rndCode : Rnd → Nat
  | .rne => 0 | .rtz => 1 | .rdn => 2 | .rup => 3 | .rsr => 4

/-- A special register as MFS reads it (R30). -/
def State.special (s : State) (n : Nat) : Word :=
  let x := s.here
  if 0x20 ≤ n && n < 0x24 then tabGet 0#64 x.watch (n - 0x20)
  else if 0x40 ≤ n && n < 0x50 then (tabGet 0#17 x.pevsel (n - 0x40)).setWidth 64
  else if 0x50 ≤ n && n < 0x60 then tabGet 0#64 x.pcnt (n - 0x50)
  else
    match n with
    | 0x000 => BitVec.ofNat 64 (s.podDev.toNat * 256 + s.cur.cell)
    | 0x001 => BitVec.ofNat 64 s.cycle
    | 0x002 => x.asid.setWidth 64
    | 0x008 => if x.vup then 1#64 else 0#64
    | 0x009 => x.slipw.setWidth 64
    | 0x00A => x.qtimeout.setWidth 64
    | 0x00B => x.ckptlim.setWidth 64
    | 0x010 => BitVec.ofNat 64 ((x.mcmds.head?.map (·.lag)).getD x.lag)
    | 0x011 =>
      let m := (x.mcmds.head?.map (·.mode)).getD x.mode
      BitVec.ofNat 64 (rndCode m.rnd + if m.zlog.isSome then 8 else 0)
    | 0x018 => x.fflags.setWidth 64
    | 0x019 => x.satcnt
    | 0x01A => x.seed
    | _ => 0#64

/-- MFS. -/
def execMfs (h : Hdr) (sd : SReg) (n : BitVec 12) (s : State) : Host.Outcome State Fault Refusal :=
  issue h [] s fun s => give sd (s.special n.toNat) s

/-- A cell after MTS of a special register that cell programs may write; read-only ones ignore it (R6, R30–R35). A flag
set in the same cycle stays set (R34), and saturations of the same cycle add to the value written (R93). -/
def Cell.writeSpecial (x : Cell) (now n : Nat) (v : Word) : Cell :=
  if 0x40 ≤ n && n < 0x50 then { x with pevsel := tabSet 0#17 x.pevsel (n - 0x40) (v.setWidth 17) }
  else if 0x50 ≤ n && n < 0x60 then { x with pcnt := tabSet 0#64 x.pcnt (n - 0x50) v }
  else
    match n with
    | 0x008 => if x.tok.isEmpty && x.tokReserved.isEmpty then { x with vup := v.getLsbD 0 } else x
    | 0x009 => { x with slipw := BitVec.ofNat 14 (max 64 (min 8192 (v.toNat % 2 ^ 14))) }
    | 0x00A => { x with qtimeout := v.setWidth 32 }
    | 0x018 => { x with fflags := x.fflags &&& (~~~(v.setWidth 25) ||| (x.tallyAt now).flags) }
    | 0x019 => { x with satcnt := BitVec.ofNat 64 (min (v.toNat + (x.tallyAt now).sat) (2 ^ 64 - 1)) }
    | 0x01A => { x with seed := v }
    | _ => x

/-- MTS. -/
def execMts (h : Hdr) (n : BitVec 12) (sa : SReg) (s : State) : Host.Outcome State Fault Refusal :=
  issue h [sa] s fun s =>
    let v := s.getS sa
    if n = 0x00B#12 then
      if s.cur.eng = .sup then .done (s.modHere fun x => { x with ckptlim := v.setWidth 32 })
      else .trap { cause := cPriv }
    else .done (s.modHere fun x => x.writeSpecial s.cycle n.toNat v)

/-! ## Fences, marks, traps (R121–R123) -/

/-- A mark takes its place behind what the engine has issued (R122). -/
def State.marked (s : State) : State :=
  if s.quiet then s.perform s.cur.cell s.cur.eng .mark s.me.nextId
  else s.modMe fun st => { st with queue := st.queue ++ [{ id := st.nextId, acc := .mark }], nextId := st.nextId + 1 }

/-- FENCE: on L and W every asynchronous command has been performed, and every earlier access at the scope named. Writes are
multi-copy atomic, so one performed for any other agent is performed for all (R299); engine scope orders the engine alone, as
MARK does (R121; assumption log 117). -/
def execFence (_e : Eng) (h : Hdr) (scope : Scope) (s : State) : Host.Outcome State Fault Refusal :=
  issue h [] s fun s =>
    let x := s.here
    let commands := match s.cur.eng with
      | .l => x.copies.isEmpty && x.xchg.isNone
      | .w => x.stfs.isEmpty
      | _ => true
    if !commands then .wait s .other
    else if scope = .eng then .done s.marked
    else if s.quiet then .done (s.acquired s.cur.cell s.cur.eng) else .wait s .other

/-- MARK: no later load has been performed before it (R122). -/
def execMark (_e : Eng) (h : Hdr) (s : State) : Host.Outcome State Fault Refusal :=
  issue h [] s fun s =>
    .done s.marked

/-- TRAP: cause 0x11 with its code, once its tokens and the room for its pushes are there. -/
def execTrap (_e : Eng) (h : Hdr) (code : BitVec 16) (s : State) : Host.Outcome State Fault Refusal :=
  issue h [] s fun _ => .trap { cause := cTrap, code, hdr := some h }

/-- ACCESS_PERFORMED: entry i of an engine's queues is performed once no older entry must go first (R165, R301). -/
def execAccessPerformed (c : Nat) (e : Eng) (i : Nat) (s : State) : Host.Outcome State Fault Refusal :=
  let q := (s.eng c e).queue
  match q[i]? with
  | none => idle s
  | some a =>
    match a.acc with
    | .atomic .. => idle s
    | _ =>
      if (q.take i).any fun o => mustFollow o.acc a.acc then idle s
      else .next ((s.land c e a).dequeue c e a.id)

end Sys2Proof.Machine
end

