-- ==== Sys2Proof/Machine/Control.lean ====
section
/-! DEFINITION. Control flow: the broadcast condition queue (01 R17, R18), branches, calls, loops and HALT (04
R125–R128), the rendezvous of LAUNCH and YIELD (04 R129, 14 R356–R358), checkpoints (15 R380, R383), and
QUEUE_TIMEOUT (01 R25). -/

namespace Sys2Proof.Machine

/-! ## The broadcast condition queue -/

/-- The engines that read the condition queue. -/
def consumers : List Eng := [.l, .m, .v, .w]

/-- Free the oldest entry once all four consumers have popped it (R18). -/
def Cell.trimConds (x : Cell) : Cell :=
  if consumers.all fun e => decide (0 < (x.eng e).condPopped) then
    consumers.foldl (fun x e => x.setEng e { x.eng e with condPopped := (x.eng e).condPopped - 1 })
      { x with condq := x.condq.tail }
  else x

/-- An engine pops its next entry. -/
def Cell.popCond (x : Cell) (e : Eng) : Cell :=
  (x.setEng e { x.eng e with condPopped := (x.eng e).condPopped + 1 }).trimConds

/-- The entry that an engine reads next. -/
def Cell.nextCond (x : Cell) (e : Eng) : Option Cond := x.condq[(x.eng e).condPopped]?

/-- Apply a change to the state in which an instruction passes. -/
def Act.mapPass (f : State → State) : Act → Act
  | .done s => .done (f s)
  | .goto s t => .goto (f s) t
  | a => a

/-- A condition entry of an instruction that has no effect. -/
def notTaken : Cond := { taken := false, target := 0#64 }

/-- The frame of a C instruction (R17, R18): without the queue each engine follows it; otherwise S resolves it
and appends the outcome, and each other engine pops that. A supervisor core resolves its own. -/
def issueC (h : Hdr) (uses : List SReg) (reads : Bool) (s : State) (resolve : State → Except TrapRec (State × Cond))
    (follow : Cond → State → Act) : Host.Outcome State Fault Refusal :=
  let e := s.cur.eng
  let c := s.cur.cell
  let queued := reads || h.pred != 15#4 || h.neg
  let decide1 (s : State) : Except TrapRec (State × Cond) :=
    if s.getP h.pred == h.neg then .ok (s, notTaken) else resolve s
  issue { h with pred := 15#4, neg := false }
      (if (e = .s || e = .sup) && s.getP h.pred != h.neg then uses else []) s fun s =>
    if e = .sup || (!queued && e = .s) then
      s.withPreds [h.pred] <| match decide1 s with
      | .error t => .trap t
      | .ok (s, o) => follow o s
    else if !queued then follow { taken := true, target := 0#64 } s
    else if e = .s then
      s.withPreds [h.pred] <| match decide1 s with
      | .error t => .trap t
      | .ok (s', o) =>
        if s.here.condq.length ≥ Config.condDepth then .starve s condQueue
        else (follow o s').mapPass fun s => s.modCell c fun x => { x with condq := x.condq ++ [o] }
    else
      match s.here.nextCond e with
      | none => .starve s condQueue
      | some o => (follow o s).mapPass fun s => s.modCell c fun x => x.popCond e

/-- The target of a branch for an engine (R50): relative to its own pc, or the resolved scalar. -/
def State.targetOf (s : State) (t : Target) (o : Cond) : Word :=
  match t with
  | .rel d => s.me.pc + 16#64 * d.signExtend 64
  | .ind _ _ => o.target

/-- The scalars that a target reads. -/
def targetRegs : Target → List SReg
  | .rel _ => []
  | .ind sa _ => [sa]

/-- Whether a target is read from a register. -/
def isIndirect : Target → Bool
  | .rel _ => false
  | .ind _ _ => true

/-- S resolves a target; an indirect one must be a multiple of 16 (R50). -/
def resolveTarget (t : Target) (s : State) : Except TrapRec (State × Cond) :=
  match t with
  | .rel _ => .ok (s, { taken := true, target := 0#64 })
  | .ind sa d =>
    let v := s.getS sa + 16#64 * d.signExtend 64
    if v.toNat % 16 ≠ 0 then .error { cause := cAlign, addr := v } else .ok (s, { taken := true, target := v })

/-- NOP. -/
def execNop (h : Hdr) (s : State) : Host.Outcome State Fault Refusal :=
  issueC h [] false s (fun s => .ok (s, { taken := true, target := 0#64 })) fun _ s => .done s

/-- BR. -/
def execBr (h : Hdr) (t : Target) (s : State) : Host.Outcome State Fault Refusal :=
  issueC h (targetRegs t) (isIndirect t) s (resolveTarget t) fun o s =>
    if o.taken then .goto s (s.targetOf t o) else .done s

/-- BRC. -/
def execBrc (h : Hdr) (sa sb : SReg) (cc : CC) (disp : BitVec 32) (s : State) : Host.Outcome State Fault Refusal :=
  issueC h [sa, sb] true s (fun s => .ok (s, { taken := cc64 cc (s.getS sa) (s.getS sb), target := 0#64 })) fun o s =>
    if o.taken then .goto s (s.targetOf (.rel disp) o) else .done s

/-- CALL: each engine pushes PC + 16 on its own stack; a full stack traps (R126). -/
def execCall (h : Hdr) (t : Target) (s : State) : Host.Outcome State Fault Refusal :=
  issueC h (targetRegs t) (isIndirect t) s (resolveTarget t) fun o s =>
    if !o.taken then .done s
    else if s.me.ras.length ≥ Config.stackDepth then .trap { cause := cSpill }
    else .goto (s.modMe fun st => { st with ras := st.ras ++ [st.pc + 16] }) (s.targetOf t o)

/-- RET: each engine pops its own stack; an empty one traps with code 0xFFFF (R126). -/
def execRet (h : Hdr) (s : State) : Host.Outcome State Fault Refusal :=
  issueC h [] false s (fun s => .ok (s, { taken := true, target := 0#64 })) fun o s =>
    if !o.taken then .done s
    else
      match s.me.ras.getLast? with
      | none => .trap { cause := cTrap, code := 0xFFFF#16, retry := true }
      | some t => .goto (s.modMe fun st => { st with ras := st.ras.dropLast }) t

/-- LOOP: S alone decrements its copy of the register (R127). -/
def execLoop (h : Hdr) (sa : SReg) (disp : BitVec 32) (s : State) : Host.Outcome State Fault Refusal :=
  issueC h [sa] true s
    (fun s =>
      let v := s.getS sa - 1
      .ok (s.setS sa v, { taken := v != 0#64, target := 0#64 }))
    fun o s => if o.taken then .goto s (s.targetOf (.rel disp) o) else .done s

/-- HALT: the engine stops at its instruction (R128); a supervisor core stops running. -/
def execHalt (h : Hdr) (s : State) : Host.Outcome State Fault Refusal :=
  issueC h [] false s (fun s => .ok (s, { taken := true, target := 0#64 })) fun o s =>
    if !o.taken then .done s
    else
      let s' := s.modMe fun st => { st with halted := true }
      let s' := if s.cur.eng = .sup then s'.modHere fun x => { x with supRun := false } else s'
      .goto s' s.me.pc

/-! ## Checkpoints (R380, R383) -/

/-- An engine at a CKPT, or at a YIELD that all have reached: with a request pending, the first instance beyond
the limit is the target, at which the engine stops once it has passed it. -/
def State.checkpoint (s : State) (idx : BitVec 16) : State :=
  let k := s.me.step
  match s.here.preempt with
  | none => s
  | some p =>
    match p.target with
    | none =>
      if k > p.limit then
        (s.modHere fun x => { x with preempt := some { p with target := some k, idx := some idx } }).modMe fun st =>
          { st with stopped := true }
      else s
    | some t => if k = t then s.modMe fun st => { st with stopped := true } else s

/-- CKPT. -/
def execCkpt (h : Hdr) (idx : BitVec 16) (s : State) : Host.Outcome State Fault Refusal :=
  issueC h [] false s (fun s => .ok (s, { taken := true, target := 0#64 })) fun o s =>
    .done (if o.taken && s.cur.eng != .sup then s.checkpoint idx else s)

/-! ## Rendezvous (R129, R357, R358) -/

/-- The engines of a list other than the one that moves. -/
def othersOf (e : Eng) (es : List Eng) : List Eng := es.filter (· != e)

/-- The other participants of a rendezvous pass it, popping the entry when it went through the queue. -/
def State.passOthers (s : State) (h : Hdr) (queued : Bool) (es : List Eng) : State :=
  let c := s.cur.cell
  es.foldl (fun s e =>
    let s := (s.count c (0x10 + engNum e) 1).finish c e h false ((s.eng c e).pc + 16)
    if queued then s.modCell c fun x => x.popCond e else s) s

/-- S appends an entry to the condition queue. -/
def State.appendCond (s : State) (o : Cond) : State := s.modHere fun x => { x with condq := x.condq ++ [o] }

/-- An engine at a rendezvous has arrived once every older instruction of its own has retired; it takes its entry of the
condition queue as it passes. -/
def arrive (s : State) : Act := .wait (if s.settled then s.modMe fun st => { st with arrived := true } else s) .other

/-- A rendezvous of some engines under S. A predicated one is resolved by S, which appends the outcome as it reaches the
instruction (R17, R18), and a false one is none (R357). S acts once all have arrived, none with a fault to raise (R206). `early` gives the traps that S
finds as it reaches the instruction, `act` is what it does then, and `after` applies to every participant that passes. -/
def rendezvous (h : Hdr) (who : List Eng) (uses : List SReg) (s : State) (early : State → Option TrapRec) (act : State → Act)
    (after : Eng → State → State) : Host.Outcome State Fault Refusal :=
  let e := s.cur.eng
  let c := s.cur.cell
  let queued := h.pred != 15#4 || h.neg
  let free := { h with pred := 15#4, neg := false }
  issue free (if (e = .s || e = .sup) && s.getP h.pred != h.neg then uses else []) s fun s =>
    if e = .sup then s.withPreds [h.pred] (if s.getP h.pred == h.neg then .done s else act s)
    else if e = .s then
      if queued && !s.me.resolved then
        s.withPreds [h.pred] <| if s.getP h.pred == h.neg then
          if s.here.condq.length ≥ Config.condDepth then .starve s condQueue else .done (s.appendCond notTaken)
        else
          match early s with
          | some t => .trap t
          | none =>
            if s.here.condq.length ≥ Config.condDepth then .starve s condQueue
            else .wait ((s.appendCond { taken := true, target := 0#64 }).modMe fun st => { st with resolved := true }) .other
      else if !s.settled || !(othersOf .s who).all (fun o => (s.eng c o).arrived && (s.eng c o).deferred.isEmpty) then .wait s .other
      else (act s).mapPass fun s => who.foldl (fun s o => after o s) (s.passOthers free queued (othersOf .s who))
    else if !queued then (if who.contains e then arrive s else .done s)
    else
      match s.here.nextCond e with
      | none => .starve s condQueue
      | some o => if o.taken && who.contains e then arrive s else .done (s.modCell c fun x => x.popCond e)

/-- The checks of a submission: the record's alignment, and the queue (R356). -/
def State.submitTrap (s : State) (va : Word) (q : Nat) : Option TrapRec :=
  let l := s.tgu.q q
  if va.toNat % 128 ≠ 0 then some { cause := cAlign, addr := va }
  else if !(l.enabled && l.cellsLaunch && l.size != 0#64 && l.asid == s.here.asid && s.here.owner.isSome) then
    some { cause := cPerm, addr := va }
  else none

/-- S submits a record to a launch queue (R356). -/
def submit (va : Word) (q : Nat) (s : State) : Act :=
  let l := s.tgu.q q
  match s.submitTrap va q with
  | some t => .trap t
  | none =>
  if (l.tail - l.head).toNat ≥ l.size.toNat || s.tgu.parked ≥ Config.parkedMax then .wait s .other
  else
    let s := s.storeRun (l.base.toNat + 16 * (l.tail.toNat % l.size.toNat)) (leBytes 8 va.toNat ++ leBytes 8 0)
    .done (s.modLq q fun l => { l with tail := l.tail + 1 })

/-- LAUNCH, a full order of its participants (R302). -/
def execLaunch (h : Hdr) (sa : SReg) (q : BitVec 3) (s : State) : Host.Outcome State Fault Refusal :=
  rendezvous h engines [sa] s (fun s => s.submitTrap (s.getS sa) q.toNat) (fun s => submit (s.getS sa) q.toNat s) fun e s =>
    s.acquired s.cur.cell e

/-- LAUNCH.NW: a rendezvous of S, V and W alone. -/
def execLaunchNw (h : Hdr) (sa : SReg) (q : BitVec 3) (s : State) : Host.Outcome State Fault Refusal :=
  rendezvous h [.s, .v, .w] [sa] s (fun s => s.submitTrap (s.getS sa) q.toNat) (fun s => submit (s.getS sa) q.toNat s)
    fun e s => s.acquired s.cur.cell e

/-- YIELD: with a request pending at the rendezvous, its own instance is the target (R129, R380). -/
def execYield (h : Hdr) (idx : BitVec 16) (s : State) : Host.Outcome State Fault Refusal :=
  let c := s.cur.cell
  rendezvous h engines [] s (fun _ => none)
    (fun s =>
      match s.here.preempt with
      | some p =>
        if s.cur.eng = .sup || p.target.isSome then .done s
        else .done (s.modHere fun x => { x with preempt := some { p with target := some s.me.step, idx := some idx } })
      | none => .done s)
    fun e s =>
      match (s.cell c).preempt.bind (·.idx) with
      | some i => if i = idx then s.modEng c e fun st => { st with stopped := true } else s
      | none => s

/-! ## The bound on queue stalls (R25) -/

/-- An engine has stalled on one queue for more than QTIMEOUT.cycles cycles (R25). -/
def State.starved (s : State) (c : Nat) (e : Eng) : Bool :=
  let x := s.cell c
  let st := x.eng e
  st.stall = .queue && x.qtimeout != 0#32 && st.stalled.any fun w => decide (s.cycle - w.2 > x.qtimeout.toNat)

/-- QUEUE_TIMEOUT: the stalled engine traps, once its older instructions have retired (R25, R36). -/
def execQueueTimeout (c : Nat) (e : Eng) (s : State) : Host.Outcome State Fault Refusal :=
  let x := s.cell c
  let st := x.eng e
  if s.starved c e && x.retired e && s.unfrozen c e && st.deferred.isEmpty && st.trap.isNone && !st.halted && !st.stopped && e != .sup then
    raise (s.acts c e) c e { cause := cQueue }
  else idle s

end Sys2Proof.Machine
end

