-- ==== Sys2Proof/Machine/Rings.lean ====
section
/-! DEFINITION. Rings and write pointers (07 R176–R189, holds of 10 R277): the image of a ring register, the five
ring operations at the home cell, RING.WE.load and WPWAIT. -/

namespace Sys2Proof.Machine

/-! ## Ring registers (R176) -/

/-- Slots published and not retired, T − H. -/
def Ring.used (r : Ring) : Nat := (r.t - r.h).toNat
/-- Slots published and not claimed, T − K. -/
def Ring.ready (r : Ring) : Nat := (r.t - r.k).toNat
/-- Slots claimed and not retired, K − H. -/
def Ring.claimed (r : Ring) : Nat := (r.k - r.h).toNat

/-- The slice offset of slot j. -/
def Ring.slotOff (r : Ring) (j : Nat) : Nat := r.offset + j % r.nslots * r.slotSize

/-- Addr(j): the window address of slot j (R180). -/
def Ring.addr (r : Ring) (j : Nat) : Word := BitVec.ofNat 64 (windowBase + r.cell * 0x800000 + r.slotOff j)

/-- Bits lo to lo + n − 1 of a number. -/
def bitsAt (x lo n : Nat) : Nat := x / 2 ^ lo % 2 ^ n

/-- The 64 bytes of a ring register as a number (R176, R386). -/
def Ring.image (r : Ring) : Nat :=
  r.offset + r.cell * 2 ^ 23 + r.nslots * 2 ^ 64 + r.slotSize * 2 ^ 96 + r.efmt * 2 ^ 128 + r.gfmt * 2 ^ 132 +
  r.rowsM1 * 2 ^ 136 + r.kext * 2 ^ 144 + (if r.kmaj then 2 ^ 160 else 0) + r.smode * 2 ^ 192 + r.scStride * 2 ^ 200 +
  r.cbt * 2 ^ 256 + r.h.toNat * 2 ^ 320 + r.t.toNat * 2 ^ 352 + r.claimed * 2 ^ 384

/-- The fields of a ring image, its counters at zero. -/
def Ring.ofImage (x : Nat) : Ring :=
  { cbt := bitsAt x 256 23, scStride := bitsAt x 200 24, smode := bitsAt x 192 2, kmaj := bitsAt x 160 1 == 1
    kext := bitsAt x 144 16, rowsM1 := bitsAt x 136 7, gfmt := bitsAt x 132 3, efmt := bitsAt x 128 4
    slotSize := bitsAt x 96 24, nslots := bitsAt x 64 13, cell := bitsAt x 23 7, offset := bitsAt x 0 23 }

/-- Every reserved bit of a ring image is zero. -/
def ringReservedOk (x : Nat) : Bool :=
  [(30, 34), (77, 19), (120, 8), (135, 1), (143, 1), (161, 31), (194, 6), (224, 32), (279, 41), (397, 115)].all fun p =>
    bitsAt x p.1 p.2 == 0

/-- The checks of RING.WE.load on an image (R184). -/
def ringImageOk (x : Nat) : Bool :=
  let r := Ring.ofImage x
  (decide (r.cell < 80) || r.cell == 0x7F) &&
  r.offset % 64 == 0 && r.slotSize % 64 == 0 && r.scStride % 4 == 0 && r.cbt % 32 == 0 &&
  decide (1 ≤ r.nslots) && decide (r.nslots ≤ 4096) && decide (64 ≤ r.slotSize) && decide (r.slotSize ≤ 0x400000) &&
  decide (1 ≤ r.kext) && decide (r.kext ≤ 16384) && r.smode != 3 &&
  (r.smode != 2 || (decide ((r.rowsM1 + 1) * r.scStride ≤ r.slotSize) && decide (4 * ceilDiv r.kext 32 ≤ r.scStride))) &&
  decide (r.offset + r.nslots * r.slotSize ≤ 0x800000) && ringReservedOk x

/-! ## Operations at the home cell (R179–R183) -/

/-- The hold count of a slot (R277). -/
def Cell.holdOf (x : Cell) (g slot : Nat) : Nat := tabGet 0 x.hold (g * 4096 + slot)

/-- The trap of a ring operation that breaks its bounds (R185). -/
def ringTrap (detail : Nat) : TrapRec := { cause := cRing, detail }

/-- Two ranges share a byte. -/
def rangesMeet (a n b m : Nat) : Bool := decide (a < b + m) && decide (b < a + n)

/-- The pages of a copy that write: as translated at issue, or as the tables give them once TLB.INV has dropped those
(R373). -/
def State.writePages (s : State) (k : Copy) : List Page :=
  if !k.pages.isEmpty then k.pages
  else
    ((List.range ((k.write.1 + k.write.2 + 0xFFFF) / 0x10000 - k.write.1 / 0x10000)).map (k.write.1 / 0x10000 + ·)).filterMap fun p =>
      match s.leafFor k.asid (p * 0x10000) with
      | .ok l => some (p, l.pa + p * 0x10000 % l.size / 0x10000 * 0x10000, l.sl)
      | .error _ => none

/-- An L copy that writes bytes of a slice range: through the window, or through a page that maps the slice, class 0x3 of
the own device included (R181, R390). -/
def State.copyTouches (s : State) (k : Copy) (cell off n : Nat) : Bool :=
  rangesMeet k.write.1 k.write.2 (windowBase + cell * 0x800000 + off) n ||
  (s.writePages k).any fun p =>
    let lo := max k.write.1 (p.1 * 0x10000)
    let hi := min (k.write.1 + k.write.2) (p.1 * 0x10000 + 0x10000)
    decide (lo < hi) && rangesMeet (s.key p.2.1 p.2.2 + (lo - p.1 * 0x10000)) (hi - lo) (slicePa cell off) n

/-- The earlier accesses of the executing engine that a RING.PUB of n slots waits for have been performed: its queues, the
copies of L that write the slots, the log records of M, and the flags of W's notifying stores (R181, R302). -/
def State.slotsWritten (s : State) (r : Ring) (n : Nat) : Bool :=
  s.quiet &&
  (match s.cur.eng with
   | .l => (List.range n).all fun i => s.here.copies.all fun k => !s.copyTouches k r.cell (r.slotOff (r.t.toNat + i)) r.slotSize
   | .m => s.here.mcmds.all fun m => m.mode.zlog.isNone
   | .w => s.here.stfs.isEmpty
   | _ => true)

/-- The rank in which ring operations of one cycle take effect: S, L, M, V, W of the home cell, then .far ones (R182). -/
def ringRank (far : Bool) (e : Eng) : Nat := if far then 6 else engNum e

/-- No operation on a ring that goes after this one has taken effect in the present cycle. -/
def State.ringOrder (s : State) (home g rank : Nat) : Bool :=
  let t := tabGet (0, 0) (s.cell home).ringTurn g
  t.1 != s.cycle || decide (t.2 ≤ rank)

/-- An operation on a ring has taken effect, or found its trap, in the present cycle. -/
def Cell.ringDone (x : Cell) (g now rank : Nat) : Cell := { x with ringTurn := tabSet (0, 0) x.ringTurn g (now, rank) }

/-- The home cell of a ring operation: the executing cell, or s[sa] under .far, or the trap (R179, R180). -/
def State.ringHome (s : State) (far : Option SReg) : Except TrapRec Nat :=
  match far with
  | none => .ok s.cur.cell
  | some sa =>
    let v := (s.getS sa).toNat
    if v ≥ 80 then .error (ringTrap 7)
    else if s.here.owner.isNone || (s.cell v).owner ≠ s.here.owner then .error { cause := cPerm }
    else .ok v

/-- A ring operation: what it does at issue, or when a .far request reaches the home cell (R180, R182, R277); RING.WF and
RING.CLM are acquires, and pass no earlier release of their engine (R302). -/
def ringBody (i : Instr) (s : State) : Act :=
  let run (sd : SReg) (g : GNum) (n : BitVec 13) (far : Option SReg) (op : Ring → Nat → Nat → Act) : Act :=
    match s.ringHome far with
    | .error t => .trap t
    | .ok home =>
      if far.isSome && s.sent i then s.send i
      else
        let r := (s.cell home).getR g.toNat
        let rank := ringRank far.isSome s.cur.eng
        let _ := sd
        let placed (t : State) : State := t.modCell home fun x => x.ringDone g.toNat s.cycle rank
        if !s.ringOrder home g.toNat rank then .wait s .ring
        else if (s.cell home).badReg (5000 + g.toNat) then .trap { cause := cEcc }
        else if r.nslots = 0 then .trapIn (placed s) (ringTrap 5)
        else
          match op r home n.toNat with
          | .done t => .done (placed t)
          | .trap t => .trapIn (placed s) t
          | a => a
  let put (home : Nat) (g : GNum) (r : Ring) : State := s.modCell home fun x => x.setR g.toNat r
  match i with
  | .ringWf _ _ sd g n far =>
    run sd g n far fun r _ n =>
      if n > r.nslots then .trap (ringTrap 8)
      else if s.me.releasing || decide (r.ready < n) then .wait s .ring
      else give sd (BitVec.ofNat 64 r.ready) (s.acquired s.cur.cell s.cur.eng)
  | .ringWe _ _ sd g n far =>
    run sd g n far fun r home n =>
      if n > r.nslots then .trap (ringTrap 8)
      else if r.nslots - r.used < n || (List.range n).any (fun j => (s.cell home).holdOf g.toNat ((r.t.toNat + j) % r.nslots) != 0) then
        .wait s .ring
      else give sd (r.addr r.t.toNat) (s.acquired s.cur.cell s.cur.eng)
  | .ringClm _ _ sd g n far =>
    run sd g n far fun r home n =>
      if s.me.releasing then .wait s .ring
      else if r.ready < n then .trap (ringTrap 3)
      else give sd (r.addr r.k.toNat) ((put home g { r with k := r.k + BitVec.ofNat 32 n }).acquired s.cur.cell s.cur.eng)
  | .ringPub _ _ sd g n far =>
    run sd g n far fun r home n =>
      if !s.slotsWritten r n then .wait s .ring
      else if r.used + n > r.nslots then .trap (ringTrap 2)
      else give sd ((r.t + BitVec.ofNat 32 n).setWidth 64) (put home g { r with t := r.t + BitVec.ofNat 32 n })
  | .ringPop _ _ sd g n far =>
    run sd g n far fun r home n =>
      if !s.quiet then .wait s .ring
      else if r.claimed < n then .trap (ringTrap 4)
      else give sd ((r.h + BitVec.ofNat 32 n).setWidth 64) (put home g { r with h := r.h + BitVec.ofNat 32 n })
  | _ => .wait s .other

/-- The scalar that a .far operation reads. -/
def farRegs (far : Option SReg) : List SReg := far.toList

/-- RING.WF. -/
def execRingWf (e : Eng) (h : Hdr) (sd : SReg) (g : GNum) (n : BitVec 13) (far : Option SReg) (s : State) :
    Host.Outcome State Fault Refusal := issue h (farRegs far) s (ringBody (.ringWf e h sd g n far))

/-- RING.WE. -/
def execRingWe (e : Eng) (h : Hdr) (sd : SReg) (g : GNum) (n : BitVec 13) (far : Option SReg) (s : State) :
    Host.Outcome State Fault Refusal := issue h (farRegs far) s (ringBody (.ringWe e h sd g n far))

/-- RING.CLM. -/
def execRingClm (e : Eng) (h : Hdr) (sd : SReg) (g : GNum) (n : BitVec 13) (far : Option SReg) (s : State) :
    Host.Outcome State Fault Refusal := issue h (farRegs far) s (ringBody (.ringClm e h sd g n far))

/-- RING.PUB. -/
def execRingPub (e : Eng) (h : Hdr) (sd : SReg) (g : GNum) (n : BitVec 13) (far : Option SReg) (s : State) :
    Host.Outcome State Fault Refusal := issue h (farRegs far) s (ringBody (.ringPub e h sd g n far))

/-- RING.POP. -/
def execRingPop (e : Eng) (h : Hdr) (sd : SReg) (g : GNum) (n : BitVec 13) (far : Option SReg) (s : State) :
    Host.Outcome State Fault Refusal := issue h (farRegs far) s (ringBody (.ringPop e h sd g n far))

/-- RING.WE.load, whose read a watchpoint matches on S and W alone (R378): once the ring is empty and no slot is held, load it from a checked image (R184, R277). -/
def execRingWeLoad (_e : Eng) (h : Hdr) (sd : SReg) (g : GNum) (sb : SReg) (s : State) :
    Host.Outcome State Fault Refusal :=
  issue h [sb] s fun s =>
    let x := s.here
    let r := x.getR g.toNat
    let va := s.getS sb
    if va.toNat % 64 ≠ 0 then .trap { cause := cAlign, addr := va }
    else if !s.ringOrder s.cur.cell g.toNat (ringRank false s.cur.eng) then .wait s .ring
    else if r.nslots ≠ 0 && (r.used != 0 || r.claimed != 0 || x.hold.any (fun p => p.1 / 4096 == g.toNat)) then .wait s .ring
    else
      match (if s.cur.eng = .s || s.cur.eng = .w then s else s.modMe fun st => { st with watchPass := true }).scalarKeys false va 64 with
      | .error t => .trap t
      | .ok ks =>
        if s.me.loadBlocked ks then .wait s .other
        else
          let img := leNat (s.readFor s.cur.cell s.cur.eng 8 ks)
          if !ringImageOk img then .trap (ringTrap 1)
          else
            let new := Ring.ofImage img
            let new := { new with cell := if new.cell = 0x7F then s.cur.cell else new.cell }
            give sd 0#64 (((s.countBytes s.cur.cell [va] ks).spent s.cur.cell s.cur.eng ks).modHere fun x =>
              ((x.setR g.toNat new).healReg (5000 + g.toNat)).ringDone g.toNat s.cycle (ringRank false s.cur.eng))

/-- RING_FAR_OPERATION: a .far request reaches its home cell and its result returns (R182). -/
def execRingFarOperation (c : Nat) (e : Eng) (s : State) : Host.Outcome State Fault Refusal :=
  if !s.unfrozen c e || !(s.eng c e).deferred.isEmpty then idle s
  else
    let s := (s.acts c e).asEngine c e
    match s.me.flight with
    | some i =>
      match i with
      | .ringWf .. | .ringWe .. | .ringClm .. | .ringPub .. | .ringPop .. => conclude (hdrOfInstr i) s (ringBody i s)
      | _ => idle s
    | none => idle s

/-! ## Write pointers (R188, R189) -/

/-- WPWAIT. -/
def execWpwait (h : Hdr) (sd : SReg) (ch : BitVec 2) (sa : SReg) (imm : Word) (s : State) :
    Host.Outcome State Fault Refusal :=
  issue h [sa] s fun s =>
    let target := s.getS sa + imm
    let wp := tabGet 0#64 s.here.wp ch.toNat
    if s.here.badReg (7000 + ch.toNat) then .trap { cause := cEcc }
    else if target.toNat > tabGet 0 s.here.issued ch.toNat then .trap (ringTrap 6)
    else if wp.toNat < target.toNat then .wait s .other
    else give sd wp (s.acquired s.cur.cell s.cur.eng)

end Sys2Proof.Machine
end

