-- ==== Sys2Proof/Machine/Vector.lean ====
section
/-! DEFINITION. The elementwise vector instructions (05 R130–R144): arithmetic, special functions, integer and
bit-pattern operations, conversions, packed dot products, comparison and selection. -/

namespace Sys2Proof.Machine

/-! ## Frames -/

/-- One operation over the lanes of a register from lane l on, under mask use d (R132): the new lanes, and the
flags of the active ones. -/
def lanesGo (mk : BitVec 1024) (z : Bool) (f : Nat → Lane → Lane → Lane → Res Lane) :
    Nat → List Lane → List Lane → List Lane → List Lane → List Lane × Flags
  | l, o :: os, a :: as, b :: bs, c :: cs =>
    let rest := lanesGo mk z f (l + 1) os as bs cs
    if mk.getLsbD l then
      let x := f l a b c
      (x.val :: rest.1, x.fl ||| rest.2)
    else ((if z then 0#32 else o) :: rest.1, rest.2)
  | _, _, _, _, _ => ([], 0#5)

/-- Operand b as a register image (R131). -/
def State.vsrcList (s : State) : VSrc → List Lane
  | .vec v => s.vr v
  | .sc r => List.replicate 1024 (lo32 (s.getS r))
  | .imm w => List.replicate 1024 w

/-- The vector registers that operand b reads. -/
def vsrcVecs : VSrc → List VNum
  | .vec v => [v]
  | _ => []

/-- The frame of a V instruction: that of every instruction, and the errors of the registers it reads (R435). -/
def issueV (h : Hdr) (uses : List SReg) (srcs : List VNum) (s : State) (body : State → Act) (ms : List MNum := []) :
    Host.Outcome State Fault Refusal :=
  issue h uses s fun s =>
    if srcs.any (fun v => s.here.badReg (1000 + v.toNat)) || ms.any s.here.badMask then .trap { cause := cEcc } else body s

/-- Every lane of a register. -/
def allLanes : BitVec 1024 := BitVec.allOnes 1024

/-- The lanes that an instruction under mask use d writes (R132). -/
def written (mk : BitVec 1024) (z : Bool) : BitVec 1024 := if z then allLanes else mk

/-- Write lanes of a vector register; a whole write clears a recorded error (R435). -/
def State.writeV (s : State) (v : VNum) (x : List Lane) (mk : BitVec 1024) : State :=
  let s := s.setVr v mk x
  if mk == allLanes && !s.here.regErr.isEmpty then s.modHere fun y => { y with regErr := tabSet false y.regErr (1000 + v.toNat) false }
  else s

/-- Flags of a V instruction (R136). -/
def State.flagsV (s : State) (fl : Flags) : State := s.effects s.cur.cell .v fl 0

/-- An elementwise instruction over a, b and c with a rounding mode (R137–R143). -/
def lanewise (h : Hdr) (o : VOps) (b : Option VSrc) (vc : Option VNum) (rnd : Rnd) (f : Rm → Lane → Lane → Lane → Res Lane)
    (s : State) : Host.Outcome State Fault Refusal :=
  issueV (ms := [o.msk]) h ((b.map vsrcRegs).getD []) (o.va :: (b.map vsrcVecs).getD [] ++ vc.toList) s fun s =>
    let mk := s.mr o.msk
    let old := s.vr o.vd
    let r := lanesGo mk o.z (fun l a b c => f (s.rmReg rnd o.vd.toNat l) a b c) 0 old (s.vr o.va)
      ((b.map s.vsrcList).getD old) ((vc.map s.vr).getD old)
    .done ((s.writeV o.vd r.1 (written mk o.z)).flagsV r.2)

/-- A result that sets no flag. -/
def exactly (v : Lane) : Res Lane := { val := v }

/-- An elementwise instruction without rounding or flags. -/
def lanewise2 (h : Hdr) (o : VOps) (b : VSrc) (f : Lane → Lane → Lane) (s : State) : Host.Outcome State Fault Refusal :=
  lanewise h o (some b) none .rne (fun _ a b _ => exactly (f a b)) s

/-- The same with one source. -/
def lanewise1 (h : Hdr) (o : VOps) (f : Lane → Lane) (s : State) : Host.Outcome State Fault Refusal :=
  lanewise h o none none .rne (fun _ a _ _ => exactly (f a)) s

/-! ## Floating point (R137, R138) -/

/-- VADD. -/
def execVadd (h : Hdr) (o : VOps) (b : VSrc) (rnd : Rnd) (s : State) : Host.Outcome State Fault Refusal :=
  lanewise h o (some b) none rnd (fun m a b _ => fadd a b m) s

/-- VSUB. -/
def execVsub (h : Hdr) (o : VOps) (b : VSrc) (rnd : Rnd) (s : State) : Host.Outcome State Fault Refusal :=
  lanewise h o (some b) none rnd (fun m a b _ => fsub a b m) s

/-- VMUL. -/
def execVmul (h : Hdr) (o : VOps) (b : VSrc) (rnd : Rnd) (s : State) : Host.Outcome State Fault Refusal :=
  lanewise h o (some b) none rnd (fun m a b _ => fmul a b m) s

/-- VDIV. -/
def execVdiv (h : Hdr) (o : VOps) (b : VSrc) (rnd : Rnd) (s : State) : Host.Outcome State Fault Refusal :=
  lanewise h o (some b) none rnd (fun m a b _ => fdiv a b m) s

/-- VFMA. -/
def execVfma (h : Hdr) (o : VOps) (b : VSrc) (vc : VNum) (rnd : Rnd) (s : State) : Host.Outcome State Fault Refusal :=
  lanewise h o (some b) (some vc) rnd (fun m a b c => ffma a b c false m) s

/-- VFMS. -/
def execVfms (h : Hdr) (o : VOps) (b : VSrc) (vc : VNum) (rnd : Rnd) (s : State) : Host.Outcome State Fault Refusal :=
  lanewise h o (some b) (some vc) rnd (fun m a b c => ffma a b c true m) s

/-- VMIN. -/
def execVmin (h : Hdr) (o : VOps) (b : VSrc) (s : State) : Host.Outcome State Fault Refusal :=
  lanewise2 h o b (fminmax false) s

/-- VMAX. -/
def execVmax (h : Hdr) (o : VOps) (b : VSrc) (s : State) : Host.Outcome State Fault Refusal :=
  lanewise2 h o b (fminmax true) s

/-- VABS. -/
def execVabs (h : Hdr) (o : VOps) (s : State) : Host.Outcome State Fault Refusal :=
  lanewise1 h o (fun a => a &&& 0x7FFFFFFF#32) s

/-- VNEG. -/
def execVneg (h : Hdr) (o : VOps) (s : State) : Host.Outcome State Fault Refusal :=
  lanewise1 h o (fun a => a ^^^ 0x80000000#32) s

/-- A special function of R138, by its number in `special`. -/
def lanewiseSpecial (k : Nat) (h : Hdr) (o : VOps) (rnd : Rnd) (s : State) : Host.Outcome State Fault Refusal :=
  lanewise h o none none rnd (fun m a _ _ => finishExact (special k (value32 a)) m) s

/-- VRCP. -/
def execVrcp (h : Hdr) (o : VOps) (rnd : Rnd) (s : State) : Host.Outcome State Fault Refusal :=
  lanewiseSpecial 0 h o rnd s

/-- VRSQ. -/
def execVrsq (h : Hdr) (o : VOps) (rnd : Rnd) (s : State) : Host.Outcome State Fault Refusal :=
  lanewiseSpecial 1 h o rnd s

/-- VSQRT. -/
def execVsqrt (h : Hdr) (o : VOps) (rnd : Rnd) (s : State) : Host.Outcome State Fault Refusal :=
  lanewiseSpecial 2 h o rnd s

/-- VEXP2. -/
def execVexp2 (h : Hdr) (o : VOps) (rnd : Rnd) (s : State) : Host.Outcome State Fault Refusal :=
  lanewiseSpecial 3 h o rnd s

/-- VLOG2. -/
def execVlog2 (h : Hdr) (o : VOps) (rnd : Rnd) (s : State) : Host.Outcome State Fault Refusal :=
  lanewiseSpecial 4 h o rnd s

/-- VTANH. -/
def execVtanh (h : Hdr) (o : VOps) (rnd : Rnd) (s : State) : Host.Outcome State Fault Refusal :=
  lanewiseSpecial 5 h o rnd s

/-- VSIGM. -/
def execVsigm (h : Hdr) (o : VOps) (rnd : Rnd) (s : State) : Host.Outcome State Fault Refusal :=
  lanewiseSpecial 6 h o rnd s

/-! ## Integers and bit patterns (R139–R141) -/

/-- VIADD. -/
def execViadd (h : Hdr) (o : VOps) (b : VSrc) (s : State) : Host.Outcome State Fault Refusal :=
  lanewise2 h o b (· + ·) s

/-- VISUB. -/
def execVisub (h : Hdr) (o : VOps) (b : VSrc) (s : State) : Host.Outcome State Fault Refusal :=
  lanewise2 h o b (· - ·) s

/-- VIMUL. -/
def execVimul (h : Hdr) (o : VOps) (b : VSrc) (s : State) : Host.Outcome State Fault Refusal :=
  lanewise2 h o b (· * ·) s

/-- VAND. -/
def execVand (h : Hdr) (o : VOps) (b : VSrc) (s : State) : Host.Outcome State Fault Refusal :=
  lanewise2 h o b (· &&& ·) s

/-- VOR. -/
def execVor (h : Hdr) (o : VOps) (b : VSrc) (s : State) : Host.Outcome State Fault Refusal :=
  lanewise2 h o b (· ||| ·) s

/-- VXOR. -/
def execVxor (h : Hdr) (o : VOps) (b : VSrc) (s : State) : Host.Outcome State Fault Refusal :=
  lanewise2 h o b (· ^^^ ·) s

/-- VIMAD. -/
def execVimad (h : Hdr) (o : VOps) (b : VSrc) (vc : VNum) (s : State) : Host.Outcome State Fault Refusal :=
  lanewise h o (some b) (some vc) .rne (fun _ a b c => exactly (a * b + c)) s

/-- VNOT. -/
def execVnot (h : Hdr) (o : VOps) (s : State) : Host.Outcome State Fault Refusal :=
  lanewise1 h o (fun a => ~~~a) s

/-- VSHL. -/
def execVshl (h : Hdr) (o : VOps) (b : VSrc) (s : State) : Host.Outcome State Fault Refusal :=
  lanewise2 h o b (fun a b => if b.toNat ≥ 32 then 0#32 else a <<< b.toNat) s

/-- VSHR. -/
def execVshr (h : Hdr) (o : VOps) (b : VSrc) (s : State) : Host.Outcome State Fault Refusal :=
  lanewise2 h o b (fun a b => if b.toNat ≥ 32 then 0#32 else a >>> b.toNat) s

/-- VSRA. -/
def execVsra (h : Hdr) (o : VOps) (b : VSrc) (s : State) : Host.Outcome State Fault Refusal :=
  lanewise2 h o b (fun a b => a.sshiftRight (min b.toNat 31)) s

/-- VPOPC. -/
def execVpopc (h : Hdr) (o : VOps) (s : State) : Host.Outcome State Fault Refusal :=
  lanewise1 h o (fun a => BitVec.ofNat 32 (oneBits a)) s

/-- VCLZ. -/
def execVclz (h : Hdr) (o : VOps) (s : State) : Host.Outcome State Fault Refusal :=
  lanewise1 h o (fun a => BitVec.ofNat 32 (leadingZeros a)) s

/-- VBFX: a 32-bit field, sign-extended under .s (R141). -/
def execVbfx (h : Hdr) (o : VOps) (f : VSrc) (sx : Bool) (s : State) : Host.Outcome State Fault Refusal :=
  lanewise2 h o f (fun a f => extractField sx a (f.toNat % 256) (f.toNat / 256 % 256)) s

/-- VBFI (R141). -/
def execVbfi (h : Hdr) (o : VOps) (f : VSrc) (vc : VNum) (s : State) : Host.Outcome State Fault Refusal :=
  lanewise h o (some f) (some vc) .rne
    (fun _ a f c => exactly (insertField c a (f.toNat % 256) (f.toNat / 256 % 256))) s

/-- The funnel shifts of R140 over a in the high and b in the low word. -/
def funnel (left : Bool) (a b n : Lane) : Lane :=
  let t := a.toNat * 2 ^ 32 + b.toNat
  if n.toNat ≥ 64 then 0#32
  else if left then BitVec.ofNat 32 (t * 2 ^ n.toNat / 2 ^ 32) else BitVec.ofNat 32 (t / 2 ^ n.toNat)

/-- The frame of a funnel shift: vb is always the low word (R140). -/
def funnelOp (left : Bool) (h : Hdr) (o : VOps) (vb : VNum) (n : VSrc) (s : State) : Host.Outcome State Fault Refusal :=
  lanewise h o (some n) (some vb) .rne (fun _ a n b => exactly (funnel left a b n)) s

/-- VFSHL. -/
def execVfshl (h : Hdr) (o : VOps) (vb : VNum) (n : VSrc) (s : State) : Host.Outcome State Fault Refusal :=
  funnelOp true h o vb n s

/-- VFSHR. -/
def execVfshr (h : Hdr) (o : VOps) (vb : VNum) (n : VSrc) (s : State) : Host.Outcome State Fault Refusal :=
  funnelOp false h o vb n s

/-! ## Conversions and packed dot products (R142, R143) -/

/-- VCVT.I2F. -/
def execVcvtI2f (h : Hdr) (o : VOps) (u : Bool) (rnd : Rnd) (s : State) : Host.Outcome State Fault Refusal :=
  lanewise h o none none rnd (fun m a _ _ => toLane (intVal (if u then (a.toNat : Int) else a.toInt)) m) s

/-- VCVT.F2I. -/
def execVcvtF2i (h : Hdr) (o : VOps) (u : Bool) (rnd : Rnd) (s : State) : Host.Outcome State Fault Refusal :=
  lanewise h o none none rnd (fun m a _ _ =>
    let r := toIntRange (value32 a) (if u then 0 else -(2 ^ 31)) (if u then 2 ^ 32 - 1 else 2 ^ 31 - 1) m
    { val := BitVec.ofInt 32 r.val, fl := r.fl }) s

/-- A packed dot product of n elements of a width, the exact total saturated to INT32 (R143). -/
def packedDot (n w : Nat) (ua ub : Bool) (a b c : Lane) : Lane :=
  let elem (x : Lane) (u : Bool) (i : Nat) : Int :=
    let v := x.toNat / 2 ^ (w * i) % 2 ^ w
    if u then (v : Int) else sextNat w v
  let t := (List.range n).foldl (fun t i => t + elem a ua i * elem b ub i) c.toInt
  BitVec.ofInt 32 (min (max t (-(2 ^ 31))) (2 ^ 31 - 1))

/-- VIDOT4. -/
def execVidot4 (h : Hdr) (o : VOps) (b : VSrc) (vc : VNum) (ua ub : Bool) (s : State) :
    Host.Outcome State Fault Refusal :=
  lanewise h o (some b) (some vc) .rne (fun _ a b c => exactly (packedDot 4 8 ua ub a b c)) s

/-- VIDOT8. -/
def execVidot8 (h : Hdr) (o : VOps) (b : VSrc) (vc : VNum) (ua ub : Bool) (s : State) :
    Host.Outcome State Fault Refusal :=
  lanewise h o (some b) (some vc) .rne (fun _ a b c => exactly (packedDot 8 4 ua ub a b c)) s

/-! ## Comparison and selection (R144) -/

/-- The truth of a lane test over two registers, as a mask. -/
def maskGo (f : Lane → Lane → Bool) : Nat → List Lane → List Lane → Nat
  | l, a :: as, b :: bs => (if f a b then 2 ^ l else 0) + maskGo f (l + 1) as bs
  | _, _, _ => 0

/-- Write a mask of the executing cell; a whole write clears a recorded error (R435). -/
def State.setMr (s : State) (m : MNum) (v : BitVec 1024) (whole : Bool := true) : State :=
  let s := s.modHere fun x => x.putM s.cur.eng m v
  if whole && !s.here.regErr.isEmpty then s.modHere fun y => { y with regErr := tabSet false y.regErr (3000 + m.toNat) false }
  else s

/-- VCMP: active bits take the truth, the others keep or clear (R132, R144). -/
def execVcmp (h : Hdr) (md : MNum) (va : VNum) (b : VSrc) (mk : MNum) (z : Bool) (cc : CC) (s : State) :
    Host.Outcome State Fault Refusal :=
  issueV (ms := [mk]) h (vsrcRegs b) (va :: vsrcVecs b) s fun s =>
    let act := s.mr mk
    let t : BitVec 1024 := BitVec.ofNat 1024 (maskGo (cc32 cc) 0 (s.vr va) (s.vsrcList b))
    .done (s.setMr md ((t &&& act) ||| (if z then 0#1024 else s.here.getM md &&& ~~~act))
      (z || act == BitVec.allOnes 1024))

/-- VSEL: the mask chooses between a and b in every lane. -/
def execVsel (h : Hdr) (vd va : VNum) (b : VSrc) (mk : MNum) (s : State) : Host.Outcome State Fault Refusal :=
  issueV (ms := [mk]) h (vsrcRegs b) (va :: vsrcVecs b) s fun s =>
    let a := s.vr va
    let r := lanesGo (s.mr mk) false (fun _ a _ _ => exactly a) 0 (s.vsrcList b) a a a
    .done (s.writeV vd r.1 allLanes)

end Sys2Proof.Machine
end

