-- ==== Sys2Proof/Machine/VAxis.lean ====
section
/-! DEFINITION. Vector instructions along an axis, moves, permutations, masks and sort-and-count (05 R145–R150, 06
R167, R168). -/

namespace Sys2Proof.Machine

/-! ## Reductions and scans (R145–R147) -/

/-- Op(a, b) of R146. -/
def redStep (op : RedOp) (m : Rm) (a b : Lane) : Res Lane :=
  match op with
  | .fadd => fadd a b m
  | .fmax => exactly (fminmax true a b)
  | .fmin => exactly (fminmax false a b)
  | .iadd => exactly (a + b)
  | .imax => exactly (if a.slt b then b else a)
  | .imin => exactly (if b.slt a then b else a)
  | .umax => exactly (if a.ult b then b else a)
  | .umin => exactly (if b.ult a then b else a)
  | .and => exactly (a &&& b)
  | .or => exactly (a ||| b)
  | .xor => exactly (a ^^^ b)

/-- The identity of an operation (R146). -/
def redIdentity : RedOp → Lane
  | .fmax => 0xFF800000#32 | .fmin => 0x7F800000#32
  | .imax => 0x80000000#32 | .imin => 0x7FFFFFFF#32
  | .umin | .and => 0xFFFFFFFF#32
  | _ => 0#32

/-- Final(v) of R145. -/
def redFinal (op : RedOp) (v : Option Lane) : Lane :=
  match v with
  | none => redIdentity op
  | some x => if op == .fadd && (value32 x).isNan then nan32 else x

/-- Reduce n = 2^d lanes that `at'` places in the register, under the mask: the value and its flags. -/
def treeReduce (op : RedOp) (rm : Nat → Rm) (mk : BitVec 1024) (a : List Lane) (at' : Nat → Nat) (d : Nat) : Lane × Flags :=
  let get (i : Nat) : Option (Lane × Flags) := if mk.getLsbD (at' i) then some (lane a (at' i), 0#5) else none
  let node (j : Nat) (x y : Lane × Flags) : Lane × Flags :=
    let r := redStep op (rm j) x.1 y.1
    (r.val, r.fl ||| x.2 ||| y.2)
  let v := treeOf node get d 1 0
  (redFinal op (v.map (·.1)), (v.map (·.2)).getD 0#5)

/-- VREDR: every lane of a row receives the row's reduction. -/
def execVredr (h : Hdr) (vd va : VNum) (mk : MNum) (op : RedOp) (rnd : Rnd) (s : State) :
    Host.Outcome State Fault Refusal :=
  issueV (ms := [mk]) h [] [va] s fun s =>
    let a := s.vr va
    let m := s.mr mk
    let rows := (List.range 16).map fun r => treeReduce op (fun j => s.rmReg rnd vd.toNat (64 * r + j)) m a (64 * r + ·) 6
    .done ((s.writeV vd (rows.flatMap fun x => List.replicate 64 x.1) allLanes).flagsV (rows.foldl (fun f x => f ||| x.2) 0#5))

/-- VREDC: every lane of a column receives the column's reduction. -/
def execVredc (h : Hdr) (vd va : VNum) (mk : MNum) (op : RedOp) (rnd : Rnd) (s : State) :
    Host.Outcome State Fault Refusal :=
  issueV (ms := [mk]) h [] [va] s fun s =>
    let a := s.vr va
    let m := s.mr mk
    let cols := (List.range 64).map fun c => treeReduce op (fun j => s.rmReg rnd vd.toNat (16 * c + j)) m a (64 * · + c) 4
    let row := cols.map (·.1)
    .done ((s.writeV vd ((List.range 16).flatMap fun _ => row) allLanes).flagsV (cols.foldl (fun f x => f ||| x.2) 0#5))

/-- A prefix along one row from lane l on: the lanes and the flags (R147). -/
def scanGo (op : RedOp) (ex : Bool) (rm : Nat → Rm) (mk : BitVec 1024) : Nat → Option Lane → List Lane → List Lane × Flags
  | _, _, [] => ([], 0#5)
  | l, run, a :: as =>
    let r : Option Lane × Flags :=
      if mk.getLsbD l then
        match run with
        | none => (some a, 0#5)
        | some v =>
          let x := redStep op (rm l) v a
          (some x.val, x.fl)
      else (run, 0#5)
    let rest := scanGo op ex rm mk (l + 1) r.1 as
    (redFinal op (if ex then run else r.1) :: rest.1, r.2 ||| rest.2)

/-- VSCANR. -/
def execVscanr (h : Hdr) (vd va : VNum) (mk : MNum) (op : RedOp) (rnd : Rnd) (ex : Bool) (s : State) :
    Host.Outcome State Fault Refusal :=
  issueV (ms := [mk]) h [] [va] s fun s =>
    let a := s.vr va
    let m := s.mr mk
    let rows := (List.range 16).map fun r => scanGo op ex (s.rmReg rnd vd.toNat) m (64 * r) none ((a.drop (64 * r)).take 64)
    .done ((s.writeV vd (rows.flatMap (·.1)) allLanes).flagsV (rows.foldl (fun f x => f ||| x.2) 0#5))

/-! ## Rotations, broadcasts, moves, permutation (R148, R149) -/

/-- A register whose lane l is lane `from' l` of a. -/
def permuted (a : List Lane) (from' : Nat → Nat) : List Lane := lanesOf fun l => lane a (from' l)

/-- The frame of a move under mask use d whose new lanes are given as a register image. -/
def moved (h : Hdr) (vd : VNum) (msk : MNum) (z : Bool) (uses : List SReg) (srcs : List VNum) (x : State → List Lane)
    (s : State) : Host.Outcome State Fault Refusal :=
  issueV (ms := [msk]) h uses srcs s fun s =>
    let mk := s.mr msk
    let new := x s
    .done (s.writeV vd (lanesGo mk z (fun _ a _ _ => exactly a) 0 (s.vr vd) new new new).1 (written mk z))

/-- The index k of R148, reduced. -/
def State.axisIndex (s : State) (ss : SReg) (imm : Lane) (n : Nat) : Nat := (s.getS ss + imm.signExtend 64).toNat % n

/-- VROTR. -/
def execVrotr (h : Hdr) (o : VOps) (ss : SReg) (imm : Lane) (s : State) : Host.Outcome State Fault Refusal :=
  moved h o.vd o.msk o.z [ss] [o.va] (fun s =>
    let k := s.axisIndex ss imm 64
    permuted (s.vr o.va) fun l => l / 64 * 64 + (l % 64 + 64 - k) % 64) s

/-- VROTC. -/
def execVrotc (h : Hdr) (o : VOps) (ss : SReg) (imm : Lane) (s : State) : Host.Outcome State Fault Refusal :=
  moved h o.vd o.msk o.z [ss] [o.va] (fun s =>
    let k := s.axisIndex ss imm 16
    permuted (s.vr o.va) fun l => (l / 64 + 16 - k) % 16 * 64 + l % 64) s

/-- VBCR. -/
def execVbcr (h : Hdr) (o : VOps) (ss : SReg) (imm : Lane) (s : State) : Host.Outcome State Fault Refusal :=
  moved h o.vd o.msk o.z [ss] [o.va] (fun s =>
    let k := s.axisIndex ss imm 64
    permuted (s.vr o.va) fun l => l / 64 * 64 + k) s

/-- VBCC. -/
def execVbcc (h : Hdr) (o : VOps) (ss : SReg) (imm : Lane) (s : State) : Host.Outcome State Fault Refusal :=
  moved h o.vd o.msk o.z [ss] [o.va] (fun s =>
    let k := s.axisIndex ss imm 16
    permuted (s.vr o.va) fun l => k * 64 + l % 64) s

/-- VIOTA. -/
def execViota (h : Hdr) (vd : VNum) (pat : Pattern) (imm : Lane) (mk : MNum) (z : Bool) (s : State) :
    Host.Outcome State Fault Refusal :=
  moved h vd mk z [] [] (fun _ => lanesOf fun l =>
    imm + BitVec.ofNat 32 (match pat with | .lane => l | .row => l / 64 | .col => l % 64)) s

/-- VMOV. -/
def execVmov (h : Hdr) (vd : VNum) (b : VSrc) (mk : MNum) (z : Bool) (s : State) : Host.Outcome State Fault Refusal :=
  moved h vd mk z (vsrcRegs b) (vsrcVecs b) (fun s => s.vsrcList b) s

/-- VPERM: lane l takes a[b[l]], or 0 where b[l] names no lane. -/
def execVperm (h : Hdr) (o : VOps) (b : VSrc) (s : State) : Host.Outcome State Fault Refusal :=
  moved h o.vd o.msk o.z (vsrcRegs b) (o.va :: vsrcVecs b) (fun s =>
    let a := s.vr o.va
    (s.vsrcList b).map fun i => if i.toNat < 1024 then lane a i.toNat else 0#32) s

/-- VMOVS: one lane takes a scalar. -/
def execVmovs (h : Hdr) (vd : VNum) (ss : SReg) (lane' : BitVec 14) (s : State) : Host.Outcome State Fault Refusal :=
  issueV h [ss] [] s fun s => .done (s.writeV vd (setAt (s.vr vd) lane'.toNat (lo32 (s.getS ss))) (BitVec.ofNat 1024 (2 ^ lane'.toNat)))

/-- VEXT: a scalar takes one lane. -/
def execVext (h : Hdr) (ss : SReg) (va : VNum) (lane' : BitVec 14) (sx : Bool) (s : State) :
    Host.Outcome State Fault Refusal :=
  issueV h [] [va] s fun s =>
    let v := lane (s.vr va) lane'.toNat
    give ss (if sx then v.signExtend 64 else v.setWidth 64) s

/-! ## Masks (R150) -/

/-- VMAND. -/
def execVmand (h : Hdr) (md ma mb : MNum) (s : State) : Host.Outcome State Fault Refusal :=
  issueV (ms := [ma, mb]) h [] [] s fun s => .done (s.setMr md (s.mr ma &&& s.mr mb))

/-- VMOR. -/
def execVmor (h : Hdr) (md ma mb : MNum) (s : State) : Host.Outcome State Fault Refusal :=
  issueV (ms := [ma, mb]) h [] [] s fun s => .done (s.setMr md (s.mr ma ||| s.mr mb))

/-- VMXOR. -/
def execVmxor (h : Hdr) (md ma mb : MNum) (s : State) : Host.Outcome State Fault Refusal :=
  issueV (ms := [ma, mb]) h [] [] s fun s => .done (s.setMr md (s.mr ma ^^^ s.mr mb))

/-- VMNOT. -/
def execVmnot (h : Hdr) (md ma : MNum) (s : State) : Host.Outcome State Fault Refusal :=
  issueV (ms := [ma]) h [] [] s fun s => .done (s.setMr md (~~~(s.mr ma)))

/-- VMPOPC. -/
def execVmpopc (h : Hdr) (ss : SReg) (ma : MNum) (s : State) : Host.Outcome State Fault Refusal :=
  issueV (ms := [ma]) h [] [] s fun s => give ss (BitVec.ofNat 64 (oneBits (s.mr ma))) s

/-- VMFF. -/
def execVmff (h : Hdr) (ss : SReg) (ma : MNum) (s : State) : Host.Outcome State Fault Refusal :=
  issueV (ms := [ma]) h [] [] s fun s => give ss (BitVec.ofNat 64 (trailingZeros (s.mr ma))) s

/-! ## Sort-and-count (06 R167, R168) -/

/-- Ranks of the keys from lane l on: the ranks, the counts after them, the out-of-range count. -/
def sortGo (n : Nat) (mk : BitVec 1024) : Nat → List Lane → List Lane → List Lane × List Lane × Nat
  | _, [], cnt => ([], cnt, 0)
  | l, k :: ks, cnt =>
    if mk.getLsbD l && decide (k.toNat < n) then
      let c := lane cnt k.toNat
      let r := sortGo n mk (l + 1) ks (setAt cnt k.toNat (c + 1))
      (c :: r.1, r.2)
    else
      let r := sortGo n mk (l + 1) ks cnt
      (0xFFFFFFFF#32 :: r.1, r.2.1, r.2.2 + (if mk.getLsbD l then 1 else 0))

/-- VSORTC. -/
def execVsortc (h : Hdr) (vd va vc : VNum) (n : BitVec 14) (ss : SReg) (mk : MNum) (s : State) :
    Host.Outcome State Fault Refusal :=
  issueV (ms := [mk]) h [] [va, vc] s fun s =>
    let r := sortGo n.toNat (s.mr mk) 0 (s.vr va) (s.vr vc)
    give ss (BitVec.ofNat 64 r.2.2) ((s.writeV vd r.1 allLanes).writeV vc r.2.1 allLanes)

end Sys2Proof.Machine
end

