-- ==== Sys2Proof/Machine/VMem.lean ====
section
/-! DEFINITION. Vector loads and stores: repetitions and their traps (02 R47), the memory image of a register, the
loads of L and the stores of W (06 R153–R165). -/

namespace Sys2Proof.Machine

/-! ## Repetitions (R47) -/

/-- The instruction stops before repetition i for want of room in a queue: it has issued, and goes on there. -/
def State.pauseAt (s : State) (h : Hdr) (inst : Instr) (i : Nat) (seed : Word) : State :=
  if i = 0 && !s.me.resumes then s
  else
    let e := s.cur.eng
    let s := if s.me.resumes then s else s.modHere fun x => x.takeTokens e h
    s.modMe fun st => { st with progress := some { pc := st.pc, idx := i, seed, inst := some inst } }

/-- Run n repetitions from number i on: `none` stops for room, a record traps there (R47). -/
def repeatGo (h : Hdr) (inst : Instr) (seed : Word) (f : Nat → State → Except (Option TrapRec) State) : Nat → Nat → State → Act
  | 0, _, s => .done s
  | n + 1, i, s =>
    match f i s with
    | .ok t => repeatGo h inst seed f n (i + 1) (if t.me.watchPass then t.modMe fun st => { st with watchPass := false } else t)
    | .error (some r) => .trapAt s inst i seed r
    | .error none => .wait (s.pauseAt h inst i seed) .other

/-- The repetitions 0 to rep of an instruction, or those that a trap left (R47); SEED is read once (R85). -/
def repeated (inst : Instr) (h : Hdr) (rep : Nat) (f : Word → Nat → State → Except (Option TrapRec) State) (s : State) : Act :=
  match s.me.progress with
  | some p =>
    if p.pc = s.me.pc then repeatGo h inst p.seed (f p.seed) (rep + 1 - p.idx) p.idx s
    else repeatGo h inst s.here.seed (f s.here.seed) (rep + 1) 0 s
  | none => repeatGo h inst s.here.seed (f s.here.seed) (rep + 1) 0 s

/-! ## Elements of one repetition (R153, R156) -/

/-- The active lanes of a mask, ascending. -/
def activeLanes (mk : BitVec 1024) : List Nat := (List.range 1024).filter fun l => mk.getLsbD l

/-- The keys of elements of n bytes, each under a number and checked whole in turn, before any effect of them; or the
first element that fails, with its trap (R156, R164; which fault a VLD or VST names: assumption log 120). -/
def State.elements (s : State) (need : Need) (n : Nat) : List (Nat × Word) → Except (Nat × TrapRec) (List (List Nat))
  | [] => .ok []
  | (l, a) :: r =>
    match s.element need a n with
    | .error t => .error (l, t)
    | .ok ks =>
      match s.elements need n r with
      | .error e => .error e
      | .ok rest => .ok (ks :: rest)

/-- The first key and the address of each element of an access. -/
def placesOf (kss : List (List Nat)) (vas : List Word) : List (Nat × Word) := (kss.map (·.headD 0)).zip vas

/-! ## Loads (R157–R161) -/

/-- Load repetitions that may be outstanding (R161). -/
def loadDepth : Nat := 64

/-- As many load repetitions are outstanding as may be: a further one stalls (R161). -/
def State.loadsFull (s : State) : Bool :=
  decide (loadDepth ≤ (s.me.queue.filter fun q => match q.acc with | .load _ _ => true | _ => false).length)

/-- One load repetition: the elements read, and for each lane the number of its element and its nibble. -/
def loadRep (v : Nat) (f : Fmt) (raw z : Bool) (places : List (Nat × Word)) (lanes : List (Nat × Nat × Bool))
    (s : State) : Except (Option TrapRec) State :=
  let n := elemBytes f
  match s.elements .load n places with
  | .error e => .error (some e.2)
  | .ok kss =>
    let ks := kss.flatten
    let acc : Access := .load ks (.lanes (BitVec.ofNat 10 v) f raw z (lanes.map fun l => (l.1, 2 * (n * l.2.1) + l.2.2.toNat)))
    if s.loadsFull then .error none
    else .ok ((s.countBytes s.cur.cell (places.map (·.2)) ks).access (placesOf kss (places.map (·.2))) acc)

/-- The row pitch of an index mode (R155). -/
def State.pitchOf (s : State) (r : RunOps) (idx : IdxMode) : Option Word :=
  if idx == .pitch then some (s.getS r.index) else none

/-- A repetition under a mask: one with an uncorrectable error traps at the access that reads it (R435). -/
def underMask (mk : MNum) (f : Word → Nat → State → Except (Option TrapRec) State) (seed : Word) (i : Nat) (s : State) :
    Except (Option TrapRec) State :=
  if s.here.badMask mk then .error (some { cause := cEcc }) else f seed i s

/-- VLD and VLD.RAW: repetition i fills v(reg + i) under the mask. -/
def loadRun (inst : Instr) (h : Hdr) (r : RunOps) (f : Fmt) (raw : Bool) (mk : MNum) (z : Bool) (idx : IdxMode) (s : State) :
    Host.Outcome State Fault Refusal :=
  issue h [r.base, r.index] s fun s =>
    repeated inst h r.rep.toNat (underMask mk fun _ i s =>
      let ea := s.runBase r (idx == .none) i
      let acts := activeLanes (s.mr mk)
      let place := lanePlace f ea (s.pitchOf r idx)
      loadRep (r.reg.toNat + i) f raw z (acts.map fun l => (l, (place l).va))
        (acts.zipIdx.map fun p => (p.1, p.2, (place p.1).hi)) s) s

/-- VLD (R157). -/
def execVld (h : Hdr) (r : RunOps) (fmt : Fmt) (mk : MNum) (z : Bool) (idx : IdxMode) (s : State) :
    Host.Outcome State Fault Refusal :=
  loadRun (.vld h r fmt mk z idx) h r fmt false mk z idx s

/-- VLD.RAW (R158). -/
def execVldRaw (h : Hdr) (r : RunOps) (fmt : Fmt) (mk : MNum) (z : Bool) (idx : IdxMode) (s : State) :
    Host.Outcome State Fault Refusal :=
  loadRun (.vldRaw h r fmt mk z idx) h r fmt true mk z idx s

/-- Elements that a shape reads. -/
def shapeCount : Shape → Nat
  | .row => 64 | .col => 16 | .one => 1

/-- The element that a lane receives. -/
def shapeIndex (sh : Shape) (l : Nat) : Nat :=
  match sh with
  | .row => l % 64
  | .col => l / 64
  | .one => 0

/-- The place of an element of a short vector (R159). -/
def shapePlace (sh : Shape) (f : Fmt) (ea : Word) (pitch : Option Word) (j : Nat) : Place :=
  match sh, pitch with
  | .col, some p => { va := ea + BitVec.ofNat 64 j * p, hi := false }
  | _, _ => placeAt f ea j

/-- VLDB (R159). -/
def execVldb (h : Hdr) (r : RunOps) (fmt : Fmt) (mk : MNum) (z : Bool) (idx : IdxMode) (shape : Shape) (s : State) :
    Host.Outcome State Fault Refusal :=
  issue h [r.base, r.index] s fun s =>
    repeated (.vldb h r fmt mk z idx shape) h r.rep.toNat (underMask mk fun _ i s =>
      let ea := s.runBase r (idx == .none) i
      let place := shapePlace shape fmt ea (s.pitchOf r idx)
      loadRep (r.reg.toNat + i) fmt false z ((List.range (shapeCount shape)).map fun j => (j, (place j).va))
        ((activeLanes (s.mr mk)).map fun l => (l, shapeIndex shape l, (place (shapeIndex shape l)).hi)) s) s

/-! ## Prefetch (R160) -/

/-- A walk for an address, its leaf kept in the translation caches; a failed walk leaves no entry (R364, R367). -/
def State.cacheWalk (s : State) (asid : BitVec 14) (va : Nat) : State :=
  if s.tlb.any fun t => t.covers asid va then s
  else
    match s.walk asid va with
    | .error _ => s
    | .ok l =>
      { s with tlb := { asid, va := va / l.size * l.size, size := l.size, pa := l.pa, r := l.r, w := l.w, x := l.x, sl := l.sl } :: s.tlb }

/-- Bytes of an extent. -/
def extentBytes : Extent → Nat
  | .x256 => 256 | .x4k => 4096 | .x64k => 65536

/-- The pages of an extent at ea are brought into the translation caches; nothing else changes but the counts of the
walks. -/
def State.warm (s : State) (ea : Word) (n : Nat) : State :=
  let last : Word := BitVec.ofNat 64 ((ea.toNat + n - 1) % 2 ^ 57)
  if ea.toNat ≥ 2 ^ 57 || inWindows ea.toNat || inWindows last.toNat then s
  else ((s.countWalks s.cur.cell [ea, last]).cacheWalk s.here.asid ea.toNat).cacheWalk s.here.asid last.toNat

/-- PREF: no trap but ENC_ILLEGAL, no register, no result; an error in a scalar that it reads raises nothing (R160). -/
def execPref (h : Hdr) (r : RunOps) (x : Extent) (s : State) : Host.Outcome State Fault Refusal :=
  issue h [] s fun s =>
    if [r.base, r.index].any s.me.loading then .wait s .other
    else repeated (.pref h r x) h r.rep.toNat (fun _ i s => .ok (s.warm (s.runBase r true i) (extentBytes x))) s

/-! ## Stores (R162–R165) -/

/-- The rounding mode of a conversion; an INT32 source takes none. -/
def cvtRnd : Cvt → Rnd
  | .mode r => r
  | .i32 => .rne

/-- The stored element of a lane: FP32 under a scale and a mode, or INT32 (R162). -/
def storeElem (f : Fmt) (cvt : Cvt) (scale : FVal) (x : Lane) (m : Rm) : Res Nat :=
  match cvt with
  | .i32 => if f = .int32 then { val := x.toNat } else narrowI32 x f
  | .mode _ => narrow (value32 x) scale f [] m

/-- The masked byte writes of some lanes, with their flags and saturations. -/
def storeGo (f : Fmt) (elem : Nat → Place → Res Nat) : List (Nat × Place) → List (List Nat) → List Put × Flags × Nat
  | (l, p) :: ps, ks :: rest =>
    let r := elem l p
    let t := storeGo f elem ps rest
    (elemPuts f p.hi ks r.val ++ t.1, r.fl ||| t.2.1, r.sat + t.2.2)
  | _, _ => ([], 0#5, 0)

/-- The access of a store's bytes: plain, or a notifying store's (R406). -/
def storeAccess (need : Need) (ps : List Put) : Access := if need = .notify then .notify ps else .store ps none

/-- The store of some lanes of a register at their places: checked whole, then queued, with flags and counts (R156,
R162, R165). -/
def storeLanes (need : Need) (x : List Lane) (f : Fmt) (cvt : Cvt) (scale : FVal) (seed : Word) (els : List (Nat × Place))
    (s : State) : Except (Nat × TrapRec) State :=
  match s.elements need (elemBytes f) (els.map fun p => (p.1, p.2.va)) with
  | .error e => .error e
  | .ok kss =>
    let c := s.cur.cell
    let r := storeGo f (fun l p =>
      storeElem f cvt scale (lane x l) { mode := cvtRnd cvt, seed, c := coordMem c p.va.toNat p.hi }) els kss
    let vas := els.map fun p => p.2.va
    .ok (((s.countBytes c vas kss.flatten).access (placesOf kss vas) (storeAccess need (s.notPeerObject r.1))).effects c .w
      r.2.1 r.2.2)

/-- One repetition of VST and VST.AMX (R162, R163); a bad source register traps at the store that reads it (R435). -/
def storeRep (r : RunOps) (f : Fmt) (cvt : Cvt) (mk : BitVec 1024) (idx : IdxMode) (seed : Word) (i : Nat) (s : State) :
    Except (Option TrapRec) State :=
  if s.here.badReg (1000 + (r.reg.toNat + i)) then .error (some { cause := cEcc })
  else
    let ea := s.runBase r (idx == .none) i
    let scale := if idx == .scale then value32 (lo32 (s.getS r.index)) else .fin false 1 1
    let place := lanePlace f ea (s.pitchOf r idx)
    match storeLanes .store (s.vrAt (r.reg.toNat + i)) f cvt scale seed ((activeLanes mk).map fun l => (l, place l)) s with
    | .error e => .error (some e.2)
    | .ok t => .ok t

/-- VST. -/
def execVst (h : Hdr) (r : RunOps) (fmt : Fmt) (cvt : Cvt) (mk : MNum) (idx : IdxMode) (s : State) :
    Host.Outcome State Fault Refusal :=
  issue h [r.base, r.index] s fun s =>
    repeated (.vst h r fmt cvt mk idx) h r.rep.toNat (underMask mk fun seed i s => storeRep r fmt cvt (s.mr mk) idx seed i s) s

/-- The update of an amx register by a stored lane (R163). -/
def amxStep (a x : Lane) : Lane :=
  if (value32 x).isNan || (value32 a).isNan then nan32
  else
    let m := x &&& 0x7FFFFFFF#32
    if (a &&& 0x7FFFFFFF#32).ult m then m else a

/-- Every lane of a stored register taken into an amx register. -/
def Cell.amxTake (x : Cell) (n : Nat) (v : List Lane) : Cell :=
  { x with amx := tabSet 0#32 x.amx n (v.foldl amxStep (tabGet 0#32 x.amx n)) }

/-- VST.AMX. -/
def execVstAmx (h : Hdr) (r : RunOps) (fmt : Fmt) (rnd : Rnd) (amx : BitVec 3) (idx : IdxMode) (s : State) :
    Host.Outcome State Fault Refusal :=
  issue h [r.base, r.index] s fun s =>
    repeated (.vstAmx h r fmt rnd amx idx) h r.rep.toNat (fun seed i s =>
      if s.here.badReg (9000 + amx.toNat) then .error (some { cause := cEcc }) else
      match storeRep r fmt (.mode rnd) (BitVec.allOnes 1024) idx seed i s with
      | .error e => .error e
      | .ok t => .ok (t.modHere fun x => x.amxTake amx.toNat (s.vrAt (r.reg.toNat + i)))) s

/-- VST.AMX.drain: the register leaves as FP32 bits and becomes +0. -/
def execVstAmxDrain (h : Hdr) (base : SReg) (off : BitVec 32) (amx : BitVec 3) (s : State) :
    Host.Outcome State Fault Refusal :=
  issue h [base] s fun s =>
    if s.here.badReg (9000 + amx.toNat) then .trap { cause := cEcc } else
    repeated (.vstAmxDrain h base off amx) h 0 (fun _ _ s =>
      let va := s.getS base + off.signExtend 64
      match s.element .store va 4 with
      | .error e => .error (some e)
      | .ok ks =>
        let v := tabGet 0#32 s.here.amx amx.toNat
        .ok (((s.countBytes s.cur.cell [va] ks).access [(ks.headD 0, va)] (.store (s.notPeerObject (fullPuts ks (leBytes 4 v.toNat))) none)).modHere
          fun x => { x with amx := tabSet 0#32 x.amx amx.toNat 0#32 })) s

/-- VSCT: lanes take effect in ascending order, and a fault names the lowest lane that has one (R164). -/
def execVsct (h : Hdr) (va vb : VNum) (ss : SReg) (mk : MNum) (imm : Lane) (fmt : Fmt) (cvt : Cvt) (s : State) :
    Host.Outcome State Fault Refusal :=
  issueV (ms := [mk]) h [ss] [va, vb] s fun s =>
    let offs := s.vr vb
    let place (l : Nat) : Place :=
      { va := s.getS ss + (lane offs l).signExtend 64 + imm.signExtend 64, hi := false }
    match storeLanes .store (s.vr va) fmt cvt (.fin false 1 1) s.here.seed
      ((activeLanes (s.mr mk)).map fun l => (l, place l)) s with
    | .error e => .trap { e.2 with idx := some e.1 }
    | .ok t => .done t

end Sys2Proof.Machine
end

