-- ==== Sys2Proof/Machine/Phiry.lean ====
section
/-! DEFINITION. Tensor descriptors and the Phiry block formats (08 R190–R198, R209–R212): images, tile geometry,
bodies, and the conversion of one element. -/

namespace Sys2Proof.Machine

/-! ## Descriptors (R190, R191) -/

/-- The fields of a descriptor image. -/
structure Desc where
  rank : Nat
  kind : Nat
  gfmt : Nat
  efmt : Nat
  /-- five extents, and five strides of which the first is unused -/
  size : List Nat
  stride : List Int
deriving DecidableEq, Repr

/-- The fields of a 512-bit image. -/
def Desc.of (x : Nat) : Desc :=
  { rank := bitsAt x 0 3, kind := bitsAt x 12 2, gfmt := bitsAt x 8 3, efmt := bitsAt x 4 4
    size := (List.range 5).map fun d => bitsAt x (32 + 32 * d) 24
    stride := (List.range 5).map fun d => if d = 0 then 0 else sextNat 48 (bitsAt x (128 + 64 * d) 48) }

/-- Extent of a dimension. -/
def Desc.sz (d : Desc) (i : Nat) : Nat := d.size.getD i 0

/-- Stride of a dimension. -/
def Desc.st (d : Desc) (i : Nat) : Int := d.stride.getD i 0

/-- The element format. -/
def Desc.fmt (d : Desc) : Fmt := (fmtOf? (BitVec.ofNat 4 d.efmt)).getD .fp32

/-- An image is valid (R191); kind 3 is not (assumption log 122). -/
def descOk (x : Nat) : Bool :=
  let d := Desc.of x
  decide (1 ≤ d.rank) && decide (d.rank ≤ 5) && d.kind != 3 && decide (d.efmt ≤ 9) && decide (d.gfmt ≤ 4) &&
  ([(3, 1), (11, 1), (14, 18), (56, 8), (88, 8), (120, 8), (152, 8), (184, 8), (240, 16), (304, 16), (368, 16),
    (432, 80)].all fun p => bitsAt x p.1 p.2 == 0) &&
  ((List.range 5).all fun i => decide (i < d.rank) == decide (0 < d.sz i)) &&
  (d.kind != 0 || (d.gfmt == 0 && (List.range 5).all fun i => decide (i < d.rank) || d.st i == 0)) &&
  (d.kind == 0 || (List.range 5).all fun i => d.st i == 0) &&
  (d.kind != 2 || (d.rank == 2 && decide (d.sz 1 ≤ 128) && decide (d.sz 0 ≤ 128)))

/-- The multi-index of a position, dimension 0 fastest. -/
def Desc.index (d : Desc) (u : Nat) : List Nat :=
  (List.range 5).map fun i => u / ((List.range i).foldl (fun p k => p * max (d.sz k) 1) 1) % max (d.sz i) 1

/-- Positions of an array. -/
def Desc.count (d : Desc) : Nat := (List.range 5).foldl (fun p i => p * max (d.sz i) 1) 1

/-- The place of an element of a strided array (R191). -/
def Desc.place (d : Desc) (base : Word) (j : List Nat) : Place :=
  let off : Int := (List.range 4).foldl (fun a i => a + (j.getD (i + 1) 0 : Int) * d.st (i + 1)) 0
  placeAt d.fmt (base + BitVec.ofInt 64 off) (j.getD 0 0)

/-- The box of a strided array: from the lowest to past the highest byte (R219). -/
def Desc.box (d : Desc) (base : Word) : Nat × Nat :=
  let ext (i : Nat) : Int := ((d.sz (i + 1) : Int) - 1) * d.st (i + 1)
  let dims := List.range (d.rank - 1)
  let lo : Int := dims.foldl (fun a i => a + min 0 (ext i)) 0
  let hi : Int := dims.foldl (fun a i => a + max 0 (ext i)) 0
  ((base + BitVec.ofInt 64 lo).toNat, (hi - lo).toNat + ceilDiv (d.sz 0 * fmtBits d.fmt) 8)

/-! ## Headers, directory entries and tiles (R193–R198) -/

/-- A pair of group and element format is allowed (R197). -/
def pairOk (g : Nat) (f : Fmt) : Bool :=
  match g with
  | 0 | 1 | 2 => true
  | 3 => f == .e4m3 || f == .e5m2 || f == .int8 || f == .int4
  | 4 => f == .cb4
  | _ => false

/-- Bytes of one value of a PBF.CO pair. -/
def coBytes (f : Fmt) : Nat := if fmtBits f = 32 then 4 else 2

/-- Bytes of the largest row of κ elements of a body (R196). -/
def rowMax (g : Nat) (f : Fmt) (kap : Nat) : Nat :=
  match g with
  | 1 => (List.range (ceilDiv kap 64)).foldl (fun a i => a + roundUp (8 + ceilDiv (min 64 (kap - 64 * i) * fmtBits f) 8) 16) 0
  | 2 => roundUp (2 + kap * (2 + coBytes f)) 16
  | 3 => roundUp (ceilDiv kap 32 * (4 + 32 * fmtBits f / 8)) 16
  | _ => roundUp (ceilDiv (kap * fmtBits f) 8) 16

/-- Bytes of the row offset table of a body of ρ rows; formats with rows in place have none. -/
def tableBytes (g rho : Nat) : Nat := if g = 1 || g = 2 then roundUp (4 * rho) 16 else 0

/-- Wmax of R198. -/
def wmax (g : Nat) (f : Fmt) : Nat := tableBytes g 128 + 128 * rowMax g f 128

/-- A Phiry header (R194). -/
structure Head where
  fmt : Fmt
  gfmt : Nat
  exported : Bool
  rank : Nat
  size : List Nat
  tcap : Nat
  dataOff : Nat
  cb : List (BitVec 16)
deriving DecidableEq, Repr

/-- Extent of a dimension; 1 beyond the rank. -/
def Head.sz (h : Head) (i : Nat) : Nat := max (h.size.getD i 0) 1

/-- Tiles along k. -/
def Head.tc (h : Head) : Nat := ceilDiv (h.sz 0) 128

/-- Tiles along the rows. -/
def Head.tr (h : Head) : Nat := ceilDiv (h.sz 1) 128

/-- Tiles of the tensor. -/
def Head.ntiles (h : Head) : Nat := h.sz 2 * h.sz 3 * h.sz 4 * h.tr * h.tc

/-- Rows of tile t. -/
def Head.rho (h : Head) (t : Nat) : Nat := min 128 (h.sz 1 - 128 * (t / h.tc % h.tr))

/-- Elements per row of tile t. -/
def Head.kappa (h : Head) (t : Nat) : Nat := min 128 (h.sz 0 - 128 * (t % h.tc))

/-- The multi-index of row r, element k of tile t. -/
def Head.index (h : Head) (t r k : Nat) : List Nat :=
  let o := t / (h.tr * h.tc)
  [128 * (t % h.tc) + k, 128 * (t / h.tc % h.tr) + r, o % h.sz 2, o / h.sz 2 % h.sz 3, o / (h.sz 2 * h.sz 3)]

/-- The header that 64 bytes hold, with the effective capacity and offset; a META cause where it is not valid. Its
codebook is checked by the copies that decode or encode through it (R80, R197). -/
def headOf (bs : List Byte) : Except Nat Head :=
  let x := leNat bs
  let byte (i : Nat) : Nat := bitsAt x (8 * i) 8
  let rank := byte 6
  let efmt := byte 5 % 16
  let g := byte 5 / 16 % 8
  let size := (List.range 5).map fun d => bitsAt x (64 + 24 * d) 24
  let cb := (List.range 16).map fun i => BitVec.ofNat 16 (bitsAt x (256 + 16 * i) 16)
  let tcap := bitsAt x 192 32
  let off := bitsAt x 224 32
  match fmtOf? (BitVec.ofNat 4 efmt) with
  | none => .error 0x24
  | some f =>
    if g > 4 || bitsAt x 0 40 ≠ 0 || byte 7 ≠ 0 || byte 23 ≠ 0 || rank = 0 || rank > 5 ||
       !((List.range 5).all fun i => decide (i < rank) == decide (0 < size.getD i 0)) ||
       tcap % 64 ≠ 0 || off % 64 ≠ 0 || (f != .cb4 && bitsAt x 256 256 ≠ 0) then .error 0x24
    else if !pairOk g f then .error 0x23
    else
      let h0 : Head := { fmt := f, gfmt := g, exported := decide (128 ≤ byte 5), rank, size
                         tcap := if tcap = 0 then wmax g f else tcap, dataOff := 0, cb }
      let least := 64 + 16 * h0.ntiles
      let h := { h0 with dataOff := if off = 0 then roundUp least 64 else off }
      if h.tcap < wmax g f || h.dataOff < least || h.dataOff ≥ 2 ^ 32 then .error 0x24 else .ok h

/-- The codebook of a header is valid, where its format has one (R80). -/
def Head.tableOk (h : Head) : Bool := h.fmt != .cb4 || codebookOk h.cb

/-- A directory entry (R195). -/
structure Entry where
  off : Nat
  len : Nat
  nnz : Nat
  format : Nat
  valid : Bool
deriving DecidableEq, Repr

/-- The entry that 16 bytes hold; `none` where it is invalid. Format 7 with a length, and an nnz that no tile can hold, are
taken as invalid (assumption log 124). -/
def entryOf (h : Head) (bs : List Byte) : Option Entry :=
  let x := leNat bs
  let e : Entry := { off := bitsAt x 0 64, len := bitsAt x 64 32, nnz := bitsAt x 96 16, format := bitsAt x 112 8
                     valid := bitsAt x 120 1 == 1 }
  if bitsAt x 121 7 ≠ 0 then none
  else if !e.valid then some e
  else if e.nnz > 16384 || !(e.format == h.gfmt || (e.format == 7 && e.len == 0)) || (!h.exported && decide (e.len > h.tcap)) then none
  else some e

/-- An entry stands for a tile of zeros. -/
def Entry.empty (e : Entry) : Bool := !e.valid || e.format == 7

/-- The 16 bytes of an entry. -/
def Entry.bytes (e : Entry) : List Byte :=
  leBytes 8 e.off ++ leBytes 4 e.len ++ leBytes 2 e.nnz ++ leBytes 1 e.format ++ leBytes 1 (if e.valid then 1 else 0)

/-- Offset of a tile's body from the header (R194, R195). -/
def Head.bodyOff (h : Head) (t : Nat) (e : Entry) : Nat := if h.exported then e.off else h.dataOff + t * h.tcap

/-! ## Bodies -/

/-- Zero bytes up to a multiple of 16. -/
def pad16 (bs : List Byte) : List Byte := fitBytes (roundUp bs.length 16) bs

/-- Elements of one width packed from bit 0. -/
def packBits (w : Nat) (vs : List Nat) : List Byte :=
  leBytes (ceilDiv (vs.length * w) 8) (vs.foldr (fun v n => v % 2 ^ w + 2 ^ w * n) 0)

/-- An element whose value is neither zero (R196). -/
def elemNonzero (f : Fmt) (cb : List (BitVec 16)) (b : Nat) : Bool :=
  match value f cb b with
  | .fin _ n _ => n != 0
  | _ => true

/-- Pieces of a list, n at a time. -/
def chunksOf (n : Nat) (vs : List Nat) : List (List Nat) :=
  (List.range (ceilDiv vs.length n)).map fun i => (vs.drop (n * i)).take n

/-- The bitmap of a group: bit j for a nonzero element j. -/
def groupBits (f : Fmt) (cb : List (BitVec 16)) (vs : List Nat) : Nat :=
  (vs.zipIdx.map fun p => if elemNonzero f cb p.1 then 2 ^ p.2 else 0).foldl (· + ·) 0

/-- One row of a body that carries no scales. -/
def rowBytes (g : Nat) (f : Fmt) (cb : List (BitVec 16)) (vs : List Nat) : List Byte :=
  match g with
  | 1 => (chunksOf 64 vs).flatMap fun grp =>
      pad16 (leBytes 8 (groupBits f cb grp) ++ packBits (fmtBits f) (grp.filter (elemNonzero f cb)))
  | 2 =>
    let nz := vs.zipIdx.filter fun p => elemNonzero f cb p.1
    pad16 (leBytes 2 nz.length ++ nz.flatMap fun p => leBytes 2 p.2 ++ leBytes (coBytes f) p.1)
  | _ => pad16 (packBits (fmtBits f) vs)

/-- Running starts of rows after a table. -/
def rowStarts (at' : Nat) : List (List Byte) → List Nat
  | [] => []
  | r :: rs => at' :: rowStarts (at' + r.length) rs

/-- A body from its rows: the offset table of PBF.BM and PBF.CO, then the rows. -/
def bodyOf (g : Nat) (rows : List (List Byte)) : List Byte :=
  if g = 1 || g = 2 then
    pad16 ((rowStarts (tableBytes g rows.length) rows).flatMap (leBytes 4)) ++ rows.flatten
  else rows.flatten

/-- The body of a tile of zeros (R208); in CB4 its code is 0 (assumption log 126). -/
def zeroBody (g : Nat) (f : Fmt) (rho kap : Nat) : List Byte :=
  let row : List Byte :=
    match g with
    | 1 => (List.range (ceilDiv kap 64)).flatMap fun _ => List.replicate 16 0#8
    | 2 => List.replicate 16 0#8
    | _ => List.replicate (rowMax g f kap) 0#8
  bodyOf g (List.replicate rho row)

/-! ## Reading a body, one element at a time (R196, R213) -/

/-- How a body is read: n bytes from an offset within it, or a fault. -/
abbrev BodyRead := Nat → Nat → Except TrapRec (List Byte)

/-- An element found in a body: its bits, and its block scale under PBF.SC; or a layout fault at an offset. -/
inductive Found
  | absent
  | bits (b : Nat)
  | scaled (b : Nat) (scale : Lane)
  | broken (off : Nat)
  | failed (t : TrapRec)
deriving DecidableEq, Repr

/-- Read bytes of a body of a length, or say that they lie beyond it. -/
def within (len : Nat) (rd : BodyRead) (off n : Nat) (k : List Byte → Found) : Found :=
  if off + n > len then .broken (max off len)
  else
    match rd off n with
    | .error t => .failed t
    | .ok bs => k bs

/-- An element of a packed run that starts at an offset. -/
def packedAt (f : Fmt) (len : Nat) (rd : BodyRead) (off j : Nat) (k : Nat → Found) : Found :=
  within len rd (off + j * fmtBits f / 8) (elemBytes f) fun bs => k (elemOf f (decide (fmtBits f = 4 && j % 2 = 1)) bs)

/-- Walk the groups of a PBF.BM row to element j of the row. -/
def bmAt (f : Fmt) (len : Nat) (rd : BodyRead) : Nat → Nat → Nat → Nat → Found
  | 0, off, _, _ => .broken off
  | fuel + 1, off, j, kap =>
    within len rd off 8 fun bs =>
      let m := leNat bs
      if kap < 64 && m / 2 ^ kap ≠ 0 then .broken off
      else
        let ones (n : Nat) : Nat := ((List.range n).filter fun i => m.testBit i).length
        if j < 64 then (if m.testBit j then packedAt f len rd (off + 8) (ones j) .bits else .absent)
        else bmAt f len rd fuel (off + roundUp (8 + ceilDiv (ones 64 * fmtBits f) 8) 16) (j - 64) (kap - 64)

/-- The pairs of a PBF.CO row, checked in order: the element of column j. -/
def coFind (f : Fmt) (kap j : Nat) (off : Nat) : List Nat → Option Nat → Found → Found
  | [], _, acc => acc
  | p :: ps, last, acc =>
    let col := p % 65536
    if col ≥ kap || last.any (fun l => decide (col ≤ l)) then .broken off
    else coFind f kap j (off + 2 + coBytes f) ps (some col) (if col = j then .bits (p / 65536 % 2 ^ fmtBits f) else acc)

/-- Element (r, j) of a body of a length, for a tile of ρ × κ. -/
def bodyAt (g : Nat) (f : Fmt) (rho kap len : Nat) (rd : BodyRead) (r j : Nat) : Found :=
  let viaTable (k : Nat → Found) : Found :=
    if tableBytes g rho > len then .broken 0 else within len rd (4 * r) 4 fun bs => k (leNat bs)
  match g with
  | 1 => viaTable fun off => bmAt f len rd (ceilDiv kap 64) off j kap
  | 2 => viaTable fun off => within len rd off 2 fun bs =>
      let n := leNat bs
      if n > kap then .broken off
      else
        let held := min n ((len - (off + 2)) / (2 + coBytes f))
        within len rd (off + 2) (held * (2 + coBytes f)) fun ps =>
          let x := coFind f kap j (off + 2)
            ((List.range held).map fun i => leNat ((ps.drop (i * (2 + coBytes f))).take (2 + coBytes f))) none .absent
          match x with
          | .broken o => .broken o
          | x => if held < n then .broken (max (off + 2) len) else x
  | 3 =>
    let blk := r * rowMax g f kap + j / 32 * (4 + 32 * fmtBits f / 8)
    within len rd blk 4 fun sc => packedAt f len rd (blk + 4) (j % 32) fun b => .scaled b (BitVec.ofNat 32 (leNat sc))
  | _ => packedAt f len rd (r * rowMax g f kap) j .bits

/-! ## Conversion of one element (R209, R212) -/

/-- Convert an element's bits and exact value under a declared or block scale. -/
def convertElem (sf df : Fmt) (scaled : Bool) (b : Nat) (x s : FVal) (m : Rm) : Res Nat :=
  if df = sf && !scaled then { val := b }
  else if df.floating then narrowF x s df m
  else if sf.floating then narrowInt x s df m
  else
    match x with
    | .fin n num _ =>
      let (lo, hi) := intRange df
      let r := satInt (if n then -(num : Int) else num) lo hi
      { val := (r.val % 2 ^ fmtBits df).toNat, sat := r.sat }
    | _ => { val := 0 }

/-- The scale that the PBF.SC encoder gives a block of exact values, with the flags of its rounding (R212, R86). -/
def blockScale (f : Fmt) (xs : List FVal) : Res Lane :=
  let top := maxMag (xs.filter fun x => match x with | .fin _ _ _ => true | _ => false)
  let most : FVal := if f.floating then maxFin (fpar f) false else intVal (intRange f).2
  match top with
  | .fin _ n _ =>
    if n = 0 then { val := 0x3F800000#32 }
    else
      let r := roundTo (exactDiv top most).val (fpar .fp32) rmRne
      { val := if r.val.isZero then 1#32 else lane32 r.val, fl := r.fl }
  | _ => { val := 0x3F800000#32 }

end Sys2Proof.Machine
end

