-- ==== Sys2Proof/Machine/Copies.lean ====
section
/-! DEFINITION. The copy engines (07 R187, R188, 08 R192, R200–R222): descriptor loads and stores, the issue of
copy commands, the landing of their bytes unit by unit, exchanges, and deferred faults. -/

namespace Sys2Proof.Machine

/-! ## Metadata faults (R222, R253) -/

/-- The 32-byte record of a metadata fault. -/
def metaInfo (cause unit source flags ordinal row pos : Nat) (addr : Nat) (observed : List Byte) : List Byte :=
  leBytes 1 cause ++ leBytes 1 unit ++ leBytes 1 source ++ leBytes 1 flags ++ leBytes 4 ordinal ++ leBytes 2 row ++
  leBytes 2 pos ++ List.replicate 4 0#8 ++ leBytes 8 addr ++ fitBytes 8 observed

/-- META at issue from a descriptor of a copy. -/
def metaTrap (cause : Nat) (d : DNum) (ordinal : Nat) : TrapRec :=
  { cause := cMeta, info := metaInfo cause 0 (128 + d.toNat) 0 ordinal 0 0 0 [] }

/-! ## DLD and DST (R192) -/

/-- A descriptor register. -/
def Cell.getD (x : Cell) (d : DNum) : BitVec 512 := tabGet 0#512 x.desc d.toNat

/-- DLD: a load of an image, which is read and checked at issue and enters its register when the load
retires; its 32-bit offset is signed (assumption log 123). -/
def execDld (h : Hdr) (dd : DNum) (sa : SReg) (imm : Lane) (s : State) : Host.Outcome State Fault Refusal :=
  issue h [sa] s fun s =>
    let va := s.getS sa + imm.signExtend 64
    if va.toNat % 64 ≠ 0 then .trap { cause := cAlign, addr := va }
    else
      match s.element .load va 64 with
      | .error t => .trap t
      | .ok ks =>
        let image := leNat (s.readFor s.cur.cell .l 8 ks)
        if s.me.loadBlocked ks || s.loadsFull then .wait s .other
        else if descOk image then
          .done ((s.countBytes s.cur.cell [va] ks).access [(ks.headD 0, va)] (.load ks (.desc dd (BitVec.ofNat 512 image))))
        else .trap { cause := cMeta, info := metaInfo 0x20 1 (128 + dd.toNat) 0 0 0 0 0 [] }

/-- An engine's load of a descriptor is still outstanding. -/
def EngState.loadingDesc (st : EngState) (d : DNum) : Bool :=
  st.queue.any fun q => match q.acc with | .load _ (.desc e _) => d == e | _ => false

/-- DST: an unchecked store of an image. -/
def execDst (h : Hdr) (ds : DNum) (sb : SReg) (imm : Lane) (s : State) : Host.Outcome State Fault Refusal :=
  issue h [sb] s fun s =>
    let va := s.getS sb + imm.signExtend 64
    if s.me.loadingDesc ds then .wait s .other
    else if s.here.badReg (6000 + ds.toNat) then .trap { cause := cEcc }
    else if va.toNat % 64 ≠ 0 then .trap { cause := cAlign, addr := va }
    else
      match s.element .store va 64 with
      | .error t => .trap t
      | .ok ks =>
        .done ((s.countBytes s.cur.cell [va] ks).access [(ks.headD 0, va)]
          (.store (s.notPeerObject (fullPuts ks (leBytes 64 (s.here.getD ds).toNat))) none))

/-! ## Addresses of a copy (R203, R174, R175) -/

/-- The page of an address as a copy translates it at issue; what a peer, the pool or an ownership home refuses is
deferred (R206, R390, R393). -/
def State.copyPage (s : State) (asid : BitVec 14) (write : Bool) (va : Nat) : Except (BitVec 8) Page :=
  let vp := va / 65536
  if va ≥ 2 ^ 57 then .error cXlate
  else if windowBase ≤ va && va < windowBase + 0x40000000 then
    let o := va - windowBase
    if o ≥ 80 * 0x800000 then .error cXlate
    else
      match s.homeCheck asid (2 ^ 52 + o) with
      | some e => .error e
      | none => .ok (vp, 2 ^ 52 + o / 65536 * 65536, false)
  else if spillBase ≤ va then .error cPerm
  else if poolBase ≤ va && va < poolBase + 2 ^ 42 then
    let a := va - poolBase
    .ok (vp, (4 * 2 ^ 52 + a / 2 ^ 39 * 2 ^ 42 + a % 2 ^ 39) / 65536 * 65536, false)
  else
    match s.leafFor asid va with
    | .error e => .error e
    | .ok l =>
      let raw := l.pa + va % l.size
      let key := s.key raw l.sl
      if !paOk s.minimal raw then .error cXlate
      else if paClass key = 8 || (write && !l.w) || (!write && !l.r) then .error cPerm
      else
        match (if paClass key = 1 then s.homeCheck asid key else none) with
        | some e => .error e
        | none => .ok (vp, raw / 65536 * 65536, l.sl)

/-- The pages of a footprint from an address on, n pages in all. -/
def State.pagesGo (s : State) (asid : BitVec 14) (write : Bool) : Nat → Nat → Except TrapRec (List Page)
  | 0, _ => .ok []
  | n + 1, va =>
    match s.copyPage asid write va with
    | .error c => .error (s.addrTrap s.cur.cell asid va c)
    | .ok p =>
      match s.pagesGo asid write n (va / 65536 * 65536 + 65536) with
      | .error t => .error t
      | .ok ps => .ok (p :: ps)

/-- The pages of footprints. -/
def State.pagesOf (s : State) (asid : BitVec 14) (write : Bool) : List (Nat × Nat) → Except TrapRec (List Page)
  | [] => .ok []
  | (a, n) :: r =>
    match s.pagesGo asid write (if n = 0 then 0 else (a + n - 1) / 65536 - a / 65536 + 1) a with
    | .error t => .error t
    | .ok ps =>
      match s.pagesOf asid write r with
      | .error t => .error t
      | .ok qs => .ok (ps ++ qs)

/-- The key of a byte in a page. -/
def State.pageKey (s : State) (p : Page) (va : Nat) : Nat := s.key (p.2.1 + va % 65536) p.2.2

/-- Two ranges share a byte. -/
def meets (a b : Nat × Nat) : Bool := decide (a.1 < b.1 + b.2) && decide (b.1 < a.1 + a.2)

/-- A live object of this device that a write footprint covers: the address of its line (R286). -/
def State.liveIn (s : State) (ps : List Page) (w : Nat × Nat) : Option Nat :=
  if s.barriers.isEmpty then none
  else
    ps.findSome? fun p =>
      (List.range 1024).findSome? fun i =>
        let va := p.1 * 65536 + 64 * i
        let k := s.pageKey p va
        if paClass k < 2 && meets (va, 64) w && (s.barrierAt k).isSome then some va else none

/-! ## What a command is at issue -/

/-- The parts of a command that its own rule fixes. -/
structure Plan where
  head : List Byte := []
  entry : List Byte := []
  units : Nat
  ubits : Nat
  reads : List (Nat × Nat)
  write : Nat × Nat
  /-- addresses with their alignments, in the order of R203 step 3 -/
  aligned : List (Word × Nat) := []
  /-- it may read what it writes (R210) -/
  serial : Bool := false
  /-- units of a row whose bytes are rounded up on their own; 0 for none (R216) -/
  row : Nat := 0
  /-- the write footprint must lie in the cell's own slice (R217) -/
  ownSlice : Bool := false
deriving DecidableEq, Repr

/-- Bytes of some units of b bits in channel order, each row of r units rounded up on its own where r is not 0. -/
def unitBytes (r b n : Nat) : Nat := if r = 0 then ceilDiv (n * b) 8 else n / r * ceilDiv (r * b) 8 + n % r * b / 8

/-- B of R204. -/
def Plan.total (p : Plan) : Nat := unitBytes p.row p.ubits p.units

/-- The keys of a header or an entry that a command reads at issue: its own address is checked (R203 step 2). -/
def State.readKeys (s : State) (va : Word) (n align : Nat) : Except TrapRec (List Nat) :=
  if va.toNat % align ≠ 0 then .error { cause := cAlign, addr := va } else s.span .copyLoad va n

/-- The bytes of a header or an entry read at issue. -/
def State.readAtIssue (s : State) (va : Word) (n align : Nat) : Except TrapRec (List Byte) :=
  match s.readKeys va n align with
  | .error t => .error t
  | .ok ks =>
    match s.eccTrap va ks with
    | some t => .error t
    | none => .ok (s.readFor s.cur.cell .l 8 ks)

/-- A header read at issue; a command that decodes or encodes through its codebook checks that too (R80). -/
def State.readHead (s : State) (va : Word) (d : DNum) (through : Bool) : Except TrapRec (List Byte × Head) :=
  match s.readAtIssue va 64 64 with
  | .error t => .error t
  | .ok bs =>
    match headOf bs with
    | .error c => .error (metaTrap c d 0)
    | .ok h => if through && !h.tableOk then .error (metaTrap 0x29 d 0) else .ok (bs, h)

/-- The address of the entry of tile t in a directory (R195). -/
def entryVa (sa : Word) (t : Nat) : Word := sa + BitVec.ofNat 64 (64 + 16 * t)

/-- The reads at issue of a command, each with its length and alignment: its header, and the entry of a tile stream
(R203 step 2). -/
def issueReads (i : Instr) (tile : Bool) (sa sb sx : Word) : List (Word × Nat × Nat) :=
  match i with
  | .copy .. => if tile then [(sa, 64, 64), (entryVa sa sx.toNat, 16, 1)] else []
  | .copyEnc .. => [(sb, 64, 64)]
  | .copyDec .. | .copyExport .. => [(sa, 64, 64)]
  | _ => []

/-- Every descriptor of a command is valid, its pair allowed, and its kind one that the command takes (R201, R222). -/
def checkKinds (x : Cell) (l : List (DNum × Nat)) : Option TrapRec :=
  match l.find? (fun p => !descOk (x.getD p.1).toNat) with
  | some p => some (metaTrap 0x20 p.1 0)
  | none =>
    match l.find? (fun p => let d := Desc.of (x.getD p.1).toNat; d.kind != p.2) with
    | some p => some (metaTrap 0x21 p.1 0)
    | none =>
      (l.find? fun p => let d := Desc.of (x.getD p.1).toNat; d.kind != 0 && !pairOk d.gfmt d.fmt).map
        fun p => metaTrap 0x23 p.1 0

/-- The conversion of a command is one that R209 has: the trap where it is not. That ENC_ILLEGAL detail 5 (R90) comes before
META 0x23 here, and after the checks of step 2 that precede this one, is the model's order (assumption log 149). -/
def checkConv (sf df : Fmt) (cb : Bool) (scl : Scl) (d : DNum) : Option TrapRec :=
  if scl != .none && !sf.floating && sf != .cb4 then some { cause := cEnc, detail := 5 }
  else if df = sf && scl == .none then none
  else if df == .cb4 || (sf == .cb4 && (!cb || !df.floating)) then some (metaTrap 0x23 d 0)
  else none

/-- The tile range of s[sx]: first and count; `none` beyond the tensor (R201). -/
def tileRange (sx : Word) (n : Nat) : Option (Nat × Nat) :=
  let first := sx.toNat % 2 ^ 32
  let cnt := sx.toNat / 2 ^ 32
  if first ≥ n || first + cnt > n then none else some (first, if cnt = 0 then n - first else cnt)

/-- An array has a header's rank and sizes (R211, R213). -/
def sameShape (d : Desc) (h : Head) : Bool := d.rank == h.rank && (List.range 5).all fun i => d.sz i == h.size.getD i 0

/-- COPY between strided arrays (R208, R209). -/
def planCopy (o : CopyOps) (ds dd : Desc) (sa sb sx : Word) : Except TrapRec Plan :=
  if ds.rank ≠ dd.rank || !((List.range 3).all fun i => ds.sz (i + 2) == dd.sz (i + 2)) ||
     (ds.rank == 1 && (o.tr || o.lo1 != 0#8)) then .error (metaTrap 0x22 o.ds 0)
  else
    match checkConv ds.fmt dd.fmt false o.scl o.ds with
    | some t => .error t
    | none =>
      let rows := (List.range 4).foldl (fun p i => p * max (ds.sz (i + 1)) 1) 1
      let table : List (Nat × Nat) := if o.scl == .block then [(sx.toNat, 4 * rows * ceilDiv (ds.sz 0) 32)] else []
      .ok { units := dd.count, ubits := fmtBits dd.fmt, reads := ds.box sa :: table, write := dd.box sb
            aligned := if o.scl == .block then [(sx, 4)] else [], serial := !o.tr }

/-- COPY of one tile into a tile stream (R208): the header and the entry are read at issue. A nonzero ctl is META 0x22 here,
of the two causes that the rule allows (assumption log 125). -/
def planTile (s : State) (o : CopyOps) (dd : Desc) (sa sb sx : Word) : Except TrapRec Plan :=
  match s.readHead sa o.ds false with
  | .error t => .error t
  | .ok (hb, h) =>
    let t := sx.toNat
    if t ≥ h.ntiles then .error (metaTrap 0x25 o.ds t)
    else
      match s.readAtIssue (entryVa sa t) 16 1 with
      | .error e => .error e
      | .ok eb =>
        match entryOf h eb with
        | none => .error (metaTrap 0x27 o.ds t)
        | some e =>
          if dd.fmt ≠ h.fmt || dd.gfmt ≠ h.gfmt then .error (metaTrap 0x23 o.dd t)
          else if dd.sz 1 ≠ h.rho t || dd.sz 0 ≠ h.kappa t || !o.plain false false false false false false || o.padskip then
            .error (metaTrap 0x22 o.dd t)
          else
            let body : List (Nat × Nat) := if e.empty then [] else [((sa + BitVec.ofNat 64 (h.bodyOff t e)).toNat, e.len)]
            let n := if e.empty then (zeroBody h.gfmt h.fmt (h.rho t) (h.kappa t)).length else e.len
            .ok { head := hb, entry := eb, units := n, ubits := 8
                  reads := [(sa.toNat, 64), ((entryVa sa t).toNat, 16)] ++ body
                  write := (sb.toNat, n), aligned := [(sb, 16)] }

/-- COPY.ENC (R211, R212). -/
def planEnc (s : State) (o : CopyOps) (ds : Desc) (sa sb sx : Word) : Except TrapRec Plan :=
  match s.readHead sb o.dd true with
  | .error t => .error t
  | .ok (hb, h) =>
    if !sameShape ds h then .error (metaTrap 0x22 o.ds 0)
    else if h.exported then .error (metaTrap 0x26 o.dd 0)
    else if h.gfmt == 3 && o.scl != .none then .error (metaTrap 0x23 o.dd 0)
    else
      match (if h.gfmt == 3 then (if ds.fmt == .cb4 then some (metaTrap 0x23 o.ds 0) else none)
             else checkConv ds.fmt h.fmt false o.scl o.ds) with
      | some t => .error t
      | none =>
        match tileRange sx h.ntiles with
        | none => .error (metaTrap 0x25 o.dd (sx.toNat % 2 ^ 32))
        | some (f, n) =>
          let lo := 64 + 16 * f
          let hi := h.dataOff + (f + n) * h.tcap
          .ok { head := hb, units := n * (h.tcap + 16), ubits := 8, reads := [ds.box sa]
                write := (sb.toNat + lo, hi - lo) }

/-- Blocks of tile rows that a tile range covers: number of the block, rows, first column and width (R213). -/
def decBlocks (h : Head) (f n : Nat) : List (Nat × Nat × Nat × Nat) :=
  (List.range ((f + n - 1) / h.tc - f / h.tc + 1)).map fun i =>
    let b := f / h.tc + i
    let lo := max f (b * h.tc) - b * h.tc
    let hi := min (f + n) ((b + 1) * h.tc) - b * h.tc
    (b, h.rho (b * h.tc), 128 * lo, min (128 * hi) (h.sz 0) - 128 * lo)

/-- Positions of some blocks. -/
def blockCount (bs : List (Nat × Nat × Nat × Nat)) : Nat := bs.foldl (fun a b => a + b.2.1 * b.2.2.2) 0

/-- Tile, row and column within it of position u of some blocks. -/
def blockAt (h : Head) : List (Nat × Nat × Nat × Nat) → Nat → Nat × Nat × Nat
  | [], _ => (0, 0, 0)
  | (b, rows, lo, w) :: r, u =>
    if u < rows * w then
      let col := lo + u % w
      (b * h.tc + col / 128, u / w, col % 128)
    else blockAt h r (u - rows * w)

/-- The range of destination bytes of some blocks (R219). -/
def blockBox (h : Head) (d : Desc) (base : Word) (bs : List (Nat × Nat × Nat × Nat)) : Nat × Nat :=
  let corner (b : Nat × Nat × Nat × Nat) (r : Nat) (k : Nat) : Nat :=
    (d.place base (h.index (b.1 * h.tc + (b.2.2.1 + k) / 128) r ((b.2.2.1 + k) % 128))).va.toNat
  let starts := bs.flatMap fun b => [corner b 0 0, corner b (b.2.1 - 1) 0]
  let ends := bs.flatMap fun b => [corner b 0 (b.2.2.2 - 1), corner b (b.2.1 - 1) (b.2.2.2 - 1)]
  let lo := starts.foldl min (starts.headD 0)
  (lo, ends.foldl max lo + elemBytes d.fmt - lo)

/-- COPY.DEC (R213). -/
def planDec (s : State) (o : CopyOps) (dd : Desc) (sa sb sx : Word) : Except TrapRec Plan :=
  match s.readHead sa o.ds true with
  | .error t => .error t
  | .ok (hb, h) =>
    if !sameShape dd h then .error (metaTrap 0x22 o.dd 0)
    else
      match (if h.gfmt == 3 then
               (if dd.fmt == .cb4 then some (metaTrap 0x23 o.dd 0)
                else if o.scl != .none && !h.fmt.floating then some { cause := cEnc, detail := 5 } else none)
             else checkConv h.fmt dd.fmt true o.scl o.ds) with
      | some t => .error t
      | none =>
        match tileRange sx h.ntiles with
        | none => .error (metaTrap 0x25 o.ds (sx.toNat % 2 ^ 32))
        | some (f, n) =>
          let bs := decBlocks h f n
          let lo := 64 + 16 * f
          let reads := if h.exported then [(sa.toNat, h.dataOff + h.ntiles * h.tcap)]
            else [(sa.toNat, 64), (sa.toNat + lo, h.dataOff + (f + n) * h.tcap - lo)]
          .ok { head := hb, units := blockCount bs, ubits := fmtBits dd.fmt, reads, write := blockBox h dd sb bs }

/-- COPY.EXPORT (R214). -/
def planExport (s : State) (o : CopyOps) (sa sb : Word) : Except TrapRec Plan :=
  match s.readHead sa o.ds false with
  | .error t => .error t
  | .ok (hb, h) =>
    let n := 64 + roundUp (16 * h.ntiles) 64 + h.ntiles * h.tcap
    .ok { head := hb, units := n, ubits := 8, reads := [(sa.toNat, h.dataOff + h.ntiles * h.tcap)]
          write := (sb.toNat, n), aligned := [(sb, 64)] }

/-- GATHER and SCATTER (R215, R216). -/
def planIndexed (gather : Bool) (o : CopyOps) (ds dd : Desc) (sa sb sx : Word) : Except TrapRec Plan :=
  if ds.rank ≠ 2 || dd.rank ≠ 2 || ds.sz 0 ≠ dd.sz 0 then .error (metaTrap 0x22 o.ds 0)
  else
    match checkConv ds.fmt dd.fmt false o.scl o.ds with
    | some t => .error t
    | none =>
      let rows := if gather then dd.sz 1 else ds.sz 1
      .ok { units := rows * ds.sz 0, ubits := fmtBits dd.fmt, reads := [ds.box sa, (sx.toNat, 4 * rows)]
            write := dd.box sb, aligned := [(sx, 4)], row := if gather then 0 else ds.sz 0 }

/-- The cells of an exchange group in cell order (R217). -/
def groupCells (half : Bool) (c : Nat) : List Nat :=
  if half then (List.range 40).map (40 * (c / 40) + ·) else (List.range 4).map (4 * (c / 4) + ·)

/-- XCHG.ALL before its group has gathered (R217, R218); that dd lies in the own slice is checked with its pages. -/
def planXchg (s : State) (o : CopyOps) (ds dd : Desc) (sa sb : Word) : Except TrapRec Plan :=
  let half := o.grp == .half
  let n := if half then 40 else 4
  if ds.rank ≠ dd.rank || !((List.range 5).all fun i => ds.sz i == dd.sz i) || ds.sz (ds.rank - 1) ≠ n then
    .error (metaTrap 0x22 o.ds 0)
  else if ds.fmt ≠ dd.fmt then .error (metaTrap 0x23 o.ds 0)
  else if (groupCells half s.cur.cell).any fun c => s.here.owner.isNone || (s.cell c).owner ≠ s.here.owner then
    .error { cause := cPerm }
  else .ok { units := dd.count, ubits := fmtBits dd.fmt, reads := [ds.box sa], write := dd.box sb, ownSlice := true }

/-! ## Issue (R203) -/

/-- Steps 3 to 5 of R203 for a command that its own rule accepts: the accepted command, not yet placed. -/
def State.acceptCopy (s : State) (i : Instr) (o : CopyOps) (p : Plan) : Except TrapRec Copy :=
  let x := s.here
  let asid := x.asid
  let bar := s.getS o.sc
  let aligned := p.aligned ++ (if o.sc = 0#6 then [] else [(bar, 64)])
  match aligned.find? fun a => a.1.toNat % a.2 != 0 with
  | some a => .error { cause := cAlign, addr := a.1 }
  | none =>
    match s.pagesOf asid false p.reads with
    | .error t => .error t
    | .ok rp =>
      match s.pagesOf asid true [p.write] with
      | .error t => .error t
      | .ok wp =>
        match (if p.ownSlice then wp.find? fun g => s.pageKey g 0 / 0x800000 != slicePa s.cur.cell 0 / 0x800000 else none) with
        | some g => .error { cause := cPerm, addr := BitVec.ofNat 64 (max p.write.1 (g.1 * 65536)) }
        | none =>
        match (if o.sc = 0#6 then Except.ok none else (s.barrierKey bar).map some) with
        | .error t => .error t
        | .ok key =>
          match s.liveIn wp p.write with
          | some a => .error { cause := cBar, detail := 1, addr := BitVec.ofNat 64 a }
          | none =>
            if p.reads.any (meets p.write) && !p.serial then .error { cause := cOverlap }
            else
              .ok { inst := i, ord := tabGet 0 x.chOrd o.ch.toNat, pc := s.me.pc
                    start := tabGet 0 x.issued o.ch.toNat, row := p.row, ds := x.getD o.ds, dd := x.getD o.dd
                    sa := s.getS o.sa, sb := s.getS o.sb, sx := s.getS o.sx, bar := key, seed := x.seed, asid
                    barVa := if o.sc = 0#6 then 0#64 else bar
                    ahead := if x.copies.any (fun a => meets a.write p.write || p.reads.any (meets a.write) || a.reads.any (meets p.write)) then []
                      else s.me.ahead
                    head := p.head, entry := p.entry, total := p.total, units := p.units, ubits := p.ubits
                    reads := p.reads, write := p.write, pages := wp ++ rp }

/-- A cell takes an accepted command into its channel (R187, R189). -/
def Cell.takeCopy (x : Cell) (ch : Nat) (k : Copy) : Cell :=
  ({ x with
    copies := x.copies ++ [k]
    issued := tabSet 0 x.issued ch (k.start + k.total)
    chOrd := tabSet 0 x.chOrd ch (k.ord + 1) }).count 0x50 1

/-- The fields of a copy command. -/
def copyOps : Instr → Option (Hdr × CopyOps)
  | .copy h o | .copyEnc h o | .copyDec h o | .copyExport h o | .gather h o | .scatter h o | .xchgAll h o => some (h, o)
  | _ => none

/-- The plan of a command under its own rule, once the addresses that it reads at issue and its descriptors are checked
(R201, R203 step 2). -/
def State.planOf (s : State) (i : Instr) : Except TrapRec Plan :=
  match copyOps i with
  | none => .error { cause := cEnc }
  | some (_, o) =>
    let x := s.here
    let ds := Desc.of (x.getD o.ds).toNat
    let dd := Desc.of (x.getD o.dd).toNat
    let sa := s.getS o.sa
    let sb := s.getS o.sb
    let sx := s.getS o.sx
    let go (kinds : List (DNum × Nat)) (p : Except TrapRec Plan) : Except TrapRec Plan :=
      match (issueReads i (ds.kind == 1) sa sb sx).findSome? fun r =>
          match s.readKeys r.1 r.2.1 r.2.2 with | .error t => some t | .ok _ => none with
      | some t => .error t
      | none =>
        match checkKinds x kinds with
        | some t => .error t
        | none => p
    match i with
    | .copy .. =>
      if ds.kind = 1 then go [(o.ds, 1), (o.dd, 2)] (planTile s o dd sa sb sx)
      else go [(o.ds, 0), (o.dd, 0)] (planCopy o ds dd sa sb sx)
    | .copyEnc .. => go [(o.ds, 0), (o.dd, 1)] (planEnc s o ds sa sb sx)
    | .copyDec .. => go [(o.ds, 1), (o.dd, 0)] (planDec s o dd sa sb sx)
    | .copyExport .. => go [(o.ds, 1)] (planExport s o sa sb)
    | .gather .. => go [(o.ds, 0), (o.dd, 0)] (planIndexed true o ds dd sa sb sx)
    | .scatter .. => go [(o.ds, 0), (o.dd, 0)] (planIndexed false o ds dd sa sb sx)
    | _ => go [(o.ds, 0), (o.dd, 0)] (planXchg s o ds dd sa sb)

/-- The checks of R203 for the executing engine's command, in their order. -/
def State.prepare (s : State) (i : Instr) : Except TrapRec Copy :=
  match copyOps i, s.planOf i with
  | some (_, o), .ok p => s.acceptCopy i o p
  | _, .error t => .error t
  | none, _ => .error { cause := cEnc }

/-! ## Landing -/

/-- The channel of a command. -/
def Copy.ch (k : Copy) : Nat := ((copyOps k.inst).map fun p => p.2.ch.toNat).getD 0

/-- Bytes of the prefix of landed units (R188). -/
def Copy.landed (k : Copy) : Nat :=
  if k.lead = k.units then k.total else if k.row = 0 then k.lead * k.ubits / 8 else unitBytes k.row k.ubits k.lead

/-- Write pointer of a channel: the prefix of its channel order (R188). -/
def Cell.writePointer (x : Cell) (ch : Nat) : Word :=
  match x.copies.find? fun k => k.ch == ch with
  | some k => BitVec.ofNat 64 (min (k.start + k.landed) (2 ^ 64 - 1))
  | none => BitVec.ofNat 64 (min (tabGet 0 x.issued ch) (2 ^ 64 - 1))

/-- The 32 bytes of a watch event in supervisor memory: channel, ordinal, address (assumption log 129). -/
def WatchEvent.bytes (e : WatchEvent) : List Byte :=
  leBytes 8 e.channel.toNat ++ leBytes 8 e.ord ++ leBytes 8 e.addr.toNat ++ leBytes 8 1

/-- Post a watch event to the supervisor core of a cell, whose memory keeps the 16 newest, oldest first (R378). -/
def State.postWatch (s : State) (c : Nat) (e : WatchEvent) : State :=
  let es := ((s.cell c).watchEvents ++ [e]).drop ((s.cell c).watchEvents.length + 1 - 16)
  (s.modCell c fun x => { x with watchEvents := es }).storeRun (supPa c 0x140) (es.flatMap WatchEvent.bytes)

/-- The barrier object of a command, translated again once TLB.INV has dropped what it was accepted with (R373). -/
def State.copyBar (s : State) (c : Nat) (k : Copy) : Option Nat :=
  if k.bar.isSome || k.barVa = 0#64 then k.bar
  else
    match (s.asEngine c .l).barrierKey k.barVa with
    | .ok key => some key
    | .error _ => none

/-- Bytes newly in a command's prefix are counted: off its barrier (R205), into the counters, and the write pointer
moves (R188). The command leaves when every unit has landed, with its watch event (R204, R378). -/
def State.countCopy (s : State) (c i : Nat) : State :=
  match (s.cell c).copies[i]? with
  | none => s
  | some k =>
    let n := k.landed - k.landedBytes
    let done := decide (k.lead = k.units)
    let s := s.modCell c fun x =>
      let x := { x with copies := if done then dropAt x.copies i else setAt x.copies i { k with landedBytes := k.landed } }
      { (if n = 0 then x else x.healReg (7000 + k.ch)) with wp := tabSet 0#64 x.wp k.ch (x.writePointer k.ch) }
    let s := match done, k.watched with
      | true, some (_, a) => s.postWatch c { channel := BitVec.ofNat 8 k.ch, ord := k.ord, addr := a }
      | _, _ => s
    let s := s.count c 0x51 n
    match s.copyBar c k with
    | some pa => if n = 0 then s else s.countOff (s.agentOf c .l) pa n
    | none => s

/-- A page of a command: as translated at issue, or now where the footprint did not cover it. -/
def State.pageFor (s : State) (asid : BitVec 14) (ps : List Page) (write : Bool) (va : Nat) : Except (BitVec 8) Page :=
  match ps.find? fun p => p.1 == va / 65536 with
  | some p => .ok p
  | none => s.copyPage asid write va

/-- The key of a byte that a command reads or writes, checked at its home; a refusal is deferred (R206). -/
def State.copyKey (s : State) (asid : BitVec 14) (ps : List Page) (write : Bool) (va : Nat) : Except TrapRec Nat :=
  match s.pageFor asid ps write va with
  | .error e => .error { cause := e }
  | .ok p =>
    let k := s.pageKey p va
    match s.homeCheck asid k with
    | some e => .error { cause := e }
    | none => .ok k

/-- The keys of bytes that a command reads, each checked (R206). -/
def State.copyKeys (s : State) (k : Copy) (ps : List Page) (va : Nat) (n : Nat) : Except TrapRec (List Nat) :=
  (List.range n).foldr (fun i acc =>
    match s.copyKey k.asid ps false ((va + i) % 2 ^ 64) with
    | .error t => .error t
    | .ok k =>
      if s.bad k then .error { cause := cEcc, phys := some k }
      else
        match acc with
        | .error t => .error t
        | .ok ks => .ok (k :: ks)) (.ok [])

/-- Bytes that a command reads, each aligned element as memory holds it or as L had read it ahead when the command was
accepted (R300, R301, R305). -/
def State.copyRead (s : State) (k : Copy) (ps : List Page) (va : Nat) (n : Nat) : Except TrapRec (List Byte) :=
  (s.copyKeys k ps va n).map (s.readVia k.ahead 8)

/-- What one unit writes: bytes under masks at virtual addresses, with flags and saturations; and what the command
keeps from its first landing. -/
structure Landing where
  writes : List (Nat × Byte × Byte) := []
  fl : Flags := 0#5
  sat : Nat := 0
  cache : Option (List (Nat × List Nat)) := none
deriving DecidableEq, Repr

/-- The masked bytes of one element at its place. -/
def placeWrites (f : Fmt) (p : Place) (v : Nat) : List (Nat × Byte × Byte) :=
  elemPuts f p.hi ((List.range (elemBytes f)).map fun i => (p.va.toNat + i) % 2 ^ 64) v

/-- Read one element of a strided array. -/
def State.readElem (s : State) (k : Copy) (ps : List Page) (f : Fmt) (p : Place) : Except TrapRec Nat :=
  (s.copyRead k ps p.va.toNat (elemBytes f)).map (elemOf f p.hi)

/-- The declared scale of a command (R209). -/
def scaleOf (o : CopyOps) : FVal := if o.scl == .tile then value32 o.imm else .fin false 1 1

/-- One converted element from a source place to a destination place (R209, R84). -/
def State.landElem (s : State) (c : Nat) (k : Copy) (o : CopyOps) (scale : FVal) (src dst : Place) : Except TrapRec Landing :=
  let sf := (Desc.of k.ds.toNat).fmt
  let df := (Desc.of k.dd.toNat).fmt
  match s.readElem k k.pages sf src with
  | .error t => .error t
  | .ok b =>
    let m : Rm := { mode := o.rnd, seed := k.seed, c := coordMem c dst.va.toNat dst.hi }
    let r := convertElem sf df (o.scl != .none) b (value sf [] b) scale m
    .ok { writes := placeWrites df dst r.val, fl := r.fl, sat := r.sat }

/-- A fill position: zero bits, or nothing under padskip (R208, R215). -/
def fillAt (o : CopyOps) (f : Fmt) (p : Place) : Landing := { writes := if o.padskip then [] else placeWrites f p 0 }

/-- A unit of COPY between strided arrays (R208). -/
def State.unitCopy (s : State) (c : Nat) (k : Copy) (o : CopyOps) (u : Nat) : Except TrapRec Landing :=
  let ds := Desc.of k.ds.toNat
  let dd := Desc.of k.dd.toNat
  let j := dd.index u
  let dst := dd.place k.sb j
  let u0 : Int := (j.getD 0 0 : Int) - o.lo0.toNat
  let u1 : Int := (j.getD 1 0 : Int) - o.lo1.toNat
  let i0 := if o.tr then u1 else u0
  let i1 := if o.tr then u0 else u1
  if 0 ≤ i0 && i0 < ds.sz 0 && 0 ≤ i1 && i1 < max (ds.sz 1) 1 then
    let i := [i0.toNat, i1.toNat] ++ j.drop 2
    if o.scl == .block then
      let m := i1.toNat + max (ds.sz 1) 1 * (i.getD 2 0 + max (ds.sz 2) 1 * (i.getD 3 0 + max (ds.sz 3) 1 * i.getD 4 0))
      match s.copyRead k k.pages ((k.sx.toNat + 4 * (m * ceilDiv (ds.sz 0) 32 + i0.toNat / 32)) % 2 ^ 64) 4 with
      | .error t => .error t
      | .ok bs => s.landElem c k o (value32 (BitVec.ofNat 32 (leNat bs))) (ds.place k.sa i) dst
    else s.landElem c k o (scaleOf o) (ds.place k.sa i) dst
  else .ok (fillAt o dd.fmt dst)

/-- A byte that a command writes at an address. -/
def oneByte (va : Nat) (b : Byte) : Landing := { writes := [(va % 2 ^ 64, 0xFF#8, b)] }

/-- A unit of a tile stream: one byte of the body, or of the zero body (R208). -/
def State.unitTile (s : State) (k : Copy) (u : Nat) : Except TrapRec Landing :=
  match headOf k.head with
  | .error _ => .ok {}
  | .ok h =>
    match entryOf h k.entry with
    | none => .ok {}
    | some e =>
      let t := k.sx.toNat
      if e.empty then .ok (oneByte (k.sb.toNat + u) ((zeroBody h.gfmt h.fmt (h.rho t) (h.kappa t)).getD u 0#8))
      else (s.copyRead k k.pages ((k.sa.toNat + h.bodyOff t e + u) % 2 ^ 64) 1).map
        fun bs => oneByte (k.sb.toNat + u) (bs.headD 0#8)

/-- A deferred metadata fault of a tile (R206, R222, R253). -/
def State.tileFault (s : State) (k : Copy) (cause source t row pos va : Nat) : TrapRec :=
  let at8 := va / 8 * 8
  let seen := match s.copyRead k k.pages at8 8 with | .ok bs => bs | .error _ => []
  { cause := cMeta, info := metaInfo cause 0 source 1 t row pos va seen }

/-- Descriptor field numbers of a command, for its fault records. -/
def sourceOf (d : DNum) : Nat := 128 + d.toNat

/-- Source elements of one row of a tile, with exact values (R211). -/
def State.encRow (s : State) (k : Copy) (h : Head) (t r : Nat) : Except TrapRec (List Nat) :=
  let ds := Desc.of k.ds.toNat
  (List.range (h.kappa t)).foldr (fun j acc =>
    match s.readElem k k.pages ds.fmt (ds.place k.sa (h.index t r j)) with
    | .error e => .error e
    | .ok b =>
      match acc with
      | .error e => .error e
      | .ok bs => .ok (b :: bs)) (.ok [])

/-- A row, group or block under encoding: elements so far, flags and saturations. -/
structure Enc where
  vals : List Nat := []
  fl : Flags := 0#5
  sat : Nat := 0
deriving DecidableEq, Repr

/-- Convert elements one after another; `addr` gives the place of the element from the count and the nonzero count
before it (R84). -/
def encVals (h : Head) (conv : Nat → Rm → Res Nat) (rm : Nat → Nat → Rm) : Nat → Nat → List Nat → Enc
  | _, _, [] => {}
  | n, nz, b :: bs =>
    let r := conv b (rm n nz)
    let t := encVals h conv rm (n + 1) (if elemNonzero h.fmt h.cb r.val then nz + 1 else nz) bs
    { vals := r.val :: t.vals, fl := r.fl ||| t.fl, sat := r.sat + t.sat }

/-- The coordinate of an element of the header's format that starts n elements after a byte (R84). -/
def encRm (c : Nat) (k : Copy) (o : CopyOps) (f : Fmt) (base n : Nat) : Rm :=
  let p := placeAt f (BitVec.ofNat 64 base) n
  { mode := o.rnd, seed := k.seed, c := coordMem c p.va.toNat p.hi }

/-- Encode one row that starts at an address: its bytes, its nonzero count, flags and saturations (R211, R212). -/
def encodeRow (c : Nat) (k : Copy) (o : CopyOps) (h : Head) (base : Nat) (src : List Nat) : List Byte × Nat × Flags × Nat :=
  let sf := (Desc.of k.ds.toNat).fmt
  let conv (scale : FVal) (b : Nat) (m : Rm) : Res Nat := convertElem sf h.fmt (o.scl != .none) b (value sf [] b) scale m
  let count (vs : List Nat) : Nat := (vs.filter (elemNonzero h.fmt h.cb)).length
  match h.gfmt with
  | 1 =>
    (chunksOf 64 src).foldl (fun acc grp =>
      let at' := base + acc.1.length
      let e := encVals h (conv (scaleOf o)) (fun _ nz => encRm c k o h.fmt (at' + 8) nz) 0 0 grp
      (acc.1 ++ rowBytes 1 h.fmt h.cb e.vals, acc.2.1 + count e.vals, acc.2.2.1 ||| e.fl, acc.2.2.2 + e.sat))
      ([], 0, 0#5, 0)
  | 2 =>
    let e := encVals h (conv (scaleOf o)) (fun _ nz =>
      { mode := o.rnd, seed := k.seed, c := coordMem c ((base + 2 + nz * (2 + coBytes h.fmt) + 2) % 2 ^ 64) false }) 0 0 src
    (rowBytes 2 h.fmt h.cb e.vals, count e.vals, e.fl, e.sat)
  | 3 =>
    let r := (chunksOf 32 src).foldl (fun (acc : List Byte × Nat × Flags × Nat) blk =>
      let xs := blk.map (value sf [])
      let sc := blockScale h.fmt xs
      let narrowed (b : Nat) (m : Rm) : Res Nat := narrow (value sf [] b) (value32 sc.val) h.fmt [] m
      let e := encVals h narrowed (fun n _ => encRm c k o h.fmt (base + acc.1.length + 4) n) 0 0 blk
      let bytes := leBytes 4 sc.val.toNat ++ fitBytes (32 * fmtBits h.fmt / 8) (packBits (fmtBits h.fmt) e.vals)
      (acc.1 ++ bytes, acc.2.1 + count e.vals, acc.2.2.1 ||| sc.fl ||| e.fl, acc.2.2.2 + e.sat)) ([], 0, 0#5, 0)
    (pad16 r.1, r.2)
  | _ =>
    let e := encVals h (conv (scaleOf o)) (fun n _ => encRm c k o h.fmt base n) 0 0 src
    (rowBytes 0 h.fmt h.cb e.vals, count e.vals, e.fl, e.sat)

/-- Encode a tile: the bytes that its tcap + 16 places take, with 256 for a placeholder, flags and saturations. -/
def State.encTile (s : State) (c : Nat) (k : Copy) (o : CopyOps) (h : Head) (t : Nat) :
    Except TrapRec (List Nat × Flags × Nat) :=
  let place := k.sb.toNat + h.dataOff + t * h.tcap
  let table := tableBytes h.gfmt (h.rho t)
  let rows : Except TrapRec (List (List Byte) × Nat × Flags × Nat) :=
    (List.range (h.rho t)).foldl (fun acc r =>
      match acc with
      | .error e => .error e
      | .ok (bs, n, fl, sat) =>
        match s.encRow k h t r with
        | .error e => .error e
        | .ok src =>
          let x := encodeRow c k o h (place + table + (bs.map List.length).foldl (· + ·) 0) src
          .ok (bs ++ [x.1], n + x.2.1, fl ||| x.2.2.1, sat + x.2.2.2)) (.ok ([], 0, 0#5, 0))
  match rows with
  | .error e => .error e
  | .ok (bs, n, fl, sat) =>
    let none' := (h.gfmt == 1 || h.gfmt == 2) && n == 0
    let body := if none' then [] else bodyOf h.gfmt bs
    let entry : Entry := if none' then { off := 0, len := 0, nnz := 0, format := 7, valid := true }
      else { off := h.dataOff + t * h.tcap, len := body.length, nnz := n, format := h.gfmt, valid := true }
    .ok (body.map BitVec.toNat ++ List.replicate (h.tcap - body.length) 256 ++ entry.bytes.map BitVec.toNat, fl, sat)

/-- A unit of COPY.ENC: one byte of a tile's place or entry; the tile is encoded at its first (R211). -/
def State.unitEnc (s : State) (c : Nat) (k : Copy) (o : CopyOps) (u : Nat) : Except TrapRec Landing :=
  match headOf k.head with
  | .error _ => .ok {}
  | .ok h =>
    match tileRange k.sx h.ntiles with
    | none => .ok {}
    | some (f, _) =>
      let t := f + u / (h.tcap + 16)
      let b := u % (h.tcap + 16)
      let va := k.sb.toNat + (if b < h.tcap then h.dataOff + t * h.tcap + b else 64 + 16 * t + (b - h.tcap))
      let byteOf (img : List Nat) : List (Nat × Byte × Byte) :=
        match img[b]? with
        | some v => if v < 256 then [(va % 2 ^ 64, 0xFF#8, BitVec.ofNat 8 v)] else []
        | none => []
      match tabGet [] k.cache t with
      | [] =>
        match s.encTile c k o h t with
        | .error e => .error e
        | .ok (img, fl, sat) => .ok { writes := byteOf img, fl, sat, cache := some (tabSet [] k.cache t img) }
      | img => .ok { writes := byteOf img }

/-- A unit of COPY.DEC: one position of the named tiles (R213). Under PBF.SC the exact product of element and block scale is
what is converted; that a NaN in it has sign 0, as an arithmetic result, and not its element's sign (R77) is the model's choice
(assumption log 150). -/
def State.unitDec (s : State) (c : Nat) (k : Copy) (o : CopyOps) (u : Nat) : Except TrapRec Landing :=
  match headOf k.head with
  | .error _ => .ok {}
  | .ok h =>
    match tileRange k.sx h.ntiles with
    | none => .ok {}
    | some (f, n) =>
      let (t, r, j) := blockAt h (decBlocks h f n) u
      let dd := Desc.of k.dd.toNat
      let df := dd.fmt
      let dst := dd.place k.sb (h.index t r j)
      let m : Rm := { mode := o.rnd, seed := k.seed, c := coordMem c dst.va.toNat dst.hi }
      let give (r : Res Nat) : Except TrapRec Landing := .ok { writes := placeWrites df dst r.val, fl := r.fl, sat := r.sat }
      let plus0 : Except TrapRec Landing :=
        if df == .cb4 then give (narrowCb (.fin false 0 1) (.fin false 1 1) h.cb)
        else give (convertElem h.fmt df (o.scl != .none || h.gfmt == 3 || h.fmt == .cb4) 0 (.fin false 0 1) (scaleOf o) m)
      let ea := (k.sa.toNat + 64 + 16 * t) % 2 ^ 64
      match s.copyRead k k.pages ea 16 with
      | .error e => .error e
      | .ok eb =>
        match entryOf h eb with
        | none => .error (s.tileFault k 0x27 (sourceOf o.ds) t 0 0 ea)
        | some e =>
          if e.empty then plus0
          else
            let body := k.sa.toNat + h.bodyOff t e
            match bodyAt h.gfmt h.fmt (h.rho t) (h.kappa t) e.len (fun off n => s.copyRead k k.pages ((body + off) % 2 ^ 64) n) r j with
            | .failed e => .error e
            | .broken off => .error (s.tileFault k 0x28 (sourceOf o.ds) t r j ((body + off) % 2 ^ 64))
            | .absent => plus0
            | .bits b => give (convertElem h.fmt df (o.scl != .none) b (value h.fmt h.cb b) (scaleOf o) m)
            | .scaled b sc =>
              let x := exactMul (value h.fmt h.cb b) (value32 sc)
              let r := narrow x.val (scaleOf o) df [] m
              give { r with fl := x.fl ||| r.fl }

/-- Starts of the bodies of an export, from the lengths of its tiles (R214). -/
def exportStarts : Nat → List Nat → List Nat
  | _, [] => []
  | p, 0 :: r => p :: exportStarts p r
  | p, n :: r => p :: exportStarts (p + roundUp n 64) r

/-- A unit of COPY.EXPORT: one byte of the block (R214); the directory is read at the first. -/
def State.unitExport (s : State) (k : Copy) (o : CopyOps) (u : Nat) : Except TrapRec Landing :=
  match headOf k.head with
  | .error _ => .ok {}
  | .ok h =>
    let n := h.ntiles
    let dir : Except TrapRec (List Nat × Bool) :=
      match tabGet [] k.cache 0 with
      | [] => (s.copyRead k k.pages ((k.sa.toNat + 64) % 2 ^ 64) (16 * n)).map fun bs => (bs.map BitVec.toNat, true)
      | d => .ok (d, false)
    match dir with
    | .error e => .error e
    | .ok (d, fresh) =>
      let raw (t : Nat) : List Byte := ((d.drop (16 * t)).take 16).map (BitVec.ofNat 8)
      let entries := (List.range n).map fun t => entryOf h (raw t)
      match findIdx? Option.isNone entries with
      | some t => .error (s.tileFault k 0x27 (sourceOf o.ds) t 0 0 ((k.sa.toNat + 64 + 16 * t) % 2 ^ 64))
      | none =>
        let es := entries.filterMap id
        let starts := exportStarts (64 + roundUp (16 * n) 64) (es.map fun e => if e.empty then 0 else e.len)
        let firstBody := ((es.zip starts).find? fun p => !p.1.empty).map (·.2)
        let cache := if fresh then some (tabSet [] k.cache 0 d) else none
        let out (b : Byte) : Except TrapRec Landing := .ok { oneByte (k.sb.toNat + u) b with cache }
        if u < 64 then
          let head := (leNat k.head + (if h.exported then 0 else 2 ^ 47)) % 2 ^ 512
          let head := head - bitsAt head 224 32 * 2 ^ 224 + (firstBody.getD (64 + roundUp (16 * n) 64)) * 2 ^ 224
          out (BitVec.ofNat 8 (head / 2 ^ (8 * u)))
        else if u < 64 + 16 * n then
          let t := (u - 64) / 16
          match es[t]?, starts[t]? with
          | some e, some p =>
            let e' : Entry := if e.empty then { e with len := 0 } else { e with off := p }
            out (e'.bytes.getD ((u - 64) % 16) 0#8)
          | _, _ => .ok { cache }
        else
          match (List.range n).find? fun t =>
              match es[t]?, starts[t]? with
              | some e, some p => !e.empty && decide (p ≤ u) && decide (u < p + e.len)
              | _, _ => false with
          | none => .ok { cache }
          | some t =>
            match es[t]?, starts[t]? with
            | some e, some p =>
              match s.copyRead k k.pages ((k.sa.toNat + h.bodyOff t e + (u - p)) % 2 ^ 64) 1 with
              | .error x => .error x
              | .ok bs => out (bs.headD 0#8)
            | _, _ => .ok { cache }

/-- A unit of GATHER (R215). -/
def State.unitGather (s : State) (c : Nat) (k : Copy) (o : CopyOps) (u : Nat) : Except TrapRec Landing :=
  let ds := Desc.of k.ds.toNat
  let dd := Desc.of k.dd.toNat
  let row := u / dd.sz 0
  let col := u % dd.sz 0
  match s.copyRead k k.pages ((k.sx.toNat + 4 * row) % 2 ^ 64) 4 with
  | .error t => .error t
  | .ok bs =>
    let i := leNat bs
    let dst := dd.place k.sb [col, row]
    if i < ds.sz 1 then s.landElem c k o (scaleOf o) (ds.place k.sa [col, i]) dst else .ok (fillAt o dd.fmt dst)

/-- Rows of a SCATTER in channel order: ascending destination row, ties in ascending source row, then the dropped
ones; each as source row × 2^32 + destination row + 1, or 0 for a dropped row's destination (R216). -/
def scatterOrder (rows : Nat) (idx : List Nat) : List Nat :=
  let kept := idx.zipIdx.filter fun p => decide (p.1 < rows)
  let insert (p : Nat × Nat) (l : List (Nat × Nat)) : List (Nat × Nat) :=
    l.takeWhile (fun q => decide (q.1 < p.1) || (q.1 == p.1 && decide (q.2 < p.2))) ++
    p :: l.dropWhile (fun q => decide (q.1 < p.1) || (q.1 == p.1 && decide (q.2 < p.2)))
  (kept.foldr insert []).map (fun p => p.2 * 2 ^ 32 + p.1 + 1) ++
  (idx.zipIdx.filter fun p => !decide (p.1 < rows)).map fun p => p.2 * 2 ^ 32

/-- A unit of SCATTER; the index list is read at the first (R216). -/
def State.unitScatter (s : State) (c : Nat) (k : Copy) (o : CopyOps) (u : Nat) : Except TrapRec Landing :=
  let ds := Desc.of k.ds.toNat
  let dd := Desc.of k.dd.toNat
  let order : Except TrapRec (List Nat × Bool) :=
    match tabGet [] k.cache 0 with
    | [] =>
      (s.copyRead k k.pages k.sx.toNat (4 * ds.sz 1)).map fun bs =>
        (scatterOrder (dd.sz 1) ((List.range (ds.sz 1)).map fun i => leNat ((bs.drop (4 * i)).take 4)), true)
    | l => .ok (l, false)
  match order with
  | .error t => .error t
  | .ok (l, fresh) =>
    let cache := if fresh then some (tabSet [] k.cache 0 l) else none
    let e := l.getD (u / ds.sz 0) 0
    let col := u % ds.sz 0
    let dst := e % 2 ^ 32
    if dst = 0 then .ok { cache }
    else
      match s.landElem c k o (scaleOf o) (ds.place k.sa [col, e / 2 ^ 32]) (dd.place k.sb [col, dst - 1]) with
      | .error t => .error t
      | .ok x => .ok { x with cache }

/-- Element u of chunk number `at'` of a sender's buffer, as nibbles of the raw chunk: the nibbles from `lo` on. -/
def State.chunkNibble (s : State) (k : Copy) (x : XchgSource) (n at' i : Nat) : Except TrapRec Nat :=
  let ds := Desc.of x.ds.toNat
  let w := fmtBits ds.fmt / 4
  (s.readElem k x.pages ds.fmt (ds.place x.base (ds.index (at' * (ds.count / n) + i / w)))).map fun b => b / 16 ^ (i % w) % 16

/-- A unit of an exchange: one element of a chunk, raw bits of the sender's chunk at the same place in it, whatever the
element format there (R217). -/
def State.unitXchg (s : State) (c : Nat) (k : Copy) (u : Nat) : Except TrapRec Landing :=
  let dd := Desc.of k.dd.toNat
  let n := k.srcs.length
  let m := k.units / n
  let w := fmtBits dd.fmt / 4
  let pos := (findIdx? (fun x => x.cell == c) k.srcs).getD 0
  match k.srcs[u / m]? with
  | none => .ok {}
  | some x =>
    let nibs := (List.range w).foldr (fun i acc =>
      match s.chunkNibble k x n pos (u % m * w + i) with
      | .error t => .error t
      | .ok b => acc.map fun r => b + 16 * r) (Except.ok 0)
    nibs.map fun b => { writes := placeWrites dd.fmt (dd.place k.sb (dd.index u)) b }

/-- What unit u of a command does. -/
def State.unitOf (s : State) (c : Nat) (k : Copy) (u : Nat) : Except TrapRec Landing :=
  match k.inst with
  | .copy _ o => if (Desc.of k.ds.toNat).kind = 1 then s.unitTile k u else s.unitCopy c k o u
  | .copyEnc _ o => s.unitEnc c k o u
  | .copyDec _ o => s.unitDec c k o u
  | .copyExport _ o => s.unitExport k o u
  | .gather _ o => s.unitGather c k o u
  | .scatter _ o => s.unitScatter c k o u
  | .xchgAll _ _ => s.unitXchg c k u
  | _ => .ok {}

/-- The destination bytes and masks of a unit, where they do not depend on data that must be read. -/
def Copy.unitPlaces (k : Copy) (u : Nat) : List (Nat × Byte × Byte) :=
  let dd := Desc.of k.dd.toNat
  let at' (j : List Nat) : List (Nat × Byte × Byte) := placeWrites dd.fmt (dd.place k.sb j) 0
  match k.inst with
  | .copy _ _ => if (Desc.of k.ds.toNat).kind = 1 then [] else at' (dd.index u)
  | .copyDec _ _ =>
    match headOf k.head with
    | .error _ => []
    | .ok h =>
      match tileRange k.sx h.ntiles with
      | none => []
      | some (f, n) => let p := blockAt h (decBlocks h f n) u; at' (h.index p.1 p.2.1 p.2.2)
  | .gather _ _ => at' [u % dd.sz 0, u / dd.sz 0]
  | .scatter _ _ =>
    let e := (tabGet [] k.cache 0).getD (u / dd.sz 0) 0 % 2 ^ 32
    if e = 0 then [] else at' [u % dd.sz 0, e - 1]
  | .xchgAll _ _ => at' (dd.index u)
  | _ => []

/-- A byte already written by a later unit keeps that unit's bits: the last in channel order remains (R191, R216). A unit
that wrote nothing keeps none. -/
def Copy.older (k : Copy) (u : Nat) (w : Nat × Byte × Byte) : Nat × Byte × Byte :=
  let later := (k.extra.filter fun v => decide (u < v) && !k.blank.contains v).flatMap k.unitPlaces
  (w.1, later.foldl (fun m p => if p.1 = w.1 then m &&& ~~~p.2.1 else m) w.2.1, w.2.2)

/-- Keys of a unit's writes, or the deferred fault of the first (R206, R286). -/
def State.landKeys (s : State) (k : Copy) : List (Nat × Byte × Byte) → Except TrapRec (List Put)
  | [] => .ok []
  | w :: r =>
    match s.copyKey k.asid k.pages true w.1 with
    | .error t => .error t
    | .ok key =>
      if paClass key < 2 && s.meetsBarrier [key] then .error { cause := cBar, detail := 1 }
      else
        match s.landKeys k r with
        | .error t => .error t
        | .ok ps => .ok ((key, w.2.1, w.2.2) :: ps)

/-- Units landed, with the run from the first extended over what has landed beyond it. -/
def Copy.mark (k : Copy) (u : Nat) : Copy :=
  let all := if k.extra.contains u then k.extra else u :: k.extra
  let rec run : Nat → Nat → Nat
    | 0, l => l
    | n + 1, l => if all.contains l then run n (l + 1) else l
  let lead := if u = k.lead then run (all.length) k.lead else k.lead
  { k with lead, extra := all.filter fun v => decide (lead ≤ v) }

/-- The first watched address that a unit's bytes meet (R378). -/
def Cell.watchedWrite (x : Cell) (ws : List (Nat × Byte × Byte)) : Option Nat :=
  if x.watch.isEmpty then none else (ws.find? fun w => (x.watched false true w.1 1).isSome).map (·.1)

/-- The places of elements as byte ranges; a byte of two nibbles counts with the low one. -/
def elemRange (f : Fmt) (p : Place) : List (Nat × Nat) := if p.hi then [] else [(p.va.toNat, elemBytes f)]

/-- The bytes that unit u of a command moves from its sources: its element, and with the first unit that needs it an index, a
scale, a directory entry or a tile (R35; how often a repeated read counts: assumption log 151). -/
def State.unitReads (s : State) (c : Nat) (k : Copy) (u : Nat) : List (Nat × Nat) :=
  let ds := Desc.of k.ds.toNat
  let dd := Desc.of k.dd.toNat
  let body (h : Head) (t : Nat) : List (Nat × Nat) :=
    let ea := (k.sa.toNat + 64 + 16 * t) % 2 ^ 64
    match s.copyRead k k.pages ea 16 with
    | .error _ => []
    | .ok eb =>
      match entryOf h eb with
      | some e => (ea, 16) :: (if e.empty then [] else [((k.sa.toNat + h.bodyOff t e) % 2 ^ 64, e.len)])
      | none => [(ea, 16)]
  match k.inst with
  | .copy _ o =>
    if ds.kind = 1 then
      match headOf k.head with
      | .error _ => []
      | .ok h =>
        match entryOf h k.entry with
        | some e => if e.empty then [] else [((k.sa.toNat + h.bodyOff k.sx.toNat e + u) % 2 ^ 64, 1)]
        | none => []
    else
      let j := dd.index u
      let u0 : Int := (j.getD 0 0 : Int) - o.lo0.toNat
      let u1 : Int := (j.getD 1 0 : Int) - o.lo1.toNat
      let i0 := if o.tr then u1 else u0
      let i1 := if o.tr then u0 else u1
      if 0 ≤ i0 && i0 < ds.sz 0 && 0 ≤ i1 && i1 < max (ds.sz 1) 1 then
        let i := [i0.toNat, i1.toNat] ++ j.drop 2
        let m := i1.toNat + max (ds.sz 1) 1 * (i.getD 2 0 + max (ds.sz 2) 1 * (i.getD 3 0 + max (ds.sz 3) 1 * i.getD 4 0))
        elemRange ds.fmt (ds.place k.sa i) ++
        (if o.scl == .block && i0.toNat % 32 == 0 then [((k.sx.toNat + 4 * (m * ceilDiv (ds.sz 0) 32 + i0.toNat / 32)) % 2 ^ 64, 4)] else [])
      else []
  | .copyEnc .. =>
    match headOf k.head with
    | .error _ => []
    | .ok h =>
      match tileRange k.sx h.ntiles with
      | none => []
      | some (f, _) =>
        let t := f + u / (h.tcap + 16)
        if u % (h.tcap + 16) ≠ 0 then []
        else (List.range (h.rho t)).flatMap fun r => (List.range (h.kappa t)).flatMap fun j =>
          elemRange ds.fmt (ds.place k.sa (h.index t r j))
  | .copyDec .. =>
    match headOf k.head with
    | .error _ => []
    | .ok h =>
      match tileRange k.sx h.ntiles with
      | none => []
      | some (f, n) =>
        let p := blockAt h (decBlocks h f n) u
        if p.2.1 = 0 && p.2.2 = 0 then body h p.1 else []
  | .copyExport .. =>
    match headOf k.head with
    | .error _ => []
    | .ok h =>
      (if u = 0 then [((k.sa.toNat + 64) % 2 ^ 64, 16 * h.ntiles)] else []) ++
      (match s.copyRead k k.pages ((k.sa.toNat + 64) % 2 ^ 64) (16 * h.ntiles) with
       | .error _ => []
       | .ok d =>
         let es := ((List.range h.ntiles).map fun t => entryOf h ((d.drop (16 * t)).take 16)).filterMap id
         let starts := exportStarts (64 + roundUp (16 * h.ntiles) 64) (es.map fun e => if e.empty then 0 else e.len)
         ((es.zip starts).zipIdx.filter fun p => !p.1.1.empty && p.1.2 == u).map fun p =>
           ((k.sa.toNat + h.bodyOff p.2 p.1.1) % 2 ^ 64, p.1.1.len))
  | .gather .. =>
    let row := u / dd.sz 0
    let ix := (k.sx.toNat + 4 * row) % 2 ^ 64
    match s.copyRead k k.pages ix 4 with
    | .error _ => []
    | .ok bs =>
      (if u % dd.sz 0 = 0 then [(ix, 4)] else []) ++
      (if leNat bs < ds.sz 1 then elemRange ds.fmt (ds.place k.sa [u % dd.sz 0, leNat bs]) else [])
  | .scatter .. =>
    let e := (tabGet [] k.cache 0).getD (u / ds.sz 0) 0
    (if u = 0 then [(k.sx.toNat, 4 * ds.sz 1)] else []) ++
    (if e % 2 ^ 32 = 0 then [] else elemRange ds.fmt (ds.place k.sa [u % ds.sz 0, e / 2 ^ 32]))
  | .xchgAll .. =>
    let n := max k.srcs.length 1
    let m := k.units / n
    match k.srcs[u / m]? with
    | none => []
    | some x =>
      let sd := Desc.of x.ds.toNat
      let w := fmtBits dd.fmt / 4
      let v := fmtBits sd.fmt / 4
      let pos := (findIdx? (fun x => x.cell == c) k.srcs).getD 0
      ((List.range w).filter fun i => (u % m * w + i) % v == 0).flatMap fun i =>
        elemRange sd.fmt (sd.place x.base (sd.index (pos * (sd.count / n) + (u % m * w + i) / v)))
  | _ => []

/-- The bytes that a unit reads are counted by the path they take (R35). -/
def State.countReads (s : State) (c : Nat) (k : Copy) (u : Nat) : State :=
  if (s.cell c).pevsel.isEmpty then s
  else
    let ps := k.pages ++ k.srcs.flatMap (·.pages)
    (s.unitReads c k u).foldl (fun s r =>
      match s.copyKeys k ps r.1 r.2 with
      | .ok ks => s.countBytes c [] ks
      | .error _ => s) s

/-- Land one unit of command i of a cell: its bytes, then flags and counts; or the fault that stops it. -/
def State.landUnit (s : State) (c i u : Nat) : Except TrapRec State :=
  match (s.cell c).copies[i]? with
  | none => .ok s
  | some k =>
    if u < k.lead || k.units ≤ u || k.extra.contains u then .ok s
    else
      match s.unitOf c k u with
      | .error t => .error t
      | .ok x =>
        match s.landKeys k x.writes with
        | .error t => .error t
        | .ok ps =>
          let k := { k with cache := x.cache.getD k.cache }
          let puts := (ps.zip x.writes).map fun p => (p.1.1, (k.older u p.2).2.1, p.1.2.2)
          let seen := (s.cell c).watchedWrite x.writes
          let watched :=
            match seen, k.watched with
            | some a, none => some (u, BitVec.ofNat 64 a)
            | some a, some (v, b) => if u < v then some (u, BitVec.ofNat 64 a) else some (v, b)
            | none, w => w
          let s := ((s.countReads c k u).countBytes c [] (ps.map (·.1))).puts (s.notPeerObject puts)
          let s := s.effects c .l x.fl x.sat
          let blank := if x.writes.isEmpty then u :: k.blank else k.blank
          .ok (s.modCell c fun y => { y with copies := setAt y.copies i { (k.mark u) with watched, blank } })

/-- Land up to n units from u on; a fault stops the command with the record that L will raise (R206). -/
def landGo (c i : Nat) : Nat → Nat → State → State
  | 0, _, s => s
  | n + 1, u, s =>
    match s.landUnit c i u with
    | .ok t => landGo c i n (u + 1) t
    | .error t =>
      match (s.cell c).copies[i]? with
      | none => s
      | some k =>
        let rec' := { t with deferred := true, unit := k.ch, idx := some k.ord, addr := BitVec.ofNat 64 (k.start + k.landed) }
        (s.modCell c fun x => { x with copies := setAt x.copies i { k with halted := true } }).modEng c .l
          fun st => { st with deferred := st.deferred ++ [rec'] }

/-- An edge of the footprint rule from an earlier command (R220, R306). -/
def Copy.edge (a b : Copy) : Bool :=
  meets a.write b.write || b.reads.any (meets a.write) || a.reads.any (meets b.write)

/-- Every unit of a chunk has landed. -/
def Copy.chunkDone (k : Copy) (chunk : Nat) : Bool :=
  let m := k.units / max k.srcs.length 1
  (List.range m).all fun e => decide (chunk * m + e < k.lead) || k.extra.contains (chunk * m + e)

/-- A step of an exchange begins only after every chunk of the steps before it has landed in every cell (R217). -/
def State.stepOpen (s : State) (c : Nat) (k : Copy) (u : Nat) : Bool :=
  let n := k.srcs.length
  let pos (q : Nat) : Nat := (findIdx? (fun x => x.cell == q) k.srcs).getD 0
  let step := (pos c + n - u / (k.units / max n 1)) % max n 1
  k.srcs.all fun x =>
    match (s.cell x.cell).copies.find? fun y => y.xid == k.xid && !y.srcs.isEmpty with
    | none => true
    | some y => (List.range step).all fun j => y.chunkDone ((pos x.cell + n - j) % max n 1)

/-- The unit a command lands next in the default order: its first that has not landed, an exchange's in the order of its
steps (R217). -/
def Copy.nextUnit (c : Nat) (k : Copy) : Nat :=
  let n := k.srcs.length
  let pos := (findIdx? (fun x => x.cell == c) k.srcs).getD 0
  let m := k.units / max n 1
  match ((List.range n).map fun j => (pos + n - j) % max n 1).find? fun h => !k.chunkDone h with
  | none => k.lead
  | some h => h * m + ((List.range m).find? fun e => !(decide (h * m + e < k.lead) || k.extra.contains (h * m + e))).getD 0

/-- Whether unit u of command i may land now (R206, R210, R217, R220). -/
def State.mayLand (s : State) (c i u : Nat) : Bool :=
  let x := s.cell c
  match x.copies[i]? with
  | none => false
  | some k =>
    let earlier := x.copies.take i
    let serial := match k.inst with
      | .copy _ o => !o.tr && (Desc.of k.ds.toNat).kind == 0 && k.reads.any (meets k.write)
      | _ => false
    !k.halted && decide (u < k.units) && !(earlier.any fun a => a.edge k) &&
    !(k.lead == 0 && k.extra.isEmpty && earlier.any fun a => a.halted && a.ch == k.ch) &&
    (!serial || u == k.lead) && (k.srcs.isEmpty || s.stepOpen c k u)

/-- Accepted commands with nothing left to land complete at once. -/
def State.settleCopies (s : State) (c : Nat) : State :=
  match findIdx? (fun (k : Copy) => decide (k.lead = k.units)) (s.cell c).copies with
  | some i => s.countCopy c i
  | none => s

/-- The units that land with unit u: those whose destination bytes share its aligned 8 bytes, so that no naturally
aligned element is left in part (R221, R300). First number and count. -/
def Copy.group (k : Copy) (u : Nat) : Nat × Nat :=
  let along (dd : Desc) : Nat × Nat :=
    let p := dd.place k.sb (dd.index u)
    let w := fmtBits dd.fmt / 4
    let at' := 2 * (p.va.toNat % 8) + if p.hi then 1 else 0
    let j := u % max (dd.sz 0) 1
    let back := min j (at' / w)
    (u - back, back + 1 + min (dd.sz 0 - 1 - j) ((16 - (at' + w)) / w))
  let dd := Desc.of k.dd.toNat
  match k.inst with
  | .copy .. => if (Desc.of k.ds.toNat).kind = 1 then (u / 8 * 8, 8) else along dd
  | .copyEnc .. | .copyExport .. => (u / 8 * 8, 8)
  | .gather .. => along dd
  | _ => (u, 1)

/-- COPY_LAND: n units from number `first` of the cell's i-th accepted command land, and those that share their aligned
8 bytes (R188, R221). An exchange lands unit by unit, so that the order of its steps holds. -/
def execCopyLand (c i first n : Nat) (s : State) : Host.Outcome State Fault Refusal :=
  match (s.cell c).copies[i]? with
  | none => idle s
  | some k =>
    let lo := (k.group first).1
    let last := k.group (first + (n - 1))
    if n = 0 || !s.mayLand c i lo then idle s
    else
      let n := if k.srcs.isEmpty then last.1 + last.2 - lo else 1
      .next (((landGo c i n lo s).countCopy c i).modCell c fun x => x.flush .l)

/-- A halted command completes when its handler returns: what has not landed counts as landed, unwritten (R206). -/
def State.completeHalted (s : State) (c ch ord : Nat) : State :=
  match findIdx? (fun (k : Copy) => k.halted && k.ch == ch && k.ord == ord) (s.cell c).copies with
  | none => s
  | some i =>
    (s.modCell c fun x =>
      { x with copies := (x.copies.zipIdx.map fun p => if p.2 = i then { p.1 with lead := p.1.units, extra := [] } else p.1) }).countCopy c i

/-! ## The copy commands -/

/-- A MARK of the engine has not been reached: what issued before it comes first (R122). -/
def EngState.marked (st : EngState) : Bool := st.queue.any fun q => q.acc == .mark

/-- An earlier command, not complete, writes bytes that this one reads at issue: every access of a command comes after the
completion of those before it on an edge (R306). -/
def State.headerPending (s : State) (i : Instr) (o : CopyOps) : Bool :=
  (issueReads i ((Desc.of (s.here.getD o.ds).toNat).kind == 1) (s.getS o.sa) (s.getS o.sb) (s.getS o.sx)).any fun r =>
    s.here.copies.any fun a => meets a.write (r.1.toNat, r.2.1)

/-- The walks of an accepted command's pages, and the bytes of its header and entry (R35). -/
def State.countIssue (s : State) (i : Instr) (k : Copy) : State :=
  if s.here.pevsel.isEmpty then s
  else
    let s := s.countWalks s.cur.cell (k.pages.map fun p => BitVec.ofNat 64 (p.1 * 65536))
    (issueReads i ((Desc.of k.ds.toNat).kind == 1) k.sa k.sb k.sx).foldl (fun s r =>
      match s.readKeys r.1 r.2.1 r.2.2 with
      | .ok ks => s.countBytes s.cur.cell [] ks
      | .error _ => s) s

/-- A copy command at issue: the depth of R203, the checks, and its acceptance; its reads come after what a MARK orders
before it (R122, R307). -/
def copyBody (i : Instr) (s : State) : Act :=
  if s.me.marked then .wait s .other
  else if s.here.copies.length ≥ Config.copyDepth then .wait s .copies
  else
    match copyOps i with
    | none => .wait s .other
    | some (_, o) =>
      if s.me.loadingDesc o.ds || s.me.loadingDesc o.dd || s.headerPending i o then .wait s .other
      else if s.here.badReg (6000 + o.ds.toNat) || s.here.badReg (6000 + o.dd.toNat) then .trap { cause := cEcc }
      else
        match s.prepare i with
        | .error t => .trap t
        | .ok k => .done ((((s.countIssue i k).modHere fun x => x.takeCopy o.ch.toNat k)).settleCopies s.cur.cell)

/-- The scalar registers that a copy command reads. -/
def copyRegs (o : CopyOps) : List SReg := [o.sa, o.sb, o.sc, o.sx]

/-- COPY. -/
def execCopy (h : Hdr) (o : CopyOps) (s : State) : Host.Outcome State Fault Refusal :=
  issue h (copyRegs o) s (copyBody (.copy h o))

/-- COPY.ENC. -/
def execCopyEnc (h : Hdr) (o : CopyOps) (s : State) : Host.Outcome State Fault Refusal :=
  issue h (copyRegs o) s (copyBody (.copyEnc h o))

/-- COPY.DEC. -/
def execCopyDec (h : Hdr) (o : CopyOps) (s : State) : Host.Outcome State Fault Refusal :=
  issue h (copyRegs o) s (copyBody (.copyDec h o))

/-- COPY.EXPORT. -/
def execCopyExport (h : Hdr) (o : CopyOps) (s : State) : Host.Outcome State Fault Refusal :=
  issue h (copyRegs o) s (copyBody (.copyExport h o))

/-- GATHER. -/
def execGather (h : Hdr) (o : CopyOps) (s : State) : Host.Outcome State Fault Refusal :=
  issue h (copyRegs o) s (copyBody (.gather h o))

/-- SCATTER. -/
def execScatter (h : Hdr) (o : CopyOps) (s : State) : Host.Outcome State Fault Refusal :=
  issue h (copyRegs o) s (copyBody (.scatter h o))

/-- XCHG.ALL: the checks of its own cell, then a wait for the group (R218). -/
def execXchgAll (h : Hdr) (o : CopyOps) (s : State) : Host.Outcome State Fault Refusal :=
  issue h (copyRegs o) s fun s =>
    if s.here.xchg.isSome || s.me.marked then .wait s .other
    else if s.here.copies.length ≥ Config.copyDepth then .wait s .copies
    else if s.me.loadingDesc o.ds || s.me.loadingDesc o.dd then .wait s .other
    else if s.here.badReg (6000 + o.ds.toNat) || s.here.badReg (6000 + o.dd.toNat) then .trap { cause := cEcc }
    else
      match s.prepare (.xchgAll h o) with
      | .error t => .trap t
      | .ok _ => .wait (s.modHere fun x => { x with xchg := some { half := o.grp == .half, inst := .xchgAll h o } }) .other

/-- The commands of a group that waits, each with its cell; `none` until every cell has issued one of the same group and
none has a fault to raise first (R206). -/
def State.gathered (s : State) (cs : List Nat) (half : Bool) : Option (List (Nat × Except TrapRec Copy)) :=
  cs.foldr (fun c acc =>
    match (s.cell c).xchg, acc with
    | some w, some l =>
      if w.half == half && (s.cell c).frozen.isNone && (s.eng c .l).deferred.isEmpty then some ((c, (s.asEngine c .l).prepare w.inst) :: l) else none
    | _, _ => none) (some [])

/-- One participant's command of an accepted exchange; L passes its instruction. -/
def State.joinXchg (s : State) (xid : Nat) (srcs : List XchgSource) (c : Nat) (k : Copy) : State :=
  match copyOps k.inst with
  | none => s
  | some (h, o) =>
    let s := s.countWalks c (k.pages.map fun p => BitVec.ofNat 64 (p.1 * 65536))
    let s := s.modCell c fun x => { (x.takeCopy o.ch.toNat { k with xid, srcs }) with xchg := none }
    ((s.count c (0x10 + engNum .l) 1).finish c .l h false ((s.eng c .l).pc + 16)).settleCopies c

/-- XCHG_ACCEPT: every cell of the group has issued; chunk sizes must agree (R218). A cell whose command traps has retired
its older accesses first (R36). -/
def execXchgAccept (c : Nat) (s : State) : Host.Outcome State Fault Refusal :=
  match (s.cell c).xchg with
  | none => idle s
  | some w =>
    let cs := groupCells w.half c
    match s.gathered cs w.half with
    | none => idle s
    | some l =>
      let ks := l.filterMap fun p => match p.2 with | .ok k => some (p.1, k) | .error _ => none
      let failing (p : Nat × Except TrapRec Copy) : Bool := match p.2 with | .ok _ => false | .error _ => true
      let even := ks.all fun p => ks.all fun q => p.2.units * p.2.ubits == q.2.units * q.2.ubits
      if l.any fun p => (failing p || (ks.length == cs.length && !even)) && !(s.cell p.1).retired .l then idle s
      else if ks.length ≠ cs.length then
        .next (l.foldl (fun s p =>
          match p.2 with
          | .ok _ => s
          | .error t => (s.modCell p.1 fun x => { x with xchg := none }).takeTrap p.1 .l t) s)
      else if !even then
        .next (ks.foldl (fun s p =>
          let d := ((copyOps p.2.inst).map fun q => q.2.ds).getD 0#5
          (s.modCell p.1 fun x => { x with xchg := none }).takeTrap p.1 .l (metaTrap 0x22 d 0)) s)
      else
        let xid := 1 + (List.range 80).foldl (fun m c => (s.cell c).copies.foldl (fun m k => max m k.xid) m) 0
        let srcs := ks.map fun p => { cell := p.1, ds := p.2.ds, base := p.2.sa, pages := p.2.pages : XchgSource }
        .next (ks.foldl (fun s p => s.joinXchg xid srcs p.1 p.2) s)

/-! ## Deferred faults (R206) -/

/-- Raise the oldest deferred fault of an engine, at the instruction where it stands; M's waits for the commands that
have issued (R238). -/
def State.raiseDeferred (s : State) (c : Nat) (e : Eng) : Option State :=
  match (s.eng c e).deferred with
  | [] => none
  | t :: r =>
    if !s.unfrozen c e || !(s.cell c).retired e then none
    else
      let s := (s.acts c e).modEng c e fun st => { st with deferred := r }
      let s := if e = .l then s.modCell c fun x => { x with xchg := none } else s
      some (s.takeTrap c e t)

/-- DEFERRED_TRAP. -/
def execDeferredTrap (c : Nat) (e : Eng) (s : State) : Host.Outcome State Fault Refusal :=
  match s.raiseDeferred c e with
  | some t => .next t
  | none => idle s

end Sys2Proof.Machine
end

