-- ==== Sys2Proof/Machine/Sluice.lean ====
section
/-! DEFINITION. The operands of the elastic array (09 R223–R227, R252–R255) and its accumulation (03 R94–R97, 09
R239–R241): slots read row by row, content faults, products in ascending k, and the selection of the best. -/

namespace Sys2Proof.Machine

/-! ## Formats and geometry (R224, R225) -/

/-- BF16 and FP16. -/
def Fmt16 (f : Fmt) : Bool := f == .bf16 || f == .fp16

/-- A format that the array accepts. -/
def arrayFmt (f : Fmt) : Bool := f != .fp32 && f != .int32

/-- The rule of a pair of formats, true for the 16-bit rule, with the k group; `none` for a pair not accepted. -/
def pairRule (a b : Fmt) : Option (Bool × Nat) :=
  if !arrayFmt a || !arrayFmt b then none
  else if Fmt16 a || Fmt16 b then some (true, 1)
  else if (a == .cb4 || a == .int4) && (b == .cb4 || b == .int4) then some (false, 4)
  else some (false, 2)

/-- The element format of a ring; `none` for a reserved code. -/
def Ring.fmt? (r : Ring) : Option Fmt := fmtOf? (BitVec.ofNat 4 r.efmt)

/-- The element format of a ring whose code is not reserved. -/
def Ring.fmt (r : Ring) : Fmt := r.fmt?.getD .fp32

/-- Rows of a slot, ρ. -/
def Ring.rows (r : Ring) : Nat := r.rowsM1 + 1

/-- The elements of a slot end where its scales begin (R176). -/
def Ring.room (r : Ring) : Nat :=
  r.slotSize - (match r.smode with | 1 => 4 | 2 => r.rows * r.scStride | _ => 0)

/-- The codebook of a ring (R176). -/
def State.codebook (s : State) (r : Ring) : List (BitVec 16) :=
  (List.range 16).map fun i => BitVec.ofNat 16 (leNat ((List.range 2).map fun b => s.view (slicePa r.cell (r.cbt + 2 * i + b))))

/-! ## Slots (R176, R177, R196) -/

/-- The bytes of a slot or of a node. -/
abbrev Bytes := Nat → Byte

/-- The little-endian number at an offset. -/
def numAt (rd : Bytes) (off n : Nat) : Nat := leNat ((List.range n).map fun i => rd (off + i))

/-- A content fault: cause of R252, row, position, offset of the first offending byte. -/
structure Flaw where
  cause : Nat
  row : Nat
  pos : Nat
  off : Nat
deriving DecidableEq, Repr

/-- Padded bytes of a run of n elements. -/
def runBytes (f : Fmt) (n : Nat) : Nat := roundUp (ceilDiv (n * fmtBits f) 8) 16

/-- Bytes of a block group of a k-major PBF.SC slot (R177). -/
def blockGroup (f : Fmt) (rho : Nat) : Nat := roundUp (4 * rho) 16 + 32 * runBytes f rho

/-- Start of the packed run and place within it of element k of row i, for the formats that hold every element. -/
def Ring.densePlace (r : Ring) (f : Fmt) (i k : Nat) : Nat × Nat :=
  if r.kmaj then
    if r.gfmt = 3 then (k / 32 * blockGroup f r.rows + roundUp (4 * r.rows) 16 + k % 32 * runBytes f r.rows, i)
    else (k * runBytes f r.rows, i)
  else if r.gfmt = 3 then (i * rowMax 3 f r.kext + k / 32 * (4 + 32 * fmtBits f / 8) + 4, k % 32)
  else (i * runBytes f r.kext, k)

/-- Offset of the inline scale of block b of row i under PBF.SC. -/
def Ring.inlineScale (r : Ring) (f : Fmt) (i b : Nat) : Nat :=
  if r.kmaj then b * blockGroup f r.rows + 4 * i else i * rowMax 3 f r.kext + b * (4 + 32 * fmtBits f / 8)

/-- Element j of a packed run, with the offset of its first byte. -/
def packedBits (f : Fmt) (rd : Bytes) (base j : Nat) : Nat × Nat :=
  let off := base + j * fmtBits f / 8
  (off, elemOf f (decide (fmtBits f = 4 && j % 2 = 1)) ((List.range (elemBytes f)).map fun i => rd (off + i)))

/-- Elements of a row by position, with its content faults. -/
abbrev RowBits := List (Nat × Nat) × List Flaw

/-- A row of a format that holds every element. -/
def denseRow (r : Ring) (f : Fmt) (rd : Bytes) (i : Nat) : RowBits :=
  let beyond (k : Nat) : Option Nat :=
    let p := r.densePlace f i k
    let off := p.1 + p.2 * fmtBits f / 8
    let sc := r.inlineScale f i (k / 32)
    if r.gfmt = 3 && k % 32 = 0 && sc + 4 > r.room then some (max sc r.room)
    else if off + elemBytes f > r.room then some (max off r.room)
    else none
  match (List.range r.kext).findSome? fun k => (beyond k).map fun o => (k, o) with
  | some (k, o) => ([], [{ cause := 0x35, row := i, pos := k, off := o }])
  | none => ((List.range r.kext).map fun k => let p := r.densePlace f i k; (k, (packedBits f rd p.1 p.2).2), [])

/-- The groups of a PBF.BM row from group g on, at an offset. A bit at or beyond kext whose packed element lies beyond the
slot's elements is 0x35, not 0x33 (R252; assumption log 156). -/
def bitmapGroups (r : Ring) (f : Fmt) (rd : Bytes) (i : Nat) : Nat → Nat → Nat → RowBits
  | 0, _, _ => ([], [])
  | n + 1, g, off =>
    if off + 8 > r.room then ([], [{ cause := 0x35, row := i, pos := 64 * g, off := max off r.room }])
    else
      let m := numAt rd off 8
      let ones := (List.range 64).filter m.testBit
      match ones.zipIdx.find? fun p => decide ((packedBits f rd (off + 8) p.2).1 + elemBytes f > r.room) with
      | some p => ([], [{ cause := 0x35, row := i, pos := 64 * g + p.1, off := max (packedBits f rd (off + 8) p.2).1 r.room }])
      | none =>
        let rest := bitmapGroups r f rd i n (g + 1) (off + roundUp (8 + ceilDiv (ones.length * fmtBits f) 8) 16)
        (((ones.zipIdx.filter fun p => decide (64 * g + p.1 < r.kext)).map fun p =>
            (64 * g + p.1, (packedBits f rd (off + 8) p.2).2)) ++ rest.1,
         ((ones.filter fun b => decide (r.kext ≤ 64 * g + b)).map fun b =>
            ({ cause := 0x33, row := i, pos := 64 * g + b, off := off + b / 8 } : Flaw)) ++ rest.2)

/-- The pairs of a PBF.CO row, n of them from an offset; columns must exceed the last. -/
def pairsFrom (r : Ring) (f : Fmt) (rd : Bytes) (i : Nat) : Nat → Nat → Option Nat → RowBits
  | 0, _, _ => ([], [])
  | n + 1, off, last =>
    if off + 2 > r.room then ([], [{ cause := 0x35, row := i, pos := (last.map (· + 1)).getD 0, off := max off r.room }])
    else
      let col := numAt rd off 2
      if col ≥ r.kext || last.any (fun l => decide (col ≤ l)) then ([], [{ cause := 0x34, row := i, pos := col, off }])
      else if off + 2 + coBytes f > r.room then ([], [{ cause := 0x35, row := i, pos := col, off := max (off + 2) r.room }])
      else
        let rest := pairsFrom r f rd i n (off + 2 + coBytes f) (some col)
        ((col, numAt rd (off + 2) (coBytes f) % 2 ^ fmtBits f) :: rest.1, rest.2)

/-- A row of PBF.BM or PBF.CO, found through the row offset table. -/
def sparseRow (r : Ring) (f : Fmt) (rd : Bytes) (i : Nat) : RowBits :=
  if 4 * i + 4 > r.room then ([], [{ cause := 0x35, row := i, pos := 0, off := 4 * i }])
  else
    let off := numAt rd (4 * i) 4
    if r.gfmt = 1 then bitmapGroups r f rd i (ceilDiv r.kext 64) 0 off
    else if off + 2 > r.room then ([], [{ cause := 0x35, row := i, pos := 0, off := max off r.room }])
    else
      let n := numAt rd off 2
      if n > r.kext then ([], [{ cause := 0x34, row := i, pos := 0, off }]) else pairsFrom r f rd i n (off + 2) none

/-- One row of a slot: a fault other than a stray bitmap bit makes the row read as zero (R252). -/
def slotRow (r : Ring) (f : Fmt) (rd : Bytes) (i : Nat) : RowBits :=
  let x := if r.gfmt = 1 || r.gfmt = 2 then sparseRow r f rd i else denseRow r f rd i
  if x.2.any fun w => w.cause != 0x33 then ([], x.2) else x

/-- The scale of block b of row i of a slot (R176, R196). -/
def slotScale (r : Ring) (f : Fmt) (rd : Bytes) (i b : Nat) : FVal :=
  let at4 (o : Nat) : FVal := value32 (BitVec.ofNat 32 (numAt rd o 4))
  if r.gfmt = 3 then at4 (r.inlineScale f i b)
  else
    match r.smode with
    | 1 => at4 (r.slotSize - 4)
    | 2 => at4 (r.slotSize - r.rows * r.scStride + i * r.scStride + 4 * b)
    | _ => .fin false 1 1

/-! ## Operands -/

/-- A row as the array takes it: the nonzero elements in ascending k over all slots (R226). -/
abbrev Row := List (Nat × FVal)

/-- The bytes of slot j of a ring. -/
def State.slotBytes (s : State) (r : Ring) (j : Nat) : Bytes := fun o =>
  if o < r.slotSize then s.view (slicePa r.cell (r.slotOff j + o)) else 0#8

/-- The nonzero elements of one row of some bytes. -/
def valuesOf (r : Ring) (cb : List (BitVec 16)) (rd : Bytes) (i : Nat) : Row :=
  ((slotRow r r.fmt rd i).1.map fun e => (e.1, value r.fmt cb e.2)).filter fun e => !e.2.isZero

/-- Row i of an operand over its slots. -/
def State.operandRow (s : State) (r : Ring) (slots : List Nat) (i : Nat) : Row :=
  let cb := s.codebook r
  slots.zipIdx.flatMap fun p => (valuesOf r cb (s.slotBytes r p.1) i).map fun e => (p.2 * r.kext + e.1, e.2)

/-- The scale of element (i, k) of an operand. -/
def State.operandScale (s : State) (r : Ring) (slots : List Nat) (i k : Nat) : FVal :=
  if r.smode = 0 && r.gfmt ≠ 3 then .fin false 1 1
  else slotScale r r.fmt (s.slotBytes r (slots.getD (k / r.kext) 0)) i (k % r.kext / 32)

/-- An operand read whole: its rows, and the scales of the blocks of 32 of each row; no scales stand for 1.0. -/
structure Operand where
  kext : Nat
  rows : List Row
  scales : List (List FVal)
deriving DecidableEq, Repr

/-- Read an operand. -/
def State.operand (s : State) (r : Ring) (slots : List Nat) : Operand :=
  { kext := r.kext
    rows := (List.range r.rows).map (s.operandRow r slots)
    scales :=
      if r.smode = 0 && r.gfmt ≠ 3 then []
      else (List.range r.rows).map fun i =>
        (List.range slots.length).flatMap fun p => (List.range (ceilDiv r.kext 32)).map fun b =>
          s.operandScale r slots i (p * r.kext + 32 * b) }

/-- A row of an operand. -/
def Operand.row (o : Operand) (i : Nat) : Row := o.rows.getD i []

/-- The scale of position k of a row (R81, R224). -/
def Operand.scale (o : Operand) (i k : Nat) : FVal :=
  if o.scales.isEmpty then .fin false 1 1
  else (o.scales.getD i []).getD (k / o.kext * ceilDiv o.kext 32 + k % o.kext / 32) (.fin false 1 1)

/-! ## Content faults (R252, R253) -/

/-- The 8 bytes at an address, aligned down to 8, as the executing engine reads them; none where it may not (R253). -/
def State.observed (s : State) (va : Nat) : List Byte :=
  match s.span .load (BitVec.ofNat 64 (va / 8 * 8)) 8 with
  | .ok ks => ks.map s.view
  | .error _ => []

/-- The content faults of an operand: for each, its place in the operand, virtual address and the bytes there. -/
def State.flaws (s : State) (r : Ring) (slots : List Nat) : List (Flaw × Nat × List Byte) :=
  slots.zipIdx.flatMap fun p =>
    let rd := s.slotBytes r p.1
    (List.range r.rows).flatMap fun i =>
      (slotRow r r.fmt rd i).2.map fun w =>
        let a := (r.addr p.1).toNat + w.off
        ({ w with pos := p.2 * r.kext + w.pos }, a, s.observed a)

/-- The records of an operand's content faults (R253). -/
def State.flawRecords (s : State) (unit g : Nat) (logged : Bool) (seq : Nat) (r : Ring) (slots : List Nat) : List (List Byte) :=
  (s.flaws r slots).map fun w =>
    metaInfo w.1.cause unit g (if logged then 2 else 0) seq w.1.row w.1.pos w.2.1 w.2.2

/-! ## Uncorrectable errors (R255) -/

/-- Byte o is a bitmap or an element of one of n groups of a PBF.BM row that stand from an offset on; the padding of a group is
none of them. -/
def bitmapHolds (f : Fmt) (rd : Bytes) (o : Nat) : Nat → Nat → Bool
  | 0, _ => false
  | n + 1, off =>
    let len := 8 + ceilDiv (((List.range 64).filter (numAt rd off 8).testBit).length * fmtBits f) 8
    (decide (off ≤ o) && decide (o < off + len)) || bitmapHolds f rd o n (off + roundUp len 16)

/-- Row i of PBF.BM or PBF.CO holds byte o. -/
def sparseHolds (r : Ring) (f : Fmt) (rd : Bytes) (i o : Nat) : Bool :=
  let off := numAt rd (4 * i) 4
  if r.gfmt = 1 then bitmapHolds f rd o (ceilDiv r.kext 64) off
  else decide (off ≤ o) && decide (o < off + 2 + min (numAt rd off 2) r.kext * (2 + coBytes f))

/-- Rows of a format that holds every element whose elements or inline scales a byte belongs to: none for padding and for
what lies past the last run or row. -/
def denseRows (r : Ring) (f : Fmt) (o : Nat) : List Nat :=
  let rows := List.range r.rows
  let perRun (n : Nat) : Nat := ceilDiv (n * fmtBits f) 8
  let elemsAt (o : Nat) : List Nat := (List.range (max (8 / fmtBits f) 1)).map fun i => o * 8 / fmtBits f + i
  if r.kmaj then
    let run (k o : Nat) : List Nat := if k < r.kext then rows.filter (elemsAt o).contains else []
    if r.gfmt = 3 then
      let b := o / blockGroup f r.rows
      let p := o % blockGroup f r.rows
      let hd := roundUp (4 * r.rows) 16
      if p < hd then (if 32 * b < r.kext then rows.filter fun i => i == p / 4 else [])
      else run (32 * b + (p - hd) / runBytes f r.rows) ((p - hd) % runBytes f r.rows)
    else run (o / runBytes f r.rows) (o % runBytes f r.rows)
  else if r.gfmt = 3 then
    let q := o % rowMax 3 f r.kext
    let blk := 4 + 32 * fmtBits f / 8
    let k := 32 * (q / blk) + if q % blk < 4 then 0 else (q % blk - 4) * 8 / fmtBits f
    if k < r.kext then rows.filter fun i => i == o / rowMax 3 f r.kext else []
  else if o % runBytes f r.kext < perRun r.kext then rows.filter fun i => i == o / runBytes f r.kext
  else []

/-- Rows that a byte of a slot belongs to or scales; `none` when it reaches every element. -/
def byteRows (r : Ring) (f : Fmt) (rd : Bytes) (o : Nat) : Option (List Nat) :=
  let rows := List.range r.rows
  if r.smode = 1 && o ≥ r.slotSize - 4 then none
  else if r.smode = 2 && o ≥ r.room then
    some (if (o - r.room) % r.scStride < 4 * ceilDiv r.kext 32 then rows.filter fun i => decide ((o - r.room) / r.scStride = i) else [])
  else if r.gfmt = 1 || r.gfmt = 2 then
    if o < 4 * r.rows then some [o / 4]
    else some (rows.filter fun i => sparseHolds r f rd i o)
  else some (denseRows r f o)

/-- The offsets of bad bytes of a slot. -/
def State.badOffsets (s : State) (r : Ring) (j : Nat) : List Nat :=
  if s.ecc.isEmpty then []
  else
    let lo := slicePa r.cell (r.slotOff j)
    s.ecc.flatMap fun e => (List.range 8).filterMap fun i =>
      if paClass e.1 = 1 && lo ≤ e.1 + i && e.1 + i < lo + r.slotSize then some (e.1 + i - lo) else none

/-- Rows of an operand that an error reaches, whether it reaches all, and the first bad byte's address and key. -/
structure Spoilt where
  rows : List Nat
  all : Bool
  first : Option (Word × Nat)
deriving DecidableEq, Repr

/-- The errors of an operand. -/
def State.spoilt (s : State) (r : Ring) (slots : List Nat) : Spoilt :=
  slots.foldl (fun acc j =>
    (s.badOffsets r j).foldl (fun acc o =>
      let first := acc.first.or (some (r.addr j + BitVec.ofNat 64 o, slicePa r.cell (r.slotOff j + o)))
      match byteRows r r.fmt (s.slotBytes r j) o with
      | none => { acc with all := true, first }
      | some [] => acc
      | some rs => { acc with rows := acc.rows ++ rs, first }) acc) { rows := [], all := false, first := none }

/-! ## Products in ascending k (R95–R97, R240) -/

/-- Positions that two rows share. -/
def shared : Row → Row → List (Nat × FVal × FVal)
  | [], _ => []
  | (k, x) :: r, b =>
    let b := b.dropWhile fun e => decide (e.1 < k)
    match b with
    | (j, y) :: _ => if j = k then (k, x, y) :: shared r b else shared r b
    | [] => []

/-- Positions that either row has, the other value zero. -/
def either : Row → Row → List (Nat × FVal × FVal)
  | [], b => b.map fun e => (e.1, .fin false 0 1, e.2)
  | (k, x) :: r, b =>
    let low := b.takeWhile fun e => decide (e.1 < k)
    let rest := b.dropWhile fun e => decide (e.1 < k)
    (low.map fun e => (e.1, .fin false 0 1, e.2)) ++
    match rest with
    | (j, y) :: t => if j = k then (k, x, y) :: either r t else (k, x, .fin false 0 1) :: either r rest
    | [] => (k, x, .fin false 0 1) :: either r []

/-- An accumulator on its way: its bits, k_index of R84, flags, and products performed. -/
structure Acc where
  val : Lane
  idx : Nat := 0
  fl : Flags := 0#5
  prods : Nat := 0
deriving DecidableEq, Repr

/-- The product of two elements, or the square of their difference. -/
def product (sq : Bool) (x y : FVal) : Res FVal :=
  if sq then
    let d := exactAdd x y.negate .rne
    { val := (exactMul d.val d.val).val, fl := d.fl }
  else exactMul x y

/-- One product under the 16-bit rule (R95). -/
def addProduct (sq : Bool) (sa sb : Nat → FVal) (mode : Rnd) (m : Nat → Rm) (a : Acc) (e : Nat × FVal × FVal) : Acc :=
  let p := product sq e.2.1 e.2.2
  let za := sa e.1
  let zb := sb e.1
  if p.val.isZero || za.isZero || zb.isZero then a
  else
    let p2 := exactMul p.val za
    let p3 := exactMul p2.val zb
    let r := finishExact (exactAdd (value32 a.val) p3.val mode) (m a.idx)
    { val := r.val, idx := a.idx + 1, fl := a.fl ||| p.fl ||| p2.fl ||| p3.fl ||| r.fl, prods := a.prods + 1 }

/-- Group positions by their block of 32. -/
def byBlock (es : List (Nat × FVal × FVal)) : List (Nat × List (Nat × FVal × FVal)) :=
  es.foldr (fun e acc =>
    match acc with
    | (b, l) :: r => if b = e.1 / 32 then (b, e :: l) :: r else (e.1 / 32, [e]) :: acc
    | [] => [(e.1 / 32, [e])]) []

/-- The exact sum of a block's products (R96): a NaN product sets no flag; infinities of both signs set NV. -/
def blockSum (ps : List (Res FVal)) : Res FVal :=
  let fl := ps.foldl (fun f p => f ||| p.fl) 0#5
  let inf (n : Bool) : Bool := ps.any fun p => p.val == .inf n
  if ps.any fun p => p.val.isNan then { val := .nan false, fl }
  else if inf true && inf false then { val := .nan false, fl := fl ||| flNV }
  else if inf true then { val := .inf true, fl }
  else if inf false then { val := .inf false, fl }
  else { val := ps.foldl (fun s p => (exactAdd s p.val .rne).val) (.fin false 0 1), fl }

/-- One block under the narrow rule (R96). The manual does not say over which operands NV of the product with both scales is
judged: here each of the two multiplications, left to right, judges its own (DESIGN CHOICE, assumption log 116). -/
def addBlock (sq : Bool) (sa sb : Nat → FVal) (mode : Rnd) (m : Nat → Rm) (a : Acc)
    (blk : Nat × List (Nat × FVal × FVal)) : Acc :=
  let ps := (blk.2.map fun e => product sq e.2.1 e.2.2).filter fun p => !p.val.isZero
  let sum := blockSum ps
  if sum.val.isZero then { a with prods := a.prods + ps.length }
  else
    let t1 := exactMul sum.val (sa (32 * blk.1))
    let t2 := exactMul t1.val (sb (32 * blk.1))
    let t := toLane t2.val (m a.idx)
    let r := finishExact (exactAdd (value32 a.val) (value32 t.val) mode) (m a.idx)
    { val := r.val, idx := a.idx + 1, fl := a.fl ||| sum.fl ||| t1.fl ||| t2.fl ||| t.fl ||| r.fl
      prods := a.prods + ps.length }

/-- One accumulator over the whole k range (R239, R240). -/
def accumulate (sq wide : Bool) (a b : Row) (sa sb : Nat → FVal) (mode : Rnd) (m : Nat → Rm) (start : Lane) : Acc :=
  let es := if sq then either a b else shared a b
  if wide then es.foldl (addProduct sq sa sb mode m) { val := start }
  else (byBlock es).foldl (addBlock sq sa sb mode m) { val := start }

/-- The coordinate of an accumulator's rounding (R84). -/
def coordTile (seq idx i j : Nat) : Word := BitVec.ofNat 64 (seq * 2 ^ 40 + idx * 2 ^ 14 + i * 128 + j)

/-! ## Entries (R227, R240) -/

/-- Add to an ascending list of (k group, occupancy) pairs. -/
def orInto (g : Nat) (cols : List Nat) : List (Nat × List Nat) → List (Nat × List Nat)
  | [] => [(g, cols)]
  | (h, c) :: r => if h = g then (h, c ++ cols) :: r else (h, c) :: orInto g cols r

/-- Column masks of the entries of one row: group numbers with their columns. -/
def rowEntries (sq : Bool) (kext g rB : Nat) (occ : List (Nat × List Nat)) (row : Row) : List (Nat × List Nat) :=
  let grp (k : Nat) : Nat := k / kext * kext + k % kext / g * g
  let has (k : Nat) : Bool := row.any fun e => e.1 == k
  let ks := if sq then (row.map (·.1)) ++ (occ.map (·.1)).filter (fun k => !has k)
    else (row.map (·.1)).filter fun k => occ.any fun o => o.1 == k
  ks.foldl (fun es k =>
    let cols := if sq && has k then List.range rB else (occ.filter fun o => o.1 == k).flatMap (·.2)
    orInto (grp k) cols es) []

/-- Entries and gated column-cell cycles of a command, over rows of A against the rows of B. -/
def entryCounts (sq : Bool) (kext g : Nat) (as bs : List Row) : Nat × Nat :=
  let occ := bs.zipIdx.foldl (fun o p => p.1.foldl (fun o e => orInto e.1 [p.2] o) o) []
  as.foldl (fun n row =>
    let es := rowEntries sq kext g bs.length occ row
    (n.1 + es.length, n.2 + es.foldl (fun t e => t + (128 - e.2.eraseDups.length)) 0)) (0, 0)

/-! ## Selection (R241) -/

/-- A candidate: the value it ranks by, the value it carries, its index, and the partial it came from. -/
structure Cand where
  rank : Lane
  val : Lane
  idx : Nat
  q : Nat
deriving DecidableEq, Repr

/-- x ranks before y; among equals of value and index the lower partial (R243). -/
def Cand.before (x y : Cand) : Bool :=
  let a := value32 x.rank
  let b := value32 y.rank
  let tie := decide (x.idx < y.idx) || (decide (x.idx = y.idx) && decide (x.q < y.q))
  if a.isNan then b.isNan && tie
  else if b.isNan then true
  else fvLt b a || (fvEq a b && tie)

/-- Insert in rank order. -/
def insertCand (x : Cand) : List Cand → List Cand
  | [] => [x]
  | y :: r => if y.before x then y :: insertCand x r else x :: y :: r

/-- The k best candidates, best first: their values and indices. -/
def best (k : Nat) (cs : List Cand) : List (Lane × Lane) :=
  ((cs.foldr insertCand []).take k).map fun c => (c.val, BitVec.ofNat 32 c.idx)

/-- A row of a tile that holds a list (R241). -/
def listRow (l : List (Lane × Lane)) : List Lane :=
  (l.map (·.1)) ++ List.replicate (16 - l.length) 0xFF800000#32 ++ (l.map (·.2)) ++
  List.replicate (16 - l.length) 0xFFFF#32 ++ List.replicate 96 0#32

/-- A tile of +0. -/
def zeroTile : Tile := List.replicate 128 (List.replicate 128 0#32)

/-- Element (i, j) of a tile. -/
def Tile.at (t : Tile) (i j : Nat) : Lane := (t.getD i []).getD j 0#32

/-- A tile given element by element. -/
def tileOf (f : Nat → Nat → Lane) : Tile := (List.range 128).map fun i => (List.range 128).map (f i)

/-- A tile of lists; rows without one read +0. -/
def tileOfLists (ls : List (Option (List (Lane × Lane)))) : Tile :=
  (List.range 128).map fun i =>
    match ls.getD i none with
    | some l => listRow l
    | none => List.replicate 128 0#32

end Sys2Proof.Machine
end

