-- ==== Sys2Proof/Machine/Tiles.lean ====
section
/-! DEFINITION. The result ring and tile commands (09 R234–R249): issue of MMA and MSD, what a tile command computes,
moves and zeroing, mode and lag entries, and EPI. -/

namespace Sys2Proof.Machine

/-! ## The result ring (R234–R236) -/

/-- Open tiles, F − D. -/
def Cell.openTiles (x : Cell) : Nat := (x.tF - x.tD).toNat

/-- The tile of an offset, F − 1 − ti. -/
def Cell.tileNo (x : Cell) (ti : BitVec 4) : BitVec 32 := x.tF - 1#32 - ti.setWidth 32

/-- The slot of a tile. -/
def tileSlot (t : BitVec 32) : Nat := t.toNat % 16

/-- A tile of exactly 128 rows of 128 accumulators (R234). -/
def fitTile (t : Tile) : Tile := ((t ++ zeroTile).take 128).map fun r => (r ++ List.replicate 128 0#32).take 128

/-- The accumulators of a tile. -/
def Cell.getT (x : Cell) (t : BitVec 32) : Tile := fitTile (tabGet zeroTile x.tiles (tileSlot t))

/-- Write a tile. -/
def Cell.setT (x : Cell) (t : BitVec 32) (v : Tile) : Cell := { x with tiles := tabSet zeroTile x.tiles (tileSlot t) v }

/-- A tile is closed (R235). -/
def Cell.isClosed (x : Cell) (t : BitVec 32) : Bool := x.closed.getLsbD (tileSlot t)

/-- Close a tile. -/
def Cell.close (x : Cell) (t : BitVec 32) : Cell := { x with closed := x.closed ||| BitVec.ofNat 16 (2 ^ tileSlot t) }

/-- A tile whose error is gone, since it is written whole (R435). -/
def Cell.mendTile (x : Cell) (t : BitVec 32) : Cell :=
  if x.regErr.isEmpty then x else { x with regErr := tabSet false x.regErr (2000 + tileSlot t) false }

/-- A command closes its tile when it completes. -/
def MCmd.closes (m : MCmd) : Bool :=
  match m.inst with
  | .mma _ o | .msd _ o | .mmaG _ o _ _ _ => o.cl
  | .descStep _ o | .descWalk _ o => o.cl
  | _ => false

/-- The trap of an instruction that names tile F − 1 − ti: offset, closed state, and an error of what it reads. A tile that
an older command of the queue closes counts as closed: the trap waits for that command (R235, R238). -/
def Cell.tileTrap (x : Cell) (ti : BitVec 4) (writes reads : Bool) : Option TrapRec :=
  if ti.toNat ≥ x.openTiles then some (ringTrap 9)
  else if writes && (x.isClosed (x.tileNo ti) || x.mcmds.any fun m => m.closes && m.tile == x.tileNo ti) then some (ringTrap 10)
  else if reads && x.badReg (2000 + tileSlot (x.tileNo ti)) then some { cause := cEcc }
  else none

/-! ## Issue (R237, R238) -/

/-- META of the array at issue (R252, R253). -/
def metaArray (cause unit source seq : Nat) : TrapRec :=
  { cause := cMeta, info := metaInfo cause unit source 0 seq 0 0 0 [] }

/-- Commands in the array command queue; a command that has started holds no place (R238). -/
def Cell.queued (x : Cell) : Nat := (x.mcmds.filter fun m => !m.started).length

/-- A ring whose format codes are reserved. -/
def Ring.reserved (r : Ring) : Bool := r.fmt?.isNone || decide (4 < r.gfmt)

/-- A ring holds scales of its own or of its blocks (R240). -/
def Ring.scaled (r : Ring) : Bool := r.smode != 0 || r.gfmt == 3

/-- The conditions of R225 that one ring alone can break. -/
def Ring.misplaced (r : Ring) : Bool := (r.kmaj && (r.gfmt == 1 || r.gfmt == 2)) || (r.smode != 0 && r.gfmt == 3)

/-- The codebook of a CB4 ring is read and checked (R80, R223). -/
def State.bookTrap (s : State) (r : Ring) (unit g seq : Nat) : Option TrapRec :=
  if r.fmt != .cb4 then none
  else
    let ks := (List.range 32).map fun i => slicePa r.cell (r.cbt + i)
    let va : Word := BitVec.ofNat 64 (windowBase + r.cell * 0x800000 + r.cbt)
    match ks.find? fun k => (s.homeCheck s.here.asid k).isSome with
    | some _ => some { cause := cPerm, addr := va }
    | none =>
      match s.eccTrap va ks with
      | some t => some t
      | none => if codebookOk (s.codebook r) then none else some (metaArray 0x32 unit g seq)

/-- The checks of stage 1 on the two operand rings, in order, for n slot pairs. A ring whose gfmt and efmt are a pair that R197
excludes breaks none of them: no cause is named for it, and its slots are read under both codes (assumption log 155). -/
def State.ringChecks (s : State) (sq : Bool) (ga gb : GNum) (n : Nat) : Option TrapRec :=
  let x := s.here
  let a := x.getR ga.toNat
  let b := x.getR gb.toNat
  if x.badReg (5000 + ga.toNat) || x.badReg (5000 + gb.toNat) then some { cause := cEcc }
  else if a.nslots = 0 || b.nslots = 0 then some (ringTrap 5)
  else if n > a.nslots || n > b.nslots then some (ringTrap 8)
  else if a.reserved then some (metaArray 0x30 2 ga.toNat x.seq)
  else if b.reserved then some (metaArray 0x30 3 gb.toNat x.seq)
  else if (pairRule a.fmt b.fmt).isNone then
    some (if arrayFmt a.fmt then metaArray 0x30 3 gb.toNat x.seq else metaArray 0x30 2 ga.toNat x.seq)
  else if sq && a.scaled then some (metaArray 0x30 2 ga.toNat x.seq)
  else if sq && b.scaled then some (metaArray 0x30 3 gb.toNat x.seq)
  else if a.kext ≠ b.kext || (n > 1 && a.kext % 64 ≠ 0) || a.misplaced then some (metaArray 0x31 2 ga.toNat x.seq)
  else if b.misplaced then some (metaArray 0x31 3 gb.toNat x.seq)
  else
    match s.bookTrap a 2 ga.toNat x.seq with
    | some t => some t
    | none => s.bookTrap b 3 gb.toNat x.seq

/-- Slots of a ring lie where the cell may read (R171, R174). -/
def State.slotTrap (s : State) (r : Ring) (slots : List Nat) : Option TrapRec :=
  slots.findSome? fun j =>
    (s.homeCheck s.here.asid (slicePa r.cell (r.slotOff j + r.slotSize - 1))).map fun e => { cause := e, addr := r.addr j }

/-- Number of partials of a command. -/
def partsOf (o : TileOps) : Nat := o.np.toNat + 1

/-- Slot pairs of a command. -/
def pairsOf (o : TileOps) : Nat := o.cnt.toNat + 1

/-- The home cell of a partial (R242). -/
def homeCell (o : TileOps) (c : Nat) : Nat := 4 * (c / 4) + o.home.toNat

/-- PERM of a partial whose home belongs to another context, or to none (R242). -/
def State.homeTrap (s : State) (o : TileOps) : Option TrapRec :=
  if partsOf o > 1 && ((s.cell (homeCell o s.cur.cell)).owner.isNone || (s.cell (homeCell o s.cur.cell)).owner ≠ s.here.owner) then
    some { cause := cPerm }
  else none

/-- Claim n slots of a ring in a cycle, as an operation of M on it (R182). -/
def Cell.claim (x : Cell) (now : Nat) (g : GNum) (n : Nat) : Cell :=
  let r := x.getR g.toNat
  (x.setR g.toNat { r with k := r.k + BitVec.ofNat 32 n }).ringDone g.toNat now (ringRank false .m)

/-- No operation that goes after M's has taken effect on a ring of the executing cell in the present cycle (R182). -/
def State.ringTurnM (s : State) (g : GNum) : Bool := s.ringOrder s.cur.cell g.toNat (ringRank false .m)

/-- The slots that a command takes from its position. -/
def Ring.claimSlots (r : Ring) (n : Nat) : List Nat := (List.range n).map (r.k.toNat + ·)

/-- What the claim of a command comes to: a trap, a wait, or the state with the command's claims and holds taken and
the command as the array keeps it. -/
inductive Claim
  | trap (t : TrapRec)
  | wait (why : Stall)
  | take (s : State) (m : MCmd)

/-- The claims of MMA and MSD, with the trap of the tile that they name, if any (R238). The PERM of a home cell of another
context (R242) has no place in R238's order: here it comes after every check of a ring, a format, a codebook and the tile, and
before the wait for slots (assumption log 154). -/
def State.claimPair (s : State) (sq : Bool) (o : TileOps) (tile : Option TrapRec) (m : MCmd) : Claim :=
  let n := pairsOf o
  match s.ringChecks sq o.ga o.gb n with
  | some t => .trap t
  | none =>
    let a := s.here.getR o.ga.toNat
    let b := s.here.getR o.gb.toNat
    match tile.or (s.homeTrap o) with
    | some t => .trap t
    | none =>
      if !s.ringTurnM o.ga || !s.ringTurnM o.gb || a.ready < n || b.ready < n then .wait .slots
      else
        match (s.slotTrap a (a.claimSlots n)).or (s.slotTrap b (b.claimSlots n)) with
        | some t => .trap t
        | none => .take (s.modHere fun x => (x.claim s.cycle o.ga n).claim s.cycle o.gb n) { m with ra := a, rb := b, claimed := true }

/-- A command as M issues it: SEED, mode and lag in force, the tile and the seq (R238, R84, R85). -/
def State.newCommand (s : State) (i : Instr) (ti : BitVec 4) (sa sb : Word) : MCmd :=
  let x := s.here
  { id := s.me.nextId, inst := i, pc := s.me.pc, sa, sb, seq := x.seq, seed := x.seed, mode := x.mode, lag := x.lag
    tile := x.tileNo ti, ra := {}, rb := {} }

/-- The command joins the queue. -/
def State.enqueueTile (s : State) (m : MCmd) : State :=
  (s.modHere fun x => { x with mcmds := x.mcmds ++ [m], seq := x.seq + 1 }).modMe fun st => { st with nextId := st.nextId + 1 }

/-- Rows of the tile that take one operand B: first row, rows, slots of B. -/
structure Feed where
  row0 : Nat
  rows : Nat
  slots : List Nat
deriving DecidableEq, Repr

/-- The feeds of a command: all of B for MMA and MSD, one for each block for MMA.G. -/
def MCmd.feeds (m : MCmd) (o : TileOps) : List Feed :=
  match m.inst with
  | .mmaG .. => m.blocks.map fun b =>
      { row0 := b.row0, rows := b.rows, slots := (List.range (pairsOf o)).map fun j => (b.w + j) % m.rb.nslots }
  | _ => [{ row0 := 0, rows := m.ra.rows, slots := m.rb.claimSlots (pairsOf o) }]

/-- The content faults of a command's pre-pass, as records (R228, R252, R253). -/
def State.prepass (s : State) (m : MCmd) : List (List Byte) :=
  let logged := m.mode.zlog.isSome
  match m.inst with
  | .mma _ o | .msd _ o | .mmaG _ o _ _ _ =>
    s.flawRecords 2 o.ga.toNat logged m.seq m.ra (m.ra.claimSlots (pairsOf o)) ++
      (((m.feeds o).map (·.slots)).eraseDups.flatMap fun js => s.flawRecords 3 o.gb.toNat logged m.seq m.rb js)
  | .descStep _ o | .descWalk _ o => s.flawRecords 2 o.ga.toNat logged m.seq m.ra (m.ra.claimSlots 1)
  | _ => []

/-- The pre-pass of a command that would take its claims: under zlog = 0 a content fault traps at the command, which then
takes none. It runs as the command issues, so that no younger instruction of M has changed state (R36, R252). -/
def Claim.prepassed : Claim → Claim
  | .take t m =>
    if m.mode.zlog.isSome then .take t m
    else
      match t.prepass m with
      | [] => .take t m
      | f :: _ => .trap { cause := cMeta, info := f }
  | c => c

/-- The issue of a tile command, whose claim is an acquire (R302): room in the queue, then its checks, claims and pre-pass,
behind those of commands that are to be issued again (R238). -/
def issueTile (i : Instr) (ti : BitVec 4) (sa sb : Word) (claim : Option TrapRec → MCmd → Claim) (s : State) : Act :=
  if s.here.queued ≥ Config.arrayQueue || s.here.mcmds.any (fun m => !m.claimed) then .wait s .other
  else
    match (claim (s.here.tileTrap ti true true) (s.newCommand i ti sa sb)).prepassed with
    | .trap t => .trap t
    | .wait why => .wait s why
    | .take t m => .done ((t.enqueueTile m).acquired t.cur.cell t.cur.eng)

/-- MMA. -/
def execMma (h : Hdr) (o : TileOps) (s : State) : Host.Outcome State Fault Refusal :=
  issue h [] s fun s => issueTile (.mma h o) o.ti 0#64 0#64 (s.claimPair false o) s

/-- MSD. -/
def execMsd (h : Hdr) (o : TileOps) (s : State) : Host.Outcome State Fault Refusal :=
  issue h [] s fun s => issueTile (.msd h o) o.ti 0#64 0#64 (s.claimPair true o) s

/-! ## What a tile command computes (R239–R241, R276, R278) -/

/-- The product of a command: the accumulators of every row, lists under .topk, flags and counts. -/
def State.compute (s : State) (m : MCmd) (o : TileOps) (sq count : Bool) (old : Tile) : Computed :=
  let slotsA := m.ra.claimSlots (pairsOf o)
  let a := s.operand m.ra slotsA
  let badA := s.spoilt m.ra slotsA
  let feeds := (m.feeds o).map fun f => (f, s.operand m.rb f.slots, s.spoilt m.rb f.slots)
  let rule := (pairRule m.ra.fmt m.rb.fmt).getD (true, 1)
  let rB := m.rb.rows
  let feedOf (i : Nat) := feeds.find? fun f => decide (f.1.row0 ≤ i) && decide (i < f.1.row0 + f.1.rows)
  let accs : List (List Acc) := (List.range 128).map fun i =>
    match feedOf i with
    | none => (List.range 128).map fun j => { val := old.at i j }
    | some (_, b, badB) => (List.range 128).map fun j =>
        if j ≥ rB then { val := old.at i j }
        else if badA.all || badB.all || badA.rows.contains i || badB.rows.contains j then { val := nan32 }
        else accumulate sq rule.1 (a.row i) (b.row j) (a.scale i) (b.scale j) m.mode.rnd
          (fun k => { mode := m.mode.rnd, seed := m.seed, c := coordTile m.seq k i j }) (old.at i j)
  let tile : Tile := accs.map fun r => r.map (·.val)
  let lists : List (Option (List (Lane × Lane))) :=
    if !o.topk then []
    else (List.range 128).map fun i =>
      (feedOf i).map fun _ => best (o.kk.toNat + 1) ((List.range rB).map fun j =>
        { rank := if m.bias.isEmpty then tile.at i j else (fadd (tile.at i j) (m.bias.getD j 0#32) rmRne).val
          val := tile.at i j, idx := o.colbase.toNat + j, q := 0 })
  let counts := if !count then (0, 0)
    else feeds.foldl (fun n f =>
      let e := entryCounts sq a.kext rule.2 ((List.range f.1.rows).map fun i => a.row (f.1.row0 + i)) f.2.1.rows
      (n.1 + e.1, n.2 + e.2)) (0, 0)
  { tile := if o.topk && partsOf o = 1 then tileOfLists lists else tile
    lists
    fl := accs.foldl (fun f r => r.foldl (fun f x => f ||| x.fl) f) 0#5
    bad := badA.first.or (feeds.findSome? fun f => f.2.2.first)
    entries := counts.1, gated := counts.2
    prods := accs.foldl (fun n r => r.foldl (fun n x => n + x.prods) n) 0 }

/-! ## The end of a command (R238, R254, R255) -/

/-- The ordinary claims that a command pops or gives back. -/
def MCmd.claims (m : MCmd) : List (GNum × Nat) :=
  match m.inst with
  | .mma _ o | .msd _ o => [(o.ga, pairsOf o), (o.gb, pairsOf o)]
  | .mmaG _ o _ _ _ => [(o.ga, pairsOf o)]
  | .descStep _ o | .descWalk _ o => if o.keep then [] else [(o.ga, 1)]
  | _ => []

/-- The weight slots that a command holds (R277), each named once. -/
def MCmd.holds (m : MCmd) : List Nat :=
  match m.inst with
  | .mmaG _ o _ _ _ => (m.blocks.flatMap fun b =>
      (List.range (pairsOf o)).map fun j => o.gb.toNat * 4096 + (b.w + j) % m.rb.nslots).eraseDups
  | _ => []

/-- The claims of a command end without a pop: K goes back, and its holds end (R238, R277). -/
def Cell.giveBack (x : Cell) (m : MCmd) : Cell :=
  let x := m.claims.foldl (fun x p =>
    let r := x.getR p.1.toNat
    x.setR p.1.toNat { r with k := r.k - BitVec.ofNat 32 (min p.2 r.claimed) }) x
  { x with hold := m.holds.foldl (fun t k => tabSet 0 t k (tabGet 0 t k - 1)) x.hold }

/-- Every command that has not started gives its claims back, in a cycle. -/
def Cell.giveBackAll (x : Cell) (now : Nat) : Cell :=
  let ms := x.mcmds.filter fun m => m.claimed && !m.started
  let y := (ms.flatMap MCmd.claims).foldl (fun y p => y.ringDone p.1.toNat now (ringRank false .m)) (ms.foldl Cell.giveBack x)
  { y with mcmds := y.mcmds.map fun m => if m.started then m else { m with claimed := false, blocks := [], bias := [], logs := [] } }

/-- Pop n claimed slots; `none` where software has retired some of them (R238). -/
def Ring.popped (r : Ring) (n : Nat) : Option Ring :=
  if r.claimed < n then none else some { r with h := r.h + BitVec.ofNat 32 n }

/-- A fault that M raises before it issues its next instruction (R206). -/
def Cell.deferM (x : Cell) (t : TrapRec) : Cell := { x with engM := { x.engM with deferred := x.engM.deferred ++ [t] } }

/-- Slots of a command are popped; each ring whose pop is not applied leaves a deferred fault. -/
def Cell.popClaims (x : Cell) (now : Nat) (m : MCmd) : Cell :=
  m.claims.foldl (fun x p =>
    match (x.getR p.1.toNat).popped p.2 with
    | some r => (x.setR p.1.toNat r).ringDone p.1.toNat now (ringRank false .m)
    | none => x.deferM { ringTrap 4 with deferred := true, idx := some m.seq }) x

/-- Write one record of zero-and-log at a base in the executing cell's slice (R254). -/
def State.logRecord (s : State) (c : Nat) (base : Word) (rec : List Byte) : State :=
  let a := base.toNat
  let key (o : Nat) : List Nat := (List.range 32).map fun i => slicePa (((a - windowBase) / 0x800000)) ((a - windowBase) % 0x800000 + o + i)
  let n := leNat (((key 0).take 8).map s.byte)
  let s := s.puts (fullPuts (key (32 * (1 + n % 63))) rec)
  (s.puts (fullPuts ((key 0).take 8) (leBytes 8 (n + 1)))).count c 0x10A 1

/-- The records of a command, then the watch event of the writes (R254, R378). -/
def State.writeLogs (s : State) (c : Nat) (m : MCmd) : State :=
  match m.mode.zlog with
  | none => s
  | some base =>
    let t := m.logs.foldl (fun t r => t.logRecord c base r) s
    let n := leNat ((List.range 8).map fun i => s.byte (slicePa c ((base.toNat - windowBase) % 0x800000 + i)))
    let spots := (List.range m.logs.length).map (fun i => (base.toNat + 32 * (1 + (n + i) % 63), 32)) ++
      (if m.logs.isEmpty then [] else [(base.toNat, 8)])
    match spots.findSome? fun p => (s.cell c).watched false true p.1 p.2 with
    | some a => t.postWatch c { channel := 0xFF#8, ord := m.seq, addr := BitVec.ofNat 64 a }
    | none => t

/-- A command completes: tile, logs, flags, counts, closing, pops, holds, deferred errors, and its retirement. -/
def State.completeTile (s : State) (c : Nat) (m : MCmd) (k : Computed) (cl : Bool) : State :=
  let s := (s.writeLogs c m).effects c .m k.fl 0
  let now := s.cycle
  let s := s.modCell c fun x =>
    let x := (x.setT m.tile k.tile).popClaims now m
    let x := { x with
      hold := m.holds.foldl (fun t h => tabSet 0 t h (tabGet 0 t h - 1)) x.hold
      mcmds := x.mcmds.filter (fun o => o.id != m.id) }
    let x := if cl then x.close m.tile else x
    let x := match k.bad with
      | some (va, pa) => x.deferM { cause := cEcc, deferred := true, idx := some m.seq, addr := va, phys := some pa }
      | none => x
    x.flush .m
  s

/-- The counts of R233 that a command adds in the cell that ran it. -/
def State.countTile (s : State) (c : Nat) (k : Computed) : State :=
  ((s.count c 0x100 k.entries).count c 0x101 k.prods).count c 0x102 k.gated

/-! ## Moving and zeroing (R245, R246) -/

/-- MZERO.open. -/
def execMzeroOpen (h : Hdr) (cnt : BitVec 7) (s : State) : Host.Outcome State Fault Refusal :=
  issue h [] s fun s =>
    let n := cnt.toNat + 1
    if s.here.openTiles + n > Config.tiles then .wait s .other
    else .done (s.modHere fun x =>
      let ts := (List.range n).map fun i => x.tF + BitVec.ofNat 32 i
      let y := ts.foldl (fun y t => (y.setT t zeroTile).mendTile t) x
      { y with
        closed := ts.foldl (fun (b : BitVec 16) t => b &&& ~~~(BitVec.ofNat 16 (2 ^ tileSlot t))) y.closed
        tF := y.tF + BitVec.ofNat 32 n })

/-- MZERO of one tile, after the older commands that name it. -/
def execMzero (h : Hdr) (ti : BitVec 4) (cl : Bool) (s : State) : Host.Outcome State Fault Refusal :=
  issue h [] s fun s =>
    let x := s.here
    let t := x.tileNo ti
    if x.mcmds.any fun m => m.tile == t then .wait s .other
    else
      match x.tileTrap ti true false with
      | some r => .trap r
      | none => .done (s.modHere fun x => let y := (x.setT t zeroTile).mendTile t; if cl then y.close t else y)

/-- Piece p of a tile as a register image. -/
def Tile.piece (t : Tile) (p : Nat) : List Lane :=
  (List.range 16).flatMap fun r => ((t.getD (16 * (p / 2) + r) []).drop (64 * (p % 2))).take 64

/-- A tile with piece p replaced by a register image. -/
def Tile.setPiece (t : Tile) (p : Nat) (v : List Lane) : Tile :=
  t.zipIdx.map fun row =>
    if row.2 / 16 = p / 2 then
      row.1.take (64 * (p % 2)) ++ (v.drop (64 * (row.2 % 16))).take 64 ++ row.1.drop (64 * (p % 2) + 64)
    else row.1

/-- MACC: a join that moves pieces into registers. -/
def execMacc (h : Hdr) (ti : BitVec 4) (vr : VNum) (cnt : BitVec 7) (p : BitVec 4) (s : State) :
    Host.Outcome State Fault Refusal :=
  issue h [] s fun s =>
    let x := s.here
    if !x.mcmds.isEmpty then .wait s .other
    else
      match x.tileTrap ti false true with
      | some r => .trap r
      | none => .done ((List.range (cnt.toNat + 1)).foldl
          (fun s i => s.writeV (vr + BitVec.ofNat 10 i) ((x.getT (x.tileNo ti)).piece (p.toNat + i)) allLanes) s)

/-- MACW: a join that moves registers into pieces of a writable tile. -/
def execMacw (h : Hdr) (ti : BitVec 4) (vr : VNum) (cnt : BitVec 7) (p : BitVec 4) (cl : Bool) (s : State) :
    Host.Outcome State Fault Refusal :=
  issue h [] s fun s =>
    let x := s.here
    let t := x.tileNo ti
    if !x.mcmds.isEmpty then .wait s .other
    else
      match x.tileTrap ti true false with
      | some r => .trap r
      | none =>
        if (List.range (cnt.toNat + 1)).any fun i => x.badReg (1000 + vr.toNat + i) then .trap { cause := cEcc }
        else .done (s.modHere fun x =>
          let v := (List.range (cnt.toNat + 1)).foldl (fun v i => v.setPiece (p.toNat + i) (s.vrAt (vr.toNat + i))) (x.getT t)
          let y := x.setT t v
          let y := if cnt.toNat + 1 = 16 then y.mendTile t else y
          if cl then y.close t else y)

/-! ## Mode and lag entries (R247, R248, R254) -/

/-- The trap of a log base. -/
def State.logTrap (s : State) (base : Word) : Option TrapRec :=
  let a := base.toNat
  let own := windowBase + s.cur.cell * 0x800000
  if a % 64 ≠ 0 then some { cause := cAlign, addr := base }
  else
    match (List.range 2048).find? fun i => decide (a + i < own) || decide (own + (0x800000 - s.here.carve) ≤ a + i) with
    | some i => some { cause := cPerm, addr := base + BitVec.ofNat 64 i }
    | none => none

/-- MMODE. -/
def execMmode (h : Hdr) (rnd : Rnd) (zlog : Bool) (sa : SReg) (s : State) : Host.Outcome State Fault Refusal :=
  issue h [sa] s fun s =>
    if zlog then
      match s.logTrap (s.getS sa) with
      | some t => .trap t
      | none => .done (s.modHere fun x => { x with mode := { rnd, zlog := some (s.getS sa) } })
    else .done (s.modHere fun x => { x with mode := { rnd, zlog := none } })

/-- MLAGSET. -/
def execMlagset (h : Hdr) (n : BitVec 2) (s : State) : Host.Outcome State Fault Refusal :=
  issue h [] s fun s => .done (s.modHere fun x => { x with lag := n.toNat })

/-! ## EPI (R249) -/

/-- The activation of an element. -/
def activate (act : Activation) (y : Lane) : Res Lane :=
  match act with
  | .none => { val := y }
  | .relu =>
    if (value32 y).isNan then { val := nan32 }
    else if fvLt (.fin false 0 1) (value32 y) then { val := y } else { val := 0#32 }
  | .tanh => finishExact (special 5 (value32 y)) rmRne
  | .sigm => finishExact (special 6 (value32 y)) rmRne

/-- The value that EPI stores for element (i, j), with the flags on the way. -/
def epiValue (t : Tile) (bias : Option (List Lane)) (act : Activation) (i j : Nat) : Res Lane :=
  let y : Res Lane := match bias with
    | some b => fadd (t.at i j) (lane b j) rmRne
    | none => { val := t.at i j }
  let z := activate act y.val
  { val := z.val, fl := y.fl ||| z.fl }

/-- EPI: the closed tile at the drain end leaves for memory. -/
def execEpi (h : Hdr) (sa sb : SReg) (vr : VNum) (cnt : BitVec 7) (fmt : Fmt) (cvt : Cvt) (act : Activation)
    (cols : BitVec 7) (imm : Lane) (bias scale : Bool) (s : State) : Host.Outcome State Fault Refusal :=
  issue h [sa, sb] s fun s =>
    let x := s.here
    let c := s.cur.cell
    if x.openTiles = 0 || !x.isClosed x.tD then .wait s .other
    else if x.badReg (2000 + tileSlot x.tD) || (bias && x.badReg (1000 + vr.toNat)) then .trap { cause := cEcc }
    else
      let n := cols.toNat + 1
      let t := x.getT x.tD
      let b := if bias then some (s.vrAt vr.toNat) else none
      let sc : FVal := if scale then value32 imm else .fin false 1 1
      let place (l : Nat) : Place := placeAt fmt (s.getS sa + BitVec.ofNat 64 (l / n) * s.getS sb) (l % n)
      let els := (List.range ((cnt.toNat + 1) * n)).map fun l => (l, place l)
      match s.elements .store (elemBytes fmt) (els.map fun p => (p.1, p.2.va)) with
      | .error e => .trap e.2
      | .ok kss =>
        let r := storeGo fmt (fun l p =>
          let y := epiValue t b act (l / n) (l % n)
          let z := storeElem fmt cvt sc y.val { mode := cvtRnd cvt, seed := x.seed, c := coordMem c p.va.toNat p.hi }
          { z with fl := y.fl ||| z.fl }) els kss
        let vas := els.map fun p => p.2.va
        .done ((((s.countBytes c vas kss.flatten).access (placesOf kss vas) (.store (s.notPeerObject r.1) none)).effects c .w
            r.2.1 r.2.2).modHere
          fun x => { x with
            tD := x.tD + 1
            closed := x.closed &&& ~~~(BitVec.ofNat 16 (2 ^ tileSlot x.tD)) })

end Sys2Proof.Machine
end

