-- ==== Sys2Proof/Machine/Descent.lean ====
section
/-! DEFINITION. Tree descent, topology tables and grouped products (10 R257–R281): DESC.STEP, DESC.WALK, DESC.PATH,
DESC.GROUP and the issue of MMA.G. -/

namespace Sys2Proof.Machine

/-! ## The path trace (R260) -/

/-- A path-trace entry by fields. -/
structure Trace where
  zero : Bool
  nan : Bool
  done : Bool
  valid : Bool
  index : Nat
  depth : Nat
  path : Nat
deriving DecidableEq, Repr

/-- The fields of an entry. -/
def Trace.of (w : Word) : Trace :=
  { zero := w.getLsbD 51, nan := w.getLsbD 50, done := w.getLsbD 49, valid := w.getLsbD 48
    index := bitsAt w.toNat 24 16, depth := bitsAt w.toNat 16 5, path := bitsAt w.toNat 0 16 }

/-- The word of an entry. -/
def Trace.word (t : Trace) : Word :=
  BitVec.ofNat 64 (t.path + t.depth * 2 ^ 16 + t.index * 2 ^ 24 + (if t.valid then 2 ^ 48 else 0) +
    (if t.done then 2 ^ 49 else 0) + (if t.nan then 2 ^ 50 else 0) + (if t.zero then 2 ^ 51 else 0))

/-- An entry is consistent (R260). -/
def traceOk (w : Word) : Bool :=
  let t := Trace.of w
  bitsAt w.toNat 52 12 == 0 && bitsAt w.toNat 40 8 == 0 && bitsAt w.toNat 21 3 == 0 && decide (t.depth ≤ 16) &&
  decide (t.index < 2 ^ t.depth) && t.path / 2 ^ t.depth == 0 && (t.valid || !t.done)

/-- Entry i of a cell's path trace. -/
def Cell.trace (x : Cell) (i : Nat) : Word := tabGet 0#64 x.path i

/-- All entries of the path trace. -/
def Cell.traces (x : Cell) : List Word := (List.range 128).map x.trace

/-- The path trace replaced, with its errors gone (R435). -/
def Cell.setTraces (x : Cell) (ws : List Word) : Cell :=
  { x with
    path := tabRun 0#64 0 ws
    regErr := if x.regErr.isEmpty then x.regErr else x.regErr.filter fun e => !(decide (8000 ≤ e.1) && decide (e.1 < 8128)) }

/-- A word of the path trace has an uncorrectable error (R435). -/
def Cell.badPath (x : Cell) : Bool := (List.range 128).any fun i => x.badReg (8000 + i)

/-- The trace under .init, for a slot of rA rows (R263). -/
def startTraces (rA : Nat) : List Word := (List.range 128).map fun i => if i < rA then BitVec.ofNat 64 (2 ^ 48) else 0#64

/-- The trace lets a descent of depth D over rA rows issue (R260). -/
def tracesOk (d rA : Nat) (ws : List Word) : Bool :=
  ws.zipIdx.all fun p =>
    let t := Trace.of p.1
    !t.valid || (traceOk p.1 && (t.done || (decide (t.depth < d) && decide (p.2 < rA))))

/-! ## Issue of a descent (R258, R259, R263) -/

/-- The rings of a descent fit (R259), and can be read at all (R225, R80). R259 names no cause for a ring whose gfmt is reserved:
it is 0x3B here; placement and codebooks take 0x31 and 0x32 with units 2 and 6 (assumption log 84). -/
def State.treeTrap (s : State) (o : DescOps) : Option TrapRec :=
  let x := s.here
  let a := x.getR o.ga.toNat
  let t := x.getR o.gc.toNat
  if x.badReg (5000 + o.ga.toNat) || x.badReg (5000 + o.gc.toNat) then some { cause := cEcc }
  else if a.nslots = 0 || t.nslots = 0 then some (ringTrap 5)
  else if t.rowsM1 ≠ 0 || t.kext ≠ a.kext || t.nslots < 2 ^ o.split.toNat - 1 || a.reserved || t.reserved ||
          (pairRule a.fmt t.fmt).isNone then some (metaArray 0x3B 6 o.gc.toNat x.seq)
  else if a.misplaced then some (metaArray 0x31 2 o.ga.toNat x.seq)
  else if t.misplaced then some (metaArray 0x31 6 o.gc.toNat x.seq)
  else (s.bookTrap a 2 o.ga.toNat x.seq).or (s.bookTrap t 6 o.gc.toNat x.seq)

/-- A command is a descent. -/
def MCmd.descent (m : MCmd) : Option (DescOps × Bool) :=
  match m.inst with
  | .descStep _ o => some (o, false)
  | .descWalk _ o => some (o, true)
  | _ => none

/-- The claim of a descent, with the trap of its margin tile; a command issued again has no trace check. -/
def State.claimDescent (s : State) (o : DescOps) (first : Bool) (tile : Option TrapRec) (m : MCmd) : Claim :=
  match (s.treeTrap o).or tile with
  | some t => .trap t
  | none =>
    let x := s.here
    let a := x.getR o.ga.toNat
    if first && x.mcmds.any (fun k => k.descent.isSome) then .wait .other
    else if first && !o.init && x.badPath then .trap { cause := cEcc }
    else if first && !tracesOk o.depth.toNat a.rows (if o.init then startTraces a.rows else x.traces) then
      .trap (metaArray 0x3E 6 o.gc.toNat x.seq)
    else if (!o.keep && !s.ringTurnM o.ga) || a.ready < 1 then .wait .slots
    else
      match s.slotTrap a (a.claimSlots 1) with
      | some t => .trap t
      | none =>
        .take (if o.keep then s else s.modHere fun x => x.claim s.cycle o.ga 1)
          { m with ra := a, rb := x.getR o.gc.toNat, claimed := true }

/-- DESC.STEP. -/
def execDescStep (h : Hdr) (o : DescOps) (s : State) : Host.Outcome State Fault Refusal :=
  issue h [o.sb] s fun s => issueTile (.descStep h o) o.ti 0#64 (s.getS o.sb) (s.claimDescent o true) s

/-- DESC.WALK. -/
def execDescWalk (h : Hdr) (o : DescOps) (s : State) : Host.Outcome State Fault Refusal :=
  issue h [o.sb] s fun s => issueTile (.descWalk h o) o.ti 0#64 (s.getS o.sb) (s.claimDescent o true) s

/-! ## The levels of a descent (R258, R264–R266) -/

/-- NodeAddr: the address of node x of level l, and whether it is near. -/
def nodeAddr (o : DescOps) (t : Ring) (base : Word) (l x : Nat) : Word × Bool :=
  if l < o.split.toNat then (t.addr (2 ^ l - 1 + x), true)
  else (base + BitVec.ofNat 64 (2 ^ l - 2 ^ o.split.toNat + x) * BitVec.ofNat 64 t.slotSize, false)

/-- The deferred fault of a node (R266). -/
def nodeFault (seq l : Nat) (va : Word) (t : TrapRec) : TrapRec :=
  { t with deferred := true, idx := some seq, unit := l, addr := va }

/-- The keys of a node vector, or the fault of its address. -/
def State.nodeKeys (s : State) (o : DescOps) (m : MCmd) (l x : Nat) : Except TrapRec (List Nat) :=
  let t := m.rb
  let (va, near) := nodeAddr o t m.sb l x
  if near then
    match s.slotTrap t [2 ^ l - 1 + x] with
    | some e => .error e
    | none => .ok ((List.range t.slotSize).map fun i => slicePa t.cell (t.slotOff (2 ^ l - 1 + x) + i))
  else s.span .far va t.slotSize

/-- A node vector: its nonzero elements and the scale of each position. Its bytes are read as loads of M read theirs: each
aligned element as memory holds it, or as M has read it ahead since it claimed (R258, R300, R305). -/
def State.node (s : State) (o : DescOps) (m : MCmd) (l x : Nat) : Except TrapRec (Row × List FVal) :=
  let t := m.rb
  let va := (nodeAddr o t m.sb l x).1
  match s.nodeKeys o m l x with
  | .error e => .error (nodeFault m.seq l va e)
  | .ok ks =>
    match s.eccTrap va ks with
    | some e => .error (nodeFault m.seq l va e)
    | none =>
      let bs := s.readFor s.cur.cell .m (max 1 (fmtBits t.fmt / 8)) ks
      let rd : Bytes := fun i => bs.getD i 0#8
      match (slotRow t t.fmt rd 0).2 with
      | w :: _ =>
        let a := va.toNat + w.off
        .error (nodeFault m.seq l va
          { cause := cMeta, info := metaInfo w.cause 6 o.gc.toNat 1 m.seq w.row w.pos a (s.observed a) })
      | [] =>
        .ok (valuesOf t (s.codebook t) rd 0,
          if t.scaled then (List.range (ceilDiv t.kext 32)).map fun b => slotScale t t.fmt rd 0 b else [])

/-- A descent on its way: trace, margin tile, flags, counts of nodes and row-levels, and the fault that ended it. -/
structure Walk where
  traces : List Word
  tile : Tile
  fl : Flags := 0#5
  nodes : Nat := 0
  rows : Nat := 0
  /-- addresses and keys of the node vectors read -/
  vas : List Word := []
  keys : List Nat := []
  fault : Option TrapRec := none
deriving DecidableEq, Repr

/-- Insert by node index, then by row (R265). -/
def insertRow (e : Nat × Nat) : List (Nat × Nat) → List (Nat × Nat)
  | [] => [e]
  | d :: r => if d.1 < e.1 || (d.1 = e.1 && d.2 < e.2) then d :: insertRow e r else e :: d :: r

/-- Rows that take part in a level, in the order of R265: node index and row. -/
def levelRows (ws : List Word) : List (Nat × Nat) :=
  ((ws.zipIdx.filter fun p => let t := Trace.of p.1; t.valid && !t.done).map
    fun p => ((Trace.of p.1).index, p.2)).foldr insertRow []

/-- The nodes that a level fetches, each once, or the fault of the first that fails. -/
def State.fetchNodes (s : State) (o : DescOps) (m : MCmd) :
    List (Nat × Nat) → Except TrapRec (List ((Nat × Nat) × Row × List FVal))
  | [] => .ok []
  | n :: r =>
    match s.node o m n.1 n.2 with
    | .error t => .error t
    | .ok v =>
      match s.fetchNodes o m r with
      | .error t => .error t
      | .ok vs => .ok ((n, v) :: vs)

/-- One row of a level: its new entry, margin elements and flags. -/
def stepRow (o : DescOps) (m : MCmd) (a : Operand) (bad : Spoilt)
    (nodes : List ((Nat × Nat) × Row × List FVal)) (w : Walk) (i : Nat) : Walk :=
  let t := Trace.of (w.traces.getD i 0#64)
  let l := t.depth
  let x := t.index
  match nodes.find? fun n => n.1 == (l, x) with
  | none => w
  | some (_, row, scales) =>
    let rule := (pairRule m.ra.fmt m.rb.fmt).getD (true, 1)
    let acc := accumulate false rule.1 (a.row i) row (a.scale i)
      (fun k => if scales.isEmpty then .fin false 1 1 else scales.getD (k / 32) (.fin false 1 1)) m.mode.rnd
      (fun k => { mode := m.mode.rnd, seed := m.seed, c := coordTile m.seq k i l }) 0#32
    let d := if bad.all || bad.rows.contains i then nan32 else acc.val
    let right := !fvLt (value32 d) (.fin false 0 1)
    let t' : Trace :=
      { zero := t.zero || (value32 d).isZero, nan := t.nan || (value32 d).isNan, valid := true
        done := decide (l + 1 = o.depth.toNat), index := 2 * x + right.toNat, depth := l + 1
        path := t.path + right.toNat * 2 ^ l }
    let margin := setAt (setAt (w.tile.getD i []) l d) (16 + l) (BitVec.ofNat 32 x)
    { w with traces := setAt w.traces i t'.word, tile := setAt w.tile i margin, fl := w.fl ||| acc.fl }

/-- Levels of a descent: at most n of them, until no row takes part or a node faults. -/
def State.levels (s : State) (o : DescOps) (m : MCmd) (a : Operand) (bad : Spoilt) : Nat → Walk → Walk
  | 0, w => w
  | n + 1, w =>
    let rows := levelRows w.traces
    if rows.isEmpty then w
    else
      let names := (rows.map fun p => ((Trace.of (w.traces.getD p.2 0#64)).depth, p.1)).eraseDups
      match s.fetchNodes o m names with
      | .error t => { w with fault := some t }
      | .ok nodes =>
        let w' := (rows.map (·.2)).foldl (stepRow o m a bad nodes) w
        s.levels o m a bad n
          { w' with
            nodes := w.nodes + names.length, rows := w.rows + rows.length
            vas := w.vas ++ names.map fun p => (nodeAddr o m.rb m.sb p.1 p.2).1
            keys := w.keys ++ names.flatMap fun p => (s.nodeKeys o m p.1 p.2).toOption.getD [] }

/-- A whole descent over the trace and margin tile of its cell. -/
def State.walkTree (s : State) (o : DescOps) (whole : Bool) (m : MCmd) : Walk :=
  let x := s.here
  let slots := m.ra.claimSlots 1
  s.levels o m (s.operand m.ra slots) (s.spoilt m.ra slots) (if whole then 16 else 1)
    { traces := if o.init then startTraces m.ra.rows else x.traces, tile := x.getT m.tile }

/-! ## DESC.PATH (R267) -/

/-- DESC.PATH. -/
def execDescPath (h : Hdr) (vr : VNum) (s : State) : Host.Outcome State Fault Refusal :=
  issue h [] s fun s =>
    if !s.here.mcmds.isEmpty then .wait s .other
    else if s.here.badPath then .trap { cause := cEcc }
    else
      let ws := s.here.traces
      .done (s.writeV vr ((ws.flatMap fun w => [lo32 w, lo32 (w >>> 32)]) ++ List.replicate 768 0#32) allLanes)

/-- DESC.PATH.load. -/
def execDescPathLoad (h : Hdr) (vr : VNum) (s : State) : Host.Outcome State Fault Refusal :=
  issue h [] s fun s =>
    if !s.here.mcmds.isEmpty then .wait s .other
    else if s.here.badReg (1000 + vr.toNat) then .trap { cause := cEcc }
    else
      let v := s.vr vr
      let ws : List Word := (List.range 128).map fun i => lane v (2 * i + 1) ++ lane v (2 * i)
      if ws.all traceOk then .done (s.modHere fun x => x.setTraces ws)
      else .trap (metaArray 0x3E 6 0 s.here.seq)

/-! ## Topology tables (R268–R272) -/

/-- W(G, K) of R272. -/
def tableMax (g k : Nat) : Nat :=
  let t := ceilDiv k 128
  64 + roundUp (8 * g) 16 + roundUp (8 * t) 16 + 16 * k + 512 * t + roundUp (4 * k) 16

/-- Cut positions into blocks: at every tile boundary and at every change of group. Each is (group, position, rows). -/
def cutBlocks (perm : List (Nat × Nat)) : List (Nat × Nat × Nat) :=
  perm.zipIdx.foldr (fun e acc =>
    match acc with
    | (g, p, n) :: r => if g = e.1.1 && p % 128 ≠ 0 then (g, e.2, n + 1) :: r else (e.1.1, e.2, 1) :: acc
    | [] => [(e.1.1, e.2, 1)]) []

/-- Sections one after another from an offset, each at a multiple of 16. -/
def layOut : Nat → List (List Byte) → List Nat
  | _, [] => []
  | at', x :: r => at' :: layOut (roundUp (at' + x.length) 16) r

/-- The bytes of sections. R270 does not say what lies between the end of one and the next multiple of 16: zeros are written
here (assumption log 158). -/
def joinSections : List (List Byte) → List Byte
  | [] => []
  | [x] => x
  | x :: r => pad16 x ++ joinSections r

/-- A table from the tokens offered to each group in ascending source index, and its overflow as (group, source). -/
def buildTable (offers : List (List Nat)) (cap flags : Nat) (list spill : Bool) : List Byte × List (Nat × Nat) :=
  let take (l : List Nat) : List Nat := if cap = 0 then l else l.take cap
  let rest (l : List Nat) : List Nat := if cap = 0 then [] else l.drop cap
  let perm := offers.zipIdx.flatMap fun p => (take p.1).map fun x => (p.2, x)
  let beyond := offers.zipIdx.flatMap fun p => (rest p.1).map fun x => (p.2, x)
  let ntok := perm.length
  let t := ceilDiv ntok 128
  let blocks := cutBlocks perm
  let counts := offers.flatMap fun l => leBytes 4 (take l).length ++ leBytes 4 l.length
  let tiles := (List.range t).flatMap fun i =>
    let mine := blocks.zipIdx.filter fun b => b.1.2.1 / 128 == i
    leBytes 4 ((mine.head?.map (·.2)).getD 0) ++ leBytes 2 mine.length ++ leBytes 2 (min 128 (ntok - 128 * i))
  let blks := blocks.flatMap fun b =>
    leBytes 4 b.1 ++ leBytes 1 (b.2.1 % 128) ++ leBytes 1 (b.2.2 - 1) ++ leBytes 2 (b.1 % 4096) ++ leBytes 4 b.2.1 ++ leBytes 4 0
  let permB := (perm.flatMap fun p => leBytes 4 p.2) ++ List.replicate (4 * (128 * t - ntok)) 0xFF#8
  let ovf := if list then beyond.flatMap fun p => leBytes 2 p.2 ++ leBytes 2 p.1 else []
  let secs := [counts, tiles, blks, permB, ovf]
  let head := leBytes 8 t ++ leBytes 8 blocks.length ++ leBytes 4 offers.length ++ leBytes 4 ntok ++
    leBytes 4 (if list then beyond.length else 0) ++ leBytes 4 (if spill then beyond.length else 0) ++
    (layOut 64 secs).flatMap (leBytes 4) ++ leBytes 4 cap ++ [0#8] ++ leBytes 1 flags ++ List.replicate 6 0#8
  (head ++ joinSections secs, beyond)

/-- The tokens offered to each of G groups: lanes of a register, or finished rows of the path trace (R270). -/
def State.offers (s : State) (keys : Bool) (vr : VNum) (g : Nat) : List (List Nat) :=
  let src : List (Nat × Nat) :=
    if keys then (s.vr vr).zipIdx.map fun p => (p.1.toNat, p.2)
    else s.here.traces.zipIdx.filterMap fun p =>
      let t := Trace.of p.1
      if t.valid && t.done then some (t.index, p.2) else none
  (List.range g).map fun k => (src.filter fun p => p.1 == k).map (·.2)

/-- The first byte that a write of M would place in a live barrier object (R286). -/
def State.objectTrap (s : State) (va : Word) (ks : List Nat) : Option TrapRec :=
  if s.barriers.isEmpty then none
  else (findIdx? (fun k => decide (paClass k < 2) && s.meetsBarrier [k]) ks).map
    fun i => { cause := cBar, detail := 1, addr := va + BitVec.ofNat 64 i }

/-- The keys that DESC.GROUP writes for its table, or the trap. -/
def State.tableKeys (s : State) (t : Ring) (n : Nat) : Except TrapRec (List Nat) :=
  let ks := (List.range n).map fun i => slicePa t.cell (t.offset + i)
  match ks.find? fun k => (s.homeCheck s.here.asid k).isSome with
  | some _ => .error { cause := cPerm, addr := t.addr 0 }
  | none =>
    match s.objectTrap (t.addr 0) ks with
    | some e => .error e
    | none => .ok ks

/-- The keys of a spill area: local HBM, or the device scratchpad window (R272). -/
def State.spillKeys (s : State) (va : Word) (n : Nat) : Except TrapRec (List Nat) :=
  if va.toNat % 64 ≠ 0 then .error { cause := cAlign, addr := va } else s.span .area va n

/-- The step of a bias table (R278, R279). -/
def State.biasStep (s : State) (va : Word) (g : Nat) : Except TrapRec Lane :=
  if va.toNat % 16 ≠ 0 then .error { cause := cAlign, addr := va }
  else
    match s.span .load va 4 with
    | .error t => .error t
    | .ok ks =>
      match s.eccTrap va ks with
      | some t => .error t
      | none =>
        let step : Lane := BitVec.ofNat 32 (leNat (s.readFor s.cur.cell s.cur.eng 4 ks))
        if (value32 step).isFin then .ok step else .error (metaArray 0x3D 5 g s.here.seq)

/-- The biases that a grouping changes: address keys and addend (R279). -/
def State.biasWrites (s : State) (va : Word) (step : Lane) (offers : List (List Nat)) : Except TrapRec (List (Word × List Nat × Lane)) :=
  let total := offers.foldl (fun n l => n + l.length) 0
  (offers.zipIdx.filter fun p => p.1.length * offers.length != total).foldr (fun p acc =>
    let a := va + BitVec.ofNat 64 (16 + 4 * p.2)
    match s.span .atomic a 4 with
    | .error t => .error t
    | .ok ks =>
      match (s.objectTrap a ks).or (s.eccTrap a ks) with
      | some t => .error t
      | none =>
        match acc with
        | .error t => .error t
        | .ok r => .ok ((a, ks, if p.1.length * offers.length < total then step else step ^^^ 0x80000000#32) :: r)) (.ok [])

/-- The watch event of M's writes (R378). -/
def State.watchWrites (s : State) (spots : List (Word × Nat)) (seq : Nat) : State :=
  if s.here.watch.isEmpty then s
  else
    match spots.findSome? fun p => s.here.watched false true p.1.toNat p.2 with
    | some a => s.postWatch s.cur.cell { channel := 0xFF#8, ord := seq, addr := BitVec.ofNat 64 a }
    | none => s

/-- Some bytes that the executing engine has read or written: they count, and no later read of it returns an older value of
them (R35, R301). -/
def State.usedBytes (s : State) (vas : List Word) (ks : List Nat) : State :=
  (s.countBytes s.cur.cell vas ks).spent s.cur.cell s.cur.eng ks

/-- DESC.GROUP: a join that writes a topology table, its overflow, and the biases (R270–R273, R279). -/
def execDescGroup (h : Hdr) (gc : GNum) (sa sb : SReg) (vr : VNum) (keys spill bias : Bool) (g1 cap : BitVec 16)
    (s : State) : Host.Outcome State Fault Refusal :=
  issue h [sa, sb] s fun s =>
    let x := s.here
    let t := x.getR gc.toNat
    let g := g1.toNat + 1
    let w := tableMax g (if keys then 1024 else 128)
    if !x.mcmds.isEmpty then .wait s .other
    else if x.badReg (5000 + gc.toNat) then .trap { cause := cEcc }
    else if t.nslots * t.slotSize < w then .trap (metaArray 0x3A 5 gc.toNat x.seq)
    else if (if keys then x.badReg (1000 + vr.toNat) else x.badPath) then .trap { cause := cEcc }
    else
      match (if spill then s.spillKeys (s.getS sa) w else .ok []) with
      | .error e => .trap e
      | .ok sks =>
        match (if bias then s.biasStep (s.getS sb) gc.toNat else .ok 0#32) with
        | .error e => .trap e
        | .ok step =>
          let offers := s.offers keys vr g
          let flags := spill.toNat + 2 * keys.toNat
          let main := buildTable offers cap.toNat flags (!spill) spill
          let second := (buildTable ((List.range g).map fun k => (main.2.filter fun p => p.1 == k).map (·.2)) 0 flags false false).1
          match s.tableKeys t main.1.length with
          | .error e => .trap e
          | .ok tks =>
            match s.objectTrap (s.getS sa) (sks.take second.length) with
            | some e => .trap e
            | none =>
            match (if bias then s.biasWrites (s.getS sb) step offers else .ok []) with
            | .error e => .trap e
            | .ok adds =>
              let written := sks.take second.length
              let stepKeys := if bias then (s.span .load (s.getS sb) 4).toOption.getD [] else []
              let s := s.puts (fullPuts tks main.1)
              let s := if spill then s.puts (fullPuts sks second) else s
              let s := adds.foldl (fun s a => (s.atomic .fadd false a.2.1 (a.2.2.setWidth 64) 0#64).1) s
              let s := s.watchWrites ([(t.addr 0, main.1.length)] ++ (if spill then [(s.getS sa, second.length)] else []) ++
                adds.map fun a => (a.1, 4)) x.seq
              let s := (s.usedBytes [] tks).usedBytes (if spill then [s.getS sa] else []) written
              let s := (s.usedBytes (if bias then [s.getS sb] else []) stepKeys).usedBytes (adds.map (·.1)) (adds.flatMap (·.2.1))
              .done (s.count s.cur.cell 0x113 main.2.length)

/-! ## MMA.G at issue (R274, R275, R277) -/

/-- The keys of bytes of a table by offset. -/
def Ring.tableAt (t : Ring) (off n : Nat) : List Nat := (List.range n).map fun i => slicePa t.cell (t.offset + off + i)

/-- A field of a table by offset: old or new by itself, where a write of the table is not ordered (R275). -/
def State.tableBytes (s : State) (t : Ring) (off n : Nat) : Nat := leNat (s.readFor s.cur.cell .m n (t.tableAt off n))

/-- A table byte that may not be read, or that has an error. -/
def State.tableTrap (s : State) (t : Ring) (off n : Nat) : Option TrapRec :=
  let ks := t.tableAt off n
  let va := t.addr 0 + BitVec.ofNat 64 off
  match findIdx? (fun k => (s.homeCheck s.here.asid k).isSome) ks with
  | some i => some { cause := cPerm, addr := va + BitVec.ofNat 64 i }
  | none => s.eccTrap va ks

/-- Block entries in ascending row0 without overlap, within a tile's rows (R275). -/
def blocksOk (rows g n : Nat) : Nat → List Block → Bool
  | _, [] => true
  | low, b :: r => decide (low ≤ b.row0) && decide (b.row0 + b.rows ≤ rows) && decide (b.group < g) && decide (b.w < n) &&
      blocksOk rows g n (b.row0 + b.rows) r

/-- The blocks of tile t of a table, or the trap (R268, R275). -/
def State.readTable (s : State) (gt : GNum) (tile : Nat) (rA nW : Nat) : Except TrapRec (List Block) :=
  let t := s.here.getR gt.toNat
  let seq := s.here.seq
  let area := t.nslots * t.slotSize
  let bad (c : Nat) : Except TrapRec (List Block) := .error (metaArray c 5 gt.toNat seq)
  if s.here.badReg (5000 + gt.toNat) then .error { cause := cEcc }
  else if area < 64 then bad 0x38
  else
    match s.tableTrap t 0 64 with
    | some e => .error e
    | none =>
      let f (o n : Nat) : Nat := s.tableBytes t o n
      let ntiles := f 0 8
      let nblocks := f 8 8
      let g := f 16 4
      let secs := [(f 32 4, 8 * g), (f 36 4, 8 * ntiles), (f 40 4, 16 * nblocks), (f 44 4, 512 * ntiles), (f 48 4, 4 * f 24 4)]
      if g = 0 || g > 65536 || f 56 1 ≠ 0 || f 57 1 ≥ 4 || f 58 6 ≠ 0 ||
         secs.any (fun p => p.1 % 16 != 0 || decide (area < p.1 + p.2)) then bad 0x38
      else if tile ≥ ntiles then bad 0x39
      else
        let te := f 36 4 + 8 * tile
        match s.tableTrap t te 8 with
        | some e => .error e
        | none =>
          let first := f te 4
          let cnt := f (te + 4) 2
          let rows := f (te + 6) 2
          if cnt = 0 || first + cnt > nblocks || rows > rA then bad 0x39
          else
            let bo := f 40 4 + 16 * first
            match s.tableTrap t bo (16 * cnt) with
            | some e => .error e
            | none =>
              let bs : List Block := (List.range cnt).map fun i =>
                { group := f (bo + 16 * i) 4, row0 := f (bo + 16 * i + 4) 1, rows := f (bo + 16 * i + 5) 1 + 1
                  w := f (bo + 16 * i + 6) 2 }
              if blocksOk rows g nW 0 bs then .ok bs else bad 0x39

/-- The bytes of a table that give the blocks of a tile: header, tile entry and block entries. -/
def State.tableRead (s : State) (gt : GNum) (tile : Nat) : List Nat :=
  let t := s.here.getR gt.toNat
  let te := s.tableBytes t 36 4 + 8 * tile
  t.tableAt 0 64 ++ t.tableAt te 8 ++
    t.tableAt (s.tableBytes t 40 4 + 16 * s.tableBytes t te 4) (16 * s.tableBytes t (te + 4) 2)

/-- The biases of columns colbase to colbase + n − 1 (R278); each is whole, and old or new by itself where an update of it is
not ordered (R280). -/
def State.readBias (s : State) (va : Word) (colbase n : Nat) : Except TrapRec (List Lane) :=
  if va.toNat % 16 ≠ 0 then .error { cause := cAlign, addr := va }
  else
    let a := va + BitVec.ofNat 64 (16 + 4 * colbase)
    match s.span .load a (4 * n) with
    | .error t => .error t
    | .ok ks =>
      match s.eccTrap a ks with
      | some t => .error t
      | none =>
        let bs := s.readFor s.cur.cell s.cur.eng 4 ks
        .ok ((List.range n).map fun j => BitVec.ofNat 32 (leNat ((bs.drop (4 * j)).take 4)))

/-- What MMA.G reads once at issue: checks, table and biases (R275, R278). -/
def State.planGrouped (s : State) (o : TileOps) (gc : GNum) (sb : SReg) (tile : Option TrapRec) (m : MCmd) :
    Except TrapRec MCmd :=
  match (s.ringChecks false o.ga o.gb (pairsOf o)).or (tile.or (s.homeTrap o)) with
  | some t => .error t
  | none =>
    let a := s.here.getR o.ga.toNat
    let b := s.here.getR o.gb.toNat
    match s.readTable gc m.sa.toNat a.rows b.nslots with
    | .error t => .error t
    | .ok bs =>
      match (if o.topk && sb != 0#6 then s.readBias m.sb o.colbase.toNat b.rows else .ok []) with
      | .error t => .error t
      | .ok bias => .ok { m with ra := a, rb := b, blocks := bs, bias }

/-- What MMA.G read at issue has been read: table and biases (R35, R301). -/
def State.groupedRead (s : State) (o : TileOps) (gc : GNum) (sb : SReg) (m : MCmd) : State :=
  let va := m.sb + BitVec.ofNat 64 (16 + 4 * o.colbase.toNat)
  let bias := o.topk && sb != 0#6
  let ks := if bias then (s.span .load va (4 * m.rb.rows)).toOption.getD [] else []
  (s.usedBytes [] (s.tableRead gc m.sa.toNat)).usedBytes (if bias then [va] else []) ks

/-- Every weight slot of a command is published, and no hold count would pass 255 (R275, R277). -/
def Cell.canHold (x : Cell) (o : TileOps) (m : MCmd) : Bool :=
  let r := x.getR o.gb.toNat
  m.holds.all fun k =>
    let j := k % 4096
    decide ((j + r.nslots - r.h.toNat % r.nslots) % r.nslots < r.used) && decide (tabGet 0 x.hold k < 255)

/-- Take the holds of a command. -/
def Cell.takeHolds (x : Cell) (m : MCmd) : Cell :=
  { x with hold := m.holds.foldl (fun t k => tabSet 0 t k (tabGet 0 t k + 1)) x.hold }

/-- The claim of the token slots, the last step of MMA.G's issue. -/
def State.claimTokens (s : State) (o : TileOps) (m : MCmd) : Claim :=
  let n := pairsOf o
  let a := s.here.getR o.ga.toNat
  if !s.ringTurnM o.ga || a.ready < n then .wait .slots
  else
    match (s.slotTrap a (a.claimSlots n)).or (s.slotTrap m.rb (m.holds.map (· % 4096))) with
    | some t => .trap t
    | none => .take (s.modHere fun x => x.claim s.cycle o.ga n) { m with ra := a, claimed := true }

/-- MMA.G all at once, for a command that is issued again (R238). -/
def State.claimGrouped (s : State) (o : TileOps) (gc : GNum) (sb : SReg) (m : MCmd) : Claim :=
  match s.planGrouped o gc sb none m with
  | .error t => .trap t
  | .ok m =>
    if !s.here.canHold o m then .wait .slots
    else
      match s.claimTokens o m with
      | .take t m => .take ((t.groupedRead o gc sb m).modHere fun x => x.takeHolds m) m
      | r => r

/-- MMA.G: the table is read once, then the weight slots are held, then the token slots are claimed, and SEED is read as
the command issues (R85). -/
def execMmaG (h : Hdr) (o : TileOps) (gc : GNum) (sa sb : SReg) (s : State) : Host.Outcome State Fault Refusal :=
  issue h [sa, sb] s fun s =>
    let x := s.here
    let hold (s : State) (m : MCmd) : Act :=
      match (s.claimTokens o m).prepassed with
      | .trap t => .trap t
      | .wait why => .wait (s.modHere fun x => { x with holding := some (m, true) }) why
      | .take t m => .done (((t.modHere fun x => { x with holding := none }).enqueueTile { m with seed := t.here.seed }).acquired
          t.cur.cell t.cur.eng)
    let publish (s : State) (m : MCmd) : Act :=
      if s.here.canHold o m then hold (s.modHere fun x => x.takeHolds m) m
      else .wait (s.modHere fun x => { x with holding := some (m, false) }) .slots
    if x.queued ≥ Config.arrayQueue || x.mcmds.any (fun m => !m.claimed) then .wait s .other
    else
      match x.holding with
      | some (m, true) => hold s m
      | some (m, false) => publish s m
      | none =>
        match s.planGrouped o gc sb (x.tileTrap o.ti true true)
          (s.newCommand (.mmaG h o gc sa sb) o.ti (s.getS sa) (s.getS sb)) with
        | .error t => .trap t
        | .ok m => publish (s.groupedRead o gc sb m) m

end Sys2Proof.Machine
end

