-- ==== Sys2Proof/Machine/Array.lean ====
section
/-! DEFINITION. The array at work (09 R228–R231, R238, R242–R244, R250–R255): the start and completion of commands,
the B window, partials and their merge, and commands that run on a sibling. -/

namespace Sys2Proof.Machine

/-- The array of a frozen cell stands still; started commands go on while a CTX.SAVE waits for them (R385). -/
def Cell.arrayStopped (x : Cell) : Bool := x.frozen.isSome && x.sup.stall != .save

/-! ## What a queued command is -/

/-- The tile fields of MMA, MSD and MMA.G, and whether it is MSD. -/
def MCmd.product (m : MCmd) : Option (TileOps × Bool) :=
  match m.inst with
  | .mma _ o | .mmaG _ o _ _ _ => some (o, false)
  | .msd _ o => some (o, true)
  | _ => none

/-- Partials of the command's merged tile; 1 for an ordinary command. -/
def MCmd.parts (m : MCmd) : Nat := (m.product.map fun p => partsOf p.1).getD 1

/-- The k blocks of a command are in the B window, or have been (R231). -/
def MCmd.windowDone (m : MCmd) : Bool :=
  match m.product with
  | some (o, _) => decide (ceilDiv (m.ra.kext * pairsOf o) 64 ≤ m.loaded + 4)
  | none => true

/-- A command that gave its claims back is issued again (R238). -/
def State.reissue (s : State) (m : MCmd) : Claim :=
  let seq := s.here.seq
  let s := s.modHere fun x => { x with seq := m.seq }
  let r :=
    match m.inst with
    | .mma _ o => s.claimPair false o none m
    | .msd _ o => s.claimPair true o none m
    | .mmaG _ o gc _ sb => s.claimGrouped o gc sb m
    | .descStep _ o | .descWalk _ o => s.claimDescent o false none m
    | _ => .wait .other
  match r.prepassed with
  | .take t m => .take (t.modHere fun x => { x with seq := seq }) m
  | r => r

/-- Change the command at one place of the queue. -/
def Cell.setCommand (x : Cell) (i : Nat) (m : MCmd) : Cell := { x with mcmds := setAt x.mcmds i m }

/-! ## Start and completion (R228, R238) -/

/-- Nothing that M issued before a command of its queue is outstanding: a trap at the command may be taken (R36, R238). -/
def State.trapOpen (s : State) (i : Nat) (m : MCmd) : Bool := i == 0 && s.here.engM.queue.all fun q => decide (m.id < q.id)

/-- A claimed command starts; under zero-and-log its pre-pass gives the records that it will write (R252, R254). -/
def State.startCommand (s : State) (i : Nat) (m : MCmd) (sib : Option Nat) : State :=
  let logs := if m.mode.zlog.isSome then s.prepass m else []
  s.modHere fun x => x.setCommand i { m with started := true, sibling := sib, logs }

/-- The rings that a command pops wait for no operation of this cycle (R182). -/
def State.mayPop (s : State) (m : MCmd) : Bool := m.claims.all fun p => s.ringTurnM p.1

/-- TILE_COMMAND_START: the oldest command that has not started; after CKPTLIM only one older than a started one. One that gave
its claims back claims again first, and what traps then traps at it once everything older has retired (R238). -/
def execTileCommandStart (c : Nat) (s : State) : Host.Outcome State Fault Refusal :=
  let t := s.asEngine c .m
  let x := t.here
  if !s.unfrozen c .m then idle s
  else
    match x.mcmds.zipIdx.find? fun p => !p.1.started with
    | none => idle s
    | some (m, i) =>
      if (x.preempt.any (·.timedOut) && !(x.mcmds.drop (i + 1)).any (·.started)) ||
         (x.mcmds.take i).any (fun k => k.sibling.isSome && k.tile == m.tile) then idle s
      else if m.claimed then .next (t.startCommand i m none)
      else
        match t.reissue m with
        | .wait _ => idle s
        | .trap r =>
          if t.trapOpen i m && s.unfrozen c .m then
            .next (((t.acts c .m).modHere fun x => x.giveBackAll t.cycle).takeTrapAt c .m m.pc r)
          else idle s
        | .take t m => .next (t.startCommand i m none)

/-- B_WINDOW_LOAD: the window frees its oldest block and loads the next (R231). -/
def execBWindowLoad (c : Nat) (s : State) : Host.Outcome State Fault Refusal :=
  if (s.cell c).arrayStopped then idle s
  else
    match (s.cell c).mcmds.zipIdx.find? fun p => p.1.started && p.1.sibling.isNone && !p.1.windowDone with
    | some (m, i) => .next (s.modCell c fun x => x.setCommand i { m with loaded := m.loaded + 1 })
    | none => idle s

/-- Bytes of n slots of a ring read by a cell, by the path they take (R35). -/
def State.countSlots (s : State) (c : Nat) (r : Ring) (n : Nat) : State :=
  s.count c (if r.cell = c then 0x58 else 0x59) (n * r.slotSize)

/-- What a product command computes, for the cell that runs it, with the counts of that cell. -/
def State.runProduct (s : State) (runner : Nat) (m : MCmd) (o : TileOps) (sq : Bool) : State × Computed :=
  let k := s.compute m o sq (!(s.cell runner).pevsel.isEmpty) (s.here.getT m.tile)
  let slots := ((m.feeds o).flatMap (·.slots)).eraseDups.length
  (((s.countTile runner k).countSlots runner m.ra (pairsOf o)).countSlots runner m.rb slots |>.count runner 0x112 m.blocks.length, k)

/-- A descent runs and completes (R263–R266): its trace and margin tile, then its pop, flags and fault. That .cl closes the
margin tile of a descent in which no row takes part is the model's choice (R263, R264; assumption log 157). -/
def State.completeDescent (s : State) (c : Nat) (m : MCmd) (o : DescOps) (whole : Bool) : State :=
  let w := s.walkTree o whole m
  let bad := s.spoilt m.ra (m.ra.claimSlots 1)
  let s := s.modHere fun x => x.setTraces w.traces
  let s := (((s.usedBytes w.vas w.keys).count c 0x110 w.nodes).count c 0x111 w.rows).countSlots c m.ra 1
  let s := s.completeTile c m { tile := w.tile, fl := w.fl, bad := bad.first } (o.cl && w.fault.isNone)
  match w.fault with
  | some t => s.modHere fun x => x.deferM t
  | none => s

/-- TILE_COMMAND_COMPLETE: the oldest command, once its products, its partial and its window are done. -/
def execTileCommandComplete (c : Nat) (s : State) : Host.Outcome State Fault Refusal :=
  let t := s.asEngine c .m
  match t.here.mcmds with
  | [] => idle s
  | m :: _ =>
    if t.here.arrayStopped || !m.started || m.sibling.isSome || !m.windowDone || !t.mayPop m then idle s
    else
      match m.descent with
      | some (o, whole) => .next (t.completeDescent c m o whole)
      | none =>
        match m.product with
        | none => idle s
        | some (o, sq) =>
          if m.parts > 1 then
            match m.computed with
            | some k => if m.delivered then .next (t.completeTile c m { k with tile := zeroTile } o.cl) else idle s
            | none => idle s
          else
            let r := t.runProduct c m o sq
            .next (r.1.completeTile c m r.2 o.cl)

/-! ## Partials (R242) -/

/-- Partials in a cluster's merge buffer. -/
def State.buffered (s : State) (cluster : Nat) : Nat := (s.mergeBuf.filter fun p => p.home / 4 == cluster).length

/-- PARTIAL_DELIVER: the oldest command's partial enters the buffer, once it has room. -/
def execPartialDeliver (c : Nat) (s : State) : Host.Outcome State Fault Refusal :=
  let t := s.asEngine c .m
  match t.here.mcmds with
  | [] => idle s
  | m :: _ =>
    match m.product with
    | none => idle s
    | some (o, sq) =>
      if t.here.arrayStopped || !m.started || m.sibling.isSome || m.delivered || m.parts ≤ 1 ||
         (m.computed.isNone && !m.windowDone) || t.buffered (c / 4) ≥ Config.mergeDepth then idle s
      else
        let r := match m.computed with
          | some k => (t, k)
          | none => t.runProduct c m o sq
        let k := r.2
        let p : Partial :=
          { asid := t.here.asid, home := homeCell o c, tag := o.tag, q := o.q.toNat, p := partsOf o, topk := o.topk
            tile := if o.topk then zeroTile else k.tile, lists := k.lists }
        let m' := { m with delivered := true, computed := some { k with tile := zeroTile, lists := [] } }
        .next ({ r.1 with mergeBuf := r.1.mergeBuf ++ [p] }.modHere fun x => x.setCommand 0 m')

/-! ## The merge (R243, R244) -/

/-- MMERGE binds its tag and waits. -/
def execMmerge (h : Hdr) (ti : BitVec 4) (kk np : BitVec 4) (tag : BitVec 8) (topk dao cl : Bool) (s : State) :
    Host.Outcome State Fault Refusal :=
  issue h [] s fun s =>
    let x := s.here
    match x.tileTrap ti true (!topk) with
    | some t => .trap t
    | none =>
      if x.merges.any fun b => b.tag == tag then .trap (ringTrap 11)
      else
        let s := s.modHere fun x => { x with merges := x.merges ++ [{ tag, tile := x.tileNo ti }] }
        let s := s.modMe fun st => { st with flight := some (.mmerge h ti kk np tag topk dao cl) }
        .hold (s.stallOn s.cur.cell s.cur.eng .merge)

/-- Insert by partial index. -/
def insertPartial (p : Partial) : List Partial → List Partial
  | [] => [p]
  | q :: r => if q.q < p.q then q :: insertPartial p r else p :: q :: r

/-- The RNE sum of a tile and partials in a given order, with its flags (R98). -/
def mergeSum (old : Tile) (ps : List Partial) : List (List (Res Lane)) :=
  (List.range 128).map fun i => (List.range 128).map fun j =>
    ps.foldl (fun (r : Res Lane) p => let y := fadd r.val (p.tile.at i j) rmRne; { y with fl := r.fl ||| y.fl })
      { val := old.at i j }

/-- The merged lists: the best of the union of the partials' lists, row by row. -/
def mergeLists (k : Nat) (ps : List Partial) : List (Option (List (Lane × Lane))) :=
  (List.range 128).map fun i =>
    let ls := ps.filterMap fun p => (p.lists.getD i none).map fun l => (p.q, l)
    if ls.isEmpty then none
    else some (best k (ls.flatMap fun l => l.2.map fun e => { rank := e.1, val := e.1, idx := e.2.toNat, q := l.1 }))

/-- The partials of a tag that have arrived for a cell. -/
def State.arrived (s : State) (c : Nat) (tag : BitVec 8) : List Partial :=
  s.mergeBuf.filter fun p => p.home == c && p.tag == tag && p.asid == (s.cell c).asid

/-- A partial that does not fit its MMERGE, or the same one twice (R243). -/
def mismatched (np : Nat) (topk : Bool) (ps : List Partial) : Bool :=
  ps.any (fun p => p.p != np || p.topk != topk) || decide ((ps.map (·.q)).eraseDups.length < ps.length)

/-- MERGE_PARTIALS: the MMERGE that waits in a cell merges, once all its partials have arrived. -/
def execMergePartials (c : Nat) (s : State) : Host.Outcome State Fault Refusal :=
  let t := (s.acts c .m).asEngine c .m
  let x := t.here
  match t.me.flight with
  | some (.mmerge h _ kk np tag topk dao cl) =>
    match x.merges.find? fun b => b.tag == tag with
    | none => idle s
    | some b =>
      let n := np.toNat + 1
      let ps := t.arrived c tag
      let free (t : State) : State := t.modHere fun x => { x with merges := x.merges.filter fun b => b.tag != tag }
      if !s.unfrozen c .m || !t.me.deferred.isEmpty || x.mcmds.any (fun m => m.tile == b.tile) then idle s
      else if mismatched n topk ps then
        if x.retired .m then raise (free t) c .m (metaArray 0x36 4 0 x.seq) else idle s
      else if !((List.range n).all fun q => ps.any fun p => p.q == q) then idle s
      else
        let t := free { t with mergeBuf := t.mergeBuf.filter fun p => !ps.contains p }
        let close (x : Cell) : Cell := if cl then x.close b.tile else x
        if topk then
          conclude h t (.done (t.modHere fun x => close ((x.setT b.tile (tileOfLists (mergeLists (kk.toNat + 1) ps))).mendTile b.tile)))
        else
          let r := mergeSum (x.getT b.tile) (if dao then ps.foldr insertPartial [] else ps)
          let fl := r.foldl (fun f row => row.foldl (fun f y => f ||| y.fl) f) 0#5
          conclude h t (.done ((t.modHere fun x => close (x.setT b.tile (r.map fun row => row.map (·.val)))).effects c .m fl 0))
  | _ => idle s

/-! ## Relocation (R250, R251) -/

/-- A command that a sibling may take, with its place. -/
def Cell.relocatable (x : Cell) : Option (MCmd × Nat) :=
  if x.frozen.isSome || x.preempt.any (·.timedOut) then none
  else
    x.mcmds.zipIdx.find? fun p =>
      (match p.1.product with | some (o, _) => o.rel | none => false) && !p.1.started && p.1.claimed &&
      !((x.mcmds.take p.2).any fun k => k.tile == p.1.tile)

/-- A cell runs a command for a sibling. -/
def State.runsFor (s : State) (sib : Nat) : Bool :=
  (List.range 4).any fun i => (s.cell (4 * (sib / 4) + i)).mcmds.any fun m => m.sibling == some sib

/-- TILE_RELOCATE: an idle sibling of the cluster takes the oldest command of the cell with the most queued. -/
def execTileRelocate (c sib : Nat) (s : State) : Host.Outcome State Fault Refusal :=
  let x := s.cell c
  let y := s.cell sib
  if c / 4 ≠ sib / 4 || c = sib || x.owner.isNone || y.owner ≠ x.owner || y.iter.isNone || !y.mcmds.isEmpty || y.frozen.isSome ||
     s.runsFor sib then idle s
  else
    let rivals := (List.range 4).map (4 * (c / 4) + ·) |>.filter fun d =>
      d != sib && (s.cell d).owner == x.owner && (s.cell d).relocatable.isSome
    if rivals.any fun d => decide ((s.cell d).queued > x.queued) || ((s.cell d).queued == x.queued && decide (d < c)) then idle s
    else
      match x.relocatable with
      | none => idle s
      | some (m, i) =>
        .next (((s.asEngine c .m).startCommand i m (some sib)).count sib 0x109 1)

/-- RELOCATED_TILE_RETURN: the tile lands at the origin, which is the command's completion, or its delivery may begin. -/
def execRelocatedTileReturn (c sib : Nat) (s : State) : Host.Outcome State Fault Refusal :=
  let t := s.asEngine c .m
  match t.here.mcmds with
  | [] => idle s
  | m :: _ =>
    match m.product with
    | none => idle s
    | some (o, sq) =>
      if t.here.arrayStopped || (s.cell sib).frozen.isSome || m.sibling ≠ some sib || !t.mayPop m then idle s
      else
        let r := t.runProduct sib m o sq
        if m.parts > 1 then .next (r.1.modHere fun x => x.setCommand 0 { m with sibling := none, computed := some r.2 })
        else .next (r.1.completeTile c m r.2 o.cl)

/-! ## What a stop of M gives back (R238, R385) -/

/-- M stops at a tile boundary: unstarted commands and an MMA.G at issue give back claims and holds, and an MMERGE its
binding. -/
def State.stopArray (s : State) (c : Nat) : State :=
  s.modCell c fun x =>
    let x := x.giveBackAll s.cycle
    let x := match x.holding with
      | some (m, true) => { x with hold := m.holds.foldl (fun t k => tabSet 0 t k (tabGet 0 t k - 1)) x.hold }
      | _ => x
    let mine := match x.engM.flight with | some (.mmerge ..) => true | _ => false
    { x with
      holding := none, merges := []
      engM := if mine then { x.engM with flight := none, stall := .none, stalled := [] } else x.engM }

end Sys2Proof.Machine
end

