-- ==== Sys2Proof/Machine/Image.lean ====
section
/-! DEFINITION. The save image of a context (15 R383–R386): checkpoint tables, the bytes of an image, and the cell
that an image gives back. Where the manual names a content of a section and not its layout, assumption log 15 gives
the layout used. -/

namespace Sys2Proof.Machine

/-! ## Checkpoint tables (R383) -/

/-- An entry of a live-range table. -/
inductive Live
  | regs (first last : Nat)
  | ring (g : Nat)
  | slice (off len : Nat)
deriving DecidableEq, Repr

/-- One entry of a table, under a carve-out of C bytes; `none` where it breaks the layout. -/
def liveOf (carve : Nat) (w : Nat) : Option Live :=
  match w / 2 ^ 62 with
  | 0 =>
    let a := bitsAt w 0 10
    let b := bitsAt w 16 10
    if bitsAt w 10 6 = 0 && bitsAt w 26 36 = 0 && decide (a ≤ b) && decide (b ≤ 639) then some (.regs a b) else none
  | 1 => if bitsAt w 5 57 = 0 then some (.ring (bitsAt w 0 5)) else none
  | 2 =>
    let a := bitsAt w 0 23
    let n := bitsAt w 23 24
    if bitsAt w 47 15 = 0 && a % 64 == 0 && n % 64 == 0 && decide (64 ≤ n) && decide (a + n ≤ Config.sliceBytes - carve) then
      some (.slice a n)
    else none
  | _ => none

/-- Two entries of one kind overlap. -/
def Live.meets : Live → Live → Bool
  | .regs a b, .regs c d => decide (a ≤ d) && decide (c ≤ b)
  | .ring g, .ring h => g == h
  | .slice a n, .slice b m => decide (a < b + m) && decide (b < a + n)
  | _, _ => false

/-- No two entries of a table overlap. -/
def liveApart : List Live → Bool
  | [] => true
  | e :: r => !(r.any e.meets) && liveApart r

/-- The doublewords of n bytes of a context's memory, when all can be read. -/
def State.readWords (s : State) (asid : BitVec 14) (va n : Nat) : Option (List Nat) :=
  match s.tguSpan asid .load va (8 * n) with
  | .error _ => none
  | .ok ks =>
    let bs := ks.map s.view
    some ((List.range n).map fun i => field bs (8 * i) 8)

/-- Live-range table i of a record whose tables start at ckpt; `none` where it is refused. -/
def State.liveTable (s : State) (asid : BitVec 14) (ckpt : Word) (i : BitVec 16) (carve : Nat) : Option (List Live) :=
  let base := (ckpt.toNat + 512 * i.toNat) % 2 ^ 64
  match s.readWords asid base 1 with
  | some [n] =>
    if n > 63 then none
    else
      match s.readWords asid (base + 8) n with
      | none => none
      | some ws =>
        match ws.mapM (liveOf carve) with
        | some es => if liveApart es then some es else none
        | none => none
  | _ => none

/-- A ring entry reaches into the carve-out of the cell. -/
def Cell.ringInCarve (x : Cell) (c : Nat) : Live → Bool
  | .ring g =>
    let r := x.getR g
    r.cell == c && decide (r.nslots ≠ 0) && decide (r.offset + r.nslots * r.slotSize > Config.sliceBytes - x.carve)
  | _ => false

/-! ## The sections of an image (R386) -/

/-- Zero bytes. -/
def zeros (n : Nat) : List Byte := List.replicate n 0#8

/-- 8-byte fields. -/
def quads (ws : List Nat) : List Byte := ws.flatMap (leBytes 8)

/-- The bytes of a vector register. -/
def laneBytes (v : List Lane) : List Byte := v.flatMap fun l => leBytes 4 l.toNat

/-- An engine block. -/
def EngState.block (st : EngState) : List Byte :=
  quads [st.pc.toNat, st.step, st.preg.toNat % 2 ^ 15, st.ras.length] ++
  quads ((List.range 63).map fun i => (tabGet 0#64 st.sreg (i + 1)).toNat) ++
  fitBytes 512 (quads (st.ras.map (·.toNat))) ++ leBytes 8 (if st.halted then 1 else 0) ++ zeros 32

/-- Where an engine stands in a repeating instruction: the repetition that follows, plus one, and the seed; zero outside one
(R47, R85). -/
def EngState.progressBytes (st : EngState) : List Byte :=
  match st.resumes, st.progress with
  | true, some p => leBytes 2 (p.idx + 1) ++ leBytes 8 p.seed.toNat
  | _, _ => zeros 10

/-- The first refusal of an STF whose repetitions have not all issued: cause and address, or zeros (R406). -/
def Cell.refusedBytes (x : Cell) : List Byte :=
  match (x.stfs.find? (·.issuing)).bind (·.bad) with
  | some (a, c) => [c] ++ leBytes 8 a.toNat
  | none => zeros 9

/-- The queue section: tokens, data queues, the condition queue; then how many of its entries L, M, V and W have popped,
where L and W stand in a repeating instruction, whether S has appended its outcome, which engines pass a watch block once,
and what an STF at issue has met. -/
def Cell.queueBytes (x : Cell) : List Byte :=
  let qs := (List.range 8).map fun i => tabGet [] x.q i
  (List.range 8).flatMap (fun i => leBytes 1 (tabGet 0 x.tok i)) ++ qs.flatMap (fun q => leBytes 1 q.length) ++
  qs.flatMap (fun q => fitBytes 128 (quads (q.map (·.toNat)))) ++ leBytes 8 x.condq.length ++
  fitBytes 1024 (quads (x.condq.map fun o => o.target.toNat / 16 * 16 + (if o.taken then 1 else 0))) ++
  fitBytes 40 ((consumers.flatMap fun e => leBytes 1 (x.eng e).condPopped) ++ x.engL.progressBytes ++ x.engW.progressBytes ++
    leBytes 1 ((if x.engS.resolved then 1 else 0) +
      ((engines.filter fun e => (x.eng e).watchPass).map fun e => 2 ^ (engNum e + 1)).foldl (· + ·) 0) ++ x.refusedBytes)

/-- The special registers of an image. -/
def Cell.specialBytes (x : Cell) : List Byte :=
  fitBytes 512 (quads ([(if x.vup then 1 else 0), x.slipw.toNat, x.qtimeout.toNat, x.fflags.toNat, x.satcnt.toNat, x.seed.toNat] ++
    (List.range 4).map (fun i => (tabGet 0#64 x.watch i).toNat) ++ (List.range 16).map (fun i => (tabGet 0#17 x.pevsel i).toNat) ++
    (List.range 16).map (fun i => (tabGet 0#64 x.pcnt i).toNat) ++ [x.ovfptr.toNat, x.ovflen.toNat]))

/-- Rings, descriptors, write pointers, absolute maxima, path trace and masks. -/
def Cell.bankBytes (x : Cell) : List Byte :=
  (List.range 32).flatMap (fun g => leBytes 64 (x.getR g).image) ++
  (List.range 32).flatMap (fun d => leBytes 64 (tabGet 0#512 x.desc d).toNat) ++
  quads ((List.range 4).map fun i => (tabGet 0#64 x.wp i).toNat) ++
  (List.range 8).flatMap (fun i => leBytes 4 (tabGet 0#32 x.amx i).toNat) ++
  quads (x.traces.map (·.toNat)) ++ (List.range 15).flatMap (fun m => leBytes 128 (tabGet 0#1024 x.mreg m).toNat) ++ zeros 128

/-- A deferred fault that an engine has not raised, in 60 bytes: engine, cause, detail, channel, index, address, physical
address, information. -/
def TrapRec.pendingBytes (e : Eng) (t : TrapRec) : List Byte :=
  leBytes 1 (engNum e + 1) ++ [t.cause] ++ leBytes 1 t.detail ++ leBytes 1 t.unit ++ leBytes 8 ((t.idx.map (· + 1)).getD 0) ++
  leBytes 8 t.addr.toNat ++ leBytes 8 ((t.phys.map (· + 1)).getD 0) ++ fitBytes 32 t.info

/-- Array state: F, D, closed bits, seq, the mode in force with its log base, and the lag in force; then the ordinals given
on the copy channels, up to three deferred faults that wait, and the number of the iteration's record, plus one, where its
device holds it. -/
def Cell.arrayBytes (x : Cell) : List Byte :=
  fitBytes 256 (leBytes 4 x.tF.toNat ++ leBytes 4 x.tD.toNat ++
    quads [x.closed.toNat, x.seq, rndCode x.mode.rnd + (if x.mode.zlog.isSome then 8 else 0), (x.mode.zlog.getD 0#64).toNat, x.lag] ++
    (List.range 4).flatMap (fun i => leBytes 4 (tabGet 0 x.chOrd i)) ++
    fitBytes 180 (engines.flatMap fun e => (x.eng e).deferred.flatMap (TrapRec.pendingBytes e)) ++
    leBytes 8 (((x.iter.bind (·.recId)).map (· + 1)).getD 0))

/-- Token pushes of M that wait for a command and for no later one: of the command, and of instructions behind it. -/
def Cell.pushesBehind (x : Cell) (m : MCmd) : Nat × Nat :=
  let later := (x.mcmds.filter fun k => decide (m.id < k.id)).map (·.id)
  let mine := x.engM.retire.filter fun r => decide (m.id < r.stamp) && later.all fun k => decide (r.stamp ≤ k)
  ((mine.filter (·.rq)).length, (mine.filter (·.fq)).length)

/-- A given-back command: word, scalars, seq, then what the model needs to issue it again. -/
def Cell.commandBytes (x : Cell) (m : MCmd) : List Byte :=
  let p := x.pushesBehind m
  leBytes 16 (((encode m.inst).getD 0#128).toNat) ++ quads [m.sa.toNat, m.sb.toNat, m.seq, m.pc.toNat, m.seed.toNat] ++
  leBytes 4 (match m.mode.zlog with | some a => 2 ^ 31 + (a.toNat - windowBase) | none => 0) ++
  leBytes 1 (m.tile.toNat % 16) ++ leBytes 1 (rndCode m.mode.rnd + 8 * m.lag) ++ leBytes 1 p.1 ++ leBytes 1 p.2

/-- A halted copy command: channel, word, descriptors, scalars, ordinal, first byte not landed, then the length that has
not landed, its barrier object and its watched address. -/
def Copy.haltedBytes (k : Copy) (bar : Option Nat) : List Byte :=
  fitBytes 256 (leBytes 8 k.ch ++ leBytes 16 (((encode k.inst).getD 0#128).toNat) ++ leBytes 64 k.ds.toNat ++ leBytes 64 k.dd.toNat ++
    quads [k.sa.toNat, k.sb.toNat, k.sx.toNat, k.ord, k.start + k.landed, k.total - k.landed,
      (match bar with | some a => a + 1 | none => 0), (match k.watched with | some (_, a) => a.toNat + 1 | none => 0)])

/-- The open tiles, oldest first. -/
def Cell.tileBytes (x : Cell) : List Byte :=
  (List.range x.openTiles).flatMap fun i => (x.getT (x.tD + BitVec.ofNat 32 i)).flatMap laneBytes

/-- The bytes of one saved range: registers, published slots of a ring, or slice bytes. -/
def State.rangeBytes (s : State) (c : Nat) : Live → List Byte
  | .regs a b => (List.range (b + 1 - a)).flatMap fun i => laneBytes ((s.cell c).getV (a + i))
  | .ring g =>
    let r := (s.cell c).getR g
    (List.range r.used).flatMap fun i => s.bytes (slicePa r.cell (r.slotOff (r.h.toNat + i))) r.slotSize
  | .slice a n => s.bytes (slicePa c a) n

/-- The ranges of a full save. -/
def fullRanges (carve : Nat) : List Live := [.regs 0 639, .slice 0 (Config.sliceBytes - carve)]

/-- The image without its header. -/
def State.imageBody (s : State) (c : Nat) (ranges : List Live) : List Byte :=
  let x := s.cell c
  engines.flatMap (fun e => (x.eng e).block) ++ x.queueBytes ++ x.specialBytes ++ x.bankBytes ++ x.arrayBytes ++
  fitBytes 256 ((x.mcmds.take 4).flatMap x.commandBytes) ++
  (match x.copies.find? (·.halted) with | some k => k.haltedBytes (s.copyBar c k) | none => zeros 256) ++
  fitBytes 256 (quads ((List.range 4).map fun i => min (tabGet 0 x.issued i) (2 ^ 64 - 1))) ++
  x.tileBytes ++ s.bytes (slicePa c (Config.sliceBytes - x.carve)) x.carve ++ ranges.flatMap (s.rangeBytes c)

/-- The magic number of an image. -/
def imageMagic : Nat := 0x58544344

/-- The image of a cell: header, then body. -/
def State.image (s : State) (c : Nat) (it : Iter) (idx : BitVec 16) (full refused : Bool) (ranges : List Live) : List Byte :=
  let body := s.imageBody c ranges
  leBytes 4 imageMagic ++ leBytes 4 1 ++ leBytes 2 it.asid.toNat ++ leBytes 2 idx.toNat ++ leBytes 1 c ++
  leBytes 1 ((if full then 1 else 0) + (if refused then 2 else 0)) ++ zeros 2 ++
  quads [64 + body.length, it.va.toNat, it.pos] ++ leBytes 1 it.dev.toNat ++ zeros 23 ++ body

/-! ## The way back -/

/-- The value of WATCHn that WATCH.SET writes (R378). -/
def watchWord (va : Word) (size : BitVec 6) (rd wr : Bool) : Word :=
  let k := max 6 size.toNat
  BitVec.ofNat 64 ((if rd || wr then 2 ^ 63 else 0) + (if wr then 2 ^ 62 else 0) + (if rd then 2 ^ 61 else 0) +
    va.toNat % 2 ^ 57 / 2 ^ k * 2 ^ k + size.toNat)

/-- A watch register from a word of an image: its fields, and zero in what reads zero (R7, R378). -/
def watchOf (w : Word) : Word := watchWord w (w.setWidth 6) (w.getLsbD 61) (w.getLsbD 62)

/-- An instruction address: a multiple of 16 (R40). -/
def wordAddr (a : Word) : Word := a &&& ~~~(15#64)

/-- An engine from its block. -/
def engOfBlock (b : List Byte) : EngState :=
  { pc := wordAddr (BitVec.ofNat 64 (field b 0 8)), step := field b 8 8, preg := BitVec.ofNat 16 (field b 16 2 % 2 ^ 15)
    ras := (dwords b 536 (min 64 (field b 24 8))).map wordAddr, halted := field b 1048 1 % 2 == 1
    sreg := tabRun 0#64 1 (dwords b 32 63) }

/-- The ring of an image with its counters. -/
def ringOfBytes (b : List Byte) : Ring :=
  let x := field b 0 64
  { Ring.ofImage x with
    h := BitVec.ofNat 32 (bitsAt x 320 32), t := BitVec.ofNat 32 (bitsAt x 352 32)
    k := BitVec.ofNat 32 (bitsAt x 320 32 + bitsAt x 384 13) }

/-- Lanes from bytes. -/
def lanesOfBytes (b : List Byte) : List Lane := (List.range (b.length / 4)).map fun i => BitVec.ofNat 32 (field b (4 * i) 4)

/-- A tile from its 64 KiB. -/
def tileOfBytes (b : List Byte) : Tile := (List.range 128).map fun i => lanesOfBytes ((b.drop (512 * i)).take 512)

/-- The rounding mode of a code. -/
def rndOfCode (n : Nat) : Rnd :=
  match n with | 1 => .rtz | 2 => .rdn | 3 => .rup | 4 => .rsr | _ => .rne

/-- The open tile with a slot number. -/
def Cell.tileAt (x : Cell) (slot : Nat) : BitVec 32 :=
  ((List.range 16).map fun i => x.tD + BitVec.ofNat 32 i).find? (fun t => tileSlot t == slot) |>.getD 0#32

/-- A command entry of an image, under number i; `none` where it holds none. -/
def Cell.commandOf (x : Cell) (vup : Bool) (b : List Byte) (i : Nat) : Option MCmd :=
  match decode vup (BitVec.ofNat 128 (field b 0 16)) with
  | .error _ => none
  | .ok inst =>
    let z := field b 56 4
    let m := field b 61 1
    some
      { id := i, inst, pc := BitVec.ofNat 64 (field b 40 8), sa := BitVec.ofNat 64 (field b 16 8), sb := BitVec.ofNat 64 (field b 24 8)
        seq := field b 32 8, seed := BitVec.ofNat 64 (field b 48 8)
        mode := { rnd := rndOfCode (m % 8), zlog := if z < 2 ^ 31 then none else some (BitVec.ofNat 64 (windowBase + (z - 2 ^ 31))) }
        lag := m / 8 % 4, tile := x.tileAt (field b 60 1), ra := {}, rb := {}, claimed := false }

/-- The pushes behind the command under number i, as M's retirement list holds them. -/
def pushesOfEntry (b : List Byte) (i : Nat) : List Retire :=
  List.replicate (field b 62 1) { stamp := i + 1, rq := true, fq := false : Retire } ++
  List.replicate (field b 63 1) { stamp := i + 1, rq := false, fq := true : Retire }

/-- Append the command entries, with the pushes that wait behind them; M goes on numbering its accesses and commands. -/
def Cell.withCommands (x : Cell) (es : List (List Byte)) : Cell :=
  let base := x.engM.nextId
  (es.zipIdx).foldl (fun x p =>
    if field p.1 0 16 = 0 then x
    else
      match x.commandOf x.vup p.1 (base + p.2) with
      | none => x
      | some m =>
        let rs := pushesOfEntry p.1 (base + p.2)
        let held := rs.flatMap fun r => pushesOf x.vup .m r.rq r.fq
        { x with
          mcmds := x.mcmds ++ [m]
          tokReserved := held.foldl (fun t k => tabSet 0 t k (tabGet 0 t k + 1)) x.tokReserved
          engM := { x.engM with retire := x.engM.retire ++ rs, nextId := base + p.2 + 1 } }) x

/-- The section of an image at an offset. -/
def part (b : List Byte) (off n : Nat) : List Byte := (b.drop off).take n

/-- An engine with what the queue section keeps of it: entries popped, its place in a repeating instruction, its watch. -/
def EngState.withMarks (st : EngState) (popped flags : Nat) (e : Eng) (prog : List Byte) (deferred : List (Nat × TrapRec)) : EngState :=
  { st with
    condPopped := popped
    progress := if field prog 0 2 = 0 then none
      else some { pc := st.pc, idx := field prog 0 2 - 1, seed := BitVec.ofNat 64 (field prog 2 8) }
    resolved := e == .s && flags % 2 == 1
    watchPass := flags / 2 ^ (engNum e + 1) % 2 == 1
    deferred := (deferred.filter fun d => d.1 == engNum e + 1).map (·.2) }

/-- The deferred faults of an image, each with one more than its engine's number. -/
def pendingOf (b : List Byte) : List (Nat × TrapRec) :=
  (List.range 3).map (fun i => part b (60 * i) 60) |>.filterMap fun r =>
    if field r 0 1 = 0 then none
    else some (field r 0 1,
      { cause := BitVec.ofNat 8 (field r 1 1), detail := field r 2 1, deferred := true, unit := field r 3 1
        idx := if field r 4 8 = 0 then none else some (field r 4 8 - 1), addr := BitVec.ofNat 64 (field r 12 8)
        phys := if field r 20 8 = 0 then none else some (field r 20 8 - 1), info := part r 28 32 })

/-- The notifying store whose repetitions go on after the restore, with what it has met (R405, R406). -/
def stfOf (asid : BitVec 14) (st : EngState) (b : List Byte) : List Stf :=
  if field b 0 1 = 0 || st.progress.isNone then []
  else [{ asid, flagVa := 0#64, flag := [], stamp := 0, issuing := true
          bad := some (BitVec.ofNat 64 (field b 1 8), BitVec.ofNat 8 (field b 0 1)) }]

/-- The cell of an image, but for its tiles and ranges; what stays of the old cell is its supervisor core. -/
def Cell.ofImage (old : Cell) (b : List Byte) (it : Iter) (carve now : Nat) : Cell :=
  let q := part b 0x1580 2112
  let sp := dwords (part b 0x1DC0 512) 0 44
  let arr := part b 0x3C00 256
  let reg (i : Nat) : Word := sp.getD i 0#64
  let pending := pendingOf (arr.drop 64)
  let marked (e : Eng) (popped : Nat) (prog : List Byte) : EngState :=
    { (engOfBlock (part b (0x40 + 1088 * engNum e) 1088)).withMarks popped (field q 2096 1) e prog pending with
      nextId := (old.eng e).nextId }
  let x : Cell :=
    { engS := marked .s 0 [], engL := marked .l (field q 2072 1) (part q 2076 10), engM := marked .m (field q 2073 1) []
      engV := marked .v (field q 2074 1) [], engW := marked .w (field q 2075 1) (part q 2086 10)
      stfs := stfOf it.asid (marked .w 0 (part q 2086 10)) (part q 2097 9)
      sup := old.sup, supRun := old.supRun, ckptlim := old.ckptlim, watchEvents := old.watchEvents, uncorr := old.uncorr
      owner := some it.asid, iter := some it, lastRec := some (it.dev, it.asid, it.va), carve, frozen := some now
      tok := tabRun 0 0 ((List.range 8).map fun i => field q i 1)
      q := tabRun [] 0 ((List.range 8).map fun i => dwords q (16 + 128 * i) (min 16 (field q (8 + i) 1)))
      condq := (dwords q 1048 (min 128 (field q 1040 8))).map fun w => { taken := w.getLsbD 0, target := wordAddr w }
      vup := (reg 0).getLsbD 0, slipw := (reg 1).setWidth 14, qtimeout := (reg 2).setWidth 32, fflags := (reg 3).setWidth 25
      satcnt := reg 4, seed := reg 5, watch := tabRun 0#64 0 ((List.range 4).map fun i => watchOf (reg (6 + i)))
      pevsel := tabRun 0#17 0 ((List.range 16).map fun i => (reg (10 + i)).setWidth 17)
      pcnt := tabRun 0#64 0 ((List.range 16).map fun i => reg (26 + i)), ovfptr := reg 42, ovflen := (reg 43).setWidth 32
      ring := tabRun {} 0 ((List.range 32).map fun i => ringOfBytes (part b (0x1FC0 + 64 * i) 64))
      desc := tabRun 0#512 0 ((List.range 32).map fun i => BitVec.ofNat 512 (field b (0x27C0 + 64 * i) 64))
      wp := tabRun 0#64 0 (dwords b 0x2FC0 4), amx := tabRun 0#32 0 (lanesOfBytes (part b 0x2FE0 32))
      path := tabRun 0#64 0 (dwords b 0x3000 128)
      mreg := tabRun 0#1024 0 ((List.range 15).map fun i => BitVec.ofNat 1024 (field b (0x3400 + 128 * i) 128))
      tF := BitVec.ofNat 32 (field arr 0 4), tD := BitVec.ofNat 32 (field arr 4 4), closed := BitVec.ofNat 16 (field arr 8 8)
      seq := field arr 16 8
      mode := { rnd := rndOfCode (field arr 24 1 % 8)
                zlog := if field arr 24 1 / 8 % 2 = 1 then some (BitVec.ofNat 64 (field arr 32 8)) else none }
      lag := field arr 40 1 % 4, chOrd := tabRun 0 0 ((List.range 4).map fun i => field arr (48 + 4 * i) 4)
      issued := tabRun 0 0 ((List.range 4).map fun i => field b (0x3F00 + 8 * i) 8) }
  x.withCommands ((List.range 4).map fun i => part b (0x3D00 + 64 * i) 64)

/-- Bytes that a range takes in an image. -/
def Cell.rangeLen (x : Cell) : Live → Nat
  | .regs a b => 4096 * (b + 1 - a)
  | .ring g => (x.getR g).used * (x.getR g).slotSize
  | .slice _ n => n

/-- Put one range back: registers, slots at the same offsets of this cell's slice, or slice bytes. -/
def State.restoreRange (s : State) (c : Nat) (e : Live) (b : List Byte) : State :=
  match e with
  | .regs a n => (List.range (n + 1 - a)).foldl (fun s i =>
      s.modCell c fun x => x.setV (a + i) (lanesOfBytes (part b (4096 * i) 4096))) s
  | .ring g =>
    let r := (s.cell c).getR g
    (List.range r.used).foldl (fun s i => s.storeRun (slicePa c (r.slotOff (r.h.toNat + i))) (part b (r.slotSize * i) r.slotSize)) s
  | .slice a _ => s.storeRun (slicePa c a) b

/-- Put the ranges back in order. -/
def State.restoreRanges (s : State) (c : Nat) : List Live → List Byte → State
  | [], _ => s
  | e :: r, b =>
    let n := (s.cell c).rangeLen e
    (s.restoreRange c e (b.take n)).restoreRanges c r (b.drop n)

/-- Put the tiles back, oldest first. -/
def Cell.restoreTiles (x : Cell) (b : List Byte) : Cell :=
  (List.range x.openTiles).foldl (fun x i => x.setT (x.tD + BitVec.ofNat 32 i) (tileOfBytes (part b (65536 * i) 65536))) x

/-- A halted command completes as its image is loaded (R385, R206): its bytes that have not landed count off its
barrier, and its watch event is posted. -/
def State.completeLoaded (s : State) (c : Nat) (b : List Byte) : State :=
  if field b 8 16 = 0 then s
  else
    let ch := field b 0 8
    let s := s.modCell c fun x => { x with wp := tabSet 0#64 x.wp ch (x.writePointer ch) }
    let w := field b 208 8
    let s := if w = 0 then s
      else s.postWatch c { channel := BitVec.ofNat 8 ch, ord := field b 176 8, addr := BitVec.ofNat 64 (w - 1) }
    let bar := field b 200 8
    if bar = 0 || field b 192 8 = 0 then s else s.countOff (s.agentOf c .l) (bar - 1) (field b 192 8)

end Sys2Proof.Machine
end

