-- ==== Sys2Proof/Machine/Ctx.lean ====
section
/-! DEFINITION. Contexts and traps (15 R366–R386): watchpoints, SYSCALL, TLB.INV, CTX.SAVE, LOAD, RESUME and SWITCH,
page walks, the pre-emption collector and CKPT_TIMEOUT. -/

namespace Sys2Proof.Machine

/-! ## Instructions of cell programs -/

/-- WATCH.SET. -/
def execWatchSet (h : Hdr) (n : BitVec 2) (sa : SReg) (size : BitVec 6) (rd wr : Bool) (s : State) :
    Host.Outcome State Fault Refusal :=
  issueX h [sa] s fun s =>
    .done (s.modHere fun x => { x with watch := tabSet 0#64 x.watch n.toNat (watchWord (s.getS sa) size rd wr) })

/-- SYSCALL: once every earlier store of S is performed, cause 0x11 with its flag, code and address (R374). -/
def execSyscall (h : Hdr) (sa : SReg) (code : BitVec 16) (s : State) : Host.Outcome State Fault Refusal :=
  issueX h [sa] s fun s =>
    if s.me.queue.any (fun q => match q.acc with | .store .. | .atomic .. => true | _ => false) then .wait s .other
    else .trap { cause := cTrap, sys := true, code, addr := s.getS sa, hdr := some h }

/-! ## Privileged instructions -/

/-- The frame of a privileged X instruction: PRIV in a cell program (R55, R369). -/
def issuePriv (h : Hdr) (uses : List SReg) (s : State) (body : State → Act) : Host.Outcome State Fault Refusal :=
  issueX h uses s fun s => if s.cur.eng = .sup then body s else .trap { cause := cPriv }

/-- A command cannot go on behind stopped ones: it has not started on the channel of one, or its bytes follow those of
one (R206, R220). -/
def Copy.behind (k : Copy) (stuck : List Copy) : Bool :=
  stuck.any fun a => a.edge k || (a.ch == k.ch && k.lead == 0 && k.extra.isEmpty)

/-- Accepted copies of a cell that go on by themselves: neither halted nor behind a halted command; the other channels
continue (R206). The first list holds what stands still. -/
def movingGo (stuck : List Copy) : List Copy → List Copy
  | [] => []
  | k :: r => if k.halted || k.behind stuck then movingGo (k :: stuck) r else k :: movingGo stuck r

/-- The accepted copies of a cell that go on by themselves. -/
def Cell.movingCopies (x : Cell) : List Copy := movingGo [] x.copies

/-- A cell of the ASID, or of any under `every`, has an access translated and not performed (R373). -/
def Cell.translating (x : Cell) (every : Bool) (asid : BitVec 14) : Bool :=
  (every || x.owner == some asid) &&
  (engines.any (fun e => !(x.eng e).queue.isEmpty) || !x.movingCopies.isEmpty || x.stfs.any fun f => !f.issuing)

/-- A command forgets what it has translated: it translates again as it goes on (R373). -/
def Copy.forget (k : Copy) : Copy :=
  { k with
    pages := [], srcs := k.srcs.map fun x => { x with pages := [] }
    bar := if k.barVa = 0#64 then k.bar else none }

/-- TLB.INV drops entries, once every access that they translated has been performed (R373). Commands behind a halted one
lose their pages, those of their exchange's sources and their barrier object's place, and translate again; so does the flag of an STF that a trap stands in. -/
def execTlbInv (h : Hdr) (sa sb : SReg) (kind : InvKind) (s : State) : Host.Outcome State Fault Refusal :=
  issuePriv h [sa, sb] s fun s =>
    let asid : BitVec 14 := (s.getS sa).setWidth 14
    let va := (s.getS sb).toNat
    let every := kind == .every
    if s.cells.any (fun e => e.2.translating every asid) || s.sre.any (fun q => q.2.any fun j => every || j.asid == asid) then
      .wait s .other
    else
      let drops (t : Tlb) : Bool :=
        match kind with
        | .every => true
        | .asid => t.asid == asid
        | .page => t.asid == asid && decide (t.va ≤ va) && decide (va < t.va + t.size)
      let forget (x : Cell) : Cell := if every || x.owner == some asid then { x with copies := x.copies.map Copy.forget } else x
      .done { s with
        tlb := s.tlb.filter fun t => !drops t
        cells := s.cells.map fun e => (e.1, if e.2.copies.isEmpty then e.2 else forget e.2) }

/-- What a save waits for: every access, accepted copy, notifying store and started tile command of the cell (R381, R385). -/
def Cell.saveReady (x : Cell) : Bool :=
  engines.all (fun e => (x.eng e).queue.isEmpty) && x.movingCopies.isEmpty && x.stfs.all (·.issuing) &&
  x.mcmds.all fun m => !m.started

/-- Engines of a cell give up their replies and waits, and issue their instructions again. -/
def State.recall (s : State) (c : Nat) : State :=
  let s := engines.foldl (fun s e => if (s.eng c e).flight.isSome then
      (s.withdraw c e).modEng c e fun st => { st with flight := none, stall := .none, stalled := [] } else s) (s.stopArray c)
  s.modCell c fun x => if x.xchg.isSome then { x with xchg := none } else x

/-- Why the target of a notifying store refuses it, as the deferred fault that W raises: a data byte; then the flag, which may
not be the context's any more, may lie in an object made live since, or may have an uncorrectable error (R286, R406, R409,
R435). -/
def State.stfRefusal (s : State) (f : Stf) : Option TrapRec :=
  match f.bad.or ((f.flag.findSome? (s.homeCheck f.asid)).map fun e => (f.flagVa, e)) with
  | some (a, e) => some { cause := e, deferred := true, addr := a }
  | none =>
    if s.meetsBarrier (f.flag.filter fun k => paClass k < 2) then
      some { cause := cBar, detail := 1, deferred := true, addr := f.flagVa }
    else (s.eccTrap f.flagVa f.flag).map fun t => { t with deferred := true }

/-- The flag of a notifying store of a cell's W goes up by one, a release at device scope, or at pod scope elsewhere (R406,
R407). -/
def State.stfRaise (s : State) (c : Nat) (f : Stf) : State :=
  let v := leNat (f.flag.map s.view)
  (s.putsAfter (s.notPeerObject (fullPuts f.flag (leBytes 8 ((v + 1) % 2 ^ 64))))).tagged (s.agentOf c .w)
    (some (if f.flag.all fun k => paClass k < 2 then .dev else .pod)) f.flag

/-- Stores, atomics and notifying stores that have issued still take effect when their iteration is ended (R36, R37). -/
def State.landStores (s : State) (c : Nat) : State :=
  let s := engines.foldl (fun s e => (s.eng c e).queue.foldl (fun s q =>
    match q.acc with
    | .load .. | .acquire .. | .mark => s
    | _ => s.land c e q) s) s
  (s.cell c).stfs.foldl (fun s f => if f.issuing || (s.stfRefusal f).isSome then s else s.stfRaise c f) s

/-- One trapped engine as its handler returns (R371). -/
def State.resumeEngine (s : State) (c : Nat) (e : Eng) : State :=
  match (s.eng c e).trap with
  | none => s
  | some t =>
    let s := s.modEng c e fun st => { st with trap := none }
    if t.deferred then
      match e, t.idx with
      | .l, some n => (s.completeHalted c t.unit n).modCell c fun x => x.flush .l
      | _, _ => s
    else if t.cause = cTrap && !t.retry then
      match t.hdr with
      | some h => (s.count c (0x10 + engNum e) 1).finish c e h false ((s.eng c e).pc + 16)
      | none => s
    else if t.cause = cWatch then s.modEng c e fun st => { st with watchPass := true }
    else s

/-- The state that an image shows: an engine that a TRAP or a SYSCALL stopped has passed it, and a retried access meets its
watch no more, whether or not the context is switched (R123, R371). -/
def State.handled (s : State) (c : Nat) : State :=
  engines.foldl (fun s e => if (s.eng c e).trap.any (·.deferred) then s else s.resumeEngine c e) s

/-- Every halted command of a cell completes (R206). -/
def State.completeAll (s : State) (c : Nat) : State :=
  ((s.cell c).copies.filter (·.halted)).foldl (fun s k => s.completeHalted c k.ch k.ord) s

/-- The memory that one saved range covers: addresses and lengths. -/
def Cell.spans (x : Cell) (c : Nat) : Live → List (Nat × Nat)
  | .regs _ _ => []
  | .ring g =>
    let r := x.getR g
    (List.range r.used).map fun i => (slicePa r.cell (r.slotOff (r.h.toNat + i)), r.slotSize)
  | .slice a n => [(slicePa c a, n)]

/-- A register or tile that a save of some ranges reads (R386). -/
def Cell.savesReg (x : Cell) (ranges : List Live) (k : Nat) : Bool :=
  if 1000 ≤ k ∧ k < 2000 then ranges.any fun e => match e with | .regs a b => decide (a ≤ k - 1000) && decide (k - 1000 ≤ b) | _ => false
  else if 2000 ≤ k ∧ k < 3000 then (List.range x.openTiles).any fun i => tileSlot (x.tD + BitVec.ofNat 32 i) == k - 2000
  else true

/-- The uncorrectable error that a save of some ranges reads (R435). -/
def State.saveTrap (s : State) (c : Nat) (ranges : List Live) : Option TrapRec :=
  let x := s.cell c
  let rs := (slicePa c (Config.sliceBytes - x.carve), x.carve) :: ranges.flatMap (x.spans c)
  match s.ecc.find? fun e => rs.any fun r => decide (e.1 < r.1 + r.2) && decide (r.1 < e.1 + 8) with
  | some e => some { cause := cEcc, phys := some e.1 }
  | none => if x.regErr.any fun e => x.savesReg ranges e.1 then some { cause := cEcc } else none

/-- A save area that can take n bytes: class 0x0, a multiple of 64. -/
def State.areaOk (s : State) (a n : Nat) : Bool :=
  a % 64 == 0 && decide (a + n ≤ 2 ^ 52) && paOk s.minimal a && paOk s.minimal (a + n - 1)

/-- CTX.SAVE (R375, R383–R386). The image has room for one halted copy command: where more stands behind a halted one, the
halted commands complete here as they would on restore, and the save waits for the rest. -/
def execCtxSave (h : Hdr) (sd sa : SReg) (full rel : Bool) (s : State) : Host.Outcome State Fault Refusal :=
  issuePriv h [sa] s fun s =>
    let c := s.cur.cell
    let a := (s.getS sa).toNat
    match s.here.iter with
    | none => .done (s.setS sd 0#64)
    | some it =>
      if !s.areaOk a 0x4000 then .done (s.setS sd (BitVec.allOnes 64))
      else if !s.here.saveReady then .wait s .save
      else if s.here.copies.length > 1 then .wait (s.completeAll c) .save
      else
        let s := s.recall c
        let shown := s.handled c
        let x := shown.here
        let idx := if full then none else x.ckptIdx
        let table := (idx.bind fun i => s.liveTable it.asid it.ckpt i x.carve).bind fun es =>
          if es.any (x.ringInCarve c) then none else some es
        let refused := idx.isSome && table.isNone
        let ranges := table.getD (fullRanges x.carve)
        let img := shown.image c it (if table.isSome then idx.getD 0#16 else 0xFFFF#16) table.isNone refused ranges
        if !s.areaOk a img.length then .done (s.setS sd (BitVec.allOnes 64))
        else
        match s.saveTrap c ranges with
        | some t => .trap t
        | none =>
          let s := if refused then
            s.post 0x0401#16 4 c ((it.ckpt.toNat + 512 * (idx.getD 0#16).toNat) % 2 ^ 64) (idx.getD 0#16).toNat else s
          let s := (s.storeRun a img).setS sd (BitVec.ofNat 64 img.length)
          .done (if rel then s.vacate c else s)

/-- The record that an image names, as memory holds it. -/
def State.imageRecord (s : State) (asid : BitVec 14) (va : Nat) : Option RecFields :=
  match s.tguSpan asid .load va 128 with
  | .error _ => none
  | .ok ks => (parseRecord asid (ks.map s.view)).toOption

/-- What CTX.LOAD reads from a header: the iteration, and whether the save was full with its checkpoint index. -/
def headerOf (b : List Byte) : Iter × Bool × BitVec 16 :=
  ({ va := BitVec.ofNat 64 (field b 24 8), asid := BitVec.ofNat 14 (field b 8 2), pos := field b 32 8
     dev := BitVec.ofNat 6 (field b 40 1), recId := none, ckpt := 0#64 },
   field b 13 1 % 2 == 1, BitVec.ofNat 16 (field b 10 2))

/-- The record of this device to which an image's iteration belongs: of those under its address, one that has issued its
position, and of several the one whose number, less one, the image holds (R376). -/
def State.imageHolder (s : State) (it : Iter) (n : Nat) : Option Rec :=
  let rs := s.tgu.recs.filter fun r =>
    r.f.asid == it.asid && r.va == it.va && r.issued && decide (r.base ≤ it.pos) && decide (it.pos < r.next)
  (rs.find? fun r => r.id + 1 == n).or rs.head?

/-- A cell that runs an iteration of a record (R53). -/
def Cell.ofRecord (x : Cell) (r : BitVec 6 × BitVec 14 × Word) : Cell := { x with lastRec := some r }

/-- An image that CTX.LOAD accepts: its cell without tiles and ranges, its ranges, and its bytes. -/
def State.readImage (s : State) (a : Nat) : Option (Cell × List Live × List Byte) :=
  if !s.areaOk a 0x4000 then none
  else
    let hd := s.bytes a 64
    let (it, full, idx) := headerOf hd
    let len := field hd 16 8
    if field hd 0 4 ≠ imageMagic || field hd 4 4 ≠ 1 || field hd 8 2 ≥ 2 ^ 14 || (s.ctx it.asid).isNone || len < 0x4000 ||
       !s.areaOk a len then none
    else
      match s.imageRecord it.asid it.va.toNat with
      | none => none
      | some f =>
        let carve := roundUp f.spill 0x10000
        let ranges := if full then some (fullRanges carve) else s.liveTable it.asid f.ckpt idx carve
        match ranges with
        | none => none
        | some es =>
          let b := s.bytes a len
          let held := if it.dev = s.podDev then s.imageHolder it (field b 0x3CF4 8) else none
          let x := (s.here.ofImage b { it with recId := held.map (·.id), ckpt := f.ckpt } carve s.cycle).ofRecord
            ((held.map s.recordOf).getD (it.dev, it.asid, it.va))
          let want := 0x4000 + 65536 * x.openTiles + carve + (es.map x.rangeLen).foldl (· + ·) 0
          if want = len && decide (x.openTiles ≤ 16) then some (x, es, b) else none

/-- CTX.LOAD (R376, R385). As at an iteration's start, what the queues of other engines hold for the slice is performed first, and
commands that have claimed slots there complete (R171; assumption log 127). -/
def execCtxLoad (h : Hdr) (sd sa : SReg) (s : State) : Host.Outcome State Fault Refusal :=
  issuePriv h [sa] s fun s =>
    let c := s.cur.cell
    let a := (s.getS sa).toNat
    let x := s.here
    if x.iter.isSome || x.starting.isSome || x.reserved then .done (s.setS sd 1#64)
    else
      match s.readImage a with
      | none => .done (s.setS sd 2#64)
      | some (x, es, b) =>
        match s.eccTrap (BitVec.ofNat 64 a) ((List.range b.length).map (a + ·)) with
        | some t => .trap t
        | none =>
          if s.slotsHeld c x.asid then .wait s .other
          else
          let s := (s.drainKeys (sliceKey c)).clearSlice c
          let s := s.setCell c { x.restoreTiles (b.drop 0x4000) with sup := s.here.sup }
          let rest := b.drop (0x4000 + 65536 * x.openTiles)
          let s := s.storeRun (slicePa c (Config.sliceBytes - x.carve)) (rest.take x.carve)
          let s := (s.restoreRanges c es (rest.drop x.carve)).completeLoaded c (part b 0x3E00 256)
          .done (s.setS sd 0#64)

/-- The cell's clocks run again: its traps are done with, and waits do not count the time frozen. -/
def State.thaw (s : State) (c : Nat) : State :=
  match (s.cell c).frozen with
  | none => s
  | some f =>
    let s := engines.foldl (fun s e => s.modEng c e fun st =>
      { st with stalled := st.stalled.map fun w => (w.1, w.2 + (s.cycle - f)) }) s
    let s := s.modCell c fun x => { x with frozen := none, supRun := false, ckptIdx := none }
    let s := s.modCell c fun x =>
      { x with preempt := x.preempt.map fun p => if p.timedOut then { p with timedOut := false, since := s.cycle } else p }
    engines.foldl (fun s e => s.resumeEngine c e) s

/-- The cause with which CTX.RESUME.end ends an iteration: that of the lowest-numbered engine's record. -/
def State.endCauseOf (s : State) (c : Nat) : Nat :=
  match engines.findSome? fun e => (s.eng c e).trap with
  | some t => t.cause.toNat
  | none => (Config.endCause s.draws).toNat

/-- CTX.RESUME (R371, R377). -/
def execCtxResume (h : Hdr) (fin : Bool) (s : State) : Host.Outcome State Fault Refusal :=
  issuePriv h [] s fun s =>
    let c := s.cur.cell
    match s.here.iter with
    | none => .done s
    | some it =>
      if fin then
        let cause := s.endCauseOf c
        let s := { s with draws := s.draws + 1 }
        .done ((((s.recall c).landStores c).vacate c).countEnd it (some cause))
      else .done (s.thaw c)

/-- CTX.SWITCH. -/
def execCtxSwitch (h : Hdr) (s : State) : Host.Outcome State Fault Refusal :=
  issuePriv h [] s fun s => .done (s.requestPreempt s.cur.cell)

/-! ## Page walks (R362–R368) -/

/-- PAGE_WALK: a walk ends, and its leaf enters the translation caches; a walk that faults leaves no entry. -/
def execPageWalk (asid : BitVec 14) (va : Word) (s : State) : Host.Outcome State Fault Refusal :=
  if va.toNat < 2 ^ 57 then .next (s.cacheWalk asid va.toNat) else idle s

/-! ## Pre-emption (R379–R382) -/

/-- Every accepted copy command has completed, but for what a halted channel holds (R206, R381). -/
def Cell.copiesStand (x : Cell) : Bool :=
  x.copies.all fun k => !x.movingCopies.contains k && x.copies.any fun a => a.halted && a.ch == k.ch

/-- CKPTLIM has passed since a request (R382). -/
def Cell.overdue (x : Cell) (p : Preempt) (now : Nat) : Bool :=
  p.timedOut || (x.ckptlim != 0#32 && decide (now - p.since > x.ckptlim.toNat))

/-- The five acknowledgements of R381. -/
def Cell.acknowledged (x : Cell) : Bool :=
  engines.all (fun e => (x.eng e).stopped && (x.eng e).queue.isEmpty && (x.eng e).flight.isNone &&
    (e == .l || (x.eng e).deferred.isEmpty)) &&
  x.copiesStand && x.xchg.isNone && x.stfs.isEmpty && x.mcmds.all fun m => !m.started

/-- PREEMPT_QUIESCE: all acknowledgements are in, within CKPTLIM; the cell freezes and its supervisor core starts (R381,
R382). -/
def execPreemptQuiesce (c : Nat) (s : State) : Host.Outcome State Fault Refusal :=
  let x := s.cell c
  match x.preempt with
  | some p =>
    if p.target.isSome && x.frozen.isNone && !x.overdue p s.cycle && x.acknowledged then
      let s := (s.stopArray c).modCell c fun x => { x with preempt := none, ckptIdx := p.idx }
      let s := engines.foldl (fun s e => s.modEng c e fun st => { st with stopped := false }) s
      .next (s.freeze c s.supPreempt)
    else idle s
  | none => idle s

/-- A flight that its engine gives up at a stopping point: a wait at a barrier object, an MMERGE, a ring request. -/
def abandons : Instr → Bool
  | .barWait .. | .mmerge .. | .ringWf .. | .ringWe .. | .ringClm .. | .ringPub .. | .ringPop .. => true
  | _ => false

/-- Every engine stands at a stopping point (R38): none is inside a repeating instruction, and its repetitions and stores
are complete (R47, R165). -/
def Cell.atStoppingPoints (x : Cell) : Bool :=
  engines.all (fun e => !(x.eng e).resumes && match (x.eng e).flight with | none => true | some i => abandons i) &&
  x.movingCopies.isEmpty && (x.mcmds.all fun m => !m.started) && x.engL.queue.isEmpty && x.engW.queue.isEmpty && x.stfs.isEmpty

/-- The engine that CKPT_TIMEOUT names: the least step count, ties in the order S, L, M, V, W. -/
def Cell.laggard (x : Cell) : Option Eng :=
  (engines.filter fun e => !(x.eng e).halted).find? fun e => some (x.eng e).step == x.trailing

/-- CKPT_TIMEOUT: CKPTLIM passes and the engines go no further; then, at their stopping points, the cell traps (R382). -/
def execCkptTimeout (c : Nat) (s : State) : Host.Outcome State Fault Refusal :=
  let x := s.cell c
  match x.preempt with
  | none => idle s
  | some p =>
    if x.frozen.isSome then idle s
    else if !p.timedOut then
      if x.overdue p s.cycle then
        .next (s.modCell c fun x => { x with preempt := some { p with timedOut := true } })
      else idle s
    else if x.atStoppingPoints then
      match x.laggard with
      | some e => .next ((s.recall c).takeTrap c e { cause := cCkpt })
      | none => idle s
    else idle s

end Sys2Proof.Machine
end

