-- ==== Sys2Proof/Machine/Fabric.lean ====
section
/-! DEFINITION. The fabric (16): pool regions and their switches (R393–R398, R403, R404), ownership tokens (R399–R402),
notifying stores (R405–R409), and what arrives from peers (R390, R393). -/

namespace Sys2Proof.Machine

/-! ## Addresses of regions (R394) -/

/-- Translate an address operand of a pool or ownership instruction, without the checks of its home. -/
def State.regionKey (s : State) (asid : BitVec 14) (va : Nat) : Except (BitVec 8) Nat :=
  if va ≥ 2 ^ 57 then .error cXlate
  else if windowBase ≤ va && va < windowBase + 0x40000000 then
    if va - windowBase ≥ 80 * 0x800000 then .error cXlate else .ok (2 ^ 52 + (va - windowBase))
  else if spillBase ≤ va then .error cPerm
  else if poolBase ≤ va && va < poolBase + 2 ^ 42 then
    let a := va - poolBase
    .ok (4 * 2 ^ 52 + a / 2 ^ 39 * 2 ^ 42 + a % 2 ^ 39)
  else
    match s.leafFor asid va with
    | .error c => .error c
    | .ok l =>
      let raw := l.pa + va % l.size
      if !paOk s.minimal raw then .error cXlate
      else if paClass raw = 8 || !l.r then .error cPerm
      else .ok (if paClass raw = 4 then raw else s.key raw l.sl)

/-- The executing cell's tenant (R360). -/
def State.tenant (s : State) : BitVec 12 := ((s.ctx s.here.asid).map Ctx.tenant).getD 0#12

/-- A status alone (R395). -/
def status (sd : SReg) (n : Nat) (s : State) : Act := .done (s.setS sd (BitVec.ofNat 64 n))

/-! ## The allocator (R396–R398) -/

/-- Granules of a mere: 512 GiB (R5). -/
def mereGranules : Nat := 262144

/-- The key of offset o of a switch's mere. -/
def mereKey (sw o : Nat) : Nat := 4 * 2 ^ 52 + sw * 2 ^ 42 + o

/-- The address of a primary copy in the pool window (R396). -/
def poolAddr (key : Nat) : Nat := poolBase + key / 2 ^ 42 % 8 * 2 ^ 39 + key % 2 ^ 39

/-- A region occupies a granule of a switch, as primary or as mirror. -/
def Region.covers (r : Region) (sw g : Nat) : Bool :=
  let here (base : Nat) : Bool := decide (base / 0x200000 ≤ mereKey sw 0 / 0x200000 + g) &&
    decide (mereKey sw 0 / 0x200000 + g < (base + r.size) / 0x200000)
  here r.base || (r.mirror && here (r.base ^^^ 2 ^ 44))

/-- Free granules of a switch. -/
def Pool.freeGranules (p : Pool) (sw : Nat) : Nat :=
  mereGranules - ((p.regions.map fun r =>
    (if switchOf r.base = sw then r.size / 0x200000 else 0) +
    (if r.mirror && decide (switchOf (r.base ^^^ 2 ^ 44) = sw) then r.size / 0x200000 else 0)).foldl (· + ·) 0)

/-- A run of granules of a switch is free. -/
def Pool.rangeFree (p : Pool) (sw g n : Nat) : Bool :=
  !(p.regions.any fun r =>
    let hits (base : Nat) : Bool := decide (base < mereKey sw ((g + n) * 0x200000)) && decide (mereKey sw (g * 0x200000) < base + r.size)
    hits r.base || (r.mirror && hits (r.base ^^^ 2 ^ 44)))

/-- The first granules of the free ranges of a size, the same range free on the pair's other switch under a mirror. -/
def Pool.freeStarts (p : Pool) (sw n : Nat) (mir : Bool) : List Nat :=
  (List.range (mereGranules + 1 - n)).filter fun g => p.rangeFree sw g n && (!mir || p.rangeFree (sw ^^^ 4) g n)

/-- Bytes that a tenant uses. -/
def Pool.usedBy (p : Pool) (t : BitVec 12) : Nat :=
  ((p.regions.filter fun r => r.tenant == t).map fun r => r.size * (if r.mirror then 2 else 1)).foldl (· + ·) 0

/-- Insert a switch by most free granules, ties to the lower. -/
def insertSwitch (p : Pool) (n : Nat) : List Nat → List Nat
  | [] => [n]
  | m :: r => if p.freeGranules m ≥ p.freeGranules n then m :: insertSwitch p n r else n :: m :: r

/-- The candidates of an allocation, in order: healthy switches that the requester reaches. -/
def State.candidates (s : State) (reach mir : Bool) (pref : Option Nat) : List Nat :=
  let healthy (n : Nat) : Bool := reach && s.switch n == .healthy
  let ok (n : Nat) : Bool := healthy n && (!mir || healthy (n ^^^ 4))
  match pref with
  | some p => ((List.range 8).map fun i => (p + i) % 8).filter ok
  | none => ((List.range 8).filter ok).foldl (fun l n => insertSwitch s.pool n l) []

/-- An allocation at the pool's one allocator, for a requester of a tenant (R396): the status of a failure, or the device
after it and the value that names the region. -/
def State.allocate (s : State) (t : BitVec 12) (reach : Bool) (size : Nat) (mir : Bool) (pref : Option Nat) :
    Except Nat (State × Word) :=
  let n := size / 0x200000
  if size = 0 || size % 0x200000 ≠ 0 || size > 2 ^ 39 then .error 3
  else if s.pool.usedBy t + size * (if mir then 2 else 1) > tabGet 0 s.pool.quota t.toNat then .error 1
  else
    let cs := s.candidates reach mir pref
    if mir && cs.isEmpty then .error 4
    else
      match cs.find? fun sw => !(s.pool.freeStarts sw n mir).isEmpty with
      | none => .error 2
      | some sw =>
        let gs := s.pool.freeStarts sw n mir
        let g := gs.getD (Config.poolChoice s.draws % gs.length) 0
        let key := mereKey sw (g * 0x200000)
        let r : Region := { base := key, size, tenant := t, mirror := mir }
        .ok ({ s with
          draws := s.draws + 1, mem := tabClear s.mem key size
          ecc := s.ecc.filter fun e => !(decide (key ≤ e.1) && decide (e.1 < key + size))
          pool := { s.pool with regions := s.pool.regions ++ [r] } }, BitVec.ofNat 64 (poolAddr key))

/-- POOL.ALLOC (R396). -/
def execPoolAlloc (h : Hdr) (sd sa : SReg) (mir : Bool) (pref : BitVec 3) (given : Bool) (s : State) :
    Host.Outcome State Fault Refusal :=
  issueX h [sa] s fun s =>
    match s.allocate s.tenant (!s.minimal) (s.getS sa).toNat mir (if given then some pref.toNat else none) with
    | .error n => status sd n s
    | .ok (t, v) => .done (t.setS sd v)

/-! ## Tokens (R399–R402) -/

/-- Write back the modified bytes of n bytes from a region's first, and drop the copy. -/
def State.writeBack (s : State) (base n : Nat) : State :=
  let mine := s.own.cache.filter fun e => decide (base ≤ e.1) && decide (e.1 < base + n)
  let s := { s with own := { s.own with cache := tabClear s.own.cache base n } }
  { s with mem := mine.foldl (fun m e => match e.2 with | some b => tabSet 0#8 m e.1 b | none => m) s.mem }

/-- The state of a region. -/
def State.ownState (s : State) (rg : Nat) : Own := tabGet Own.none s.own.st rg

/-- Set the state of a region, and the holder that its home knows. -/
def State.setOwn (s : State) (rg : Nat) (o : Own) (h : Option (BitVec 6)) : State :=
  { s with own := { s.own with st := tabSet Own.none s.own.st rg o, holder := tabSet none s.own.holder rg h } }

/-- A token of this device is revoked: what it holds is written back, unless its home is lost (R402, R403). -/
def State.revoke (s : State) (rg : Nat) (lost : Bool) (h : Option (BitVec 6)) : State :=
  if s.ownState rg = .held then
    let s := if lost then { s with own := { s.own with cache := tabClear s.own.cache (rg * 0x200000) 0x200000 } }
      else s.writeBack (rg * 0x200000) 0x200000
    s.setOwn rg .revoked h
  else { s with own := { s.own with holder := tabSet none s.own.holder rg h } }

/-- Every token of a pool region is revoked (R397, R403). -/
def State.revokeAll (s : State) (r : Region) (lost : Bool) : State :=
  (List.range (r.size / 0x200000)).foldl (fun s i => s.revoke (r.base / 0x200000 + i) lost none) s

/-- An access of this device that has passed its check touches a region: a queued one, the flag of an STF, a job of stack
reduction (R402). -/
def State.touchesRegion (s : State) (rg : Nat) : Bool :=
  let here (k : Nat) : Bool := regionOf k == rg
  s.cells.any (fun e => e.2.stfs.any (fun f => f.flag.any here) ||
    engines.any fun g => (e.2.eng g).queue.any fun q => (accessKeys q.acc).any here) ||
  s.sre.any fun q => q.2.any fun j => j.flag.any here ||
    j.pages.any fun p => (List.range 256).any fun i => here (s.pageKey p (p.1 * 65536 + 256 * i))

/-- This device holds a token of a pool region in which its accesses are outstanding: its revocation waits for them (R402). -/
def State.revokeWaits (s : State) (r : Region) : Bool :=
  s.own.st.any fun e => e.2 == .held && decide (r.base / 0x200000 ≤ e.1) && decide (e.1 < (r.base + r.size) / 0x200000) &&
    s.touchesRegion e.1

/-- The region that starts at a key and belongs to a tenant. -/
def State.regionFrom (s : State) (t : BitVec 12) (k : Nat) : Option Region :=
  s.pool.regions.find? fun r => r.base == k && r.tenant == t

/-- A byte of a region. -/
def Region.has (r : Region) (k : Nat) : Bool := decide (r.base ≤ k) && decide (k < r.base + r.size)

/-- The allocator takes a region back, and its tokens are revoked; the accesses that have passed its check stand (R397). -/
def State.freeRegion (s : State) (r : Region) : State :=
  let s := (s.drainKeys r.has).revokeAll r r.lost
  { s with pool := { s.pool with regions := s.pool.regions.filter fun q => q.base != r.base } }

/-- POOL.FREE (R397). -/
def execPoolFree (h : Hdr) (sd sa : SReg) (s : State) : Host.Outcome State Fault Refusal :=
  issueX h [sa] s fun s =>
    let va := s.getS sa
    match s.regionKey s.here.asid va.toNat with
    | .error c => .trap { cause := c, addr := va }
    | .ok k =>
      if !s.quiet then .wait s .other
      else
        match s.regionFrom s.tenant k with
        | none => status sd 5 s
        | some r => if !r.lost && s.revokeWaits r then .wait s .other else status sd 0 (s.freeRegion r)

/-- The code of a switch's health. -/
def healthCode : Health → Nat
  | .healthy => 0 | .failed => 1 | .rebuilding => 2 | .absent => 3

/-- Insert a region by its address. -/
def insertRegion (r : Region) : List Region → List Region
  | [] => [r]
  | q :: rest => if q.base < r.base then q :: insertRegion r rest else r :: q :: rest

/-- The 64 bytes of a report (R398). -/
def State.poolReport (s : State) (q : Word) : List Byte :=
  let t := s.tenant
  let mine := s.pool.regions.filter fun r => r.tenant == t
  let lost := (mine.filter (·.lost)).foldl (fun l r => insertRegion r l) []
  fitBytes 64 <|
    match q.toNat % 256 with
    | 0 => quads [tabGet 0 s.pool.quota t.toNat, s.pool.usedBy t, mine.length - lost.length, lost.length]
    | 1 => (List.range 8).flatMap (fun i => leBytes 1 (healthCode (s.switch i))) ++
           (List.range 8).flatMap (fun i => leBytes 4 (s.pool.freeGranules i))
    | _ => quads (lost.length :: ((lost.drop (q.toNat / 256 % 2 ^ 32)).take 7).map fun r => poolAddr r.base)

/-- POOL.STAT (R398). -/
def execPoolStat (h : Hdr) (sd sa sb : SReg) (s : State) : Host.Outcome State Fault Refusal :=
  issueX h [sa, sb] s fun s =>
    let q := s.getS sa
    let va := s.getS sb
    if va.toNat % 64 ≠ 0 then .trap { cause := cAlign, addr := va }
    else
      match s.span .store va 64 with
      | .error t => .trap t
      | .ok ks =>
        if !(ks.all fun k => paClass k == 0 || (paClass k == 1 && decide (k / 0x800000 % 128 = s.cur.cell))) then
          .trap { cause := cPerm, addr := va }
        else if q.toNat % 256 > 2 || q.toNat / 2 ^ 40 ≠ 0 then status sd 5 s
        else if s.meetsBarrier ks then .trap { cause := cBar, detail := 1, addr := va }
        else
          match s.watchTrap false true va 64 with
          | some t => .trap t
          | none =>
            let ps := fullPuts ks (s.poolReport q)
            if s.me.queue.any fun a => mustFollow a.acc (.store ps none) then .wait s .other
            else status sd 0 ((s.countBytes s.cur.cell [va] ks).puts ps)

/-! ## The ownership instructions (R400) -/

/-- A region operand of an ownership instruction: a trap, a status, or the region's number. -/
inductive Area
  | trap (t : TrapRec)
  | code (n : Nat)
  | region (rg : Nat)

/-- The checks of R400, in order: translation, address, home in service, tenant. -/
def State.areaOf (s : State) (va : Word) : Area :=
  match s.regionKey s.here.asid va.toNat with
  | .error c => .trap { cause := c, addr := va }
  | .ok k =>
    let perm : Area := .trap { cause := cPerm, addr := va }
    if k % 0x200000 ≠ 0 then .code 8
    else
      match paClass k with
      | 2 =>
        if s.peerGone k then .code 9
        else if s.peerTakes s.here.asid k then .region (regionOf k) else perm
      | 4 =>
        let k := s.mirrorKey k
        match s.regionAt k with
        | some r => if s.minimal || r.lost then .code 9 else if r.tenant = s.tenant then .region (regionOf k) else perm
        | none => if s.minimal || s.switch (switchOf k) = .failed then .code 9 else perm
      | _ => .code 8

/-- Tokens that this device holds. -/
def State.tokensHeld (s : State) : Nat := (s.own.st.filter fun e => e.2 == .held).length

/-- OWN.ACQ, an acquire at pod scope: it passes no earlier release of S (R302). Another holder's revocation, with the writes
that it returns before the grant, has arrived as accesses of that device (R402). -/
def execOwnAcq (h : Hdr) (sd sa : SReg) (s : State) : Host.Outcome State Fault Refusal :=
  issueX h [sa] s fun s =>
    match s.areaOf (s.getS sa) with
    | .trap t => .trap t
    | .code n => status sd n s
    | .region rg =>
      if s.me.releasing then .wait s .other
      else if s.ownState rg = .held then status sd 0 (s.acquired s.cur.cell s.cur.eng)
      else if s.tokensHeld ≥ Config.tokensMax then status sd 6 s
      else
        let t := s.tenant
        let s := (s.setOwn rg .held (some s.podDev)).acquired s.cur.cell s.cur.eng
        status sd 0 { s with own := { s.own with tenant := tabSet 0#12 s.own.tenant rg t } }

/-- OWN.REL: a release at pod scope. -/
def execOwnRel (h : Hdr) (sd sa : SReg) (s : State) : Host.Outcome State Fault Refusal :=
  issueX h [sa] s fun s =>
    match s.areaOf (s.getS sa) with
    | .trap t => .trap t
    | .code n => status sd n s
    | .region rg =>
      if !s.quiet then .wait s .other
      else
        match s.ownState rg with
        | .none => status sd 7 s
        | .revoked => status sd 0 { s with own := { s.own with st := tabSet Own.none s.own.st rg .none } }
        | .held =>
          let s := ((s.drainKeys fun k => regionOf k == rg).writeBack (rg * 0x200000) 0x200000).setOwn rg .none none
          status sd 0 { s with own := { s.own with tenant := tabSet 0#12 s.own.tenant rg 0#12 } }

/-- OWN.TEST. -/
def execOwnTest (h : Hdr) (sd sa : SReg) (s : State) : Host.Outcome State Fault Refusal :=
  issueX h [sa] s fun s =>
    match s.areaOf (s.getS sa) with
    | .trap t => .trap t
    | .code n => status sd n s
    | .region rg =>
      let who := match tabGet none s.own.holder rg with | some d => d.toNat | none => 0xFF
      let st := match s.ownState rg with | .none => 0 | .held => 1 | .revoked => 2
      status sd (who * 256 + st * 65536) s

/-- OWN_REVOKE: this device, the holder of a region, receives a revocation for a device that acquires it (R402). -/
def execOwnRevoke (region : Nat) (dev : BitVec 6) (s : State) : Host.Outcome State Fault Refusal :=
  if s.ownState region ≠ .held || s.touchesRegion region then idle s
  else .next (s.revoke region false (some dev))

/-- The Turos ports answer peers: not in minimal mode, before a start, in standby or off (R428, R431, R441). -/
def State.serving (s : State) : Bool := !s.minimal && s.open && s.mc.power != .standby

/-- A region whose home is another device or a pool switch, both in service (R399, R400). -/
def State.homeElsewhere (s : State) (k : Nat) : Bool :=
  paOk false k &&
  match paClass k with
  | 2 => peerOf k != s.podDev.toNat && !s.peerGone k
  | 4 => (s.regionAt k).any fun r => !r.lost
  | _ => false

/-- OWNERSHIP_REQUEST: another device asks the home of a region for its token (R400, R402), whether the home is this device's
HBM, a peer's or the pool. Where this device holds the token, the home's revocation reaches it first. As the home of its own
HBM this device revokes a third holder's token and keeps the acquire waiting; the holder's answer, once its writes have come
back, is its release, and the token then goes to the first that waits. -/
def execOwnershipRequest (dev : BitVec 6) (region : Nat) (kind : OwnKind) (s : State) : Host.Outcome State Fault Refusal :=
  let k := region * 0x200000
  let who := tabGet none s.own.holder region
  let answer (s : State) (bs : List Byte) : State := { s with reply := { ok := true, data := bs } }
  let mine := paClass k = 0 && paOk s.minimal k && s.serving
  if !mine && (s.minimal || !s.homeElsewhere k) || dev = s.podDev then idle s
  else if kind ≠ .test && (mine || s.ownState region = .held) && s.touchesRegion region then idle s
  else
    match kind with
    | .acq =>
      match (if mine then who.filter fun d => d != dev && d != s.podDev else none) with
      | some d =>
        let q := tabGet [] s.own.waiting region
        if q.contains dev then idle s
        else .next { s with own := { s.own with
          waiting := tabSet [] s.own.waiting region (q ++ [dev])
          sent := if q.isEmpty then s.own.sent ++ [.revoke d region] else s.own.sent } }
      | none => .next (answer (s.revoke region false (some dev)) [0#8])
    | .rel =>
      match (if mine && who == some dev then tabGet [] s.own.waiting region else []) with
      | d :: rest => .next (answer { s with own := { s.own with
          holder := tabSet none s.own.holder region (some d)
          waiting := tabSet [] s.own.waiting region rest
          sent := s.own.sent ++ .grant d region :: (if rest.isEmpty then [] else [.revoke d region]) } } [0#8])
      | [] =>
      if who = some dev then .next (answer { s with own := { s.own with holder := tabSet none s.own.holder region none } } [0#8])
      else .next (answer s [7#8])
    | .test => .next (answer s [0#8, (match who with | some d => d.setWidth 8 | none => 0xFF#8)])

/-! ## Loss and repair of switches (R403, R404) -/

/-- Set the health of a switch. -/
def State.setHealth (s : State) (n : Nat) (x : Health) : State :=
  { s with pool := { s.pool with health := tabSet Health.healthy s.pool.health n x } }

/-- A region has no sound copy left while a switch fails. -/
def State.losesRegion (s : State) (n : Nat) (r : Region) : Bool :=
  let p := switchOf r.base
  !r.lost && (p == n || (r.mirror && (p ^^^ 4) == n)) && (!r.mirror || s.switch (n ^^^ 4) != .healthy)

/-- SWITCH_FAIL: loads that have passed their checks have been answered (R403). -/
def execSwitchFail (n : BitVec 3) (s : State) : Host.Outcome State Fault Refusal :=
  let k := n.toNat
  if s.switch k = .failed || s.switch k = .absent then idle s
  else
    let gone := s.pool.regions.filter (s.losesRegion k)
    let s := s.drainLoads fun a => paClass a == 4 && (gone.any (·.has a) || (switchOf a == k && (s.regionAt a).isNone))
    let s := gone.foldl (fun s r => s.revokeAll r true) (s.setHealth k .failed)
    let s := { s with pool := { s.pool with regions := s.pool.regions.map fun r => if gone.contains r then { r with lost := true } else r } }
    .next (s.post 0x0501#16 5 k k 0)

/-- SWITCH_REPAIR: a failed switch begins to copy the survivors' contents. -/
def execSwitchRepair (n : BitVec 3) (s : State) : Host.Outcome State Fault Refusal :=
  if s.switch n.toNat = .failed then .next (s.setHealth n.toNat .rebuilding) else idle s

/-- SWITCH_REBUILD_DONE. -/
def execSwitchRebuildDone (n : BitVec 3) (s : State) : Host.Outcome State Fault Refusal :=
  if s.switch n.toNat = .rebuilding then .next (s.setHealth n.toNat .healthy) else idle s

/-- PEER_LEAVES_SERVICE: accesses that have passed its checks have been performed (R390, R354). -/
def execPeerLeavesService (dev : BitVec 6) (s : State) : Host.Outcome State Fault Refusal :=
  if dev = s.podDev then idle s
  else
    let s := s.drainKeys fun k => (paClass k == 2 || paClass k == 3) && peerOf k == dev.toNat
    .next ({ s with fab := { s.fab with out := tabSet false s.fab.out dev.toNat true } }.thiefLeaves dev)

/-- PEER_RETURNS_TO_SERVICE (R441). -/
def execPeerReturnsToService (dev : BitVec 6) (s : State) : Host.Outcome State Fault Refusal :=
  .next { s with fab := { s.fab with out := tabSet false s.fab.out dev.toNat false } }

/-! ## Notifying stores (R405, R406) -/

/-- The target of a byte: this device, a peer, or a switch. -/
def targetOfKey (k : Nat) : Nat × Nat :=
  match paClass k with
  | 2 | 3 => (1, k / 2 ^ 40 % 64)
  | 4 => (2, switchOf k)
  | _ => (0, 0)

/-- The keys of n bytes of an STF at issue: translation, permission and live barrier objects, without watches (R405). -/
def State.notifyKeys (s : State) (va : Word) (n : Nat) : Except TrapRec (List Nat) :=
  match s.span .notify va n with
  | .error t => .error t
  | .ok ks => if s.meetsBarrier (ks.filter fun k => paClass k < 2) then .error { cause := cBar, detail := 1, addr := va } else .ok ks

/-- The checks of one repetition at issue: what VST checks, without its watches (R405). -/
def State.stfRep (s : State) (r : RunOps) (f : Fmt) (mk : MNum) (i : Nat) : Except TrapRec (List Nat) :=
  if s.here.badReg (1000 + (r.reg.toNat + i)) || s.here.badMask mk then .error { cause := cEcc }
  else
    let ea := s.runBase r false i
    ((activeLanes (s.mr mk)).mapM fun l => s.notifyKeys (placeAt f ea l).va (elemBytes f)).map List.flatten

/-- Every repetition in order; a trap names its own. -/
def State.stfReps (s : State) (r : RunOps) (f : Fmt) (mk : MNum) : Nat → Nat → Except TrapRec (List Nat)
  | 0, _ => .ok []
  | n + 1, i =>
    match s.stfRep r f mk i with
    | .error t => .error { t with idx := some i }
    | .ok ks =>
      match s.stfReps r f mk n (i + 1) with
      | .error t => .error t
      | .ok rest => .ok (ks ++ rest)

/-- The keys of the flag (R405). -/
def State.stfFlag (s : State) (r : RunOps) : Except TrapRec (List Nat) :=
  let va := s.getS r.index
  let n := r.rep.toNat + 1
  if va.toNat % 8 ≠ 0 then .error { cause := cAlign, addr := va, idx := some n }
  else
    match s.span .notify va 8 with
    | .error t => .error { t with idx := some n }
    | .ok ks =>
      if s.meetsBarrier ks then .error { cause := cBar, detail := 1, addr := va, idx := some n } else .ok ks

/-- An STF begins: it counts as issued, and its flag as open (R406, R408). -/
def Cell.openStf (x : Cell) (flagVa : Word) (flag : List Nat) : Cell :=
  if x.stfs.any (·.issuing) then x
  else { x with stfs := x.stfs ++ [{ asid := x.asid, flagVa, flag, stamp := 0, issuing := true }] }

/-- Every repetition of the STF has issued: its flag waits for the bytes before it (R406). -/
def Cell.closeStf (x : Cell) (flagVa : Word) (flag : List Nat) : Cell :=
  { x with stfs := x.stfs.map fun f => if f.issuing then { f with flagVa, flag, stamp := x.engW.nextId, issuing := false } else f }

/-- One repetition of an STF's data: that of VST at unit scale, without the index (R405). -/
def stfStore (r : RunOps) (f : Fmt) (cvt : Cvt) (mk : BitVec 1024) (seed : Word) (i : Nat) (s : State) :
    Except (Option TrapRec) State :=
  let ea := s.runBase r false i
  match storeLanes .notify (s.vrAt (r.reg.toNat + i)) f cvt (.fin false 1 1) seed ((activeLanes mk).map fun l => (l, placeAt f ea l)) s with
  | .error e => .error (some e.2)
  | .ok t => .ok t

/-- STF: all checks, then the repetitions of VST, then the flag update on its way (R405, R406). -/
def execStf (h : Hdr) (r : RunOps) (fmt : Fmt) (cvt : Cvt) (mk : MNum) (s : State) : Host.Outcome State Fault Refusal :=
  issue h [r.base, r.index] s fun s =>
    if s.fab.en && s.fab.asid == s.here.asid && !s.me.resumes then .wait s .other
    else
      match (if s.me.resumes then .ok [] else s.stfReps r fmt mk (r.rep.toNat + 1) 0) with
      | .error t => .trap t
      | .ok data =>
        match s.stfFlag r with
        | .error t => .trap t
        | .ok flag =>
          let va := s.getS r.index
          let inst : Instr := .stf h r fmt cvt mk
          if data.any fun k => targetOfKey k != targetOfKey (flag.headD 0) then
            .trap { cause := cPerm, addr := va, idx := some (r.rep.toNat + 1) }
          else
            match repeated inst h r.rep.toNat (underMask mk fun seed i s => stfStore r fmt cvt (s.mr mk) seed i s)
              (s.modHere fun x => x.openStf va flag) with
            | .done t =>
              match t.watchTrap false true va 8 with
              | some w => .trapAt t inst (r.rep.toNat + 1) t.here.seed w
              | none => .done (t.modHere fun x => x.closeStf va flag)
            | a => a

/-- STF_FLAG_UPDATE: the data of a cell's oldest notifying store have been performed, and its flag is incremented at its
home; a refusal there is a deferred fault of W (R406, R409). -/
def execStfFlagUpdate (c : Nat) (s : State) : Host.Outcome State Fault Refusal :=
  match (s.cell c).stfs with
  | [] => idle s
  | f :: rest =>
    if f.issuing || (s.cell c).engW.queue.any fun q => decide (q.id < f.stamp) then idle s
    else
      let s := s.modCell c fun x => { x with stfs := rest }
      match s.stfRefusal f with
      | some t => .next (s.modEng c .w fun st => { st with deferred := st.deferred ++ [t] })
      | none => .next (s.stfRaise c f)

/-! ## Accesses that arrive from other devices (R390, R393) -/

/-- The answer to a request. -/
def State.answer (s : State) (ok : Bool) (cause : BitVec 8) (data : List Byte) : State := { s with reply := { ok, cause, data } }

/-- Keys of a request of n bytes at an address. -/
def reqKeys (pa n : Nat) : List Nat := (List.range n).map (pa + ·)

/-- Bytes that a request touches. -/
def reqLen : ReqKind → Nat
  | .read n => n
  | .write bs => bs.length
  | .atomic _ dbl _ _ => if dbl then 8 else 4
  | .flag => 8
  | _ => 1

/-- Perform a request of a device at keys that its home has checked. -/
def State.serve (s : State) (dev : BitVec 6) (pa : Nat) (kind : ReqKind) : State :=
  let ks := reqKeys pa (reqLen kind)
  let fail (d : Nat) : State := s.answer false cBar [BitVec.ofNat 8 d]
  let bad := if s.ecc.isEmpty then none else ks.find? s.bad
  match kind with
  | .read _ =>
    match bad with
    | some k => (s.countEcc 0 (some k)).answer false cEcc []
    | none => (s.settleDebts { dev := some dev } .pod ks).answer true 0#8 (ks.map (s.settleDebts { dev := some dev } .pod ks).view)
  | .write bs => ((s.outsideWrite dev.toNat (fullPuts ks bs)).tagged { dev := some dev } (some .pod) ks).answer true 0#8 []
  | .atomic op dbl b c =>
    match bad with
    | some k => (s.countEcc 0 (some k)).answer false cEcc []
    | none =>
      let s := s.settleDebts { dev := some dev } .pod ks
      let r := s.atomic op dbl ks b c
      let t := if s.meetsBarrier ks then s.outsideWrite dev.toNat (fullPuts ks (leBytes ks.length 0))
        else r.1.tagged { dev := some dev } (some .pod) ks
      t.answer true 0#8 (leBytes 8 r.2.toNat)
  | .flag =>
    match bad with
    | some k => (s.countEcc 0 (some k)).answer false cEcc []
    | none =>
      let v := leNat (ks.map s.view)
      ({ s.outsideWrite dev.toNat (fullPuts ks (leBytes 8 ((v + 1) % 2 ^ 64))) with relTags := s.relTags }.tagged { dev := some dev } (some .pod) ks).answer
        true 0#8 []
  | .barInit n b scope tag wire =>
    match s.barInit { dev := some dev } pa n b scope tag wire with
    | .error d => fail d
    | .ok t => t.answer true 0#8 []
  | .barInv => (s.barInv { dev := some dev } pa).answer true 0#8 []
  | .arrive bytes =>
    match s.arrive { dev := some dev } pa bytes.toInt none with
    | .error d => fail d
    | .ok (t, ph) => t.answer true 0#8 (leBytes 4 ph.toNat)
  | .await phase =>
    match s.barrierAt pa with
    | none => s.answer true 0#8 [0#8]
    | some b =>
      if b.phase ≠ phase then s.answer true 0#8 [1#8]
      else if !s.linesFree (s.halfAt pa) 1 then s
      else (s.setBarrier { b with waiters := b.waiters ++ [{ cell := 0, eng := .s, phase, peer := some dev }] }).answer true 0#8 []
  | .test => s.answer true 0#8 (leBytes 8 (match s.barrierAt pa with | none => 0 | some b => b.status.toNat))
  | .tree cell target ea v rel =>
    if (s.barrierAt pa).isSome && !s.linesFree (s.halfAt pa) 1 then s
    else
      let who : Agent := { dev := some dev, cell := some cell }
      match s.arrive who pa 0 (some { target, ea, dev, cell, ordinal := 0, early := false, val := v, rel := rel.map fun sc => (who, sc, 0) }) with
      | .error d => fail d
      | .ok (t, _) => t.answer true 0#8 []
  | .ended asid pos cause =>
    match s.tgu.recs.find? fun r => r.f.asid == asid && r.va.toNat == pa && r.issued && decide (r.base ≤ pos) && decide (pos < r.next) with
    | none => s
    | some r => (s.modRec r.id fun r => r.ended (cause.map (·.toNat))).answer true 0#8 []
  | .cancel asid =>
    ((s.tgu.recs.filter fun r => r.f.asid == asid && r.origin == some (dev, BitVec.ofNat 64 pa)).foldl State.cancelRec s).answer
      true 0#8 []
  | .poolAlloc .. | .poolFree => s

/-- Alignment that a barrier request must have; other requests come aligned as their instruction checked. -/
def reqAligned (pa : Nat) : ReqKind → Bool
  | .read _ | .write _ | .atomic .. | .flag => true
  | _ => pa % 64 == 0

/-- Ownership of a region of this device as its home sees it (R401): the requester must not meet another's token. -/
def State.tokenElsewhere (s : State) (dev : BitVec 6) (k : Nat) : Bool :=
  match tabGet none s.own.holder (regionOf k) with
  | some d => d != dev
  | none => false

/-- What a peer asks of the task graph unit: it names no byte (R354, R376). -/
def asksTgu : ReqKind → Bool
  | .ended .. | .cancel _ => true
  | _ => false

/-- What is asked of the pool's allocator (R396, R397). -/
def asksPool : ReqKind → Bool
  | .poolAlloc .. | .poolFree => true
  | _ => false

/-- PEER_ACCESS: the target alone decides (R390); it answers nothing while its ports are down (R431, R441). An access of
another device to a third one's memory, whose target has decided, changes what this device reads there (R392). -/
def execPeerAccess (r : PeerReq) (s : State) : Host.Outcome State Fault Refusal :=
  if asksPool r.kind then idle s
  else if !s.serving then .next (s.answer false cPoolLost [])
  else if asksTgu r.kind then .next (s.serve r.dev r.pa r.kind)
  else if paClass r.pa = 2 || paClass r.pa = 3 then
    let ks := reqKeys r.pa (reqLen r.kind)
    let away (k : Nat) : Bool := paClass k = paClass r.pa && paOk false k && peerOf k != s.podDev.toNat && !s.peerGone k
    if !(ks.all away && reqAligned r.pa r.kind) then idle s
    else if ks.any fun k => paClass k == 2 && s.tokenElsewhere r.dev k then .next (s.answer false cOwnMiss [])
    else .next (s.serve r.dev r.pa r.kind)
  else
    let ks := reqKeys r.pa (reqLen r.kind)
    let ctxOk := match s.ctx r.asid with | some c => c.podWide && c.tenant == r.tenant | none => false
    let homeOk (k : Nat) : Bool := paOk false k && (paClass k == 0 || (paClass k == 1 && (s.homeCheck r.asid k).isNone))
    if !(ctxOk && ks.all homeOk && reqAligned r.pa r.kind) then .next (s.answer false cPerm [])
    else if ks.any fun k => paClass k == 0 && s.tokenElsewhere r.dev k then .next (s.answer false cOwnMiss [])
    else .next (s.serve r.dev r.pa r.kind)

/-- Another device's request to the pool's allocator, which takes one at a time (R396, R397). -/
def State.allocator (s : State) (r : PoolReq) : State :=
  let answer (s : State) (v : Word) : State := s.answer true 0#8 (leBytes 8 v.toNat)
  match r.kind with
  | .poolAlloc size mir pref =>
    match s.allocate r.tenant true size mir (pref.map (·.toNat)) with
    | .error n => answer s (BitVec.ofNat 64 n)
    | .ok (t, v) => answer t v
  | .poolFree =>
    match s.regionFrom r.tenant r.pa with
    | none => answer s 5#64
    | some g => if !g.lost && s.revokeWaits g then s else answer (s.freeRegion g) 0#64
  | _ => s

/-- POOL_ACCESS: a switch checks its granule table and performs or refuses (R393, R401, R403); the allocator takes the
requests that are its own. -/
def execPoolAccess (r : PoolReq) (s : State) : Host.Outcome State Fault Refusal :=
  let pa := s.mirrorKey r.pa
  let ks := reqKeys pa (reqLen r.kind)
  let check (k : Nat) : Option (BitVec 8) :=
    if paClass k ≠ 4 || !paOk false k then some cPerm
    else
      match s.regionAt k with
      | none => some (if s.switch (switchOf k) = .failed then cPoolLost else cPerm)
      | some g =>
        if g.tenant ≠ r.tenant then some cPerm
        else if g.lost then some cPoolLost
        else if s.tokenElsewhere r.dev k then some cOwnMiss
        else none
  let plain := match r.kind with | .read _ | .write _ | .atomic .. | .flag => true | _ => false
  if asksPool r.kind then .next (s.allocator r) else
  match ks.findSome? check with
  | some c => .next (s.answer false c [])
  | none => if plain then .next (s.serve r.dev pa r.kind) else .next (s.answer false cPerm [])

end Sys2Proof.Machine
end

