-- ==== Sys2Proof/Machine/Reduce.lean ====
section
/-! DEFINITION. The stack reduction engines (16 R410–R413): SRE.RUN, its checks in order, and the jobs. -/

namespace Sys2Proof.Machine

/-- A parameter block (R410). -/
structure SreBlock where
  n : Nat
  efmt : Nat
  stack : Nat
  spare : Nat
  length : Nat
  dest : Word
  flag : Word
  fval : Word
  bufs : List Word
  /-- the reserved bytes 63:40 -/
  tail : Nat

/-- The block of 192 bytes. -/
def sreBlock (bs : List Byte) : SreBlock :=
  { n := field bs 0 1, efmt := field bs 1 1, stack := field bs 2 1, spare := field bs 3 5, length := field bs 8 8
    dest := BitVec.ofNat 64 (field bs 16 8), flag := BitVec.ofNat 64 (field bs 24 8), fval := BitVec.ofNat 64 (field bs 32 8)
    tail := field bs 40 24, bufs := dwords bs 64 16 }

/-- The buffers that a job reads. -/
def SreBlock.used (b : SreBlock) : List Word := b.bufs.take b.n

/-- The first address of a job that breaks its alignment (R411, check 1). -/
def SreBlock.misaligned (b : SreBlock) : Option Word :=
  match (b.used ++ [b.dest]).find? fun a => a.toNat % 256 != 0 with
  | some a => some a
  | none => if b.flag.toNat % 8 ≠ 0 then some b.flag else none

/-- The fields meet the table, and dest is one buffer or meets none (R411, check 2). -/
def SreBlock.sound (b : SreBlock) : Bool :=
  decide (2 ≤ b.n) && decide (b.n ≤ 16) && b.efmt == 0 && decide (b.stack ≤ 7) && b.spare == 0 && b.tail == 0 &&
  b.length % 256 == 0 && decide (256 ≤ b.length) && decide (b.length ≤ 2 ^ 32) && (b.bufs.drop b.n).all (· == 0#64) &&
  (b.used.contains b.dest || !(b.used.any fun a => meets (a.toNat, b.length) (b.dest.toNat, b.length)))

/-- One page of a buffer or of dest: translation and permission, and its address when it is no stack-local page of the
stack. -/
def State.srePage (s : State) (asid : BitVec 14) (need : Need) (stack : Nat) (va : Nat) : Except (BitVec 8) (Page × Option Nat) :=
  match s.resolve s.cur.cell asid need va with
  | .error c => .error c
  | .ok k =>
    if windowBase ≤ va || (poolBase ≤ va && va < poolBase + 2 ^ 42) then .ok ((va / 65536, 0, false), some va)
    else
      match s.leafFor asid va with
      | .error c => .error c
      | .ok l =>
        .ok ((va / 65536, l.pa + va % l.size / 65536 * 65536, l.sl),
             if l.sl && !s.minimal && paClass k == 0 && stackOf k == stack then none else some va)

/-- The pages of a buffer or of dest, in order. -/
def State.srePages (s : State) (need : Need) (b : SreBlock) (a : Word) : Except TrapRec (List (Page × Option Nat)) :=
  let first := a.toNat / 65536
  let last := (a.toNat + b.length - 1) / 65536
  ((List.range (last + 1 - first)).map fun i => max a.toNat ((first + i) * 65536)).foldr (fun va acc =>
    match s.srePage s.here.asid need b.stack va with
    | .error c => .error (s.addrTrap s.cur.cell s.here.asid va c)
    | .ok p =>
      match acc with
      | .error t => .error t
      | .ok ps => .ok (p :: ps)) (.ok [])

/-- All pages of a job: the buffers, then dest. -/
def State.sreMap (s : State) (b : SreBlock) : Except TrapRec (List (Page × Option Nat)) :=
  (b.used.map fun a => (a, Need.load)).foldr (fun e acc =>
    match s.srePages e.2 b e.1 with
    | .error t => .error t
    | .ok ps =>
      match acc with
      | .error t => .error t
      | .ok qs => .ok (ps ++ qs)) (s.srePages .store b b.dest)

/-- The parameter block, read as a load of S (R411). -/
def State.sreRead (s : State) (va : Word) : Except TrapRec SreBlock :=
  if va.toNat % 64 ≠ 0 then .error { cause := cAlign, addr := va }
  else
    match s.span .load va 192 with
    | .error t => .error t
    | .ok ks =>
      match (s.watchTrap true false va 192).or (s.eccTrap va ks) with
      | some t => .error t
      | none => .ok (sreBlock (s.readFor s.cur.cell .s 8 ks))

/-- Jobs of a stack's engine, oldest first. -/
def State.jobs (s : State) (st : Nat) : List Job := tabGet [] s.sre st

/-- Set the jobs of a stack's engine. -/
def State.setJobs (s : State) (st : Nat) (js : List Job) : State := { s with sre := tabSet [] s.sre st js }

/-- SRE.RUN (R410, R411): a release at device scope. -/
def execSreRun (h : Hdr) (sd sa : SReg) (s : State) : Host.Outcome State Fault Refusal :=
  issueX h [sa] s fun s =>
    let va := s.getS sa
    if s.me.loadBlocked ((s.span .load va 192).toOption.getD []) then .wait s .other
    else
      match s.sreRead va with
      | .error t => .trap t
      | .ok b =>
        match b.misaligned with
        | some a => .trap { cause := cAlign, addr := a }
        | none =>
          if !b.sound then status sd 1 s
          else
            match s.sreMap b with
            | .error t => .trap t
            | .ok ps =>
              match s.span .store b.flag 8 with
              | .error t => .trap t
              | .ok flag =>
                let off := (ps.findSome? (·.2)).or (if flag.all fun k => paClass k < 2 then none else some b.flag.toNat)
                if off.isSome then .trap { cause := cSre, addr := BitVec.ofNat 64 (off.getD 0) }
                else if !s.quiet || (s.jobs b.stack).length ≥ Config.sreDepth then .wait s .other
                else
                  let j : Job := { asid := s.here.asid, n := b.n, length := b.length, dest := b.dest, bufs := b.used
                                   pages := ps.map (·.1), flag, flagVa := b.flag, fval := b.fval }
                  status sd 0 (s.setJobs b.stack (s.jobs b.stack ++ [j]))

/-- SRE_JOB_START. -/
def execSreJobStart (st : BitVec 3) (s : State) : Host.Outcome State Fault Refusal :=
  match s.jobs st.toNat with
  | j :: r => if s.awake && !j.started then .next (s.setJobs st.toNat ({ j with started := true } :: r)) else idle s
  | [] => idle s

/-- The key of a byte under the translations that a job keeps. -/
def State.jobKey (s : State) (j : Job) (va : Nat) : Nat :=
  match j.pages.find? fun p => p.1 == va / 65536 with
  | some p => s.pageKey p va
  | none => 0

/-- The keys of element e of a vector. -/
def State.jobKeys (s : State) (j : Job) (base : Word) (e : Nat) : List Nat :=
  (List.range 4).map fun i => s.jobKey j (base.toNat + 4 * e + i)

/-- Element e of the result: the tree of R145 over the buffers, or the canonical NaN where an input is bad (R412, R413). -/
def State.jobElem (s : State) (j : Job) (e : Nat) : Lane :=
  let ks := j.bufs.map fun b => s.jobKeys j b e
  if !s.ecc.isEmpty && ks.any fun l => l.any s.bad then nan32
  else ((treeSum (ks.map fun l => BitVec.ofNat 32 (leNat (s.readVia j.ahead 4 l)))).getD nan32)

/-- The first input byte with an uncorrectable error: its address. -/
def State.jobBad (s : State) (j : Job) : Option Nat :=
  if s.ecc.isEmpty then none
  else
    (List.range (j.length / 4)).findSome? fun e => j.bufs.findSome? fun b =>
      (List.range 4).findSome? fun i =>
        let va := b.toNat + 4 * e + i
        if s.bad (s.jobKey j va) then some va else none

/-- The job that an engine of stack reduction runs has read a naturally aligned element of n bytes: a write that comes later
does not show in the results that use it (R305, R413, R421). -/
def State.jobReads (s : State) (st : BitVec 3) (k n : Nat) : State :=
  match s.jobs st.toNat with
  | j :: r =>
    if (n = 1 || n = 2 || n = 4 || n = 8) && k % n == 0 && s.awake && j.started then
      s.setJobs st.toNat ({ j with ahead := j.ahead ++ [(k, (List.range n).map fun i => s.view (k + i))] } :: r)
    else s
  | [] => s

/-- The writes of a job's results. -/
def State.jobPuts (s : State) (j : Job) : List Put :=
  (List.range (j.length / 4)).flatMap fun e => fullPuts (s.jobKeys j j.dest e) (leBytes 4 (s.jobElem j e).toNat)

/-- SRE_JOB_COMPLETE: the results, then the flag; with a bad input, bit 63 of the flag's value inverted and an event. -/
def execSreJobComplete (st : BitVec 3) (s : State) : Host.Outcome State Fault Refusal :=
  match s.jobs st.toNat with
  | j :: r =>
    if !s.awake || !j.started then idle s
    else
      let bad := s.jobBad j
      let fv := if bad.isSome then j.fval ^^^ BitVec.ofNat 64 (2 ^ 63) else j.fval
      let t := (s.outsideWrite s.podDev.toNat (s.jobPuts j)).outsideWrite s.podDev.toNat (fullPuts j.flag (leBytes 8 fv.toNat))
      let t := t.tagged { dev := some s.podDev } (some .dev) j.flag
      let t := match bad with
        | some va => t.countUncorrectable.post 0x0603#16 6 st.toNat va j.flagVa.toNat
        | none => t
      .next (t.setJobs st.toNat r)
  | [] => idle s

end Sys2Proof.Machine
end

