-- ==== Sys2Proof/Machine/Dispatch.lean ====
section
/-! DEFINITION. The dispatch: one arm per constructor of `Instr`. -/

namespace Sys2Proof.Machine

/-- What an instruction, or an event of the table, does. -/
def exec (i : Instr) (s : State) : Host.Outcome State Fault Refusal :=
  match i with
  | .add h sd sa b => Sys2Proof.Machine.execAdd h sd sa b s
  | .sub h sd sa b => Sys2Proof.Machine.execSub h sd sa b s
  | .mul h sd sa b => Sys2Proof.Machine.execMul h sd sa b s
  | .mulh h sd sa b u => Sys2Proof.Machine.execMulh h sd sa b u s
  | .div h sd sa b u => Sys2Proof.Machine.execDiv h sd sa b u s
  | .rem h sd sa b u => Sys2Proof.Machine.execRem h sd sa b u s
  | .and h sd sa b => Sys2Proof.Machine.execAnd h sd sa b s
  | .or h sd sa b => Sys2Proof.Machine.execOr h sd sa b s
  | .xor h sd sa b => Sys2Proof.Machine.execXor h sd sa b s
  | .shl h sd sa b => Sys2Proof.Machine.execShl h sd sa b s
  | .shr h sd sa b => Sys2Proof.Machine.execShr h sd sa b s
  | .sra h sd sa b => Sys2Proof.Machine.execSra h sd sa b s
  | .rol h sd sa b => Sys2Proof.Machine.execRol h sd sa b s
  | .ror h sd sa b => Sys2Proof.Machine.execRor h sd sa b s
  | .min h sd sa b u => Sys2Proof.Machine.execMin h sd sa b u s
  | .max h sd sa b u => Sys2Proof.Machine.execMax h sd sa b u s
  | .clz h sd sa => Sys2Proof.Machine.execClz h sd sa s
  | .ctz h sd sa => Sys2Proof.Machine.execCtz h sd sa s
  | .popc h sd sa => Sys2Proof.Machine.execPopc h sd sa s
  | .brev h sd sa => Sys2Proof.Machine.execBrev h sd sa s
  | .bfx h sd sa f => Sys2Proof.Machine.execBfx h sd sa f s
  | .bfxs h sd sa f => Sys2Proof.Machine.execBfxs h sd sa f s
  | .bfi h sd sa f sc => Sys2Proof.Machine.execBfi h sd sa f sc s
  | .sext h sd sa sz => Sys2Proof.Machine.execSext h sd sa sz s
  | .li h sd imm => Sys2Proof.Machine.execLi h sd imm s
  | .addx h sd sa sb sh imm => Sys2Proof.Machine.execAddx h sd sa sb sh imm s
  | .cmp h pd sa b cc => Sys2Proof.Machine.execCmp h pd sa b cc s
  | .pand h pd pa pb na nb => Sys2Proof.Machine.execPand h pd pa pb na nb s
  | .por h pd pa pb na nb => Sys2Proof.Machine.execPor h pd pa pb na nb s
  | .pxor h pd pa pb na nb => Sys2Proof.Machine.execPxor h pd pa pb na nb s
  | .pnot h pd pa => Sys2Proof.Machine.execPnot h pd pa s
  | .sel h sd sa b pc => Sys2Proof.Machine.execSel h sd sa b pc s
  | .sfadd h sd sa b rnd => Sys2Proof.Machine.execSfadd h sd sa b rnd s
  | .sfmul h sd sa b rnd => Sys2Proof.Machine.execSfmul h sd sa b rnd s
  | .sffma h sd sa sb sc rnd => Sys2Proof.Machine.execSffma h sd sa sb sc rnd s
  | .sfdiv h sd sa b rnd => Sys2Proof.Machine.execSfdiv h sd sa b rnd s
  | .sfcvt h sd sa op rnd => Sys2Proof.Machine.execSfcvt h sd sa op rnd s
  | .ld h sd sa sb imm sz u => Sys2Proof.Machine.execLd h sd sa sb imm sz u s
  | .st h sa sb sc imm sz => Sys2Proof.Machine.execSt h sa sb sc imm sz s
  | .lda h sd sa sb imm sz u scope => Sys2Proof.Machine.execLda h sd sa sb imm sz u scope s
  | .stl h sa sb sc imm sz scope => Sys2Proof.Machine.execStl h sa sb sc imm sz scope s
  | .amoAdd h o => Sys2Proof.Machine.execAmoAdd h o s
  | .amoAnd h o => Sys2Proof.Machine.execAmoAnd h o s
  | .amoOr h o => Sys2Proof.Machine.execAmoOr h o s
  | .amoXor h o => Sys2Proof.Machine.execAmoXor h o s
  | .amoMin h o u => Sys2Proof.Machine.execAmoMin h o u s
  | .amoMax h o u => Sys2Proof.Machine.execAmoMax h o u s
  | .amoXchg h o => Sys2Proof.Machine.execAmoXchg h o s
  | .amoCas h o sc => Sys2Proof.Machine.execAmoCas h o sc s
  | .amoFadd h o => Sys2Proof.Machine.execAmoFadd h o s
  | .amoFaddTree h sa sb sc imm rel scope => Sys2Proof.Machine.execAmoFaddTree h sa sb sc imm rel scope s
  | .amoFmin h o => Sys2Proof.Machine.execAmoFmin h o s
  | .amoFmax h o => Sys2Proof.Machine.execAmoFmax h o s
  | .qpush h q b => Sys2Proof.Machine.execQpush h q b s
  | .mfs h sd n => Sys2Proof.Machine.execMfs h sd n s
  | .mts h n sa => Sys2Proof.Machine.execMts h n sa s
  | .poolAlloc h sd sa mir pref given => Sys2Proof.Machine.execPoolAlloc h sd sa mir pref given s
  | .poolFree h sd sa => Sys2Proof.Machine.execPoolFree h sd sa s
  | .poolStat h sd sa sb => Sys2Proof.Machine.execPoolStat h sd sa sb s
  | .ownAcq h sd sa => Sys2Proof.Machine.execOwnAcq h sd sa s
  | .ownRel h sd sa => Sys2Proof.Machine.execOwnRel h sd sa s
  | .ownTest h sd sa => Sys2Proof.Machine.execOwnTest h sd sa s
  | .sreRun h sd sa => Sys2Proof.Machine.execSreRun h sd sa s
  | .watchSet h n sa size rd wr => Sys2Proof.Machine.execWatchSet h n sa size rd wr s
  | .syscall h sa code => Sys2Proof.Machine.execSyscall h sa code s
  | .tlbInv h sa sb kind => Sys2Proof.Machine.execTlbInv h sa sb kind s
  | .ctxSave h sd sa full rel => Sys2Proof.Machine.execCtxSave h sd sa full rel s
  | .ctxLoad h sd sa => Sys2Proof.Machine.execCtxLoad h sd sa s
  | .ctxResume h fin => Sys2Proof.Machine.execCtxResume h fin s
  | .ctxSwitch h => Sys2Proof.Machine.execCtxSwitch h s
  | .vld h r fmt mk z idx => Sys2Proof.Machine.execVld h r fmt mk z idx s
  | .vldRaw h r fmt mk z idx => Sys2Proof.Machine.execVldRaw h r fmt mk z idx s
  | .vldb h r fmt mk z idx shape => Sys2Proof.Machine.execVldb h r fmt mk z idx shape s
  | .pref h r x => Sys2Proof.Machine.execPref h r x s
  | .copy h o => Sys2Proof.Machine.execCopy h o s
  | .copyEnc h o => Sys2Proof.Machine.execCopyEnc h o s
  | .copyDec h o => Sys2Proof.Machine.execCopyDec h o s
  | .copyExport h o => Sys2Proof.Machine.execCopyExport h o s
  | .gather h o => Sys2Proof.Machine.execGather h o s
  | .scatter h o => Sys2Proof.Machine.execScatter h o s
  | .xchgAll h o => Sys2Proof.Machine.execXchgAll h o s
  | .dld h dd sa imm => Sys2Proof.Machine.execDld h dd sa imm s
  | .dst h ds sb imm => Sys2Proof.Machine.execDst h ds sb imm s
  | .wpwait h sd ch sa imm => Sys2Proof.Machine.execWpwait h sd ch sa imm s
  | .mma h t => Sys2Proof.Machine.execMma h t s
  | .mmaG h t gc sa sb => Sys2Proof.Machine.execMmaG h t gc sa sb s
  | .msd h t => Sys2Proof.Machine.execMsd h t s
  | .macc h ti vr cnt p => Sys2Proof.Machine.execMacc h ti vr cnt p s
  | .macw h ti vr cnt p cl => Sys2Proof.Machine.execMacw h ti vr cnt p cl s
  | .mzeroOpen h cnt => Sys2Proof.Machine.execMzeroOpen h cnt s
  | .mzero h ti cl => Sys2Proof.Machine.execMzero h ti cl s
  | .mmode h rnd zlog sa => Sys2Proof.Machine.execMmode h rnd zlog sa s
  | .mlagset h n => Sys2Proof.Machine.execMlagset h n s
  | .mmerge h ti kk np tag topk dao cl => Sys2Proof.Machine.execMmerge h ti kk np tag topk dao cl s
  | .descStep h o => Sys2Proof.Machine.execDescStep h o s
  | .descWalk h o => Sys2Proof.Machine.execDescWalk h o s
  | .descPath h vr => Sys2Proof.Machine.execDescPath h vr s
  | .descPathLoad h vr => Sys2Proof.Machine.execDescPathLoad h vr s
  | .descGroup h gc sa sb vr keys spill bias g1 cap => Sys2Proof.Machine.execDescGroup h gc sa sb vr keys spill bias g1 cap s
  | .vadd h o b rnd => Sys2Proof.Machine.execVadd h o b rnd s
  | .vsub h o b rnd => Sys2Proof.Machine.execVsub h o b rnd s
  | .vmul h o b rnd => Sys2Proof.Machine.execVmul h o b rnd s
  | .vfma h o b vc rnd => Sys2Proof.Machine.execVfma h o b vc rnd s
  | .vfms h o b vc rnd => Sys2Proof.Machine.execVfms h o b vc rnd s
  | .vmin h o b => Sys2Proof.Machine.execVmin h o b s
  | .vmax h o b => Sys2Proof.Machine.execVmax h o b s
  | .vabs h o => Sys2Proof.Machine.execVabs h o s
  | .vneg h o => Sys2Proof.Machine.execVneg h o s
  | .vrcp h o rnd => Sys2Proof.Machine.execVrcp h o rnd s
  | .vrsq h o rnd => Sys2Proof.Machine.execVrsq h o rnd s
  | .vsqrt h o rnd => Sys2Proof.Machine.execVsqrt h o rnd s
  | .vdiv h o b rnd => Sys2Proof.Machine.execVdiv h o b rnd s
  | .vexp2 h o rnd => Sys2Proof.Machine.execVexp2 h o rnd s
  | .vlog2 h o rnd => Sys2Proof.Machine.execVlog2 h o rnd s
  | .vtanh h o rnd => Sys2Proof.Machine.execVtanh h o rnd s
  | .vsigm h o rnd => Sys2Proof.Machine.execVsigm h o rnd s
  | .vcmp h md va b mk z cc => Sys2Proof.Machine.execVcmp h md va b mk z cc s
  | .vsel h vd va b mk => Sys2Proof.Machine.execVsel h vd va b mk s
  | .viadd h o b => Sys2Proof.Machine.execViadd h o b s
  | .visub h o b => Sys2Proof.Machine.execVisub h o b s
  | .vimul h o b => Sys2Proof.Machine.execVimul h o b s
  | .vimad h o b vc => Sys2Proof.Machine.execVimad h o b vc s
  | .vand h o b => Sys2Proof.Machine.execVand h o b s
  | .vor h o b => Sys2Proof.Machine.execVor h o b s
  | .vxor h o b => Sys2Proof.Machine.execVxor h o b s
  | .vnot h o => Sys2Proof.Machine.execVnot h o s
  | .vshl h o b => Sys2Proof.Machine.execVshl h o b s
  | .vshr h o b => Sys2Proof.Machine.execVshr h o b s
  | .vsra h o b => Sys2Proof.Machine.execVsra h o b s
  | .vbfx h o f sx => Sys2Proof.Machine.execVbfx h o f sx s
  | .vbfi h o f vc => Sys2Proof.Machine.execVbfi h o f vc s
  | .vpopc h o => Sys2Proof.Machine.execVpopc h o s
  | .vclz h o => Sys2Proof.Machine.execVclz h o s
  | .vfshl h o vb n => Sys2Proof.Machine.execVfshl h o vb n s
  | .vfshr h o vb n => Sys2Proof.Machine.execVfshr h o vb n s
  | .vcvtI2f h o u rnd => Sys2Proof.Machine.execVcvtI2f h o u rnd s
  | .vcvtF2i h o u rnd => Sys2Proof.Machine.execVcvtF2i h o u rnd s
  | .vidot4 h o b vc ua ub => Sys2Proof.Machine.execVidot4 h o b vc ua ub s
  | .vidot8 h o b vc ua ub => Sys2Proof.Machine.execVidot8 h o b vc ua ub s
  | .vredr h vd va mk op rnd => Sys2Proof.Machine.execVredr h vd va mk op rnd s
  | .vredc h vd va mk op rnd => Sys2Proof.Machine.execVredc h vd va mk op rnd s
  | .vrotr h o ss imm => Sys2Proof.Machine.execVrotr h o ss imm s
  | .vrotc h o ss imm => Sys2Proof.Machine.execVrotc h o ss imm s
  | .vbcr h o ss imm => Sys2Proof.Machine.execVbcr h o ss imm s
  | .vbcc h o ss imm => Sys2Proof.Machine.execVbcc h o ss imm s
  | .vscanr h vd va mk op rnd ex => Sys2Proof.Machine.execVscanr h vd va mk op rnd ex s
  | .viota h vd pat imm mk z => Sys2Proof.Machine.execViota h vd pat imm mk z s
  | .vmov h vd b mk z => Sys2Proof.Machine.execVmov h vd b mk z s
  | .vmovs h vd ss lane => Sys2Proof.Machine.execVmovs h vd ss lane s
  | .vext h ss va lane sx => Sys2Proof.Machine.execVext h ss va lane sx s
  | .vperm h o b => Sys2Proof.Machine.execVperm h o b s
  | .vsortc h vd va vc n ss mk => Sys2Proof.Machine.execVsortc h vd va vc n ss mk s
  | .vmand h md ma mb => Sys2Proof.Machine.execVmand h md ma mb s
  | .vmor h md ma mb => Sys2Proof.Machine.execVmor h md ma mb s
  | .vmxor h md ma mb => Sys2Proof.Machine.execVmxor h md ma mb s
  | .vmnot h md ma => Sys2Proof.Machine.execVmnot h md ma s
  | .vmpopc h ss ma => Sys2Proof.Machine.execVmpopc h ss ma s
  | .vmff h ss ma => Sys2Proof.Machine.execVmff h ss ma s
  | .vst h r fmt cvt mk idx => Sys2Proof.Machine.execVst h r fmt cvt mk idx s
  | .vstAmx h r fmt rnd amx idx => Sys2Proof.Machine.execVstAmx h r fmt rnd amx idx s
  | .vstAmxDrain h base off amx => Sys2Proof.Machine.execVstAmxDrain h base off amx s
  | .vsct h va vb ss mk imm fmt cvt => Sys2Proof.Machine.execVsct h va vb ss mk imm fmt cvt s
  | .epi h sa sb vr cnt fmt cvt act cols imm bias scale => Sys2Proof.Machine.execEpi h sa sb vr cnt fmt cvt act cols imm bias scale s
  | .stf h r fmt cvt mk => Sys2Proof.Machine.execStf h r fmt cvt mk s
  | .fence e h scope => Sys2Proof.Machine.execFence e h scope s
  | .mark e h => Sys2Proof.Machine.execMark e h s
  | .barInit e h sa sb sc imm scope tag wire => Sys2Proof.Machine.execBarInit e h sa sb sc imm scope tag wire s
  | .barInitInv e h sa imm => Sys2Proof.Machine.execBarInitInv e h sa imm s
  | .barArv e h sd sa imm => Sys2Proof.Machine.execBarArv e h sd sa imm s
  | .barArvx e h sd sa sb imm => Sys2Proof.Machine.execBarArvx e h sd sa sb imm s
  | .barWait e h pd sa sb imm => Sys2Proof.Machine.execBarWait e h pd sa sb imm s
  | .barTest e h sd sa imm => Sys2Proof.Machine.execBarTest e h sd sa imm s
  | .ringWf e h sd g n far => Sys2Proof.Machine.execRingWf e h sd g n far s
  | .ringWe e h sd g n far => Sys2Proof.Machine.execRingWe e h sd g n far s
  | .ringWeLoad e h sd g sb => Sys2Proof.Machine.execRingWeLoad e h sd g sb s
  | .ringClm e h sd g n far => Sys2Proof.Machine.execRingClm e h sd g n far s
  | .ringPub e h sd g n far => Sys2Proof.Machine.execRingPub e h sd g n far s
  | .ringPop e h sd g n far => Sys2Proof.Machine.execRingPop e h sd g n far s
  | .qpop e h sd q => Sys2Proof.Machine.execQpop e h sd q s
  | .qpopP e h pd q => Sys2Proof.Machine.execQpopP e h pd q s
  | .trap e h code => Sys2Proof.Machine.execTrap e h code s
  | .nop h => Sys2Proof.Machine.execNop h s
  | .br h t => Sys2Proof.Machine.execBr h t s
  | .brc h sa sb cc disp => Sys2Proof.Machine.execBrc h sa sb cc disp s
  | .call h t => Sys2Proof.Machine.execCall h t s
  | .ret h => Sys2Proof.Machine.execRet h s
  | .loop h sa disp => Sys2Proof.Machine.execLoop h sa disp s
  | .halt h => Sys2Proof.Machine.execHalt h s
  | .launch h sa q => Sys2Proof.Machine.execLaunch h sa q s
  | .launchNw h sa q => Sys2Proof.Machine.execLaunchNw h sa q s
  | .ckpt h idx => Sys2Proof.Machine.execCkpt h idx s
  | .yield h idx => Sys2Proof.Machine.execYield h idx s
  | .queueTimeout c e => Sys2Proof.Machine.execQueueTimeout c e s
  | .ckptTimeout c => Sys2Proof.Machine.execCkptTimeout c s
  | .deferredTrap c e => Sys2Proof.Machine.execDeferredTrap c e s
  | .copyLand c ord first n => Sys2Proof.Machine.execCopyLand c ord first n s
  | .xchgAccept c => Sys2Proof.Machine.execXchgAccept c s
  | .bWindowLoad c => Sys2Proof.Machine.execBWindowLoad c s
  | .tileCommandComplete c => Sys2Proof.Machine.execTileCommandComplete c s
  | .partialDeliver c => Sys2Proof.Machine.execPartialDeliver c s
  | .mergePartials c => Sys2Proof.Machine.execMergePartials c s
  | .tileRelocate c sib => Sys2Proof.Machine.execTileRelocate c sib s
  | .relocatedTileReturn c sib => Sys2Proof.Machine.execRelocatedTileReturn c sib s
  | .atomicPerform c e => Sys2Proof.Machine.execAtomicPerform c e s
  | .barWaitRelease c e => Sys2Proof.Machine.execBarWaitRelease c e s
  | .pageWalk asid va => Sys2Proof.Machine.execPageWalk asid va s
  | .iterationStart c => Sys2Proof.Machine.execIterationStart c s
  | .iterationEnd c => Sys2Proof.Machine.execIterationEnd c s
  | .recordIssue w => Sys2Proof.Machine.execRecordIssue w s
  | .recordComplete r => Sys2Proof.Machine.execRecordComplete r s
  | .stealProbe w => Sys2Proof.Machine.execStealProbe w s
  | .stealAnswer dev => Sys2Proof.Machine.execStealAnswer dev s
  | .stealGrant g => Sys2Proof.Machine.execStealGrant g s
  | .stealReport dev record range => Sys2Proof.Machine.execStealReport dev record range s
  | .lqTail q v => Sys2Proof.Machine.execLqTail q v s
  | .tguCancel v => Sys2Proof.Machine.execTguCancel v s
  | .preemptReq hi v => Sys2Proof.Machine.execPreemptReq hi v s
  | .preemptQuiesce c => Sys2Proof.Machine.execPreemptQuiesce c s
  | .peerAccess r => Sys2Proof.Machine.execPeerAccess r s
  | .poolAccess r => Sys2Proof.Machine.execPoolAccess r s
  | .ownRevoke region dev => Sys2Proof.Machine.execOwnRevoke region dev s
  | .switchFail n => Sys2Proof.Machine.execSwitchFail n s
  | .switchRebuildDone n => Sys2Proof.Machine.execSwitchRebuildDone n s
  | .stfFlagUpdate c => Sys2Proof.Machine.execStfFlagUpdate c s
  | .dfreeze v => Sys2Proof.Machine.execDfreeze v s
  | .sreJobStart st => Sys2Proof.Machine.execSreJobStart st s
  | .sreJobComplete st => Sys2Proof.Machine.execSreJobComplete st s
  | .hostBarWrite bar off bytes => Sys2Proof.Machine.execHostBarWrite bar off bytes s
  | .hostBarRead bar off len => Sys2Proof.Machine.execHostBarRead bar off len s
  | .registerWrite off v => Sys2Proof.Machine.execRegisterWrite off v s
  | .start f => Sys2Proof.Machine.execStart f s
  | .startTimeout step => Sys2Proof.Machine.execStartTimeout step s
  | .evqHead v => Sys2Proof.Machine.execEvqHead v s
  | .pwrLimit v => Sys2Proof.Machine.execPwrLimit v s
  | .powerSample milliwatts dieTemp packageTemp sensor => Sys2Proof.Machine.execPowerSample milliwatts dieTemp packageTemp sensor s
  | .telemetryRefresh sensors => Sys2Proof.Machine.execTelemetryRefresh sensors s
  | .scrubUnit st => Sys2Proof.Machine.execScrubUnit st s
  | .accessPerformed c e n => Sys2Proof.Machine.execAccessPerformed c e n s
  | .tileCommandStart c => Sys2Proof.Machine.execTileCommandStart c s
  | .barrierOperation c e => Sys2Proof.Machine.execBarrierOperation c e s
  | .ringFarOperation c e => Sys2Proof.Machine.execRingFarOperation c e s
  | .ownershipRequest dev region kind => Sys2Proof.Machine.execOwnershipRequest dev region kind s
  | .switchRepair n => Sys2Proof.Machine.execSwitchRepair n s
  | .peerLeavesService dev => Sys2Proof.Machine.execPeerLeavesService dev s
  | .peerReturnsToService dev => Sys2Proof.Machine.execPeerReturnsToService dev s
  | .cellAssign => Sys2Proof.Machine.execCellAssign s
  | .tguTakeEntry => Sys2Proof.Machine.execTguTakeEntry s
  | .walkerGiveBack => Sys2Proof.Machine.execWalkerGiveBack s
  | .agingStep => Sys2Proof.Machine.execAgingStep s
  | .stealPauseExpire => Sys2Proof.Machine.execStealPauseExpire s
  | .bootRestart => Sys2Proof.Machine.execBootRestart s
  | .bootClearFails => Sys2Proof.Machine.execBootClearFails s
  | .bootRestartMinimal => Sys2Proof.Machine.execBootRestartMinimal s
  | .recBegin => Sys2Proof.Machine.execRecBegin s
  | .recPiece => Sys2Proof.Machine.execRecPiece s
  | .recCommit => Sys2Proof.Machine.execRecCommit s
  | .recAbort => Sys2Proof.Machine.execRecAbort s
  | .attReport => Sys2Proof.Machine.execAttReport s
  | .attCert => Sys2Proof.Machine.execAttCert s
  | .pwrRun => Sys2Proof.Machine.execPwrRun s
  | .pwrIdle => Sys2Proof.Machine.execPwrIdle s
  | .pwrStandby => Sys2Proof.Machine.execPwrStandby s
  | .pwrOff => Sys2Proof.Machine.execPwrOff s
  | .pwrExitDone => Sys2Proof.Machine.execPwrExitDone s
  | .supplyRemoved => Sys2Proof.Machine.execSupplyRemoved s
  | .resetPinAsserted => Sys2Proof.Machine.execResetPinAsserted s

end Sys2Proof.Machine
end

