-- ==== Sys2Proof/Machine/Fetch.lean ====
section
/-! DEFINITION. Fetch and turns: how an engine reaches its next word (01 R11, R14, R15; 02 R52, R53, R62; 15 R369), and
who moves when the schedule is empty. The schedule is the model's own (assumption log 3). -/

namespace Sys2Proof.Machine

/-! ## Fetch (R40, R52, R53) -/

/-- The engine that executes the words of a tag: X words run on S, ENG 6 is raised by S, C words belong to all five. -/
def tagEngine (tag : Nat) : Eng :=
  match tag with
  | 1 => .l | 2 => .m | 3 => .v | 4 => .w | _ => .s

/-- A fetched word, or the trap of its line. -/
inductive Fetched
  | word (w : InstrWord)
  | trap (t : TrapRec)

/-- The first unit with an uncorrectable error in the 128-byte fetch line of a key (R40, R435). -/
def State.lineBad (s : State) (k : Nat) : Option Nat :=
  if s.ecc.isEmpty then none else ((List.range 16).map fun i => k / 128 * 128 + 8 * i).find? s.bad

/-- The key of the word at an instruction address as program text, once its sixteen bytes and the errors of their line are
checked (R14, R52). -/
def State.textKey (s : State) (c : Nat) (pc : Word) : Except TrapRec Nat :=
  match (List.range 16).foldr (fun i acc =>
      match s.resolve c (s.cell c).asid .fetch (pc.toNat + i) with
      | .error e => Except.error e
      | .ok k => acc.map (k :: ·)) (.ok []) with
  | .error e => .error (s.addrTrap c (s.cell c).asid pc.toNat e)
  | .ok ks =>
    match s.lineBad (ks.headD 0) with
    | some k => .error { cause := cEcc, addr := BitVec.ofNat 64 (pc.toNat / 128 * 128 + k % 128), phys := some k }
    | none => .ok (ks.headD 0)

/-- The word at a key. -/
def State.wordAt (s : State) (k : Nat) : InstrWord := wordOfBytes ((List.range 16).map fun i => s.view (k + i))

/-- Read the word at an instruction address as program text. -/
def State.fetchAt (s : State) (c : Nat) (pc : Word) : Fetched :=
  match s.textKey c pc with
  | .error t => .trap t
  | .ok k => .word (s.wordAt k)

/-- The word that a cell's engine fetches: the cached one, unless the line misses (R53). -/
def State.fetch (s : State) (c : Nat) (pc : Word) (miss : Bool) : Fetched :=
  match (if miss then none else tabGet none (s.cell c).icache (pc.toNat / 16)) with
  | some w => .word w
  | none => s.fetchAt c pc

/-- A fetch brings its whole line into the instruction cache (R40): every word of the line that the cache does not hold. A
fetch that bypasses a held word leaves it, so that another engine may still see the old one (R53). A line miss counts, and so
do the walks for its address (R35). -/
def State.keepLine (s : State) (c : Nat) (pc : Word) (miss : Bool) : State :=
  if !miss && (tabGet none (s.cell c).icache (pc.toNat / 16)).isSome then s
  else
    match s.textKey c pc with
    | .error _ => s
    | .ok k =>
      let line := k / 128 * 128
      let first := pc.toNat / 128 * 8
      ((s.count c 0x40 1).countWalks c [pc]).modCell c fun x =>
        { x with icache := (List.range 8).foldl (fun t i =>
            if (tabGet none t (first + i)).isSome then t else tabSet none t (first + i) (some (s.wordAt (line + 16 * i)))) x.icache }

/-- Another engine of the cell has met the fetch fault of this line first: it has raised it, or its older instructions have yet
to retire. This one stalls on the line (R36, R52). -/
def State.lineTaken (s : State) (c : Nat) (e : Eng) (pc : Word) (t : TrapRec) : Bool :=
  let x := s.cell c
  engines.any fun o => o != e &&
    match (x.eng o).trap with
    | some r => r.cause == t.cause && r.pc.toNat / 128 == pc.toNat / 128
    | none =>
      (x.eng o).stall == .fault && (x.eng o).pc.toNat / 128 == pc.toNat / 128 &&
      (match s.fetch c (x.eng o).pc false with | .trap r => r.cause == t.cause | .word _ => false)

/-! ## One turn of an engine -/

/-- Whether an engine may act: its iteration runs, and it neither waits for a reply nor stands at a stop. On a frozen
cell it acts in the cycle of the first trap alone, once (R37); after CKPTLIM it acts only inside a repeating instruction, whose
repetitions complete (R47, R382). M stands behind commands that are to be issued again (R13, R238). -/
def State.mayAct (s : State) (c : Nat) (e : Eng) : Bool :=
  let x := s.cell c
  let st := x.eng e
  s.awake && x.iter.isSome && !st.halted && st.flight.isNone && st.trap.isNone &&
  (e != .m || x.mcmds.all (·.claimed)) && (!(x.preempt.any (·.timedOut)) || st.resumes) &&
  (!st.stopped || !st.deferred.isEmpty) && (x.frozen.isNone || (x.frozen == some s.cycle && st.acted != some s.cycle))

/-- A word whose tokens are there to be popped is ordered after what pushed them (R23, R135): its own accesses, and every
later one. -/
def State.tokenOrder (s : State) (c : Nat) (e : Eng) (h : Hdr) : State :=
  let x := s.cell c
  let ks := popsOf x.vup e h
  if ks.isEmpty || (x.eng e).resumes || !ks.all (fun k => decide (0 < tabGet 0 x.tok k)) then s else s.acquired c e

/-- An engine at a word: another engine's is stepped over (R11, R62), a malformed one of its own raises ENC_ILLEGAL, a
malformed C word stops the others, and an instruction takes its meaning. -/
def runWord (c : Nat) (e : Eng) (w : InstrWord) (s : State) : Host.Outcome State Fault Refusal :=
  let tag := (tagOf w).toNat
  let st := s.eng c e
  if tag ≠ 7 && tagEngine tag ≠ e then
    if (s.cell c).windowOpen e then .next (s.pass c e (st.pc + 16)) else .next (s.stallOn c e .window)
  else
    match decode (s.cell c).vup w with
    | .ok i => exec i (s.tokenOrder c e (hdrOf w))
    | .error d =>
      if e = .s || tag ≠ 7 then raise s c e { cause := cEnc, detail := d, x := tag == 5 } else .next (s.stallOn c e .other)

/-- The instruction in which an engine stands, of which repetitions are left: it is not fetched again (R47). -/
def EngState.repeating (st : EngState) : Option Instr := if st.resumes then st.progress.bind (·.inst) else none

/-- One turn of an engine of a cell. -/
def engineTurn (c : Nat) (e : Eng) (wait miss : Bool) (s : State) : Host.Outcome State Fault Refusal :=
  if !s.mayAct c e then idle s
  else
    let s := { s with cur := { s.cur with cell := c, eng := e, wait } }.modEng c e fun st => { st with acted := some s.cycle }
    let st := s.eng c e
    if !st.deferred.isEmpty then
      match s.raiseDeferred c e with
      | some t => .next t
      | none => idle s
    else
      match st.repeating with
      | some i => exec i s
      | none =>
        match s.fetch c st.pc miss with
        | .trap t =>
          if s.lineTaken c e st.pc t then .next (s.stallOn c e .other) else raise s c e t
        | .word w => runWord c e w (s.keepLine c st.pc miss)

/-! ## One turn of a supervisor core (R369) -/

/-- A supervisor core runs while its cell is frozen or free; it stands while a reply is on its way. -/
def State.supMayAct (s : State) (c : Nat) : Bool :=
  let x := s.cell c
  s.awake && x.supRun && !x.sup.halted && x.sup.flight.isNone && (x.frozen.isSome || (x.iter.isNone && x.starting.isNone))

/-- One turn of a supervisor core: it fetches from its own memory, and L, M, V and W words raise ENC_ILLEGAL in it. -/
def supervisorTurn (c : Nat) (s : State) : Host.Outcome State Fault Refusal :=
  if !s.supMayAct c then idle s
  else
    let s := { s with cur := { s.cur with cell := c, eng := .sup, wait := false } }
    let pc := (s.cell c).sup.pc.toNat
    if pc % 16 ≠ 0 || pc + 16 > Config.superBytes then .fault (.supervisorTrap cXlate 0)
    else
      let ks := (List.range 16).map fun i => supPa c (pc + i)
      if ks.any s.bad then .fault (.supervisorTrap cEcc 0)
      else
        let w := wordOfBytes (ks.map s.byte)
        let tag := (tagOf w).toNat
        if tag = 0 || tag = 5 || tag = 7 then
          match decode (s.cell c).vup w with
          | .ok i => exec i s
          | .error d => .fault (.supervisorTrap cEnc d)
        else .fault (.supervisorTrap cEnc 1)

/-! ## Turns -/

/-- An event of the table: no word encodes it. -/
def isEvent (i : Instr) : Bool := (encode i).isNone

/-- What a read that has passed its checks needs of a unit has been read: its fault would be precise (R156, R435). -/
def State.readOut (s : State) (k : Nat) : State :=
  s.drainQueues fun q =>
    match q.acc with
    | .load ks _ | .acquire ks _ _ | .atomic _ _ ks _ _ _ _ => ks.any fun a => eccUnit a == eccUnit k
    | _ => false

/-- A soft error strikes (R435), or the boot flash fails or works again (R432). -/
def State.upsetBy (s : State) : Upset → State
  | .unit k => let t := s.readOut k; { t with ecc := tabSet false t.ecc (eccUnit k) true }
  | .reg c k => s.modCell c fun x => { x with regErr := tabSet false x.regErr k true }
  | .cached asid va => { s with tlb := s.tlb.map fun t => if t.covers asid va then { t with bad := true } else t }
  | .corrected k =>
    if paClass k = 0 then
      { s with mc := { s.mc with correctedHbm := tabSet 0 s.mc.correctedHbm (s.stackAt k) (tabGet 0 s.mc.correctedHbm (s.stackAt k) + 1) } }
    else { s with mc := { s.mc with correctedSram := s.mc.correctedSram + 1 } }
  | .flash bad => { s with mc := { s.mc with flashBad := bad } }

/-- Copy commands that L has accepted and that wait for no earlier one read an element of n bytes ahead of what they land (R300,
R305, R306). -/
def copiesAhead (a : Nat × List Byte) : List Copy → List Copy → List Copy
  | _, [] => []
  | before, k :: r => (if before.any fun b => b.edge k then k else { k with ahead := k.ahead ++ [a] }) :: copiesAhead a (before ++ [k]) r

/-- A later load of an engine has read a naturally aligned element of n bytes ahead of its turn; on M also a node of a descent, on L
also a copy command (R258, R300, R305, R307). -/
def State.readsAhead (s : State) (c : Nat) (e : Eng) (k n : Nat) : State :=
  let x := s.cell c
  if (n = 1 || n = 2 || n = 4 || n = 8) && k % n == 0 && e != .sup && s.awake && x.iter.isSome && x.frozen.isNone then
    let a := (k, (List.range n).map fun i => s.view (k + i))
    let s := if e = .l && !x.copies.isEmpty then s.modCell c fun x => { x with copies := copiesAhead a [] x.copies } else s
    s.modEng c e fun st => { st with ahead := st.ahead ++ [a] }
  else s

/-- A cell takes the line of an instruction address into its instruction cache before an engine fetches from it (R53). -/
def State.takeLine (s : State) (c : Nat) (pc : Word) : State :=
  if s.awake && (s.cell c).iter.isSome && (s.cell c).frozen.isNone && (tabGet none (s.cell c).icache (pc.toNat / 16)).isNone then
    s.keepLine c pc false
  else s

/-- What a mover does in its turn. -/
def act (a : Actor) (s : State) : Host.Outcome State Fault Refusal :=
  match a with
  | .upset u => .next (s.upsetBy u)
  | .ahead c e k n => .next (s.readsAhead c e k n)
  | .jobAhead q k n => .next (s.jobReads q k n)
  | .line c pc => .next (s.takeLine c pc)
  | .engine c e wait miss => if e = .sup then idle s else engineTurn c e wait miss s
  | .supervisor c => supervisorTurn c s
  | .event i => if isEvent i then exec i { s with cur := { old := s.cur.old, walk := s.cur.walk } } else idle s

/-! ## The default order -/

/-- Events inside one cell that the device may be ready for. -/
def State.cellEvents (s : State) (c : Nat) : List Instr :=
  let x := s.cell c
  [.iterationStart c, .iterationEnd c, .ckptTimeout c, .preemptQuiesce c, .xchgAccept c, .tileCommandStart c, .bWindowLoad c,
    .tileCommandComplete c, .partialDeliver c, .mergePartials c, .stfFlagUpdate c] ++
  (x.mcmds.filterMap (·.sibling)).map (.relocatedTileReturn c) ++
  x.copies.zipIdx.map (fun p => .copyLand c p.2 (p.1.nextUnit c) (p.1.units - p.1.lead)) ++
  (engines.flatMap fun e => [.accessPerformed c e 0, .atomicPerform c e, .barrierOperation c e, .ringFarOperation c e,
    .barWaitRelease c e, .deferredTrap c e, .queueTimeout c e]) ++
  [.barrierOperation c .sup, .ringFarOperation c .sup, .barWaitRelease c .sup]

/-- The recovery command that the MC has taken (R432). -/
def State.recEvents (s : State) : List Instr :=
  match s.mc.recBusy with
  | some 1 => [.recBegin] | some 2 => [.recPiece] | some 3 => [.recCommit] | some 4 => [.recAbort] | _ => []

/-- Events of the device outside its cells. -/
def State.deviceEvents (s : State) : List Instr :=
  s.recEvents ++
  [.tguTakeEntry, .cellAssign, .walkerGiveBack, .pwrExitDone] ++ s.tgu.recs.map (fun r => .recordComplete r.id) ++
  (List.range 8).map .recordIssue ++
  (List.range 8).flatMap fun i => [.sreJobStart (BitVec.ofNat 3 i), .sreJobComplete (BitVec.ofNat 3 i)]

/-- Every mover of the device, in a fixed order. -/
def State.movers (s : State) : List Actor :=
  s.deviceEvents.map .event ++
  s.cells.flatMap fun p =>
    (s.cellEvents p.1).map .event ++ engines.map (fun e => .engine p.1 e false false) ++ [.supervisor p.1]

/-- A state without the marks of who moved last. -/
def State.unmarked (s : State) : State :=
  { s with
    cur := {}, rota := 0
    cells := s.cells.map fun p => (p.1, engines.foldl (fun x e => x.setEng e { x.eng e with acted := none }) p.2) }

/-- The first mover of a list whose turn changes the device or stops it. -/
def firstMove (s : State) : List Actor → Host.Outcome State Fault Refusal
  | [] => .next s
  | a :: r =>
    match act a s with
    | .next t => if t.unmarked = s.unmarked then firstMove s r else .next t
    | o => o

/-- One step without a schedule: one cycle passes, and the next mover in rotation that can move moves. -/
def arbiter (s : State) : Host.Outcome State Fault Refusal :=
  let s := { s with rota := s.rota + 1, cur := {} }.advance 1
  let ms := s.movers
  let k := s.rota % (ms.length + 1)
  firstMove s (ms.drop k ++ ms.take k)

/-- One step under the schedule: its head moves once its cycles have passed. -/
def takeTurn (t : Turn) (s : State) : Host.Outcome State Fault Refusal :=
  act t.who { s.advance t.dt with cur := { old := t.old, walk := t.walk } }

/-! ## A program placed for the next step -/

/-- Where a placed program lies: the first bytes of cell 0's slice, in the device scratchpad window. -/
def placedPc : Word := BitVec.ofNat 64 windowBase

/-- The iteration that a placed program belongs to, where cell 0 holds none. -/
def placedIter (s : State) : Iter := { va := 0#64, asid := 0#14, pos := 0, dev := s.podDev, recId := none, ckpt := 0#64 }

/-- An engine stands at the placed program, free to act. -/
def EngState.placed (st : EngState) : EngState :=
  { st with pc := placedPc, halted := false, progress := none, stall := .none, stalled := [], flight := none, arrived := false
            resolved := false, trap := none, deferred := [], stopped := false, acted := none }

/-- Cell 0 holds a running iteration, and the engine of a word stands at it. -/
def Cell.placed (x : Cell) (it : Iter) (e : Eng) : Cell :=
  let x := { x with
    iter := some (x.iter.getD it), owner := some (x.owner.getD it.asid), frozen := none, preempt := none
    icache := [] }
  x.setEng e (x.eng e).placed

/-- The device runs, the bytes of a word lie at the placed address, and the engine of its tag moves next. -/
def State.placeWord (s : State) (w : InstrWord) : State :=
  let e := tagEngine (tagOf w).toNat
  let a := slicePa 0 0
  let s := { s with
    mc := { s.mc with state := 1#4, power := .run, exiting := false }
    barriers := s.barriers.filter fun b => b.pa != a
    ecc := s.ecc.filter fun u => !(decide (a ≤ u.1) && decide (u.1 < a + 128))
    mem := tabSplice 0#8 s.mem a (bytesOfWord w)
    agenda := { dt := 0, who := .engine 0 e false false } :: s.agenda }
  s.modCell 0 fun x => x.placed (placedIter s) e

end Sys2Proof.Machine
end

