-- ==== Sys2Proof/Machine/Step.lean ====
section
/-! DEFINITION. One step of the machine: the head of the schedule moves, or the default order chooses; and a state in
which the next step runs a given word. -/

namespace Sys2Proof.Machine

/-- One step. -/
def step (s : State) : Host.Outcome State Fault Refusal :=
  match s.agenda with
  | [] => arbiter s
  | t :: rest => takeTurn t { s with agenda := rest }

/-- The state with a word of the opcode table's numbering placed where the next step fetches it. -/
def State.withFetchWord (s : State) (nbits w : Nat) : State := s.placeWord (BitVec.ofNat 128 (w % 2 ^ Nat.max nbits 128))

end Sys2Proof.Machine
end

