-- ==== Sys2Proof/Laws/Fields.lean ====
section
/-! SUPPORT. Fields of concatenated bit vectors, and of instruction words: what the decoder reads back from a word
that the encoder's layouts put together. -/

namespace Sys2Proof

/-! ## Concatenations -/

section
variable {n m : Nat} {x : BitVec n} {y : BitVec m}

@[simp] theorem getLsbD_lo {i : Nat} (h : i < m) : (x ++ y).getLsbD i = y.getLsbD i := by
  rw [BitVec.getLsbD_append, if_pos h]

@[simp] theorem getLsbD_hi {i : Nat} (h : m ≤ i) : (x ++ y).getLsbD i = x.getLsbD (i - m) := by
  rw [BitVec.getLsbD_append, if_neg (by omega)]

@[simp] theorem extract_lo {lo len : Nat} (h : lo + len ≤ m) : (x ++ y).extractLsb' lo len = y.extractLsb' lo len :=
  BitVec.extractLsb'_append_eq_of_add_le h

@[simp] theorem extract_hi {lo len : Nat} (h : m ≤ lo) : (x ++ y).extractLsb' lo len = x.extractLsb' (lo - m) len :=
  BitVec.extractLsb'_append_eq_of_le h

/-- A mask over a concatenation acts on its parts. -/
theorem append_and (k : BitVec (n + m)) : (x ++ y) &&& k = (x &&& k.extractLsb' m n) ++ (y &&& k.extractLsb' 0 m) := by
  rw [← BitVec.and_append]
  congr 1
  apply BitVec.eq_of_getLsbD_eq
  intro i hi
  rw [BitVec.getLsbD_append]
  by_cases h : i < m
  · simp [h]
  · simp [h, show i - m < n by omega, show m + (i - m) = i by omega]

end

@[simp] theorem bit_get (b : Bool) : (bit b).getLsbD 0 = b := by cases b <;> rfl

/-- The repetition, step and index fields of a drain are zero. -/
@[simp] theorem extract_zeros {n : Nat} (x : BitVec n) : (x ++ 0#6 ++ 0#16 ++ 0#24).extractLsb' 0 46 = 0#46 := by
  apply BitVec.eq_of_getLsbD_eq
  intro i hi
  rw [BitVec.getLsbD_extractLsb', BitVec.getLsbD_append, BitVec.getLsbD_append, BitVec.getLsbD_append]
  simp
  intro _ _ _ h
  omega

/-- No bit of a value lies under a mask. -/
def Clear {w : Nat} (x k : BitVec w) : Prop := x &&& k = 0#w

@[simp] theorem clear_append {n m : Nat} {x : BitVec n} {y : BitVec m} {k : BitVec (n + m)} :
    Clear (x ++ y) k ↔ Clear x (k.extractLsb' m n) ∧ Clear y (k.extractLsb' 0 m) := by
  unfold Clear
  rw [append_and]
  constructor
  · intro h
    have h1 := congrArg (BitVec.extractLsb' m n) h
    have h2 := congrArg (BitVec.extractLsb' 0 m) h
    rw [BitVec.extractLsb'_append_eq_left] at h1
    rw [BitVec.extractLsb'_append_eq_right] at h2
    rw [h1, h2]
    constructor <;> (apply BitVec.eq_of_getLsbD_eq; simp)
  · rintro ⟨h1, h2⟩
    rw [h1, h2]
    exact BitVec.zero_append_zero

@[simp] theorem clear_none {w : Nat} {x k : BitVec w} (h : k = 0#w) : Clear x k := by simp [Clear, h]

@[simp] theorem clear_closed {w : Nat} {x k : BitVec w} (h : x &&& k = 0#w) : Clear x k := h

/-- No bit from n upwards: the value is below 2^n. -/
theorem clear_high {w n : Nat} (x : BitVec w) : Clear x (~~~BitVec.ofNat w (2 ^ n - 1)) ↔ x.toNat < 2 ^ n := by
  unfold Clear
  constructor
  · intro h
    apply Nat.lt_pow_two_of_testBit
    intro i hi
    have h1 := congrArg (fun v => v.getLsbD i) h
    simp only [BitVec.getLsbD_and, BitVec.getLsbD_not, BitVec.getLsbD_ofNat, Nat.testBit_two_pow_sub_one] at h1
    by_cases hw : i < w
    · simpa [hw, show ¬ i < n by omega, BitVec.getLsbD] using h1
    · exact Nat.testBit_lt_two_pow (Nat.lt_of_lt_of_le x.isLt (Nat.pow_le_pow_right (by decide) (by omega)))
  · intro h
    apply BitVec.eq_of_getLsbD_eq
    intro i hi
    simp only [BitVec.getLsbD_and, BitVec.getLsbD_not, BitVec.getLsbD_ofNat, Nat.testBit_two_pow_sub_one]
    by_cases hn : i < n
    · simp [hn, hi]
    · have : x.getLsbD i = false :=
        Nat.testBit_lt_two_pow (Nat.lt_of_lt_of_le h (Nat.pow_le_pow_right (by decide) (by omega)))
      simp [this]

@[simp] theorem clear_high16 (x : Word) : Clear x 18446744073709486080#64 ↔ x.toNat < 65536 := clear_high (n := 16) x

@[simp] theorem clear_high32 (x : Word) : Clear x 18446744069414584320#64 ↔ x.toNat < 4294967296 := clear_high (n := 32) x

/-! ## Codes -/

@[simp] theorem rndOf_code (r : Rnd) : rndOf? (rndCode r) = some r := by cases r <;> rfl
@[simp] theorem fmtOf_code (f : Fmt) : fmtOf? (fmtCode f) = some f := by cases f <;> rfl
@[simp] theorem ccOf_code (c : CC) : ccOf? (ccCode c) = some c := by cases c <;> rfl
@[simp] theorem scopeOf_code (s : Scope) : scopeOf? (scopeCode s) = some s := by cases s <;> rfl
@[simp] theorem redOf_code (o : RedOp) : redOf? (redCode o) = some o := by cases o <;> rfl
@[simp] theorem cvtOf_code (c : Cvt) : cvtOf? (cvtCode c) = some c := by
  cases c with
  | mode r => cases r <;> rfl
  | i32 => rfl
@[simp] theorem cvtOf_rnd (r : Rnd) : cvtOf? (rndCode r) = some (.mode r) := by cases r <;> rfl
@[simp] theorem sizeOf_code (z : Size) : sizeOf2 (sizeCode z) = z := by cases z <;> rfl
@[simp] theorem idxOf_code (x : IdxMode) : idxOf? (idxCode x) = some x := by cases x <;> rfl
@[simp] theorem rndOf_zero : rndOf? 0#3 = some .rne := rfl
@[simp] theorem fmtOf_zero : fmtOf? 0#4 = some .fp32 := rfl
@[simp] theorem idxCode_ne (x : IdxMode) : idxCode x = 3#2 ↔ False := by cases x <;> decide
@[simp] theorem idxOf_zero : idxOf? 0#2 = some .none := rfl
@[simp] theorem fmtCode_fp32 : fmtCode .fp32 = 0#4 := rfl
@[simp] theorem floating_fp32 : Fmt.fp32.floating = true := rfl
@[simp] theorem predField_pfield (p : PReg) : predField (pfield p) = p := by revert p; decide
@[simp] theorem predFieldOk_pfield (p : PReg) : predFieldOk (pfield p) = true := by revert p; decide
@[simp] theorem mnumField_mfield (m : MNum) : mnumField (mfield m) = m := by revert m; decide
@[simp] theorem mnumOk_mfield (m : MNum) : mnumOk (mfield m) = true := by revert m; decide
@[simp] theorem vnumOk_zero : vnumOk 0#10 = true := by decide

/-! ## The parts of a word -/

section
variable (t : BitVec 3) (o : BitVec 9) (h : Hdr) (m : BitVec 11) (b : BitVec 96)

@[simp] theorem tagOf_word : tagOf (word t o h m b) = t := by
  simp (disch := decide) only [tagOf, fld, word, BitVec.extractLsb'_append_eq_of_le, Nat.reduceSub]
  simp

@[simp] theorem opOf_word : opOf (word t o h m b) = o := by
  simp (disch := decide) only [opOf, fld, word, BitVec.extractLsb'_append_eq_of_le,
    BitVec.extractLsb'_append_eq_of_add_le, Nat.reduceSub]
  simp

@[simp] theorem hdrOf_word : hdrOf (word t o h m b) = h := by
  simp (disch := decide) only [hdrOf, fld, word, BitVec.extractLsb'_append_eq_of_le, getLsbD_hi, getLsbD_lo,
    BitVec.extractLsb'_append_eq_of_add_le, Nat.reduceSub]
  simp only [BitVec.extractLsb'_eq_self, bit_get]

@[simp] theorem modOf_word : modOf (word t o h m b) = m := by
  simp (disch := decide) only [modOf, fld, word, BitVec.extractLsb'_append_eq_of_le,
    BitVec.extractLsb'_append_eq_of_add_le, Nat.reduceSub]
  simp

@[simp] theorem body_word : fld (word t o h m b) 0 96 = b := by
  simp (disch := decide) only [fld, word, BitVec.extractLsb'_append_eq_of_add_le]
  simp

/-- A field of the body. -/
@[simp] theorem fld_body {lo len : Nat} (hl : lo + len ≤ 96) : fld (word t o h m b) lo len = b.extractLsb' lo len := by
  simp (disch := omega) only [fld, word, BitVec.extractLsb'_append_eq_of_add_le]

/-- A field of the modifiers. -/
@[simp] theorem fld_mods {lo len : Nat} (hlo : 96 ≤ lo) (hl : lo + len ≤ 107) :
    fld (word t o h m b) lo len = m.extractLsb' (lo - 96) len := by
  simp (disch := omega) only [fld, word, BitVec.extractLsb'_append_eq_of_le]
  simp (disch := omega) only [BitVec.extractLsb'_append_eq_of_add_le]

@[simp] theorem bit_body {i : Nat} (hi : i < 96) : (word t o h m b).getLsbD i = b.getLsbD i := by
  unfold word
  rw [getLsbD_lo hi]

@[simp] theorem bit_mods {i : Nat} (hi : i < 11) : md (word t o h m b) i = m.getLsbD i := by
  unfold md word
  rw [getLsbD_hi (by omega), getLsbD_lo (by omega)]
  simp

end

/-! ## The decoder's accessors -/

section
variable (w : InstrWord)
@[simp] theorem xSd_eq : xSd w = fld w 90 6 := rfl
@[simp] theorem xSa_eq : xSa w = fld w 84 6 := rfl
@[simp] theorem xSb_eq : xSb w = fld w 78 6 := rfl
@[simp] theorem xSc_eq : xSc w = fld w 72 6 := rfl
@[simp] theorem xImm_eq : xImm w = fld w 0 64 := rfl
@[simp] theorem xSrc_eq : xSrc w = if md w 10 then .imm (fld w 0 64) else .reg (fld w 78 6) := rfl
@[simp] theorem auxScope_eq : auxScope w = (scopeOf? (fld w 64 3)).getD .eng := rfl
@[simp] theorem auxScopeOk_eq : auxScopeOk w = (scopeOf? (fld w 64 3)).isSome := rfl
@[simp] theorem sRnd_eq : sRnd w = (rndOf? (fld w 103 3)).getD .rne := rfl
@[simp] theorem sRndOk_eq : sRndOk w = (rndOf? (fld w 103 3)).isSome := rfl
@[simp] theorem mFmt?_eq : mFmt? w = fmtOf? (fld w 100 4) := rfl
@[simp] theorem mFmt_eq : mFmt w = (fmtOf? (fld w 100 4)).getD .fp32 := rfl
@[simp] theorem mCvt?_eq : mCvt? w = cvtOf? (fld w 104 3) := rfl
@[simp] theorem mCvt_eq : mCvt w = (cvtOf? (fld w 104 3)).getD (.mode .rne) := rfl
@[simp] theorem mIdx?_eq : mIdx? w = idxOf? (fld w 32 2) := rfl
@[simp] theorem mIdx_eq : mIdx w = (idxOf? (fld w 32 2)).getD .none := rfl
@[simp] theorem mMk_eq : mMk w = fld w 96 4 := rfl
@[simp] theorem xVd_eq : xVd w = fld w 86 10 := rfl
@[simp] theorem xVa_eq : xVa w = fld w 76 10 := rfl
@[simp] theorem xVb_eq : xVb w = fld w 66 10 := rfl
@[simp] theorem xVc_eq : xVc w = fld w 56 10 := rfl
@[simp] theorem xSs_eq : xSs w = fld w 50 6 := rfl
@[simp] theorem xMk_eq : xMk w = fld w 46 4 := rfl
@[simp] theorem xAxc_eq : xAxc w = fld w 32 14 := rfl
@[simp] theorem xImm32_eq : xImm32 w = fld w 0 32 := rfl
@[simp] theorem bsel_eq : bsel w = fld w 97 2 := rfl
@[simp] theorem fnOf_eq : fnOf w = fld w 100 4 := rfl
@[simp] theorem vRnd_eq : vRnd w = (rndOf? (fld w 104 3)).getD .rne := rfl
@[simp] theorem vRndOk_eq : vRndOk w = (rndOf? (fld w 104 3)).isSome := rfl
@[simp] theorem amxRnd_eq : amxRnd w = (rndOf? (fld w 104 3)).getD .rne := rfl
end

/-! ## Bodies -/

@[simp] theorem bits_eq (hi lo : Nat) : bits hi lo = BitVec.ofNat 96 ((2 ^ (hi + 1 - lo) - 1) * 2 ^ lo) := rfl

@[simp] theorem mbits_eq (hi lo : Nat) : mbits hi lo = BitVec.ofNat 11 ((2 ^ (hi + 1 - lo) - 1) * 2 ^ lo) := rfl

@[simp] theorem scalarBody_eq (sd sa sb sc : BitVec 6) (aux : BitVec 8) (imm : BitVec 64) :
    scalarBody sd sa sb sc aux imm = sd ++ sa ++ sb ++ sc ++ aux ++ imm := rfl

@[simp] theorem vectorBody_eq (vd va vb vc : BitVec 10) (ss : BitVec 6) (mk : BitVec 4) (axc : BitVec 14) (imm : BitVec 32) :
    vectorBody vd va vb vc ss mk axc imm = vd ++ va ++ vb ++ vc ++ ss ++ mk ++ axc ++ imm := rfl

@[simp] theorem runBody_eq (r : RunOps) (asz : BitVec 2) :
    runBody r asz = r.reg ++ r.base ++ r.index ++ r.rep ++ r.step ++ asz ++ r.off := rfl

@[simp] theorem matrixBody_eq (ga gb gc : BitVec 5) (ti : BitVec 4) (sa sb : BitVec 6) (vr : BitVec 10) (cnt : BitVec 7)
    (ctl : BitVec 16) (imm : BitVec 32) :
    matrixBody ga gb gc ti sa sb vr cnt ctl imm = ga ++ gb ++ gc ++ ti ++ sa ++ sb ++ vr ++ cnt ++ ctl ++ imm := rfl

@[simp] theorem controlBody_eq (sa sb : BitVec 6) (cond : BitVec 4) (disp imm : BitVec 32) :
    controlBody sa sb cond disp imm = sa ++ sb ++ cond ++ 0#16 ++ disp ++ imm := rfl

@[simp] theorem srcBits_eq (w : InstrWord) (f : BitVec 96) :
    srcBits w f = if fld w 97 2 = 0#2 then f else if fld w 97 2 = 1#2 then bits 55 50 else bits 31 0 := by
  unfold srcBits bsel
  generalize fld w 97 2 = x
  revert x
  have h (x : BitVec 2) : x = 0#2 ∨ x = 1#2 ∨ x = 2#2 ∨ x = 3#2 := by revert x; decide
  intro x
  rcases h x with rfl | rfl | rfl | rfl <;> rfl

@[simp] theorem vSrc_eq (w : InstrWord) (v : VNum) :
    vSrc w v = if fld w 97 2 = 0#2 then .vec v else if fld w 97 2 = 1#2 then .sc (fld w 50 6) else .imm (fld w 0 32) := by
  unfold vSrc bsel
  generalize fld w 97 2 = x
  have h (x : BitVec 2) : x = 0#2 ∨ x = 1#2 ∨ x = 2#2 ∨ x = 3#2 := by revert x; decide
  rcases h x with rfl | rfl | rfl | rfl <;> rfl

@[simp] theorem runOf_eq (w : InstrWord) :
    runOf w = { reg := fld w 86 10, base := fld w 80 6, index := fld w 74 6, rep := fld w 58 16, step := fld w 34 24
                off := fld w 0 32 } := rfl

@[simp] theorem vOps_eq (w : InstrWord) : vOps w = { vd := fld w 86 10, va := fld w 76 10, msk := fld w 46 4, z := md w 0 } := rfl

@[simp] theorem amoOf_eq (w : InstrWord) :
    amoOf w = { sd := fld w 90 6, sa := fld w 84 6, sb := fld w 78 6, imm := fld w 0 64, dbl := md w 0, acq := md w 4
                rel := md w 5, scope := auxScope w } := rfl

@[simp] theorem tileOf_eq (w : InstrWord) :
    tileOf w = { ga := fld w 91 5, gb := fld w 86 5, ti := fld w 77 4, cnt := fld w 48 7, kk := fld w 44 4, np := fld w 40 4
                 q := fld w 36 4, home := fld w 34 2, tag := fld w 0 8, colbase := fld w 8 16
                 topk := md w 0, dao := md w 1, cl := md w 2, rel := md w 3 } := rfl

@[simp] theorem descOf_eq (w : InstrWord) :
    descOf w = { ga := fld w 91 5, gc := fld w 81 5, ti := fld w 77 4, sb := fld w 65 6, depth := fld w 32 5
                 split := fld w 37 5, init := md w 0, keep := md w 1, cl := md w 2 } := rfl

@[simp] theorem fits_reg (n : Nat) (r : SReg) : Src.fits n (.reg r) = true := rfl

@[simp] theorem fits_imm (n : Nat) (x : Word) : Src.fits n (.imm x) = decide (x.toNat < 2 ^ n) := rfl

@[simp] theorem VOps.ok_eq (o : VOps) : o.ok = (vnumOk o.vd && vnumOk o.va) := rfl

@[simp] theorem VSrc.ok_vec (v : VNum) : (VSrc.vec v).ok = vnumOk v := rfl
@[simp] theorem VSrc.ok_sc (r : SReg) : (VSrc.sc r).ok = true := rfl
@[simp] theorem VSrc.ok_imm (x : Lane) : (VSrc.imm x).ok = true := rfl

/-- The rules of a tile command, its .cl rule (detail 4) apart from the others (detail 5). -/
theorem tile_ok (t : TileOps) : t.ok = (({ t with cl := false }).ok && !(t.cl && t.np != 0#4)) := by
  simp [TileOps.ok]

/-- An atomic's scope is named, or it is the engine scope of one that neither acquires nor releases (R114). -/
theorem amo_scope {o : AmoOps} (h : o.ok = true) : (o.acq = true ∨ o.rel = true) ∨ o.acq = false ∧ o.rel = false ∧ o.scope = .eng := by
  revert h
  unfold AmoOps.ok
  cases o.acq <;> cases o.rel <;> simp

@[simp] theorem srcForm_eq (w : InstrWord) (sd sa sc : Bool) (hi : Nat) (mods : BitVec 11) (aux : BitVec 96) (i : Instr) :
    srcForm w sd sa sc hi mods aux i =
      form (mods ||| mbits 10 10)
        (if md w 10 then sMask sd sa false sc aux (bits hi 0) else sMask sd sa true sc aux 0) i := rfl

section
variable (w : InstrWord)
@[simp] theorem copyOf_ds : (copyOf w).ds = fld w 91 5 := rfl
@[simp] theorem copyOf_dd : (copyOf w).dd = fld w 86 5 := rfl
@[simp] theorem copyOf_sa : (copyOf w).sa = fld w 80 6 := rfl
@[simp] theorem copyOf_sb : (copyOf w).sb = fld w 74 6 := rfl
@[simp] theorem copyOf_imm : (copyOf w).imm = fld w 0 32 := rfl
end

section
variable (t : BitVec 3) (p : BitVec 9) (h : Hdr) (m : BitVec 11) (o : CopyOps)

@[simp] theorem copyOf_body : copyOf (word t p h m (copyBody o)) = o := by
  obtain ⟨ds, dd, sa, sb, sc, ch, sx, grp, lo1, lo0, padskip, scl, tr, rnd, imm⟩ := o
  cases grp <;> cases scl <;> simp (disch := decide) [-Nat.reduceAdd, -BitVec.getLsbD_eq_getElem, copyOf, copyBody]

@[simp] theorem copyCtlOk_body : copyCtlOk (word t p h m (copyBody o)) = true := by
  obtain ⟨ds, dd, sa, sb, sc, ch, sx, grp, lo1, lo0, padskip, scl, tr, rnd, imm⟩ := o
  cases grp <;> cases scl <;> simp (disch := decide) [-Nat.reduceAdd, -BitVec.getLsbD_eq_getElem, copyCtlOk, copyBody]
end

/-! ## Forms -/

/-- The checks of R62 from detail 4 on, for one parse. -/
def Accepts (p : Option Parse) (m : BitVec 11) (b : BitVec 96) (i : Instr) : Prop :=
  ∃ q, p = some q ∧ Clear m (~~~q.mods) ∧ q.modOk = true ∧ Clear b (~~~q.body) ∧ q.bodyOk = true ∧ q.regOk = true ∧ q.i = i

@[simp] theorem accepts_form (ms : BitVec 11) (bs : BitVec 96) (j : Instr) (m : BitVec 11) (b : BitVec 96) (i : Instr) :
    Accepts (form ms bs j) m b i ↔ Clear m (~~~ms) ∧ Clear b (~~~bs) ∧ j = i := by
  simp [Accepts, form]

@[simp] theorem accepts_rules (p : Option Parse) (x y z : Bool) (m : BitVec 11) (b : BitVec 96) (i : Instr) :
    Accepts (Parse.rules p x y z) m b i ↔ Accepts p m b i ∧ x = true ∧ y = true ∧ z = true := by
  cases p <;> simp [Accepts, Parse.rules]
  grind

@[simp] theorem sMask_eq (sd sa sb sc : Bool) (aux imm : BitVec 96) :
    sMask sd sa sb sc aux imm =
      (if sd then bits 95 90 else 0) ||| (if sa then bits 89 84 else 0) ||| (if sb then bits 83 78 else 0) |||
      (if sc then bits 77 72 else 0) ||| aux ||| imm := rfl

/-- A word decodes to the instruction that its parse finds, when every check of R62 passes. -/
theorem decode_of {vup : Bool} {w : InstrWord} {p : Parse} (ht : tagOf w ≠ 6#3) (hp : parseWord w = some p)
    (htok : tokensLegal vup (tagOf w).toNat (hdrOf w) = true) (hm : modOf w &&& ~~~p.mods = 0#11) (hmo : p.modOk = true)
    (hb : fld w 0 96 &&& ~~~p.body = 0#96) (hbo : p.bodyOk = true) (hr : p.regOk = true)
    (hc : tagOf w = 7#3 → (hdrOf w).control = true) : decode vup w = .ok p.i := by
  have ht' : (tagOf w).toNat ≠ 6 := fun e => ht (BitVec.eq_of_toNat_eq e)
  have hc' : (tagOf w).toNat = 7 → (hdrOf w).control = true := fun e => hc (BitVec.eq_of_toNat_eq e)
  simp only [decode, hp, if_neg ht', htok, hm, hmo, hb, hbo, hr]
  by_cases h7 : (tagOf w).toNat = 7 <;> simp [h7, hc']

section
variable {t : BitVec 3} {o : BitVec 9} {h : Hdr} {m : BitVec 11} {b : BitVec 96} {vup : Bool} {i : Instr} {n : Nat}

/-- A word of a tag decodes to an instruction that its tag's parse accepts. -/
theorem decode_accepts {p : Option Parse} (ht : t ≠ 6#3) (hp : parseWord (word t o h m b) = p)
    (htok : tokensLegal vup t.toNat h = true) (hc : t = 7#3 → h.control = true) (ha : Accepts p m b i) :
    decode vup (word t o h m b) = .ok i := by
  obtain ⟨q, rfl, h1, h2, h3, h4, h5, rfl⟩ := ha
  exact decode_of (by simpa using ht) hp (by simpa using htok) (by simpa [Clear] using h1) h2 (by simpa [Clear] using h3) h4 h5
    (by simpa using hc)

theorem decode_s (hn : o.toNat = n) (hl : n < 0x1C0) (ht : h.noTokens = true) (ha : Accepts (parseS n (word 0#3 o h m b)) m b i) :
    decode vup (word 0#3 o h m b) = .ok i :=
  decode_accepts (by decide) (by simp [parseWord, hn, show ¬ 0x1C0 ≤ n by omega]) ht (by simp) ha

theorem decode_l (hn : o.toNat = n) (hl : n < 0x1C0) (ht : h.tokensFor .l = true) (ha : Accepts (parseL n (word 1#3 o h m b)) m b i) :
    decode vup (word 1#3 o h m b) = .ok i :=
  decode_accepts (by decide) (by simp [parseWord, hn, show ¬ 0x1C0 ≤ n by omega]) ht (by simp) ha

theorem decode_m (hn : o.toNat = n) (hl : n < 0x1C0)
    (hv : vup = true → tagOf (word 2#3 o h m b) = 2#3 → (hdrOf (word 2#3 o h m b)).noTokens = true)
    (ha : Accepts (parseM n (word 2#3 o h m b)) m b i) : decode vup (word 2#3 o h m b) = .ok i :=
  decode_accepts (by decide) (by simp [parseWord, hn, show ¬ 0x1C0 ≤ n by omega])
    (by cases vup <;> simp_all [tokensLegal]) (by simp) ha

theorem decode_v (hn : o.toNat = n) (hl : n < 0x1C0) (ha : Accepts (parseV n (word 3#3 o h m b)) m b i) :
    decode vup (word 3#3 o h m b) = .ok i :=
  decode_accepts (by decide) (by simp [parseWord, hn, show ¬ 0x1C0 ≤ n by omega]) rfl (by simp) ha

theorem decode_w (hn : o.toNat = n) (hl : n < 0x1C0) (ht : h.tokensFor .w = true) (ha : Accepts (parseW n (word 4#3 o h m b)) m b i) :
    decode vup (word 4#3 o h m b) = .ok i :=
  decode_accepts (by decide) (by simp [parseWord, hn, show ¬ 0x1C0 ≤ n by omega]) ht (by simp) ha

theorem decode_x (hn : o.toNat = n) (ht : h.noTokens = true) (ha : Accepts (parseX n (word 5#3 o h m b)) m b i) :
    decode vup (word 5#3 o h m b) = .ok i :=
  decode_accepts (by decide) (by simp [parseWord, hn]) ht (by simp) ha

theorem decode_c (hn : o.toNat = n) (ht : h.control = true) (ha : Accepts (parseC n (word 7#3 o h m b)) m b i) :
    decode vup (word 7#3 o h m b) = .ok i :=
  decode_accepts (by decide) (by simp [parseWord, hn]) (by simp only [Hdr.control, Bool.and_eq_true] at ht; exact ht.1)
    (fun _ => ht) ha

/-- A common-block word decodes under every engine's tag (R12). -/
theorem decode_common {e : Eng} (hn : o.toNat = n) (hl : 0x1C0 ≤ n) (ht : commonOk e h = true)
    (hv : vup = true → tagOf (word (engTag e) o h m b) = 2#3 → (hdrOf (word (engTag e) o h m b)).noTokens = true)
    (ha : Accepts (parseCommon e n (word (engTag e) o h m b)) m b i) : decode vup (word (engTag e) o h m b) = .ok i := by
  simp only [commonOk, Bool.and_eq_true] at ht
  have hp : parseWord (word (engTag e) o h m b) = parseCommon e n (word (engTag e) o h m b) := by
    cases e <;> simp_all [parseWord, engTag, tagEng]
  refine decode_accepts ?_ hp ?_ ?_ ha
  · cases e <;> simp_all [engTag]
  · cases e <;> cases vup <;> simp_all [engTag, tokensLegal, Hdr.tokensFor]
  · cases e <;> simp_all [engTag]

end

end Sys2Proof
end

