-- ==== Sys2Proof/Laws/PerInstr.lean ====
section
/-! SUPPORT. Decoding reads back what encoding wrote, per instruction: the family RoundTrip of LAWS.json. -/

namespace Sys2Proof.Laws.RoundTrip

/-- The word of a well-formed instruction decodes to it, under either value of ENGCFG.vup; an M word with token bits is
legal under vup = 0 alone (R22). No word stands for an event. -/
def Statement (i : Instr) : Prop :=
  ∀ w vup, wellFormed i = true → encode i = some w →
    (vup = true → tagOf w = 2#3 → (hdrOf w).noTokens = true) → decode vup w = .ok i

/-- A round trip is shown on the word that the encoder gives. -/
theorem of_encode {i : Instr} {w : InstrWord} (he : encode i = some w)
    (hd : wellFormed i = true → ∀ vup, (vup = true → tagOf w = 2#3 → (hdrOf w).noTokens = true) → decode vup w = .ok i) :
    Statement i := by
  intro w' vup hw he' hv
  cases he.symm.trans he'
  exact hd hw vup hv

/-- No word stands for an event. -/
theorem no_word {i : Instr} (he : encode i = none) : Statement i := by
  intro w vup _ he'
  cases he.symm.trans he'

set_option linter.unusedSimpArgs false

theorem add (h : Hdr) (sd sa : SReg) (b : Src) : Statement (.add h sd sa b) := by
  refine of_encode rfl fun hw vup hv => ?_
  unfold wellFormed at hw
  simp only [Bool.and_eq_true] at hw
  cases b <;> refine decode_s (n := 0x001) rfl (by decide) (by simp_all) ?_ <;> change Accepts (srcForm ..) _ _ _ <;>
  simp (disch := decide) [-Nat.reduceAdd, -BitVec.getLsbD_eq_getElem, hw] <;> simp_all

theorem sub (h : Hdr) (sd sa : SReg) (b : Src) : Statement (.sub h sd sa b) := by
  refine of_encode rfl fun hw vup hv => ?_
  unfold wellFormed at hw
  simp only [Bool.and_eq_true] at hw
  cases b <;> refine decode_s (n := 0x002) rfl (by decide) (by simp_all) ?_ <;> change Accepts (srcForm ..) _ _ _ <;>
  simp (disch := decide) [-Nat.reduceAdd, -BitVec.getLsbD_eq_getElem, hw] <;> simp_all

theorem mul (h : Hdr) (sd sa : SReg) (b : Src) : Statement (.mul h sd sa b) := by
  refine of_encode rfl fun hw vup hv => ?_
  unfold wellFormed at hw
  simp only [Bool.and_eq_true] at hw
  cases b <;> refine decode_s (n := 0x003) rfl (by decide) (by simp_all) ?_ <;> change Accepts (srcForm ..) _ _ _ <;>
  simp (disch := decide) [-Nat.reduceAdd, -BitVec.getLsbD_eq_getElem, hw] <;> simp_all

theorem mulh (h : Hdr) (sd sa : SReg) (b : Src) (u : Bool) : Statement (.mulh h sd sa b u) := by
  refine of_encode rfl fun hw vup hv => ?_
  unfold wellFormed at hw
  simp only [Bool.and_eq_true] at hw
  cases b <;> refine decode_s (n := 0x004) rfl (by decide) (by simp_all) ?_ <;> change Accepts (srcForm ..) _ _ _ <;>
  simp (disch := decide) [-Nat.reduceAdd, -BitVec.getLsbD_eq_getElem, hw] <;> simp_all

theorem div (h : Hdr) (sd sa : SReg) (b : Src) (u : Bool) : Statement (.div h sd sa b u) := by
  refine of_encode rfl fun hw vup hv => ?_
  unfold wellFormed at hw
  simp only [Bool.and_eq_true] at hw
  cases b <;> refine decode_s (n := 0x005) rfl (by decide) (by simp_all) ?_ <;> change Accepts (srcForm ..) _ _ _ <;>
  simp (disch := decide) [-Nat.reduceAdd, -BitVec.getLsbD_eq_getElem, hw] <;> simp_all

theorem rem (h : Hdr) (sd sa : SReg) (b : Src) (u : Bool) : Statement (.rem h sd sa b u) := by
  refine of_encode rfl fun hw vup hv => ?_
  unfold wellFormed at hw
  simp only [Bool.and_eq_true] at hw
  cases b <;> refine decode_s (n := 0x006) rfl (by decide) (by simp_all) ?_ <;> change Accepts (srcForm ..) _ _ _ <;>
  simp (disch := decide) [-Nat.reduceAdd, -BitVec.getLsbD_eq_getElem, hw] <;> simp_all

theorem and (h : Hdr) (sd sa : SReg) (b : Src) : Statement (.and h sd sa b) := by
  refine of_encode rfl fun hw vup hv => ?_
  unfold wellFormed at hw
  simp only [Bool.and_eq_true] at hw
  cases b <;> refine decode_s (n := 0x007) rfl (by decide) (by simp_all) ?_ <;> change Accepts (srcForm ..) _ _ _ <;>
  simp (disch := decide) [-Nat.reduceAdd, -BitVec.getLsbD_eq_getElem, hw] <;> simp_all

theorem or (h : Hdr) (sd sa : SReg) (b : Src) : Statement (.or h sd sa b) := by
  refine of_encode rfl fun hw vup hv => ?_
  unfold wellFormed at hw
  simp only [Bool.and_eq_true] at hw
  cases b <;> refine decode_s (n := 0x008) rfl (by decide) (by simp_all) ?_ <;> change Accepts (srcForm ..) _ _ _ <;>
  simp (disch := decide) [-Nat.reduceAdd, -BitVec.getLsbD_eq_getElem, hw] <;> simp_all

theorem xor (h : Hdr) (sd sa : SReg) (b : Src) : Statement (.xor h sd sa b) := by
  refine of_encode rfl fun hw vup hv => ?_
  unfold wellFormed at hw
  simp only [Bool.and_eq_true] at hw
  cases b <;> refine decode_s (n := 0x009) rfl (by decide) (by simp_all) ?_ <;> change Accepts (srcForm ..) _ _ _ <;>
  simp (disch := decide) [-Nat.reduceAdd, -BitVec.getLsbD_eq_getElem, hw] <;> simp_all

theorem shl (h : Hdr) (sd sa : SReg) (b : Src) : Statement (.shl h sd sa b) := by
  refine of_encode rfl fun hw vup hv => ?_
  unfold wellFormed at hw
  simp only [Bool.and_eq_true] at hw
  cases b <;> refine decode_s (n := 0x00A) rfl (by decide) (by simp_all) ?_ <;> change Accepts (srcForm ..) _ _ _ <;>
  simp (disch := decide) [-Nat.reduceAdd, -BitVec.getLsbD_eq_getElem, hw] <;> simp_all

theorem shr (h : Hdr) (sd sa : SReg) (b : Src) : Statement (.shr h sd sa b) := by
  refine of_encode rfl fun hw vup hv => ?_
  unfold wellFormed at hw
  simp only [Bool.and_eq_true] at hw
  cases b <;> refine decode_s (n := 0x00B) rfl (by decide) (by simp_all) ?_ <;> change Accepts (srcForm ..) _ _ _ <;>
  simp (disch := decide) [-Nat.reduceAdd, -BitVec.getLsbD_eq_getElem, hw] <;> simp_all

theorem sra (h : Hdr) (sd sa : SReg) (b : Src) : Statement (.sra h sd sa b) := by
  refine of_encode rfl fun hw vup hv => ?_
  unfold wellFormed at hw
  simp only [Bool.and_eq_true] at hw
  cases b <;> refine decode_s (n := 0x00C) rfl (by decide) (by simp_all) ?_ <;> change Accepts (srcForm ..) _ _ _ <;>
  simp (disch := decide) [-Nat.reduceAdd, -BitVec.getLsbD_eq_getElem, hw] <;> simp_all

theorem rol (h : Hdr) (sd sa : SReg) (b : Src) : Statement (.rol h sd sa b) := by
  refine of_encode rfl fun hw vup hv => ?_
  unfold wellFormed at hw
  simp only [Bool.and_eq_true] at hw
  cases b <;> refine decode_s (n := 0x00D) rfl (by decide) (by simp_all) ?_ <;> change Accepts (srcForm ..) _ _ _ <;>
  simp (disch := decide) [-Nat.reduceAdd, -BitVec.getLsbD_eq_getElem, hw] <;> simp_all

theorem ror (h : Hdr) (sd sa : SReg) (b : Src) : Statement (.ror h sd sa b) := by
  refine of_encode rfl fun hw vup hv => ?_
  unfold wellFormed at hw
  simp only [Bool.and_eq_true] at hw
  cases b <;> refine decode_s (n := 0x00E) rfl (by decide) (by simp_all) ?_ <;> change Accepts (srcForm ..) _ _ _ <;>
  simp (disch := decide) [-Nat.reduceAdd, -BitVec.getLsbD_eq_getElem, hw] <;> simp_all

theorem min (h : Hdr) (sd sa : SReg) (b : Src) (u : Bool) : Statement (.min h sd sa b u) := by
  refine of_encode rfl fun hw vup hv => ?_
  unfold wellFormed at hw
  simp only [Bool.and_eq_true] at hw
  cases b <;> refine decode_s (n := 0x00F) rfl (by decide) (by simp_all) ?_ <;> change Accepts (srcForm ..) _ _ _ <;>
  simp (disch := decide) [-Nat.reduceAdd, -BitVec.getLsbD_eq_getElem, hw] <;> simp_all

theorem max (h : Hdr) (sd sa : SReg) (b : Src) (u : Bool) : Statement (.max h sd sa b u) := by
  refine of_encode rfl fun hw vup hv => ?_
  unfold wellFormed at hw
  simp only [Bool.and_eq_true] at hw
  cases b <;> refine decode_s (n := 0x010) rfl (by decide) (by simp_all) ?_ <;> change Accepts (srcForm ..) _ _ _ <;>
  simp (disch := decide) [-Nat.reduceAdd, -BitVec.getLsbD_eq_getElem, hw] <;> simp_all

theorem clz (h : Hdr) (sd sa : SReg) : Statement (.clz h sd sa) := by
  refine of_encode rfl fun hw vup hv => ?_
  unfold wellFormed at hw
  simp only [Bool.and_eq_true] at hw
  refine decode_s (n := 0x018) rfl (by decide) (by simp_all) ?_ <;> change Accepts (form ..) _ _ _ <;>
  simp (disch := decide) [-Nat.reduceAdd, -BitVec.getLsbD_eq_getElem, hw] <;> simp_all

theorem ctz (h : Hdr) (sd sa : SReg) : Statement (.ctz h sd sa) := by
  refine of_encode rfl fun hw vup hv => ?_
  unfold wellFormed at hw
  simp only [Bool.and_eq_true] at hw
  refine decode_s (n := 0x019) rfl (by decide) (by simp_all) ?_ <;> change Accepts (form ..) _ _ _ <;>
  simp (disch := decide) [-Nat.reduceAdd, -BitVec.getLsbD_eq_getElem, hw] <;> simp_all

theorem popc (h : Hdr) (sd sa : SReg) : Statement (.popc h sd sa) := by
  refine of_encode rfl fun hw vup hv => ?_
  unfold wellFormed at hw
  simp only [Bool.and_eq_true] at hw
  refine decode_s (n := 0x01A) rfl (by decide) (by simp_all) ?_ <;> change Accepts (form ..) _ _ _ <;>
  simp (disch := decide) [-Nat.reduceAdd, -BitVec.getLsbD_eq_getElem, hw] <;> simp_all

theorem brev (h : Hdr) (sd sa : SReg) : Statement (.brev h sd sa) := by
  refine of_encode rfl fun hw vup hv => ?_
  unfold wellFormed at hw
  simp only [Bool.and_eq_true] at hw
  refine decode_s (n := 0x01B) rfl (by decide) (by simp_all) ?_ <;> change Accepts (form ..) _ _ _ <;>
  simp (disch := decide) [-Nat.reduceAdd, -BitVec.getLsbD_eq_getElem, hw] <;> simp_all

theorem bfx (h : Hdr) (sd sa : SReg) (f : Src) : Statement (.bfx h sd sa f) := by
  refine of_encode rfl fun hw vup hv => ?_
  unfold wellFormed at hw
  simp only [Bool.and_eq_true] at hw
  cases f <;> refine decode_s (n := 0x020) rfl (by decide) (by simp_all) ?_ <;> change Accepts (srcForm ..) _ _ _ <;>
  simp (disch := decide) [-Nat.reduceAdd, -BitVec.getLsbD_eq_getElem, hw] <;> simp_all

theorem bfxs (h : Hdr) (sd sa : SReg) (f : Src) : Statement (.bfxs h sd sa f) := by
  refine of_encode rfl fun hw vup hv => ?_
  unfold wellFormed at hw
  simp only [Bool.and_eq_true] at hw
  cases f <;> refine decode_s (n := 0x021) rfl (by decide) (by simp_all) ?_ <;> change Accepts (srcForm ..) _ _ _ <;>
  simp (disch := decide) [-Nat.reduceAdd, -BitVec.getLsbD_eq_getElem, hw] <;> simp_all

theorem bfi (h : Hdr) (sd sa : SReg) (f : Src) (sc : SReg) : Statement (.bfi h sd sa f sc) := by
  refine of_encode rfl fun hw vup hv => ?_
  unfold wellFormed at hw
  simp only [Bool.and_eq_true] at hw
  cases f <;> refine decode_s (n := 0x022) rfl (by decide) (by simp_all) ?_ <;> change Accepts (srcForm ..) _ _ _ <;>
  simp (disch := decide) [-Nat.reduceAdd, -BitVec.getLsbD_eq_getElem, hw] <;> simp_all

theorem sext (h : Hdr) (sd sa : SReg) (sz : ExtSize) : Statement (.sext h sd sa sz) := by
  refine of_encode rfl fun hw vup hv => ?_
  unfold wellFormed at hw
  simp only [Bool.and_eq_true] at hw
  cases sz <;> refine decode_s (n := 0x023) rfl (by decide) (by simp_all) ?_ <;>
    change Accepts (Parse.rules (form ..) ..) _ _ _ <;>
  simp (disch := decide) [-Nat.reduceAdd, -BitVec.getLsbD_eq_getElem, hw] <;> simp_all

theorem li (h : Hdr) (sd : SReg) (imm : Word) : Statement (.li h sd imm) := by
  refine of_encode rfl fun hw vup hv => ?_
  unfold wellFormed at hw
  simp only [Bool.and_eq_true] at hw
  refine decode_s (n := 0x028) rfl (by decide) (by simp_all) ?_ <;> change Accepts (form ..) _ _ _ <;>
  simp (disch := decide) [-Nat.reduceAdd, -BitVec.getLsbD_eq_getElem, hw] <;> simp_all

theorem addx (h : Hdr) (sd sa sb : SReg) (sh : BitVec 3) (imm : Word) : Statement (.addx h sd sa sb sh imm) := by
  refine of_encode rfl fun hw vup hv => ?_
  unfold wellFormed at hw
  simp only [Bool.and_eq_true] at hw
  refine decode_s (n := 0x029) rfl (by decide) (by simp_all) ?_ <;> change Accepts (form ..) _ _ _ <;>
  simp (disch := decide) [-Nat.reduceAdd, -BitVec.getLsbD_eq_getElem, hw] <;> simp_all

theorem cmp (h : Hdr) (pd : PReg) (sa : SReg) (b : Src) (cc : CC) : Statement (.cmp h pd sa b cc) := by
  refine of_encode rfl fun hw vup hv => ?_
  unfold wellFormed at hw
  simp only [Bool.and_eq_true] at hw
  cases b <;> refine decode_s (n := 0x030) rfl (by decide) (by simp_all) ?_ <;>
    change Accepts (Parse.rules (srcForm ..) ..) _ _ _ <;>
  simp (disch := decide) [-Nat.reduceAdd, -BitVec.getLsbD_eq_getElem, hw] <;> simp_all

theorem pand (h : Hdr) (pd pa pb : PReg) (na nb : Bool) : Statement (.pand h pd pa pb na nb) := by
  refine of_encode rfl fun hw vup hv => ?_
  unfold wellFormed at hw
  simp only [Bool.and_eq_true] at hw
  refine decode_s (n := 0x031) rfl (by decide) (by simp_all) ?_ <;>
    change Accepts (Parse.rules (form ..) ..) _ _ _ <;>
  simp (disch := decide) [-Nat.reduceAdd, -BitVec.getLsbD_eq_getElem, hw] <;> simp_all

theorem por (h : Hdr) (pd pa pb : PReg) (na nb : Bool) : Statement (.por h pd pa pb na nb) := by
  refine of_encode rfl fun hw vup hv => ?_
  unfold wellFormed at hw
  simp only [Bool.and_eq_true] at hw
  refine decode_s (n := 0x032) rfl (by decide) (by simp_all) ?_ <;>
    change Accepts (Parse.rules (form ..) ..) _ _ _ <;>
  simp (disch := decide) [-Nat.reduceAdd, -BitVec.getLsbD_eq_getElem, hw] <;> simp_all

theorem pxor (h : Hdr) (pd pa pb : PReg) (na nb : Bool) : Statement (.pxor h pd pa pb na nb) := by
  refine of_encode rfl fun hw vup hv => ?_
  unfold wellFormed at hw
  simp only [Bool.and_eq_true] at hw
  refine decode_s (n := 0x033) rfl (by decide) (by simp_all) ?_ <;>
    change Accepts (Parse.rules (form ..) ..) _ _ _ <;>
  simp (disch := decide) [-Nat.reduceAdd, -BitVec.getLsbD_eq_getElem, hw] <;> simp_all

theorem pnot (h : Hdr) (pd pa : PReg) : Statement (.pnot h pd pa) := by
  refine of_encode rfl fun hw vup hv => ?_
  unfold wellFormed at hw
  simp only [Bool.and_eq_true] at hw
  refine decode_s (n := 0x034) rfl (by decide) (by simp_all) ?_ <;>
    change Accepts (Parse.rules (form ..) ..) _ _ _ <;>
  simp (disch := decide) [-Nat.reduceAdd, -BitVec.getLsbD_eq_getElem, hw] <;> simp_all

theorem sel (h : Hdr) (sd sa : SReg) (b : Src) (pc : PReg) : Statement (.sel h sd sa b pc) := by
  refine of_encode rfl fun hw vup hv => ?_
  unfold wellFormed at hw
  simp only [Bool.and_eq_true] at hw
  cases b <;> refine decode_s (n := 0x035) rfl (by decide) (by simp_all) ?_ <;>
    change Accepts (Parse.rules (srcForm ..) ..) _ _ _ <;>
  simp (disch := decide) [-Nat.reduceAdd, -BitVec.getLsbD_eq_getElem, hw] <;> simp_all

theorem sfadd (h : Hdr) (sd sa : SReg) (b : Src) (rnd : Rnd) : Statement (.sfadd h sd sa b rnd) := by
  refine of_encode rfl fun hw vup hv => ?_
  unfold wellFormed at hw
  simp only [Bool.and_eq_true] at hw
  cases b <;> refine decode_s (n := 0x038) rfl (by decide) (by simp_all) ?_ <;>
    change Accepts (Parse.rules (srcForm ..) ..) _ _ _ <;>
  simp (disch := decide) [-Nat.reduceAdd, -BitVec.getLsbD_eq_getElem, hw] <;> simp_all

theorem sfmul (h : Hdr) (sd sa : SReg) (b : Src) (rnd : Rnd) : Statement (.sfmul h sd sa b rnd) := by
  refine of_encode rfl fun hw vup hv => ?_
  unfold wellFormed at hw
  simp only [Bool.and_eq_true] at hw
  cases b <;> refine decode_s (n := 0x039) rfl (by decide) (by simp_all) ?_ <;>
    change Accepts (Parse.rules (srcForm ..) ..) _ _ _ <;>
  simp (disch := decide) [-Nat.reduceAdd, -BitVec.getLsbD_eq_getElem, hw] <;> simp_all

theorem sffma (h : Hdr) (sd sa sb sc : SReg) (rnd : Rnd) : Statement (.sffma h sd sa sb sc rnd) := by
  refine of_encode rfl fun hw vup hv => ?_
  unfold wellFormed at hw
  simp only [Bool.and_eq_true] at hw
  refine decode_s (n := 0x03A) rfl (by decide) (by simp_all) ?_ <;>
    change Accepts (Parse.rules (form ..) ..) _ _ _ <;>
  simp (disch := decide) [-Nat.reduceAdd, -BitVec.getLsbD_eq_getElem, hw] <;> simp_all

theorem sfdiv (h : Hdr) (sd sa : SReg) (b : Src) (rnd : Rnd) : Statement (.sfdiv h sd sa b rnd) := by
  refine of_encode rfl fun hw vup hv => ?_
  unfold wellFormed at hw
  simp only [Bool.and_eq_true] at hw
  cases b <;> refine decode_s (n := 0x03B) rfl (by decide) (by simp_all) ?_ <;>
    change Accepts (Parse.rules (srcForm ..) ..) _ _ _ <;>
  simp (disch := decide) [-Nat.reduceAdd, -BitVec.getLsbD_eq_getElem, hw] <;> simp_all

theorem sfcvt (h : Hdr) (sd sa : SReg) (op : CvtOp) (rnd : Rnd) : Statement (.sfcvt h sd sa op rnd) := by
  refine of_encode rfl fun hw vup hv => ?_
  unfold wellFormed at hw
  simp only [Bool.and_eq_true] at hw
  cases op <;> refine decode_s (n := 0x03C) rfl (by decide) (by simp_all) ?_ <;>
    change Accepts (Parse.rules (form ..) ..) _ _ _ <;>
  simp (disch := decide) [-Nat.reduceAdd, -BitVec.getLsbD_eq_getElem, hw] <;> simp_all

theorem ld (h : Hdr) (sd sa sb : SReg) (imm : Word) (sz : Size) (u : Bool) : Statement (.ld h sd sa sb imm sz u) := by
  refine of_encode rfl fun hw vup hv => ?_
  unfold wellFormed at hw
  simp only [Bool.and_eq_true] at hw
  cases sz <;> cases u <;> refine decode_s (n := 0x040) rfl (by decide) (by simp_all) ?_ <;>
    change Accepts (Parse.rules (form ..) ..) _ _ _ <;>
  simp (disch := decide) [-Nat.reduceAdd, -BitVec.getLsbD_eq_getElem, hw] <;> simp_all [sizeCode]

theorem st (h : Hdr) (sa sb sc : SReg) (imm : Word) (sz : Size) : Statement (.st h sa sb sc imm sz) := by
  refine of_encode rfl fun hw vup hv => ?_
  unfold wellFormed at hw
  simp only [Bool.and_eq_true] at hw
  refine decode_s (n := 0x041) rfl (by decide) (by simp_all) ?_ <;> change Accepts (form ..) _ _ _ <;>
  simp (disch := decide) [-Nat.reduceAdd, -BitVec.getLsbD_eq_getElem, hw] <;> simp_all

theorem lda (h : Hdr) (sd sa sb : SReg) (imm : Word) (sz : Size) (u : Bool) (scope : Scope) :
    Statement (.lda h sd sa sb imm sz u scope) := by
  refine of_encode rfl fun hw vup hv => ?_
  unfold wellFormed at hw
  simp only [Bool.and_eq_true] at hw
  cases sz <;> cases u <;> refine decode_s (n := 0x042) rfl (by decide) (by simp_all) ?_ <;>
    change Accepts (Parse.rules (form ..) ..) _ _ _ <;>
  simp (disch := decide) [-Nat.reduceAdd, -BitVec.getLsbD_eq_getElem, hw] <;> simp_all [sizeCode]

theorem stl (h : Hdr) (sa sb sc : SReg) (imm : Word) (sz : Size) (scope : Scope) :
    Statement (.stl h sa sb sc imm sz scope) := by
  refine of_encode rfl fun hw vup hv => ?_
  unfold wellFormed at hw
  simp only [Bool.and_eq_true] at hw
  refine decode_s (n := 0x043) rfl (by decide) (by simp_all) ?_ <;>
    change Accepts (Parse.rules (form ..) ..) _ _ _ <;>
  simp (disch := decide) [-Nat.reduceAdd, -BitVec.getLsbD_eq_getElem, hw] <;> simp_all

theorem amoAdd (h : Hdr) (o : AmoOps) : Statement (.amoAdd h o) := by
  refine of_encode rfl fun hw vup hv => ?_
  unfold wellFormed at hw
  obtain ⟨ht, ho⟩ := Bool.and_eq_true_iff.1 hw
  clear hw
  rcases amo_scope ho with h1 | ⟨h1, h2, h3⟩
  · refine decode_s (n := 0x048) rfl (by decide) (by simp_all) ?_ <;>
    change Accepts (Parse.rules (form ..) ..) _ _ _ <;>
    simp (disch := decide) [-Nat.reduceAdd, -BitVec.getLsbD_eq_getElem, ht, h1] <;>
      (cases o; simp_all [AmoOps.okFloat])
  · refine decode_s (n := 0x048) rfl (by decide) (by simp_all) ?_ <;>
    change Accepts (Parse.rules (form ..) ..) _ _ _ <;>
    simp (disch := decide) [-Nat.reduceAdd, -BitVec.getLsbD_eq_getElem, ht, h1, h2, h3] <;>
      (cases o; simp_all [AmoOps.okFloat])

theorem amoAnd (h : Hdr) (o : AmoOps) : Statement (.amoAnd h o) := by
  refine of_encode rfl fun hw vup hv => ?_
  unfold wellFormed at hw
  obtain ⟨ht, ho⟩ := Bool.and_eq_true_iff.1 hw
  clear hw
  rcases amo_scope ho with h1 | ⟨h1, h2, h3⟩
  · refine decode_s (n := 0x049) rfl (by decide) (by simp_all) ?_ <;>
    change Accepts (Parse.rules (form ..) ..) _ _ _ <;>
    simp (disch := decide) [-Nat.reduceAdd, -BitVec.getLsbD_eq_getElem, ht, h1] <;>
      (cases o; simp_all [AmoOps.okFloat])
  · refine decode_s (n := 0x049) rfl (by decide) (by simp_all) ?_ <;>
    change Accepts (Parse.rules (form ..) ..) _ _ _ <;>
    simp (disch := decide) [-Nat.reduceAdd, -BitVec.getLsbD_eq_getElem, ht, h1, h2, h3] <;>
      (cases o; simp_all [AmoOps.okFloat])

theorem amoOr (h : Hdr) (o : AmoOps) : Statement (.amoOr h o) := by
  refine of_encode rfl fun hw vup hv => ?_
  unfold wellFormed at hw
  obtain ⟨ht, ho⟩ := Bool.and_eq_true_iff.1 hw
  clear hw
  rcases amo_scope ho with h1 | ⟨h1, h2, h3⟩
  · refine decode_s (n := 0x04A) rfl (by decide) (by simp_all) ?_ <;>
    change Accepts (Parse.rules (form ..) ..) _ _ _ <;>
    simp (disch := decide) [-Nat.reduceAdd, -BitVec.getLsbD_eq_getElem, ht, h1] <;>
      (cases o; simp_all [AmoOps.okFloat])
  · refine decode_s (n := 0x04A) rfl (by decide) (by simp_all) ?_ <;>
    change Accepts (Parse.rules (form ..) ..) _ _ _ <;>
    simp (disch := decide) [-Nat.reduceAdd, -BitVec.getLsbD_eq_getElem, ht, h1, h2, h3] <;>
      (cases o; simp_all [AmoOps.okFloat])

theorem amoXor (h : Hdr) (o : AmoOps) : Statement (.amoXor h o) := by
  refine of_encode rfl fun hw vup hv => ?_
  unfold wellFormed at hw
  obtain ⟨ht, ho⟩ := Bool.and_eq_true_iff.1 hw
  clear hw
  rcases amo_scope ho with h1 | ⟨h1, h2, h3⟩
  · refine decode_s (n := 0x04B) rfl (by decide) (by simp_all) ?_ <;>
    change Accepts (Parse.rules (form ..) ..) _ _ _ <;>
    simp (disch := decide) [-Nat.reduceAdd, -BitVec.getLsbD_eq_getElem, ht, h1] <;>
      (cases o; simp_all [AmoOps.okFloat])
  · refine decode_s (n := 0x04B) rfl (by decide) (by simp_all) ?_ <;>
    change Accepts (Parse.rules (form ..) ..) _ _ _ <;>
    simp (disch := decide) [-Nat.reduceAdd, -BitVec.getLsbD_eq_getElem, ht, h1, h2, h3] <;>
      (cases o; simp_all [AmoOps.okFloat])

theorem amoMin (h : Hdr) (o : AmoOps) (u : Bool) : Statement (.amoMin h o u) := by
  refine of_encode rfl fun hw vup hv => ?_
  unfold wellFormed at hw
  obtain ⟨ht, ho⟩ := Bool.and_eq_true_iff.1 hw
  clear hw
  rcases amo_scope ho with h1 | ⟨h1, h2, h3⟩
  · refine decode_s (n := 0x04C) rfl (by decide) (by simp_all) ?_ <;>
    change Accepts (Parse.rules (form ..) ..) _ _ _ <;>
    simp (disch := decide) [-Nat.reduceAdd, -BitVec.getLsbD_eq_getElem, ht, h1] <;>
      (cases o; simp_all [AmoOps.okFloat])
  · refine decode_s (n := 0x04C) rfl (by decide) (by simp_all) ?_ <;>
    change Accepts (Parse.rules (form ..) ..) _ _ _ <;>
    simp (disch := decide) [-Nat.reduceAdd, -BitVec.getLsbD_eq_getElem, ht, h1, h2, h3] <;>
      (cases o; simp_all [AmoOps.okFloat])

theorem amoMax (h : Hdr) (o : AmoOps) (u : Bool) : Statement (.amoMax h o u) := by
  refine of_encode rfl fun hw vup hv => ?_
  unfold wellFormed at hw
  obtain ⟨ht, ho⟩ := Bool.and_eq_true_iff.1 hw
  clear hw
  rcases amo_scope ho with h1 | ⟨h1, h2, h3⟩
  · refine decode_s (n := 0x04D) rfl (by decide) (by simp_all) ?_ <;>
    change Accepts (Parse.rules (form ..) ..) _ _ _ <;>
    simp (disch := decide) [-Nat.reduceAdd, -BitVec.getLsbD_eq_getElem, ht, h1] <;>
      (cases o; simp_all [AmoOps.okFloat])
  · refine decode_s (n := 0x04D) rfl (by decide) (by simp_all) ?_ <;>
    change Accepts (Parse.rules (form ..) ..) _ _ _ <;>
    simp (disch := decide) [-Nat.reduceAdd, -BitVec.getLsbD_eq_getElem, ht, h1, h2, h3] <;>
      (cases o; simp_all [AmoOps.okFloat])

theorem amoXchg (h : Hdr) (o : AmoOps) : Statement (.amoXchg h o) := by
  refine of_encode rfl fun hw vup hv => ?_
  unfold wellFormed at hw
  obtain ⟨ht, ho⟩ := Bool.and_eq_true_iff.1 hw
  clear hw
  rcases amo_scope ho with h1 | ⟨h1, h2, h3⟩
  · refine decode_s (n := 0x04E) rfl (by decide) (by simp_all) ?_ <;>
    change Accepts (Parse.rules (form ..) ..) _ _ _ <;>
    simp (disch := decide) [-Nat.reduceAdd, -BitVec.getLsbD_eq_getElem, ht, h1] <;>
      (cases o; simp_all [AmoOps.okFloat])
  · refine decode_s (n := 0x04E) rfl (by decide) (by simp_all) ?_ <;>
    change Accepts (Parse.rules (form ..) ..) _ _ _ <;>
    simp (disch := decide) [-Nat.reduceAdd, -BitVec.getLsbD_eq_getElem, ht, h1, h2, h3] <;>
      (cases o; simp_all [AmoOps.okFloat])

theorem amoCas (h : Hdr) (o : AmoOps) (sc : SReg) : Statement (.amoCas h o sc) := by
  refine of_encode rfl fun hw vup hv => ?_
  unfold wellFormed at hw
  obtain ⟨ht, ho⟩ := Bool.and_eq_true_iff.1 hw
  clear hw
  rcases amo_scope ho with h1 | ⟨h1, h2, h3⟩
  · refine decode_s (n := 0x04F) rfl (by decide) (by simp_all) ?_ <;>
    change Accepts (Parse.rules (form ..) ..) _ _ _ <;>
    simp (disch := decide) [-Nat.reduceAdd, -BitVec.getLsbD_eq_getElem, ht, h1] <;>
      (cases o; simp_all [AmoOps.okFloat])
  · refine decode_s (n := 0x04F) rfl (by decide) (by simp_all) ?_ <;>
    change Accepts (Parse.rules (form ..) ..) _ _ _ <;>
    simp (disch := decide) [-Nat.reduceAdd, -BitVec.getLsbD_eq_getElem, ht, h1, h2, h3] <;>
      (cases o; simp_all [AmoOps.okFloat])

theorem amoFadd (h : Hdr) (o : AmoOps) : Statement (.amoFadd h o) := by
  refine of_encode rfl fun hw vup hv => ?_
  unfold wellFormed at hw
  obtain ⟨ht, ho⟩ := Bool.and_eq_true_iff.1 hw
  clear hw
  rcases amo_scope (Bool.and_eq_true_iff.1 ho).1 with h1 | ⟨h1, h2, h3⟩
  · refine decode_s (n := 0x050) rfl (by decide) (by simp_all) ?_ <;> change Accepts (ite ..) _ _ _ <;>
    simp (disch := decide) [-Nat.reduceAdd, -BitVec.getLsbD_eq_getElem, ht, h1, treeForm, amoForm, ringForm] <;>
      (cases o; simp_all [AmoOps.okFloat])
  · refine decode_s (n := 0x050) rfl (by decide) (by simp_all) ?_ <;> change Accepts (ite ..) _ _ _ <;>
    simp (disch := decide) [-Nat.reduceAdd, -BitVec.getLsbD_eq_getElem, ht, h1, h2, h3, treeForm, amoForm, ringForm] <;>
      (cases o; simp_all [AmoOps.okFloat])

theorem amoFaddTree (h : Hdr) (sa sb sc : SReg) (imm : Word) (rel : Bool) (scope : Scope) :
    Statement (.amoFaddTree h sa sb sc imm rel scope) := by
  refine of_encode rfl fun hw vup hv => ?_
  unfold wellFormed at hw
  simp only [Bool.and_eq_true] at hw
  cases rel <;> cases scope <;> refine decode_s (n := 0x050) rfl (by decide) (by simp_all) ?_ <;>
    change Accepts (ite ..) _ _ _ <;>
  simp (disch := decide) [-Nat.reduceAdd, -BitVec.getLsbD_eq_getElem, hw, treeForm, amoForm, ringForm] <;> simp_all

theorem amoFmin (h : Hdr) (o : AmoOps) : Statement (.amoFmin h o) := by
  refine of_encode rfl fun hw vup hv => ?_
  unfold wellFormed at hw
  obtain ⟨ht, ho⟩ := Bool.and_eq_true_iff.1 hw
  clear hw
  rcases amo_scope (Bool.and_eq_true_iff.1 ho).1 with h1 | ⟨h1, h2, h3⟩
  · refine decode_s (n := 0x051) rfl (by decide) (by simp_all) ?_ <;>
    change Accepts (Parse.rules (form ..) ..) _ _ _ <;>
    simp (disch := decide) [-Nat.reduceAdd, -BitVec.getLsbD_eq_getElem, ht, h1] <;>
      (cases o; simp_all [AmoOps.okFloat])
  · refine decode_s (n := 0x051) rfl (by decide) (by simp_all) ?_ <;>
    change Accepts (Parse.rules (form ..) ..) _ _ _ <;>
    simp (disch := decide) [-Nat.reduceAdd, -BitVec.getLsbD_eq_getElem, ht, h1, h2, h3] <;>
      (cases o; simp_all [AmoOps.okFloat])

theorem amoFmax (h : Hdr) (o : AmoOps) : Statement (.amoFmax h o) := by
  refine of_encode rfl fun hw vup hv => ?_
  unfold wellFormed at hw
  obtain ⟨ht, ho⟩ := Bool.and_eq_true_iff.1 hw
  clear hw
  rcases amo_scope (Bool.and_eq_true_iff.1 ho).1 with h1 | ⟨h1, h2, h3⟩
  · refine decode_s (n := 0x052) rfl (by decide) (by simp_all) ?_ <;>
    change Accepts (Parse.rules (form ..) ..) _ _ _ <;>
    simp (disch := decide) [-Nat.reduceAdd, -BitVec.getLsbD_eq_getElem, ht, h1] <;>
      (cases o; simp_all [AmoOps.okFloat])
  · refine decode_s (n := 0x052) rfl (by decide) (by simp_all) ?_ <;>
    change Accepts (Parse.rules (form ..) ..) _ _ _ <;>
    simp (disch := decide) [-Nat.reduceAdd, -BitVec.getLsbD_eq_getElem, ht, h1, h2, h3] <;>
      (cases o; simp_all [AmoOps.okFloat])

theorem qpush (h : Hdr) (q : QNum) (b : Src) : Statement (.qpush h q b) := by
  refine of_encode rfl fun hw vup hv => ?_
  unfold wellFormed at hw
  simp only [Bool.and_eq_true] at hw
  cases b <;> refine decode_s (n := 0x058) rfl (by decide) (by simp_all) ?_ <;> change Accepts (ite ..) _ _ _ <;>
  simp (disch := decide) [-Nat.reduceAdd, -BitVec.getLsbD_eq_getElem, hw, treeForm, amoForm, ringForm] <;> simp_all

theorem mfs (h : Hdr) (sd : SReg) (n : BitVec 12) : Statement (.mfs h sd n) := by
  refine of_encode rfl fun hw vup hv => ?_
  unfold wellFormed at hw
  simp only [Bool.and_eq_true] at hw
  refine decode_s (n := 0x059) rfl (by decide) (by simp_all) ?_ <;>
    change Accepts (Parse.rules (form ..) ..) _ _ _ <;>
  simp (disch := decide) [-Nat.reduceAdd, -BitVec.getLsbD_eq_getElem, hw] <;> simp_all

theorem mts (h : Hdr) (n : BitVec 12) (sa : SReg) : Statement (.mts h n sa) := by
  refine of_encode rfl fun hw vup hv => ?_
  unfold wellFormed at hw
  simp only [Bool.and_eq_true] at hw
  refine decode_s (n := 0x05A) rfl (by decide) (by simp_all) ?_ <;>
    change Accepts (Parse.rules (form ..) ..) _ _ _ <;>
  simp (disch := decide) [-Nat.reduceAdd, -BitVec.getLsbD_eq_getElem, hw] <;> simp_all

theorem poolAlloc (h : Hdr) (sd sa : SReg) (mir : Bool) (pref : BitVec 3) (given : Bool) :
    Statement (.poolAlloc h sd sa mir pref given) := by
  refine of_encode rfl fun hw vup hv => ?_
  unfold wellFormed at hw
  simp only [Bool.and_eq_true] at hw
  refine decode_x (n := 0x000) rfl (by simp_all) ?_ <;> change Accepts (form ..) _ _ _ <;>
  simp (disch := decide) [-Nat.reduceAdd, -BitVec.getLsbD_eq_getElem, hw] <;> simp_all

theorem poolFree (h : Hdr) (sd sa : SReg) : Statement (.poolFree h sd sa) := by
  refine of_encode rfl fun hw vup hv => ?_
  unfold wellFormed at hw
  simp only [Bool.and_eq_true] at hw
  refine decode_x (n := 0x001) rfl (by simp_all) ?_ <;> change Accepts (form ..) _ _ _ <;>
  simp (disch := decide) [-Nat.reduceAdd, -BitVec.getLsbD_eq_getElem, hw] <;> simp_all

theorem poolStat (h : Hdr) (sd sa sb : SReg) : Statement (.poolStat h sd sa sb) := by
  refine of_encode rfl fun hw vup hv => ?_
  unfold wellFormed at hw
  simp only [Bool.and_eq_true] at hw
  refine decode_x (n := 0x002) rfl (by simp_all) ?_ <;> change Accepts (form ..) _ _ _ <;>
  simp (disch := decide) [-Nat.reduceAdd, -BitVec.getLsbD_eq_getElem, hw] <;> simp_all

theorem ownAcq (h : Hdr) (sd sa : SReg) : Statement (.ownAcq h sd sa) := by
  refine of_encode rfl fun hw vup hv => ?_
  unfold wellFormed at hw
  simp only [Bool.and_eq_true] at hw
  refine decode_x (n := 0x008) rfl (by simp_all) ?_ <;> change Accepts (form ..) _ _ _ <;>
  simp (disch := decide) [-Nat.reduceAdd, -BitVec.getLsbD_eq_getElem, hw] <;> simp_all

theorem ownRel (h : Hdr) (sd sa : SReg) : Statement (.ownRel h sd sa) := by
  refine of_encode rfl fun hw vup hv => ?_
  unfold wellFormed at hw
  simp only [Bool.and_eq_true] at hw
  refine decode_x (n := 0x009) rfl (by simp_all) ?_ <;> change Accepts (form ..) _ _ _ <;>
  simp (disch := decide) [-Nat.reduceAdd, -BitVec.getLsbD_eq_getElem, hw] <;> simp_all

theorem ownTest (h : Hdr) (sd sa : SReg) : Statement (.ownTest h sd sa) := by
  refine of_encode rfl fun hw vup hv => ?_
  unfold wellFormed at hw
  simp only [Bool.and_eq_true] at hw
  refine decode_x (n := 0x00A) rfl (by simp_all) ?_ <;> change Accepts (form ..) _ _ _ <;>
  simp (disch := decide) [-Nat.reduceAdd, -BitVec.getLsbD_eq_getElem, hw] <;> simp_all

theorem sreRun (h : Hdr) (sd sa : SReg) : Statement (.sreRun h sd sa) := by
  refine of_encode rfl fun hw vup hv => ?_
  unfold wellFormed at hw
  simp only [Bool.and_eq_true] at hw
  refine decode_x (n := 0x010) rfl (by simp_all) ?_ <;> change Accepts (form ..) _ _ _ <;>
  simp (disch := decide) [-Nat.reduceAdd, -BitVec.getLsbD_eq_getElem, hw] <;> simp_all

theorem watchSet (h : Hdr) (n : BitVec 2) (sa : SReg) (size : BitVec 6) (rd wr : Bool) :
    Statement (.watchSet h n sa size rd wr) := by
  refine of_encode rfl fun hw vup hv => ?_
  unfold wellFormed at hw
  simp only [Bool.and_eq_true] at hw
  refine decode_x (n := 0x018) rfl (by simp_all) ?_ <;> change Accepts (Parse.rules (form ..) ..) _ _ _ <;>
  simp (disch := decide) [-Nat.reduceAdd, -BitVec.getLsbD_eq_getElem, hw] <;> simp_all

theorem syscall (h : Hdr) (sa : SReg) (code : BitVec 16) : Statement (.syscall h sa code) := by
  refine of_encode rfl fun hw vup hv => ?_
  unfold wellFormed at hw
  simp only [Bool.and_eq_true] at hw
  refine decode_x (n := 0x020) rfl (by simp_all) ?_ <;> change Accepts (form ..) _ _ _ <;>
  simp (disch := decide) [-Nat.reduceAdd, -BitVec.getLsbD_eq_getElem, hw] <;> simp_all

theorem tlbInv (h : Hdr) (sa sb : SReg) (kind : InvKind) : Statement (.tlbInv h sa sb kind) := by
  refine of_encode rfl fun hw vup hv => ?_
  unfold wellFormed at hw
  simp only [Bool.and_eq_true] at hw
  cases kind <;> refine decode_x (n := 0x028) rfl (by simp_all) ?_ <;>
    change Accepts (Parse.rules (form ..) ..) _ _ _ <;>
  simp (disch := decide) [-Nat.reduceAdd, -BitVec.getLsbD_eq_getElem, hw] <;> simp_all

theorem ctxSave (h : Hdr) (sd sa : SReg) (full rel : Bool) : Statement (.ctxSave h sd sa full rel) := by
  refine of_encode rfl fun hw vup hv => ?_
  unfold wellFormed at hw
  simp only [Bool.and_eq_true] at hw
  refine decode_x (n := 0x030) rfl (by simp_all) ?_ <;> change Accepts (form ..) _ _ _ <;>
  simp (disch := decide) [-Nat.reduceAdd, -BitVec.getLsbD_eq_getElem, hw] <;> simp_all

theorem ctxLoad (h : Hdr) (sd sa : SReg) : Statement (.ctxLoad h sd sa) := by
  refine of_encode rfl fun hw vup hv => ?_
  unfold wellFormed at hw
  simp only [Bool.and_eq_true] at hw
  refine decode_x (n := 0x031) rfl (by simp_all) ?_ <;> change Accepts (form ..) _ _ _ <;>
  simp (disch := decide) [-Nat.reduceAdd, -BitVec.getLsbD_eq_getElem, hw] <;> simp_all

theorem ctxResume (h : Hdr) (fin : Bool) : Statement (.ctxResume h fin) := by
  refine of_encode rfl fun hw vup hv => ?_
  unfold wellFormed at hw
  simp only [Bool.and_eq_true] at hw
  refine decode_x (n := 0x032) rfl (by simp_all) ?_ <;> change Accepts (form ..) _ _ _ <;>
  simp (disch := decide) [-Nat.reduceAdd, -BitVec.getLsbD_eq_getElem, hw] <;> simp_all

theorem ctxSwitch (h : Hdr) : Statement (.ctxSwitch h) := by
  refine of_encode rfl fun hw vup hv => ?_
  unfold wellFormed at hw
  simp only [Bool.and_eq_true] at hw
  refine decode_x (n := 0x033) rfl (by simp_all) ?_ <;> change Accepts (form ..) _ _ _ <;>
  simp (disch := decide) [-Nat.reduceAdd, -BitVec.getLsbD_eq_getElem, hw] <;> simp_all

theorem vld (h : Hdr) (r : RunOps) (fmt : Fmt) (mk : MNum) (z : Bool) (idx : IdxMode) :
    Statement (.vld h r fmt mk z idx) := by
  refine of_encode rfl fun hw vup hv => ?_
  unfold wellFormed at hw
  simp only [Bool.and_eq_true] at hw
  cases idx <;> refine decode_l (n := 0x000) rfl (by decide) (by simp_all) ?_ <;>
    change Accepts (Parse.rules (form ..) ..) _ _ _ <;>
  simp (disch := decide) [-Nat.reduceAdd, -BitVec.getLsbD_eq_getElem, hw] <;> simp_all

theorem vldRaw (h : Hdr) (r : RunOps) (fmt : Fmt) (mk : MNum) (z : Bool) (idx : IdxMode) :
    Statement (.vldRaw h r fmt mk z idx) := by
  refine of_encode rfl fun hw vup hv => ?_
  unfold wellFormed at hw
  simp only [Bool.and_eq_true] at hw
  cases idx <;> refine decode_l (n := 0x001) rfl (by decide) (by simp_all) ?_ <;>
    change Accepts (Parse.rules (form ..) ..) _ _ _ <;>
  simp (disch := decide) [-Nat.reduceAdd, -BitVec.getLsbD_eq_getElem, hw] <;> simp_all

theorem vldb (h : Hdr) (r : RunOps) (fmt : Fmt) (mk : MNum) (z : Bool) (idx : IdxMode) (shape : Shape) :
    Statement (.vldb h r fmt mk z idx shape) := by
  refine of_encode rfl fun hw vup hv => ?_
  unfold wellFormed at hw
  simp only [Bool.and_eq_true] at hw
  cases idx <;> cases shape <;> refine decode_l (n := 0x002) rfl (by decide) (by simp_all) ?_ <;>
    change Accepts (Parse.rules (form ..) ..) _ _ _ <;>
  simp (disch := decide) [-Nat.reduceAdd, -BitVec.getLsbD_eq_getElem, hw] <;> simp_all

theorem pref (h : Hdr) (r : RunOps) (x : Extent) : Statement (.pref h r x) := by
  refine of_encode rfl fun hw vup hv => ?_
  unfold wellFormed at hw
  simp only [Bool.and_eq_true] at hw
  cases x <;> refine decode_l (n := 0x003) rfl (by decide) (by simp_all) ?_ <;>
    change Accepts (Parse.rules (form ..) ..) _ _ _ <;>
  simp (disch := decide) [-Nat.reduceAdd, -BitVec.getLsbD_eq_getElem, hw] <;> simp_all

theorem copy (h : Hdr) (o : CopyOps) : Statement (.copy h o) := by
  refine of_encode rfl fun hw vup hv => ?_
  unfold wellFormed at hw
  simp only [Bool.and_eq_true] at hw
  refine decode_l (n := 0x010) rfl (by decide) (by simp_all) ?_ <;>
    change Accepts (Parse.rules (form ..) ..) _ _ _ <;>
  simp (disch := decide) [-Nat.reduceAdd, -BitVec.getLsbD_eq_getElem, hw] <;> simp_all

theorem copyEnc (h : Hdr) (o : CopyOps) : Statement (.copyEnc h o) := by
  refine of_encode rfl fun hw vup hv => ?_
  unfold wellFormed at hw
  simp only [Bool.and_eq_true] at hw
  refine decode_l (n := 0x011) rfl (by decide) (by simp_all) ?_ <;>
    change Accepts (Parse.rules (form ..) ..) _ _ _ <;>
  simp (disch := decide) [-Nat.reduceAdd, -BitVec.getLsbD_eq_getElem, hw] <;> simp_all

theorem copyDec (h : Hdr) (o : CopyOps) : Statement (.copyDec h o) := by
  refine of_encode rfl fun hw vup hv => ?_
  unfold wellFormed at hw
  simp only [Bool.and_eq_true] at hw
  refine decode_l (n := 0x012) rfl (by decide) (by simp_all) ?_ <;>
    change Accepts (Parse.rules (form ..) ..) _ _ _ <;>
  simp (disch := decide) [-Nat.reduceAdd, -BitVec.getLsbD_eq_getElem, hw] <;> simp_all

theorem copyExport (h : Hdr) (o : CopyOps) : Statement (.copyExport h o) := by
  refine of_encode rfl fun hw vup hv => ?_
  unfold wellFormed at hw
  simp only [Bool.and_eq_true] at hw
  refine decode_l (n := 0x013) rfl (by decide) (by simp_all) ?_ <;>
    change Accepts (Parse.rules (form ..) ..) _ _ _ <;>
  simp (disch := decide) [-Nat.reduceAdd, -BitVec.getLsbD_eq_getElem, hw] <;> simp_all

theorem gather (h : Hdr) (o : CopyOps) : Statement (.gather h o) := by
  refine of_encode rfl fun hw vup hv => ?_
  unfold wellFormed at hw
  simp only [Bool.and_eq_true] at hw
  refine decode_l (n := 0x014) rfl (by decide) (by simp_all) ?_ <;>
    change Accepts (Parse.rules (form ..) ..) _ _ _ <;>
  simp (disch := decide) [-Nat.reduceAdd, -BitVec.getLsbD_eq_getElem, hw] <;> simp_all

theorem scatter (h : Hdr) (o : CopyOps) : Statement (.scatter h o) := by
  refine of_encode rfl fun hw vup hv => ?_
  unfold wellFormed at hw
  simp only [Bool.and_eq_true] at hw
  refine decode_l (n := 0x015) rfl (by decide) (by simp_all) ?_ <;>
    change Accepts (Parse.rules (form ..) ..) _ _ _ <;>
  simp (disch := decide) [-Nat.reduceAdd, -BitVec.getLsbD_eq_getElem, hw] <;> simp_all

theorem xchgAll (h : Hdr) (o : CopyOps) : Statement (.xchgAll h o) := by
  refine of_encode rfl fun hw vup hv => ?_
  unfold wellFormed at hw
  simp only [Bool.and_eq_true] at hw
  refine decode_l (n := 0x016) rfl (by decide) (by simp_all) ?_ <;>
    change Accepts (Parse.rules (form ..) ..) _ _ _ <;>
  simp (disch := decide) [-Nat.reduceAdd, -BitVec.getLsbD_eq_getElem, hw] <;> simp_all

theorem dld (h : Hdr) (dd : DNum) (sa : SReg) (imm : Lane) : Statement (.dld h dd sa imm) := by
  refine of_encode rfl fun hw vup hv => ?_
  unfold wellFormed at hw
  simp only [Bool.and_eq_true] at hw
  refine decode_l (n := 0x020) rfl (by decide) (by simp_all) ?_ <;> change Accepts (form ..) _ _ _ <;>
  simp (disch := decide) [-Nat.reduceAdd, -BitVec.getLsbD_eq_getElem, hw] <;> simp_all

theorem dst (h : Hdr) (ds : DNum) (sb : SReg) (imm : Lane) : Statement (.dst h ds sb imm) := by
  refine of_encode rfl fun hw vup hv => ?_
  unfold wellFormed at hw
  simp only [Bool.and_eq_true] at hw
  refine decode_l (n := 0x021) rfl (by decide) (by simp_all) ?_ <;> change Accepts (form ..) _ _ _ <;>
  simp (disch := decide) [-Nat.reduceAdd, -BitVec.getLsbD_eq_getElem, hw] <;> simp_all

theorem wpwait (h : Hdr) (sd : SReg) (ch : BitVec 2) (sa : SReg) (imm : Word) :
    Statement (.wpwait h sd ch sa imm) := by
  refine of_encode rfl fun hw vup hv => ?_
  unfold wellFormed at hw
  simp only [Bool.and_eq_true] at hw
  refine decode_l (n := 0x028) rfl (by decide) (by simp_all) ?_ <;> change Accepts (form ..) _ _ _ <;>
  simp (disch := decide) [-Nat.reduceAdd, -BitVec.getLsbD_eq_getElem, hw] <;> simp_all

theorem mma (h : Hdr) (t : TileOps) : Statement (.mma h t) := by
  refine of_encode rfl fun hw vup hv => ?_
  unfold wellFormed at hw
  simp only [Bool.and_eq_true] at hw
  rw [tile_ok] at hw
  simp only [Bool.and_eq_true] at hw
  refine decode_m (n := 0x000) rfl (by decide) hv ?_ <;> change Accepts (Parse.rules (form ..) ..) _ _ _ <;>
  simp (disch := decide) [-Nat.reduceAdd, -BitVec.getLsbD_eq_getElem, hw] <;> simp_all

theorem mmaG (h : Hdr) (t : TileOps) (gc : GNum) (sa sb : SReg) : Statement (.mmaG h t gc sa sb) := by
  refine of_encode rfl fun hw vup hv => ?_
  unfold wellFormed at hw
  simp only [Bool.and_eq_true] at hw
  rw [tile_ok] at hw
  simp only [Bool.and_eq_true] at hw
  refine decode_m (n := 0x001) rfl (by decide) hv ?_ <;> change Accepts (Parse.rules (form ..) ..) _ _ _ <;>
  simp (disch := decide) [-Nat.reduceAdd, -BitVec.getLsbD_eq_getElem, hw] <;> simp_all

theorem msd (h : Hdr) (t : TileOps) : Statement (.msd h t) := by
  refine of_encode rfl fun hw vup hv => ?_
  unfold wellFormed at hw
  simp only [Bool.and_eq_true] at hw
  rw [tile_ok] at hw
  simp only [Bool.and_eq_true] at hw
  refine decode_m (n := 0x002) rfl (by decide) hv ?_ <;> change Accepts (Parse.rules (form ..) ..) _ _ _ <;>
  simp (disch := decide) [-Nat.reduceAdd, -BitVec.getLsbD_eq_getElem, hw] <;> simp_all

theorem macc (h : Hdr) (ti : BitVec 4) (vr : VNum) (cnt : BitVec 7) (p : BitVec 4) :
    Statement (.macc h ti vr cnt p) := by
  refine of_encode rfl fun hw vup hv => ?_
  unfold wellFormed at hw
  simp only [Bool.and_eq_true] at hw
  refine decode_m (n := 0x008) rfl (by decide) hv ?_ <;> change Accepts (Parse.rules (form ..) ..) _ _ _ <;>
  simp (disch := decide) [-Nat.reduceAdd, -BitVec.getLsbD_eq_getElem, hw] <;> simp_all

theorem macw (h : Hdr) (ti : BitVec 4) (vr : VNum) (cnt : BitVec 7) (p : BitVec 4) (cl : Bool) :
    Statement (.macw h ti vr cnt p cl) := by
  refine of_encode rfl fun hw vup hv => ?_
  unfold wellFormed at hw
  simp only [Bool.and_eq_true] at hw
  refine decode_m (n := 0x009) rfl (by decide) hv ?_ <;> change Accepts (Parse.rules (form ..) ..) _ _ _ <;>
  simp (disch := decide) [-Nat.reduceAdd, -BitVec.getLsbD_eq_getElem, hw] <;> simp_all

theorem mzeroOpen (h : Hdr) (cnt : BitVec 7) : Statement (.mzeroOpen h cnt) := by
  refine of_encode rfl fun hw vup hv => ?_
  unfold wellFormed at hw
  simp only [Bool.and_eq_true] at hw
  refine decode_m (n := 0x00A) rfl (by decide) hv ?_ <;> change Accepts (ite ..) _ _ _ <;>
  simp (disch := decide) [-Nat.reduceAdd, -BitVec.getLsbD_eq_getElem, hw, treeForm, amoForm, ringForm] <;> simp_all

theorem mzero (h : Hdr) (ti : BitVec 4) (cl : Bool) : Statement (.mzero h ti cl) := by
  refine of_encode rfl fun hw vup hv => ?_
  unfold wellFormed at hw
  simp only [Bool.and_eq_true] at hw
  refine decode_m (n := 0x00A) rfl (by decide) hv ?_ <;> change Accepts (ite ..) _ _ _ <;>
  simp (disch := decide) [-Nat.reduceAdd, -BitVec.getLsbD_eq_getElem, hw, treeForm, amoForm, ringForm] <;> simp_all

theorem mmode (h : Hdr) (rnd : Rnd) (zlog : Bool) (sa : SReg) : Statement (.mmode h rnd zlog sa) := by
  refine of_encode rfl fun hw vup hv => ?_
  unfold wellFormed at hw
  simp only [Bool.and_eq_true] at hw
  cases zlog <;> refine decode_m (n := 0x010) rfl (by decide) hv ?_ <;>
    change Accepts (Parse.rules (form ..) ..) _ _ _ <;>
  simp (disch := decide) [-Nat.reduceAdd, -BitVec.getLsbD_eq_getElem, hw] <;> simp_all

theorem mlagset (h : Hdr) (n : BitVec 2) : Statement (.mlagset h n) := by
  refine of_encode rfl fun hw vup hv => ?_
  unfold wellFormed at hw
  simp only [Bool.and_eq_true] at hw
  refine decode_m (n := 0x011) rfl (by decide) hv ?_ <;> change Accepts (Parse.rules (form ..) ..) _ _ _ <;>
  simp (disch := decide) [-Nat.reduceAdd, -BitVec.getLsbD_eq_getElem, hw] <;> simp_all

theorem mmerge (h : Hdr) (ti : BitVec 4) (kk np : BitVec 4) (tag : BitVec 8) (topk dao cl : Bool) :
    Statement (.mmerge h ti kk np tag topk dao cl) := by
  refine of_encode rfl fun hw vup hv => ?_
  unfold wellFormed at hw
  simp only [Bool.and_eq_true] at hw
  refine decode_m (n := 0x012) rfl (by decide) hv ?_ <;> change Accepts (Parse.rules (form ..) ..) _ _ _ <;>
  simp (disch := decide) [-Nat.reduceAdd, -BitVec.getLsbD_eq_getElem, hw] <;> simp_all

theorem descStep (h : Hdr) (o : DescOps) : Statement (.descStep h o) := by
  refine of_encode rfl fun hw vup hv => ?_
  unfold wellFormed at hw
  simp only [Bool.and_eq_true] at hw
  refine decode_m (n := 0x018) rfl (by decide) hv ?_ <;> change Accepts (Parse.rules (form ..) ..) _ _ _ <;>
  simp (disch := decide) [-Nat.reduceAdd, -BitVec.getLsbD_eq_getElem, hw] <;> simp_all

theorem descWalk (h : Hdr) (o : DescOps) : Statement (.descWalk h o) := by
  refine of_encode rfl fun hw vup hv => ?_
  unfold wellFormed at hw
  simp only [Bool.and_eq_true] at hw
  refine decode_m (n := 0x019) rfl (by decide) hv ?_ <;> change Accepts (Parse.rules (form ..) ..) _ _ _ <;>
  simp (disch := decide) [-Nat.reduceAdd, -BitVec.getLsbD_eq_getElem, hw] <;> simp_all

theorem descPath (h : Hdr) (vr : VNum) : Statement (.descPath h vr) := by
  refine of_encode rfl fun hw vup hv => ?_
  unfold wellFormed at hw
  simp only [Bool.and_eq_true] at hw
  refine decode_m (n := 0x01A) rfl (by decide) hv ?_ <;> change Accepts (Parse.rules (form ..) ..) _ _ _ <;>
  simp (disch := decide) [-Nat.reduceAdd, -BitVec.getLsbD_eq_getElem, hw] <;> simp_all

theorem descPathLoad (h : Hdr) (vr : VNum) : Statement (.descPathLoad h vr) := by
  refine of_encode rfl fun hw vup hv => ?_
  unfold wellFormed at hw
  simp only [Bool.and_eq_true] at hw
  refine decode_m (n := 0x01A) rfl (by decide) hv ?_ <;> change Accepts (Parse.rules (form ..) ..) _ _ _ <;>
  simp (disch := decide) [-Nat.reduceAdd, -BitVec.getLsbD_eq_getElem, hw] <;> simp_all

theorem descGroup (h : Hdr) (gc : GNum) (sa sb : SReg) (vr : VNum) (keys spill bias : Bool) (g1 cap : BitVec 16) :
    Statement (.descGroup h gc sa sb vr keys spill bias g1 cap) := by
  refine of_encode rfl fun hw vup hv => ?_
  unfold wellFormed at hw
  simp only [Bool.and_eq_true] at hw
  cases keys <;> cases spill <;> cases bias <;> refine decode_m (n := 0x01B) rfl (by decide) hv ?_ <;>
    change Accepts (Parse.rules (form ..) ..) _ _ _ <;>
  simp (disch := decide) [-Nat.reduceAdd, -BitVec.getLsbD_eq_getElem, hw] <;> simp_all

theorem vadd (h : Hdr) (o : VOps) (b : VSrc) (rnd : Rnd) : Statement (.vadd h o b rnd) := by
  refine of_encode rfl fun hw vup hv => ?_
  unfold wellFormed at hw
  simp only [Bool.and_eq_true] at hw
  cases b <;> refine decode_v (n := 0x000) rfl (by decide) ?_ <;> change Accepts (Parse.rules (form ..) ..) _ _ _ <;>
  simp (disch := decide) [-Nat.reduceAdd, -BitVec.getLsbD_eq_getElem, hw] <;> simp_all

theorem vsub (h : Hdr) (o : VOps) (b : VSrc) (rnd : Rnd) : Statement (.vsub h o b rnd) := by
  refine of_encode rfl fun hw vup hv => ?_
  unfold wellFormed at hw
  simp only [Bool.and_eq_true] at hw
  cases b <;> refine decode_v (n := 0x001) rfl (by decide) ?_ <;> change Accepts (Parse.rules (form ..) ..) _ _ _ <;>
  simp (disch := decide) [-Nat.reduceAdd, -BitVec.getLsbD_eq_getElem, hw] <;> simp_all

theorem vmul (h : Hdr) (o : VOps) (b : VSrc) (rnd : Rnd) : Statement (.vmul h o b rnd) := by
  refine of_encode rfl fun hw vup hv => ?_
  unfold wellFormed at hw
  simp only [Bool.and_eq_true] at hw
  cases b <;> refine decode_v (n := 0x002) rfl (by decide) ?_ <;> change Accepts (Parse.rules (form ..) ..) _ _ _ <;>
  simp (disch := decide) [-Nat.reduceAdd, -BitVec.getLsbD_eq_getElem, hw] <;> simp_all

theorem vfma (h : Hdr) (o : VOps) (b : VSrc) (vc : VNum) (rnd : Rnd) : Statement (.vfma h o b vc rnd) := by
  refine of_encode rfl fun hw vup hv => ?_
  unfold wellFormed at hw
  simp only [Bool.and_eq_true] at hw
  cases b <;> refine decode_v (n := 0x003) rfl (by decide) ?_ <;> change Accepts (Parse.rules (form ..) ..) _ _ _ <;>
  simp (disch := decide) [-Nat.reduceAdd, -BitVec.getLsbD_eq_getElem, hw] <;> simp_all

theorem vfms (h : Hdr) (o : VOps) (b : VSrc) (vc : VNum) (rnd : Rnd) : Statement (.vfms h o b vc rnd) := by
  refine of_encode rfl fun hw vup hv => ?_
  unfold wellFormed at hw
  simp only [Bool.and_eq_true] at hw
  cases b <;> refine decode_v (n := 0x004) rfl (by decide) ?_ <;> change Accepts (Parse.rules (form ..) ..) _ _ _ <;>
  simp (disch := decide) [-Nat.reduceAdd, -BitVec.getLsbD_eq_getElem, hw] <;> simp_all

theorem vmin (h : Hdr) (o : VOps) (b : VSrc) : Statement (.vmin h o b) := by
  refine of_encode rfl fun hw vup hv => ?_
  unfold wellFormed at hw
  simp only [Bool.and_eq_true] at hw
  cases b <;> refine decode_v (n := 0x005) rfl (by decide) ?_ <;> change Accepts (Parse.rules (form ..) ..) _ _ _ <;>
  simp (disch := decide) [-Nat.reduceAdd, -BitVec.getLsbD_eq_getElem, hw] <;> simp_all

theorem vmax (h : Hdr) (o : VOps) (b : VSrc) : Statement (.vmax h o b) := by
  refine of_encode rfl fun hw vup hv => ?_
  unfold wellFormed at hw
  simp only [Bool.and_eq_true] at hw
  cases b <;> refine decode_v (n := 0x006) rfl (by decide) ?_ <;> change Accepts (Parse.rules (form ..) ..) _ _ _ <;>
  simp (disch := decide) [-Nat.reduceAdd, -BitVec.getLsbD_eq_getElem, hw] <;> simp_all

theorem vabs (h : Hdr) (o : VOps) : Statement (.vabs h o) := by
  refine of_encode rfl fun hw vup hv => ?_
  unfold wellFormed at hw
  simp only [Bool.and_eq_true] at hw
  refine decode_v (n := 0x007) rfl (by decide) ?_ <;> change Accepts (Parse.rules (form ..) ..) _ _ _ <;>
  simp (disch := decide) [-Nat.reduceAdd, -BitVec.getLsbD_eq_getElem, hw] <;> simp_all

theorem vneg (h : Hdr) (o : VOps) : Statement (.vneg h o) := by
  refine of_encode rfl fun hw vup hv => ?_
  unfold wellFormed at hw
  simp only [Bool.and_eq_true] at hw
  refine decode_v (n := 0x008) rfl (by decide) ?_ <;> change Accepts (Parse.rules (form ..) ..) _ _ _ <;>
  simp (disch := decide) [-Nat.reduceAdd, -BitVec.getLsbD_eq_getElem, hw] <;> simp_all

theorem vrcp (h : Hdr) (o : VOps) (rnd : Rnd) : Statement (.vrcp h o rnd) := by
  refine of_encode rfl fun hw vup hv => ?_
  unfold wellFormed at hw
  simp only [Bool.and_eq_true] at hw
  refine decode_v (n := 0x009) rfl (by decide) ?_ <;> change Accepts (Parse.rules (form ..) ..) _ _ _ <;>
  simp (disch := decide) [-Nat.reduceAdd, -BitVec.getLsbD_eq_getElem, hw] <;> simp_all

theorem vrsq (h : Hdr) (o : VOps) (rnd : Rnd) : Statement (.vrsq h o rnd) := by
  refine of_encode rfl fun hw vup hv => ?_
  unfold wellFormed at hw
  simp only [Bool.and_eq_true] at hw
  refine decode_v (n := 0x00A) rfl (by decide) ?_ <;> change Accepts (Parse.rules (form ..) ..) _ _ _ <;>
  simp (disch := decide) [-Nat.reduceAdd, -BitVec.getLsbD_eq_getElem, hw] <;> simp_all

theorem vsqrt (h : Hdr) (o : VOps) (rnd : Rnd) : Statement (.vsqrt h o rnd) := by
  refine of_encode rfl fun hw vup hv => ?_
  unfold wellFormed at hw
  simp only [Bool.and_eq_true] at hw
  refine decode_v (n := 0x00B) rfl (by decide) ?_ <;> change Accepts (Parse.rules (form ..) ..) _ _ _ <;>
  simp (disch := decide) [-Nat.reduceAdd, -BitVec.getLsbD_eq_getElem, hw] <;> simp_all

theorem vdiv (h : Hdr) (o : VOps) (b : VSrc) (rnd : Rnd) : Statement (.vdiv h o b rnd) := by
  refine of_encode rfl fun hw vup hv => ?_
  unfold wellFormed at hw
  simp only [Bool.and_eq_true] at hw
  cases b <;> refine decode_v (n := 0x00C) rfl (by decide) ?_ <;> change Accepts (Parse.rules (form ..) ..) _ _ _ <;>
  simp (disch := decide) [-Nat.reduceAdd, -BitVec.getLsbD_eq_getElem, hw] <;> simp_all

theorem vexp2 (h : Hdr) (o : VOps) (rnd : Rnd) : Statement (.vexp2 h o rnd) := by
  refine of_encode rfl fun hw vup hv => ?_
  unfold wellFormed at hw
  simp only [Bool.and_eq_true] at hw
  refine decode_v (n := 0x00D) rfl (by decide) ?_ <;> change Accepts (Parse.rules (form ..) ..) _ _ _ <;>
  simp (disch := decide) [-Nat.reduceAdd, -BitVec.getLsbD_eq_getElem, hw] <;> simp_all

theorem vlog2 (h : Hdr) (o : VOps) (rnd : Rnd) : Statement (.vlog2 h o rnd) := by
  refine of_encode rfl fun hw vup hv => ?_
  unfold wellFormed at hw
  simp only [Bool.and_eq_true] at hw
  refine decode_v (n := 0x00E) rfl (by decide) ?_ <;> change Accepts (Parse.rules (form ..) ..) _ _ _ <;>
  simp (disch := decide) [-Nat.reduceAdd, -BitVec.getLsbD_eq_getElem, hw] <;> simp_all

theorem vtanh (h : Hdr) (o : VOps) (rnd : Rnd) : Statement (.vtanh h o rnd) := by
  refine of_encode rfl fun hw vup hv => ?_
  unfold wellFormed at hw
  simp only [Bool.and_eq_true] at hw
  refine decode_v (n := 0x00F) rfl (by decide) ?_ <;> change Accepts (Parse.rules (form ..) ..) _ _ _ <;>
  simp (disch := decide) [-Nat.reduceAdd, -BitVec.getLsbD_eq_getElem, hw] <;> simp_all

theorem vsigm (h : Hdr) (o : VOps) (rnd : Rnd) : Statement (.vsigm h o rnd) := by
  refine of_encode rfl fun hw vup hv => ?_
  unfold wellFormed at hw
  simp only [Bool.and_eq_true] at hw
  refine decode_v (n := 0x010) rfl (by decide) ?_ <;> change Accepts (Parse.rules (form ..) ..) _ _ _ <;>
  simp (disch := decide) [-Nat.reduceAdd, -BitVec.getLsbD_eq_getElem, hw] <;> simp_all

theorem vcmp (h : Hdr) (md : MNum) (va : VNum) (b : VSrc) (mk : MNum) (z : Bool) (cc : CC) :
    Statement (.vcmp h md va b mk z cc) := by
  refine of_encode rfl fun hw vup hv => ?_
  unfold wellFormed at hw
  simp only [Bool.and_eq_true] at hw
  cases b <;> refine decode_v (n := 0x011) rfl (by decide) ?_ <;> change Accepts (Parse.rules (form ..) ..) _ _ _ <;>
  simp (disch := decide) [-Nat.reduceAdd, -BitVec.getLsbD_eq_getElem, hw] <;> simp_all

theorem vsel (h : Hdr) (vd va : VNum) (b : VSrc) (mk : MNum) : Statement (.vsel h vd va b mk) := by
  refine of_encode rfl fun hw vup hv => ?_
  unfold wellFormed at hw
  simp only [Bool.and_eq_true] at hw
  cases b <;> refine decode_v (n := 0x012) rfl (by decide) ?_ <;> change Accepts (Parse.rules (form ..) ..) _ _ _ <;>
  simp (disch := decide) [-Nat.reduceAdd, -BitVec.getLsbD_eq_getElem, hw] <;> simp_all

theorem viadd (h : Hdr) (o : VOps) (b : VSrc) : Statement (.viadd h o b) := by
  refine of_encode rfl fun hw vup hv => ?_
  unfold wellFormed at hw
  simp only [Bool.and_eq_true] at hw
  cases b <;> refine decode_v (n := 0x020) rfl (by decide) ?_ <;> change Accepts (Parse.rules (form ..) ..) _ _ _ <;>
  simp (disch := decide) [-Nat.reduceAdd, -BitVec.getLsbD_eq_getElem, hw] <;> simp_all

theorem visub (h : Hdr) (o : VOps) (b : VSrc) : Statement (.visub h o b) := by
  refine of_encode rfl fun hw vup hv => ?_
  unfold wellFormed at hw
  simp only [Bool.and_eq_true] at hw
  cases b <;> refine decode_v (n := 0x021) rfl (by decide) ?_ <;> change Accepts (Parse.rules (form ..) ..) _ _ _ <;>
  simp (disch := decide) [-Nat.reduceAdd, -BitVec.getLsbD_eq_getElem, hw] <;> simp_all

theorem vimul (h : Hdr) (o : VOps) (b : VSrc) : Statement (.vimul h o b) := by
  refine of_encode rfl fun hw vup hv => ?_
  unfold wellFormed at hw
  simp only [Bool.and_eq_true] at hw
  cases b <;> refine decode_v (n := 0x022) rfl (by decide) ?_ <;> change Accepts (Parse.rules (form ..) ..) _ _ _ <;>
  simp (disch := decide) [-Nat.reduceAdd, -BitVec.getLsbD_eq_getElem, hw] <;> simp_all

theorem vimad (h : Hdr) (o : VOps) (b : VSrc) (vc : VNum) : Statement (.vimad h o b vc) := by
  refine of_encode rfl fun hw vup hv => ?_
  unfold wellFormed at hw
  simp only [Bool.and_eq_true] at hw
  cases b <;> refine decode_v (n := 0x023) rfl (by decide) ?_ <;> change Accepts (Parse.rules (form ..) ..) _ _ _ <;>
  simp (disch := decide) [-Nat.reduceAdd, -BitVec.getLsbD_eq_getElem, hw] <;> simp_all

theorem vand (h : Hdr) (o : VOps) (b : VSrc) : Statement (.vand h o b) := by
  refine of_encode rfl fun hw vup hv => ?_
  unfold wellFormed at hw
  simp only [Bool.and_eq_true] at hw
  cases b <;> refine decode_v (n := 0x024) rfl (by decide) ?_ <;> change Accepts (Parse.rules (form ..) ..) _ _ _ <;>
  simp (disch := decide) [-Nat.reduceAdd, -BitVec.getLsbD_eq_getElem, hw] <;> simp_all

theorem vor (h : Hdr) (o : VOps) (b : VSrc) : Statement (.vor h o b) := by
  refine of_encode rfl fun hw vup hv => ?_
  unfold wellFormed at hw
  simp only [Bool.and_eq_true] at hw
  cases b <;> refine decode_v (n := 0x025) rfl (by decide) ?_ <;> change Accepts (Parse.rules (form ..) ..) _ _ _ <;>
  simp (disch := decide) [-Nat.reduceAdd, -BitVec.getLsbD_eq_getElem, hw] <;> simp_all

theorem vxor (h : Hdr) (o : VOps) (b : VSrc) : Statement (.vxor h o b) := by
  refine of_encode rfl fun hw vup hv => ?_
  unfold wellFormed at hw
  simp only [Bool.and_eq_true] at hw
  cases b <;> refine decode_v (n := 0x026) rfl (by decide) ?_ <;> change Accepts (Parse.rules (form ..) ..) _ _ _ <;>
  simp (disch := decide) [-Nat.reduceAdd, -BitVec.getLsbD_eq_getElem, hw] <;> simp_all

theorem vnot (h : Hdr) (o : VOps) : Statement (.vnot h o) := by
  refine of_encode rfl fun hw vup hv => ?_
  unfold wellFormed at hw
  simp only [Bool.and_eq_true] at hw
  refine decode_v (n := 0x027) rfl (by decide) ?_ <;> change Accepts (Parse.rules (form ..) ..) _ _ _ <;>
  simp (disch := decide) [-Nat.reduceAdd, -BitVec.getLsbD_eq_getElem, hw] <;> simp_all

theorem vshl (h : Hdr) (o : VOps) (b : VSrc) : Statement (.vshl h o b) := by
  refine of_encode rfl fun hw vup hv => ?_
  unfold wellFormed at hw
  simp only [Bool.and_eq_true] at hw
  cases b <;> refine decode_v (n := 0x028) rfl (by decide) ?_ <;> change Accepts (Parse.rules (form ..) ..) _ _ _ <;>
  simp (disch := decide) [-Nat.reduceAdd, -BitVec.getLsbD_eq_getElem, hw] <;> simp_all

theorem vshr (h : Hdr) (o : VOps) (b : VSrc) : Statement (.vshr h o b) := by
  refine of_encode rfl fun hw vup hv => ?_
  unfold wellFormed at hw
  simp only [Bool.and_eq_true] at hw
  cases b <;> refine decode_v (n := 0x029) rfl (by decide) ?_ <;> change Accepts (Parse.rules (form ..) ..) _ _ _ <;>
  simp (disch := decide) [-Nat.reduceAdd, -BitVec.getLsbD_eq_getElem, hw] <;> simp_all

theorem vsra (h : Hdr) (o : VOps) (b : VSrc) : Statement (.vsra h o b) := by
  refine of_encode rfl fun hw vup hv => ?_
  unfold wellFormed at hw
  simp only [Bool.and_eq_true] at hw
  cases b <;> refine decode_v (n := 0x02A) rfl (by decide) ?_ <;> change Accepts (Parse.rules (form ..) ..) _ _ _ <;>
  simp (disch := decide) [-Nat.reduceAdd, -BitVec.getLsbD_eq_getElem, hw] <;> simp_all

theorem vbfx (h : Hdr) (o : VOps) (f : VSrc) (sx : Bool) : Statement (.vbfx h o f sx) := by
  refine of_encode rfl fun hw vup hv => ?_
  unfold wellFormed at hw
  simp only [Bool.and_eq_true] at hw
  cases f <;> refine decode_v (n := 0x02B) rfl (by decide) ?_ <;> change Accepts (Parse.rules (form ..) ..) _ _ _ <;>
  simp (disch := decide) [-Nat.reduceAdd, -BitVec.getLsbD_eq_getElem, hw] <;> simp_all

theorem vbfi (h : Hdr) (o : VOps) (f : VSrc) (vc : VNum) : Statement (.vbfi h o f vc) := by
  refine of_encode rfl fun hw vup hv => ?_
  unfold wellFormed at hw
  simp only [Bool.and_eq_true] at hw
  cases f <;> refine decode_v (n := 0x02C) rfl (by decide) ?_ <;> change Accepts (Parse.rules (form ..) ..) _ _ _ <;>
  simp (disch := decide) [-Nat.reduceAdd, -BitVec.getLsbD_eq_getElem, hw] <;> simp_all

theorem vpopc (h : Hdr) (o : VOps) : Statement (.vpopc h o) := by
  refine of_encode rfl fun hw vup hv => ?_
  unfold wellFormed at hw
  simp only [Bool.and_eq_true] at hw
  refine decode_v (n := 0x02D) rfl (by decide) ?_ <;> change Accepts (Parse.rules (form ..) ..) _ _ _ <;>
  simp (disch := decide) [-Nat.reduceAdd, -BitVec.getLsbD_eq_getElem, hw] <;> simp_all

theorem vclz (h : Hdr) (o : VOps) : Statement (.vclz h o) := by
  refine of_encode rfl fun hw vup hv => ?_
  unfold wellFormed at hw
  simp only [Bool.and_eq_true] at hw
  refine decode_v (n := 0x02E) rfl (by decide) ?_ <;> change Accepts (Parse.rules (form ..) ..) _ _ _ <;>
  simp (disch := decide) [-Nat.reduceAdd, -BitVec.getLsbD_eq_getElem, hw] <;> simp_all

theorem vfshl (h : Hdr) (o : VOps) (vb : VNum) (n : VSrc) : Statement (.vfshl h o vb n) := by
  refine of_encode rfl fun hw vup hv => ?_
  unfold wellFormed at hw
  simp only [Bool.and_eq_true] at hw
  cases n <;> refine decode_v (n := 0x030) rfl (by decide) ?_ <;> change Accepts (Parse.rules (form ..) ..) _ _ _ <;>
  simp (disch := decide) [-Nat.reduceAdd, -BitVec.getLsbD_eq_getElem, hw] <;> simp_all

theorem vfshr (h : Hdr) (o : VOps) (vb : VNum) (n : VSrc) : Statement (.vfshr h o vb n) := by
  refine of_encode rfl fun hw vup hv => ?_
  unfold wellFormed at hw
  simp only [Bool.and_eq_true] at hw
  cases n <;> refine decode_v (n := 0x031) rfl (by decide) ?_ <;> change Accepts (Parse.rules (form ..) ..) _ _ _ <;>
  simp (disch := decide) [-Nat.reduceAdd, -BitVec.getLsbD_eq_getElem, hw] <;> simp_all

theorem vcvtI2f (h : Hdr) (o : VOps) (u : Bool) (rnd : Rnd) : Statement (.vcvtI2f h o u rnd) := by
  refine of_encode rfl fun hw vup hv => ?_
  unfold wellFormed at hw
  simp only [Bool.and_eq_true] at hw
  refine decode_v (n := 0x038) rfl (by decide) ?_ <;> change Accepts (Parse.rules (form ..) ..) _ _ _ <;>
  simp (disch := decide) [-Nat.reduceAdd, -BitVec.getLsbD_eq_getElem, hw] <;> simp_all

theorem vcvtF2i (h : Hdr) (o : VOps) (u : Bool) (rnd : Rnd) : Statement (.vcvtF2i h o u rnd) := by
  refine of_encode rfl fun hw vup hv => ?_
  unfold wellFormed at hw
  simp only [Bool.and_eq_true] at hw
  refine decode_v (n := 0x039) rfl (by decide) ?_ <;> change Accepts (Parse.rules (form ..) ..) _ _ _ <;>
  simp (disch := decide) [-Nat.reduceAdd, -BitVec.getLsbD_eq_getElem, hw] <;> simp_all

theorem vidot4 (h : Hdr) (o : VOps) (b : VSrc) (vc : VNum) (ua ub : Bool) : Statement (.vidot4 h o b vc ua ub) := by
  refine of_encode rfl fun hw vup hv => ?_
  unfold wellFormed at hw
  simp only [Bool.and_eq_true] at hw
  cases b <;> refine decode_v (n := 0x040) rfl (by decide) ?_ <;> change Accepts (Parse.rules (form ..) ..) _ _ _ <;>
  simp (disch := decide) [-Nat.reduceAdd, -BitVec.getLsbD_eq_getElem, hw] <;> simp_all

theorem vidot8 (h : Hdr) (o : VOps) (b : VSrc) (vc : VNum) (ua ub : Bool) : Statement (.vidot8 h o b vc ua ub) := by
  refine of_encode rfl fun hw vup hv => ?_
  unfold wellFormed at hw
  simp only [Bool.and_eq_true] at hw
  cases b <;> refine decode_v (n := 0x041) rfl (by decide) ?_ <;> change Accepts (Parse.rules (form ..) ..) _ _ _ <;>
  simp (disch := decide) [-Nat.reduceAdd, -BitVec.getLsbD_eq_getElem, hw] <;> simp_all

theorem vredr (h : Hdr) (vd va : VNum) (mk : MNum) (op : RedOp) (rnd : Rnd) :
    Statement (.vredr h vd va mk op rnd) := by
  refine of_encode rfl fun hw vup hv => ?_
  unfold wellFormed at hw
  simp only [Bool.and_eq_true] at hw
  refine decode_v (n := 0x048) rfl (by decide) ?_ <;> change Accepts (Parse.rules (form ..) ..) _ _ _ <;>
  simp (disch := decide) [-Nat.reduceAdd, -BitVec.getLsbD_eq_getElem, hw] <;> simp_all

theorem vredc (h : Hdr) (vd va : VNum) (mk : MNum) (op : RedOp) (rnd : Rnd) :
    Statement (.vredc h vd va mk op rnd) := by
  refine of_encode rfl fun hw vup hv => ?_
  unfold wellFormed at hw
  simp only [Bool.and_eq_true] at hw
  refine decode_v (n := 0x049) rfl (by decide) ?_ <;> change Accepts (Parse.rules (form ..) ..) _ _ _ <;>
  simp (disch := decide) [-Nat.reduceAdd, -BitVec.getLsbD_eq_getElem, hw] <;> simp_all

theorem vrotr (h : Hdr) (o : VOps) (ss : SReg) (imm : Lane) : Statement (.vrotr h o ss imm) := by
  refine of_encode rfl fun hw vup hv => ?_
  unfold wellFormed at hw
  simp only [Bool.and_eq_true] at hw
  refine decode_v (n := 0x04A) rfl (by decide) ?_ <;> change Accepts (Parse.rules (form ..) ..) _ _ _ <;>
  simp (disch := decide) [-Nat.reduceAdd, -BitVec.getLsbD_eq_getElem, hw] <;> simp_all

theorem vrotc (h : Hdr) (o : VOps) (ss : SReg) (imm : Lane) : Statement (.vrotc h o ss imm) := by
  refine of_encode rfl fun hw vup hv => ?_
  unfold wellFormed at hw
  simp only [Bool.and_eq_true] at hw
  refine decode_v (n := 0x04B) rfl (by decide) ?_ <;> change Accepts (Parse.rules (form ..) ..) _ _ _ <;>
  simp (disch := decide) [-Nat.reduceAdd, -BitVec.getLsbD_eq_getElem, hw] <;> simp_all

theorem vbcr (h : Hdr) (o : VOps) (ss : SReg) (imm : Lane) : Statement (.vbcr h o ss imm) := by
  refine of_encode rfl fun hw vup hv => ?_
  unfold wellFormed at hw
  simp only [Bool.and_eq_true] at hw
  refine decode_v (n := 0x04C) rfl (by decide) ?_ <;> change Accepts (Parse.rules (form ..) ..) _ _ _ <;>
  simp (disch := decide) [-Nat.reduceAdd, -BitVec.getLsbD_eq_getElem, hw] <;> simp_all

theorem vbcc (h : Hdr) (o : VOps) (ss : SReg) (imm : Lane) : Statement (.vbcc h o ss imm) := by
  refine of_encode rfl fun hw vup hv => ?_
  unfold wellFormed at hw
  simp only [Bool.and_eq_true] at hw
  refine decode_v (n := 0x04D) rfl (by decide) ?_ <;> change Accepts (Parse.rules (form ..) ..) _ _ _ <;>
  simp (disch := decide) [-Nat.reduceAdd, -BitVec.getLsbD_eq_getElem, hw] <;> simp_all

theorem vscanr (h : Hdr) (vd va : VNum) (mk : MNum) (op : RedOp) (rnd : Rnd) (ex : Bool) :
    Statement (.vscanr h vd va mk op rnd ex) := by
  refine of_encode rfl fun hw vup hv => ?_
  unfold wellFormed at hw
  simp only [Bool.and_eq_true] at hw
  refine decode_v (n := 0x04E) rfl (by decide) ?_ <;> change Accepts (Parse.rules (form ..) ..) _ _ _ <;>
  simp (disch := decide) [-Nat.reduceAdd, -BitVec.getLsbD_eq_getElem, hw] <;> simp_all

theorem viota (h : Hdr) (vd : VNum) (pat : Pattern) (imm : Lane) (mk : MNum) (z : Bool) :
    Statement (.viota h vd pat imm mk z) := by
  refine of_encode rfl fun hw vup hv => ?_
  unfold wellFormed at hw
  simp only [Bool.and_eq_true] at hw
  cases pat <;> refine decode_v (n := 0x058) rfl (by decide) ?_ <;>
    change Accepts (Parse.rules (form ..) ..) _ _ _ <;>
  simp (disch := decide) [-Nat.reduceAdd, -BitVec.getLsbD_eq_getElem, hw] <;> simp_all

theorem vmov (h : Hdr) (vd : VNum) (b : VSrc) (mk : MNum) (z : Bool) : Statement (.vmov h vd b mk z) := by
  refine of_encode rfl fun hw vup hv => ?_
  unfold wellFormed at hw
  simp only [Bool.and_eq_true] at hw
  cases b <;> refine decode_v (n := 0x059) rfl (by decide) ?_ <;> change Accepts (Parse.rules (form ..) ..) _ _ _ <;>
  simp (disch := decide) [-Nat.reduceAdd, -BitVec.getLsbD_eq_getElem, hw] <;> simp_all

theorem vmovs (h : Hdr) (vd : VNum) (ss : SReg) (lane : BitVec 14) : Statement (.vmovs h vd ss lane) := by
  refine of_encode rfl fun hw vup hv => ?_
  unfold wellFormed at hw
  simp only [Bool.and_eq_true] at hw
  refine decode_v (n := 0x05A) rfl (by decide) ?_ <;> change Accepts (Parse.rules (form ..) ..) _ _ _ <;>
  simp (disch := decide) [-Nat.reduceAdd, -BitVec.getLsbD_eq_getElem, hw] <;> simp_all

theorem vext (h : Hdr) (ss : SReg) (va : VNum) (lane : BitVec 14) (sx : Bool) :
    Statement (.vext h ss va lane sx) := by
  refine of_encode rfl fun hw vup hv => ?_
  unfold wellFormed at hw
  simp only [Bool.and_eq_true] at hw
  refine decode_v (n := 0x05B) rfl (by decide) ?_ <;> change Accepts (Parse.rules (form ..) ..) _ _ _ <;>
  simp (disch := decide) [-Nat.reduceAdd, -BitVec.getLsbD_eq_getElem, hw] <;> simp_all

theorem vperm (h : Hdr) (o : VOps) (b : VSrc) : Statement (.vperm h o b) := by
  refine of_encode rfl fun hw vup hv => ?_
  unfold wellFormed at hw
  simp only [Bool.and_eq_true] at hw
  cases b <;> refine decode_v (n := 0x05C) rfl (by decide) ?_ <;> change Accepts (Parse.rules (form ..) ..) _ _ _ <;>
  simp (disch := decide) [-Nat.reduceAdd, -BitVec.getLsbD_eq_getElem, hw] <;> simp_all

theorem vsortc (h : Hdr) (vd va vc : VNum) (n : BitVec 14) (ss : SReg) (mk : MNum) :
    Statement (.vsortc h vd va vc n ss mk) := by
  refine of_encode rfl fun hw vup hv => ?_
  unfold wellFormed at hw
  simp only [Bool.and_eq_true] at hw
  refine decode_v (n := 0x05D) rfl (by decide) ?_ <;> change Accepts (Parse.rules (form ..) ..) _ _ _ <;>
  simp (disch := decide) [-Nat.reduceAdd, -BitVec.getLsbD_eq_getElem, hw] <;> simp_all

theorem vmand (h : Hdr) (md ma mb : MNum) : Statement (.vmand h md ma mb) := by
  refine of_encode rfl fun hw vup hv => ?_
  unfold wellFormed at hw
  simp only [Bool.and_eq_true] at hw
  refine decode_v (n := 0x060) rfl (by decide) ?_ <;> change Accepts (Parse.rules (form ..) ..) _ _ _ <;>
  simp (disch := decide) [-Nat.reduceAdd, -BitVec.getLsbD_eq_getElem, hw] <;> simp_all

theorem vmor (h : Hdr) (md ma mb : MNum) : Statement (.vmor h md ma mb) := by
  refine of_encode rfl fun hw vup hv => ?_
  unfold wellFormed at hw
  simp only [Bool.and_eq_true] at hw
  refine decode_v (n := 0x061) rfl (by decide) ?_ <;> change Accepts (Parse.rules (form ..) ..) _ _ _ <;>
  simp (disch := decide) [-Nat.reduceAdd, -BitVec.getLsbD_eq_getElem, hw] <;> simp_all

theorem vmxor (h : Hdr) (md ma mb : MNum) : Statement (.vmxor h md ma mb) := by
  refine of_encode rfl fun hw vup hv => ?_
  unfold wellFormed at hw
  simp only [Bool.and_eq_true] at hw
  refine decode_v (n := 0x062) rfl (by decide) ?_ <;> change Accepts (Parse.rules (form ..) ..) _ _ _ <;>
  simp (disch := decide) [-Nat.reduceAdd, -BitVec.getLsbD_eq_getElem, hw] <;> simp_all

theorem vmnot (h : Hdr) (md ma : MNum) : Statement (.vmnot h md ma) := by
  refine of_encode rfl fun hw vup hv => ?_
  unfold wellFormed at hw
  simp only [Bool.and_eq_true] at hw
  refine decode_v (n := 0x063) rfl (by decide) ?_ <;> change Accepts (Parse.rules (form ..) ..) _ _ _ <;>
  simp (disch := decide) [-Nat.reduceAdd, -BitVec.getLsbD_eq_getElem, hw] <;> simp_all

theorem vmpopc (h : Hdr) (ss : SReg) (ma : MNum) : Statement (.vmpopc h ss ma) := by
  refine of_encode rfl fun hw vup hv => ?_
  unfold wellFormed at hw
  simp only [Bool.and_eq_true] at hw
  refine decode_v (n := 0x064) rfl (by decide) ?_ <;> change Accepts (Parse.rules (form ..) ..) _ _ _ <;>
  simp (disch := decide) [-Nat.reduceAdd, -BitVec.getLsbD_eq_getElem, hw] <;> simp_all

theorem vmff (h : Hdr) (ss : SReg) (ma : MNum) : Statement (.vmff h ss ma) := by
  refine of_encode rfl fun hw vup hv => ?_
  unfold wellFormed at hw
  simp only [Bool.and_eq_true] at hw
  refine decode_v (n := 0x065) rfl (by decide) ?_ <;> change Accepts (Parse.rules (form ..) ..) _ _ _ <;>
  simp (disch := decide) [-Nat.reduceAdd, -BitVec.getLsbD_eq_getElem, hw] <;> simp_all

theorem vst (h : Hdr) (r : RunOps) (fmt : Fmt) (cvt : Cvt) (mk : MNum) (idx : IdxMode) :
    Statement (.vst h r fmt cvt mk idx) := by
  refine of_encode rfl fun hw vup hv => ?_
  unfold wellFormed at hw
  simp only [Bool.and_eq_true] at hw
  cases idx <;> refine decode_w (n := 0x000) rfl (by decide) (by simp_all) ?_ <;>
    change Accepts (Parse.rules (form ..) ..) _ _ _ <;>
  simp (disch := decide) [-Nat.reduceAdd, -BitVec.getLsbD_eq_getElem, hw] <;> simp_all

theorem vstAmx (h : Hdr) (r : RunOps) (fmt : Fmt) (rnd : Rnd) (amx : BitVec 3) (idx : IdxMode) :
    Statement (.vstAmx h r fmt rnd amx idx) := by
  refine of_encode rfl fun hw vup hv => ?_
  unfold wellFormed at hw
  simp only [Bool.and_eq_true] at hw
  cases idx <;> refine decode_w (n := 0x001) rfl (by decide) (by simp_all) ?_ <;> change Accepts (ite ..) _ _ _ <;>
  simp (disch := decide) [-Nat.reduceAdd, -BitVec.getLsbD_eq_getElem, hw, treeForm, amoForm, ringForm] <;> simp_all

theorem vstAmxDrain (h : Hdr) (base : SReg) (off : BitVec 32) (amx : BitVec 3) :
    Statement (.vstAmxDrain h base off amx) := by
  refine of_encode rfl fun hw vup hv => ?_
  unfold wellFormed at hw
  simp only [Bool.and_eq_true] at hw
  refine decode_w (n := 0x001) rfl (by decide) (by simp_all) ?_ <;> change Accepts (ite ..) _ _ _ <;>
  simp (disch := decide) [-Nat.reduceAdd, -BitVec.getLsbD_eq_getElem, hw, treeForm, amoForm, ringForm] <;> simp_all

theorem vsct (h : Hdr) (va vb : VNum) (ss : SReg) (mk : MNum) (imm : Lane) (fmt : Fmt) (cvt : Cvt) :
    Statement (.vsct h va vb ss mk imm fmt cvt) := by
  refine of_encode rfl fun hw vup hv => ?_
  unfold wellFormed at hw
  simp only [Bool.and_eq_true] at hw
  refine decode_w (n := 0x002) rfl (by decide) (by simp_all) ?_ <;>
    change Accepts (Parse.rules (form ..) ..) _ _ _ <;>
  simp (disch := decide) [-Nat.reduceAdd, -BitVec.getLsbD_eq_getElem, hw] <;> simp_all

theorem epi (h : Hdr) (sa sb : SReg) (vr : VNum) (cnt : BitVec 7) (fmt : Fmt) (cvt : Cvt) (act : Activation) (cols : BitVec 7) (imm : Lane) (bias scale : Bool) :
    Statement (.epi h sa sb vr cnt fmt cvt act cols imm bias scale) := by
  refine of_encode rfl fun hw vup hv => ?_
  unfold wellFormed at hw
  simp only [Bool.and_eq_true] at hw
  cases act <;> cases bias <;> cases scale <;> refine decode_w (n := 0x008) rfl (by decide) (by simp_all) ?_ <;>
    change Accepts (Parse.rules (form ..) ..) _ _ _ <;>
  simp (disch := decide) [-Nat.reduceAdd, -BitVec.getLsbD_eq_getElem, hw] <;> simp_all

theorem stf (h : Hdr) (r : RunOps) (fmt : Fmt) (cvt : Cvt) (mk : MNum) : Statement (.stf h r fmt cvt mk) := by
  refine of_encode rfl fun hw vup hv => ?_
  unfold wellFormed at hw
  simp only [Bool.and_eq_true] at hw
  refine decode_w (n := 0x010) rfl (by decide) (by simp_all) ?_ <;>
    change Accepts (Parse.rules (form ..) ..) _ _ _ <;>
  simp (disch := decide) [-Nat.reduceAdd, -BitVec.getLsbD_eq_getElem, hw] <;> simp_all

theorem fence (e : Eng) (h : Hdr) (scope : Scope) : Statement (.fence e h scope) := by
  refine of_encode rfl fun hw vup hv => ?_
  unfold wellFormed at hw
  simp only [Bool.and_eq_true] at hw
  refine decode_common (n := 0x1C0) rfl (by decide) (by simp_all) hv ?_ <;>
    change Accepts (Parse.rules (form ..) ..) _ _ _ <;>
  simp (disch := decide) [-Nat.reduceAdd, -BitVec.getLsbD_eq_getElem, hw] <;> simp_all

theorem mark (e : Eng) (h : Hdr) : Statement (.mark e h) := by
  refine of_encode rfl fun hw vup hv => ?_
  unfold wellFormed at hw
  simp only [Bool.and_eq_true] at hw
  refine decode_common (n := 0x1C1) rfl (by decide) (by simp_all) hv ?_ <;> change Accepts (form ..) _ _ _ <;>
  simp (disch := decide) [-Nat.reduceAdd, -BitVec.getLsbD_eq_getElem, hw] <;> simp_all

theorem barInit (e : Eng) (h : Hdr) (sa sb sc : SReg) (imm : Word) (scope : Scope) (tag : BitVec 3) (wire : Bool) :
    Statement (.barInit e h sa sb sc imm scope tag wire) := by
  refine of_encode rfl fun hw vup hv => ?_
  unfold wellFormed at hw
  simp only [Bool.and_eq_true] at hw
  refine decode_common (n := 0x1C8) rfl (by decide) (by simp_all) hv ?_ <;> change Accepts (ite ..) _ _ _ <;>
  simp (disch := decide) [-Nat.reduceAdd, -BitVec.getLsbD_eq_getElem, hw, treeForm, amoForm, ringForm] <;> simp_all

theorem barInitInv (e : Eng) (h : Hdr) (sa : SReg) (imm : Word) : Statement (.barInitInv e h sa imm) := by
  refine of_encode rfl fun hw vup hv => ?_
  unfold wellFormed at hw
  simp only [Bool.and_eq_true] at hw
  refine decode_common (n := 0x1C8) rfl (by decide) (by simp_all) hv ?_ <;> change Accepts (ite ..) _ _ _ <;>
  simp (disch := decide) [-Nat.reduceAdd, -BitVec.getLsbD_eq_getElem, hw, treeForm, amoForm, ringForm] <;> simp_all

theorem barArv (e : Eng) (h : Hdr) (sd sa : SReg) (imm : Word) : Statement (.barArv e h sd sa imm) := by
  refine of_encode rfl fun hw vup hv => ?_
  unfold wellFormed at hw
  simp only [Bool.and_eq_true] at hw
  refine decode_common (n := 0x1C9) rfl (by decide) (by simp_all) hv ?_ <;> change Accepts (form ..) _ _ _ <;>
  simp (disch := decide) [-Nat.reduceAdd, -BitVec.getLsbD_eq_getElem, hw] <;> simp_all

theorem barArvx (e : Eng) (h : Hdr) (sd sa sb : SReg) (imm : Word) : Statement (.barArvx e h sd sa sb imm) := by
  refine of_encode rfl fun hw vup hv => ?_
  unfold wellFormed at hw
  simp only [Bool.and_eq_true] at hw
  refine decode_common (n := 0x1CA) rfl (by decide) (by simp_all) hv ?_ <;> change Accepts (form ..) _ _ _ <;>
  simp (disch := decide) [-Nat.reduceAdd, -BitVec.getLsbD_eq_getElem, hw] <;> simp_all

theorem barWait (e : Eng) (h : Hdr) (pd : PReg) (sa sb : SReg) (imm : Word) :
    Statement (.barWait e h pd sa sb imm) := by
  refine of_encode rfl fun hw vup hv => ?_
  unfold wellFormed at hw
  simp only [Bool.and_eq_true] at hw
  refine decode_common (n := 0x1CB) rfl (by decide) (by simp_all) hv ?_ <;>
    change Accepts (Parse.rules (form ..) ..) _ _ _ <;>
  simp (disch := decide) [-Nat.reduceAdd, -BitVec.getLsbD_eq_getElem, hw] <;> simp_all

theorem barTest (e : Eng) (h : Hdr) (sd sa : SReg) (imm : Word) : Statement (.barTest e h sd sa imm) := by
  refine of_encode rfl fun hw vup hv => ?_
  unfold wellFormed at hw
  simp only [Bool.and_eq_true] at hw
  refine decode_common (n := 0x1CC) rfl (by decide) (by simp_all) hv ?_ <;> change Accepts (form ..) _ _ _ <;>
  simp (disch := decide) [-Nat.reduceAdd, -BitVec.getLsbD_eq_getElem, hw] <;> simp_all

theorem ringWf (e : Eng) (h : Hdr) (sd : SReg) (g : GNum) (n : BitVec 13) (far : Option SReg) :
    Statement (.ringWf e h sd g n far) := by
  refine of_encode rfl fun hw vup hv => ?_
  unfold wellFormed at hw
  simp only [Bool.and_eq_true] at hw
  cases far <;> refine decode_common (n := 0x1D0) rfl (by decide) (by simp_all) hv ?_ <;>
    change Accepts (Parse.rules (form ..) ..) _ _ _ <;>
  simp (disch := decide) [-Nat.reduceAdd, -BitVec.getLsbD_eq_getElem, hw] <;> simp_all

theorem ringWe (e : Eng) (h : Hdr) (sd : SReg) (g : GNum) (n : BitVec 13) (far : Option SReg) :
    Statement (.ringWe e h sd g n far) := by
  refine of_encode rfl fun hw vup hv => ?_
  unfold wellFormed at hw
  simp only [Bool.and_eq_true] at hw
  cases far <;> refine decode_common (n := 0x1D1) rfl (by decide) (by simp_all) hv ?_ <;>
    change Accepts (ite ..) _ _ _ <;>
  simp (disch := decide) [-Nat.reduceAdd, -BitVec.getLsbD_eq_getElem, hw, treeForm, amoForm, ringForm] <;> simp_all

theorem ringWeLoad (e : Eng) (h : Hdr) (sd : SReg) (g : GNum) (sb : SReg) : Statement (.ringWeLoad e h sd g sb) := by
  refine of_encode rfl fun hw vup hv => ?_
  unfold wellFormed at hw
  simp only [Bool.and_eq_true] at hw
  refine decode_common (n := 0x1D1) rfl (by decide) (by simp_all) hv ?_ <;> change Accepts (ite ..) _ _ _ <;>
  simp (disch := decide) [-Nat.reduceAdd, -BitVec.getLsbD_eq_getElem, hw, treeForm, amoForm, ringForm] <;> simp_all

theorem ringClm (e : Eng) (h : Hdr) (sd : SReg) (g : GNum) (n : BitVec 13) (far : Option SReg) :
    Statement (.ringClm e h sd g n far) := by
  refine of_encode rfl fun hw vup hv => ?_
  unfold wellFormed at hw
  simp only [Bool.and_eq_true] at hw
  cases far <;> refine decode_common (n := 0x1D2) rfl (by decide) (by simp_all) hv ?_ <;>
    change Accepts (Parse.rules (form ..) ..) _ _ _ <;>
  simp (disch := decide) [-Nat.reduceAdd, -BitVec.getLsbD_eq_getElem, hw] <;> simp_all

theorem ringPub (e : Eng) (h : Hdr) (sd : SReg) (g : GNum) (n : BitVec 13) (far : Option SReg) :
    Statement (.ringPub e h sd g n far) := by
  refine of_encode rfl fun hw vup hv => ?_
  unfold wellFormed at hw
  simp only [Bool.and_eq_true] at hw
  cases far <;> refine decode_common (n := 0x1D3) rfl (by decide) (by simp_all) hv ?_ <;>
    change Accepts (Parse.rules (form ..) ..) _ _ _ <;>
  simp (disch := decide) [-Nat.reduceAdd, -BitVec.getLsbD_eq_getElem, hw] <;> simp_all

theorem ringPop (e : Eng) (h : Hdr) (sd : SReg) (g : GNum) (n : BitVec 13) (far : Option SReg) :
    Statement (.ringPop e h sd g n far) := by
  refine of_encode rfl fun hw vup hv => ?_
  unfold wellFormed at hw
  simp only [Bool.and_eq_true] at hw
  cases far <;> refine decode_common (n := 0x1D4) rfl (by decide) (by simp_all) hv ?_ <;>
    change Accepts (Parse.rules (form ..) ..) _ _ _ <;>
  simp (disch := decide) [-Nat.reduceAdd, -BitVec.getLsbD_eq_getElem, hw] <;> simp_all

theorem qpop (e : Eng) (h : Hdr) (sd : SReg) (q : QNum) : Statement (.qpop e h sd q) := by
  refine of_encode rfl fun hw vup hv => ?_
  unfold wellFormed at hw
  simp only [Bool.and_eq_true] at hw
  refine decode_common (n := 0x1D8) rfl (by decide) (by simp_all) hv ?_ <;>
    change Accepts (Parse.rules (form ..) ..) _ _ _ <;>
  simp (disch := decide) [-Nat.reduceAdd, -BitVec.getLsbD_eq_getElem, hw] <;> simp_all

theorem qpopP (e : Eng) (h : Hdr) (pd : PReg) (q : QNum) : Statement (.qpopP e h pd q) := by
  refine of_encode rfl fun hw vup hv => ?_
  unfold wellFormed at hw
  simp only [Bool.and_eq_true] at hw
  refine decode_common (n := 0x1D9) rfl (by decide) (by simp_all) hv ?_ <;>
    change Accepts (Parse.rules (form ..) ..) _ _ _ <;>
  simp (disch := decide) [-Nat.reduceAdd, -BitVec.getLsbD_eq_getElem, hw] <;> simp_all

theorem trap (e : Eng) (h : Hdr) (code : BitVec 16) : Statement (.trap e h code) := by
  refine of_encode rfl fun hw vup hv => ?_
  unfold wellFormed at hw
  simp only [Bool.and_eq_true] at hw
  refine decode_common (n := 0x1F0) rfl (by decide) (by simp_all) hv ?_ <;>
    change Accepts (Parse.rules (form ..) ..) _ _ _ <;>
  simp (disch := decide) [-Nat.reduceAdd, -BitVec.getLsbD_eq_getElem, hw] <;> simp_all

theorem nop (h : Hdr) : Statement (.nop h) := by
  refine of_encode rfl fun hw vup hv => ?_
  unfold wellFormed at hw
  simp only [Bool.and_eq_true] at hw
  refine decode_c (n := 0x000) rfl (by simp_all) ?_ <;> change Accepts (form ..) _ _ _ <;>
  simp (disch := decide) [-Nat.reduceAdd, -BitVec.getLsbD_eq_getElem, hw] <;> simp_all

theorem br (h : Hdr) (t : Target) : Statement (.br h t) := by
  refine of_encode rfl fun hw vup hv => ?_
  unfold wellFormed at hw
  simp only [Bool.and_eq_true] at hw
  cases t <;> refine decode_c (n := 0x001) rfl (by simp_all) ?_ <;> change Accepts (form ..) _ _ _ <;>
  simp (disch := decide) [-Nat.reduceAdd, -BitVec.getLsbD_eq_getElem, hw] <;> simp_all

theorem brc (h : Hdr) (sa sb : SReg) (cc : CC) (disp : BitVec 32) : Statement (.brc h sa sb cc disp) := by
  refine of_encode rfl fun hw vup hv => ?_
  unfold wellFormed at hw
  simp only [Bool.and_eq_true] at hw
  refine decode_c (n := 0x002) rfl (by simp_all) ?_ <;> change Accepts (Parse.rules (form ..) ..) _ _ _ <;>
  simp (disch := decide) [-Nat.reduceAdd, -BitVec.getLsbD_eq_getElem, hw] <;> simp_all

theorem call (h : Hdr) (t : Target) : Statement (.call h t) := by
  refine of_encode rfl fun hw vup hv => ?_
  unfold wellFormed at hw
  simp only [Bool.and_eq_true] at hw
  cases t <;> refine decode_c (n := 0x003) rfl (by simp_all) ?_ <;> change Accepts (form ..) _ _ _ <;>
  simp (disch := decide) [-Nat.reduceAdd, -BitVec.getLsbD_eq_getElem, hw] <;> simp_all

theorem ret (h : Hdr) : Statement (.ret h) := by
  refine of_encode rfl fun hw vup hv => ?_
  unfold wellFormed at hw
  simp only [Bool.and_eq_true] at hw
  refine decode_c (n := 0x004) rfl (by simp_all) ?_ <;> change Accepts (form ..) _ _ _ <;>
  simp (disch := decide) [-Nat.reduceAdd, -BitVec.getLsbD_eq_getElem, hw] <;> simp_all

theorem loop (h : Hdr) (sa : SReg) (disp : BitVec 32) : Statement (.loop h sa disp) := by
  refine of_encode rfl fun hw vup hv => ?_
  unfold wellFormed at hw
  simp only [Bool.and_eq_true] at hw
  refine decode_c (n := 0x005) rfl (by simp_all) ?_ <;> change Accepts (form ..) _ _ _ <;>
  simp (disch := decide) [-Nat.reduceAdd, -BitVec.getLsbD_eq_getElem, hw] <;> simp_all

theorem halt (h : Hdr) : Statement (.halt h) := by
  refine of_encode rfl fun hw vup hv => ?_
  unfold wellFormed at hw
  simp only [Bool.and_eq_true] at hw
  refine decode_c (n := 0x006) rfl (by simp_all) ?_ <;> change Accepts (form ..) _ _ _ <;>
  simp (disch := decide) [-Nat.reduceAdd, -BitVec.getLsbD_eq_getElem, hw] <;> simp_all

theorem launch (h : Hdr) (sa : SReg) (q : BitVec 3) : Statement (.launch h sa q) := by
  refine of_encode rfl fun hw vup hv => ?_
  unfold wellFormed at hw
  simp only [Bool.and_eq_true] at hw
  refine decode_c (n := 0x008) rfl (by simp_all) ?_ <;> change Accepts (form ..) _ _ _ <;>
  simp (disch := decide) [-Nat.reduceAdd, -BitVec.getLsbD_eq_getElem, hw] <;> simp_all

theorem launchNw (h : Hdr) (sa : SReg) (q : BitVec 3) : Statement (.launchNw h sa q) := by
  refine of_encode rfl fun hw vup hv => ?_
  unfold wellFormed at hw
  simp only [Bool.and_eq_true] at hw
  refine decode_c (n := 0x009) rfl (by simp_all) ?_ <;> change Accepts (form ..) _ _ _ <;>
  simp (disch := decide) [-Nat.reduceAdd, -BitVec.getLsbD_eq_getElem, hw] <;> simp_all

theorem ckpt (h : Hdr) (idx : BitVec 16) : Statement (.ckpt h idx) := by
  refine of_encode rfl fun hw vup hv => ?_
  unfold wellFormed at hw
  simp only [Bool.and_eq_true] at hw
  refine decode_c (n := 0x00A) rfl (by simp_all) ?_ <;> change Accepts (form ..) _ _ _ <;>
  simp (disch := decide) [-Nat.reduceAdd, -BitVec.getLsbD_eq_getElem, hw] <;> simp_all

theorem yield (h : Hdr) (idx : BitVec 16) : Statement (.yield h idx) := by
  refine of_encode rfl fun hw vup hv => ?_
  unfold wellFormed at hw
  simp only [Bool.and_eq_true] at hw
  refine decode_c (n := 0x00B) rfl (by simp_all) ?_ <;> change Accepts (form ..) _ _ _ <;>
  simp (disch := decide) [-Nat.reduceAdd, -BitVec.getLsbD_eq_getElem, hw] <;> simp_all

/-! ## Events -/

theorem queueTimeout (c : Nat) (e : Eng) : Statement (.queueTimeout c e) := no_word rfl
theorem ckptTimeout (c : Nat) : Statement (.ckptTimeout c) := no_word rfl
theorem deferredTrap (c : Nat) (e : Eng) : Statement (.deferredTrap c e) := no_word rfl
theorem copyLand (c ord first n : Nat) : Statement (.copyLand c ord first n) := no_word rfl
theorem xchgAccept (c : Nat) : Statement (.xchgAccept c) := no_word rfl
theorem bWindowLoad (c : Nat) : Statement (.bWindowLoad c) := no_word rfl
theorem tileCommandComplete (c : Nat) : Statement (.tileCommandComplete c) := no_word rfl
theorem partialDeliver (c : Nat) : Statement (.partialDeliver c) := no_word rfl
theorem mergePartials (c : Nat) : Statement (.mergePartials c) := no_word rfl
theorem tileRelocate (c sib : Nat) : Statement (.tileRelocate c sib) := no_word rfl
theorem relocatedTileReturn (c sib : Nat) : Statement (.relocatedTileReturn c sib) := no_word rfl
theorem atomicPerform (c : Nat) (e : Eng) : Statement (.atomicPerform c e) := no_word rfl
theorem barWaitRelease (c : Nat) (e : Eng) : Statement (.barWaitRelease c e) := no_word rfl
theorem pageWalk (asid : BitVec 14) (va : Word) : Statement (.pageWalk asid va) := no_word rfl
theorem iterationStart (c : Nat) : Statement (.iterationStart c) := no_word rfl
theorem iterationEnd (c : Nat) : Statement (.iterationEnd c) := no_word rfl
theorem recordIssue (w : Nat) : Statement (.recordIssue w) := no_word rfl
theorem recordComplete (r : Nat) : Statement (.recordComplete r) := no_word rfl
theorem stealProbe (w : Nat) : Statement (.stealProbe w) := no_word rfl
theorem stealAnswer (dev : BitVec 6) : Statement (.stealAnswer dev) := no_word rfl
theorem stealGrant (g : Grant) : Statement (.stealGrant g) := no_word rfl
theorem stealReport (dev : BitVec 6) (record : Word) (range : StolenEnd) : Statement (.stealReport dev record range) := no_word rfl
theorem lqTail (q : BitVec 3) (v : Word) : Statement (.lqTail q v) := no_word rfl
theorem tguCancel (v : Word) : Statement (.tguCancel v) := no_word rfl
theorem preemptReq (hi : Bool) (v : Word) : Statement (.preemptReq hi v) := no_word rfl
theorem preemptQuiesce (c : Nat) : Statement (.preemptQuiesce c) := no_word rfl
theorem peerAccess (r : PeerReq) : Statement (.peerAccess r) := no_word rfl
theorem poolAccess (r : PoolReq) : Statement (.poolAccess r) := no_word rfl
theorem ownRevoke (region : Nat) (dev : BitVec 6) : Statement (.ownRevoke region dev) := no_word rfl
theorem switchFail (n : BitVec 3) : Statement (.switchFail n) := no_word rfl
theorem switchRebuildDone (n : BitVec 3) : Statement (.switchRebuildDone n) := no_word rfl
theorem stfFlagUpdate (c : Nat) : Statement (.stfFlagUpdate c) := no_word rfl
theorem dfreeze (v : Word) : Statement (.dfreeze v) := no_word rfl
theorem sreJobStart (st : BitVec 3) : Statement (.sreJobStart st) := no_word rfl
theorem sreJobComplete (st : BitVec 3) : Statement (.sreJobComplete st) := no_word rfl
theorem hostBarWrite (bar : Nat) (off : Nat) (bytes : List Byte) : Statement (.hostBarWrite bar off bytes) := no_word rfl
theorem hostBarRead (bar : Nat) (off len : Nat) : Statement (.hostBarRead bar off len) := no_word rfl
theorem registerWrite (off : Nat) (v : Word) : Statement (.registerWrite off v) := no_word rfl
theorem start (f : StartFacts) : Statement (.start f) := no_word rfl
theorem startTimeout (step : BitVec 8) : Statement (.startTimeout step) := no_word rfl
theorem evqHead (v : Word) : Statement (.evqHead v) := no_word rfl
theorem pwrLimit (v : Word) : Statement (.pwrLimit v) := no_word rfl
theorem powerSample (milliwatts : Nat) (dieTemp packageTemp : Nat) (sensor : BitVec 8) : Statement (.powerSample milliwatts dieTemp packageTemp sensor) := no_word rfl
theorem telemetryRefresh (sensors : List Word) : Statement (.telemetryRefresh sensors) := no_word rfl
theorem scrubUnit (st : BitVec 3) : Statement (.scrubUnit st) := no_word rfl
theorem accessPerformed (c : Nat) (e : Eng) (i : Nat) : Statement (.accessPerformed c e i) := no_word rfl
theorem tileCommandStart (c : Nat) : Statement (.tileCommandStart c) := no_word rfl
theorem barrierOperation (c : Nat) (e : Eng) : Statement (.barrierOperation c e) := no_word rfl
theorem ringFarOperation (c : Nat) (e : Eng) : Statement (.ringFarOperation c e) := no_word rfl
theorem ownershipRequest (dev : BitVec 6) (region : Nat) (kind : OwnKind) : Statement (.ownershipRequest dev region kind) := no_word rfl
theorem switchRepair (n : BitVec 3) : Statement (.switchRepair n) := no_word rfl
theorem peerLeavesService (dev : BitVec 6) : Statement (.peerLeavesService dev) := no_word rfl
theorem peerReturnsToService (dev : BitVec 6) : Statement (.peerReturnsToService dev) := no_word rfl
theorem cellAssign : Statement (.cellAssign) := no_word rfl
theorem tguTakeEntry : Statement (.tguTakeEntry) := no_word rfl
theorem walkerGiveBack : Statement (.walkerGiveBack) := no_word rfl
theorem agingStep : Statement (.agingStep) := no_word rfl
theorem stealPauseExpire : Statement (.stealPauseExpire) := no_word rfl
theorem bootRestart : Statement (.bootRestart) := no_word rfl
theorem bootClearFails : Statement (.bootClearFails) := no_word rfl
theorem bootRestartMinimal : Statement (.bootRestartMinimal) := no_word rfl
theorem recBegin : Statement (.recBegin) := no_word rfl
theorem recPiece : Statement (.recPiece) := no_word rfl
theorem recCommit : Statement (.recCommit) := no_word rfl
theorem recAbort : Statement (.recAbort) := no_word rfl
theorem attReport : Statement (.attReport) := no_word rfl
theorem attCert : Statement (.attCert) := no_word rfl
theorem pwrRun : Statement (.pwrRun) := no_word rfl
theorem pwrIdle : Statement (.pwrIdle) := no_word rfl
theorem pwrStandby : Statement (.pwrStandby) := no_word rfl
theorem pwrOff : Statement (.pwrOff) := no_word rfl
theorem pwrExitDone : Statement (.pwrExitDone) := no_word rfl
theorem supplyRemoved : Statement (.supplyRemoved) := no_word rfl
theorem resetPinAsserted : Statement (.resetPinAsserted) := no_word rfl
end Sys2Proof.Laws.RoundTrip
end

