-- ==== Sys2Proof/Laws/Tab.lean ====
section
/-! SUPPORT. Laws of the sparse tables: what is read after a write, and the canonical form that every operation
keeps. -/

namespace Sys2Proof.Machine

variable {α : Type}

/-! ## Reading -/

@[simp] theorem tabGet_nil (d : α) (k : Nat) : tabGet d [] k = d := rfl

theorem tabGet_append (d : α) (t u : List (Nat × α)) (k : Nat) :
    tabGet d (t ++ u) k = if t.any (fun e => e.1 == k) then tabGet d t k else tabGet d u k := by
  induction t with
  | nil => simp
  | cons e r ih =>
    obtain ⟨j, v⟩ := e
    by_cases h : j = k
    · simp [tabGet, h]
    · simp only [List.cons_append, tabGet, if_neg h, ih, List.any_cons, beq_false_of_ne h, Bool.false_or]

theorem tabGet_eq_default (d : α) (t : List (Nat × α)) (k : Nat) (h : t.any (fun e => e.1 == k) = false) :
    tabGet d t k = d := by
  induction t with
  | nil => rfl
  | cons e r ih =>
    simp only [List.any_cons, Bool.or_eq_false_iff, beq_eq_false_iff_ne, ne_eq] at h
    simp [tabGet, h.1, ih h.2]

theorem tabGet_filter (d : α) (t : List (Nat × α)) (p : Nat → Bool) (k : Nat) :
    tabGet d (t.filter fun e => p e.1) k = if p k then tabGet d t k else d := by
  induction t with
  | nil => simp
  | cons e r ih =>
    obtain ⟨j, v⟩ := e
    by_cases hp : p j = true <;> by_cases hj : j = k
    · subst hj; simp [hp, tabGet]
    · simp [hp, tabGet, hj, ih]
    · subst hj; simp [hp, ih]
    · simp [hp, tabGet, hj, ih]

variable [DecidableEq α]

theorem tabGet_run (d : α) (vs : List α) (a k : Nat) :
    tabGet d (tabRun d a vs) k = if a ≤ k ∧ k < a + vs.length then vs.getD (k - a) d else d := by
  induction vs generalizing a with
  | nil => simp [tabRun]
  | cons v r ih =>
    unfold tabRun
    by_cases hv : v = d
    · simp only [hv, if_true, ih]
      by_cases h1 : a + 1 ≤ k ∧ k < a + 1 + r.length
      · rw [if_pos h1, if_pos (by simp; omega)]
        obtain ⟨n, hn⟩ : ∃ n, k - a = n + 1 := ⟨k - a - 1, by omega⟩
        rw [hn, show k - (a + 1) = n by omega]; rfl
      · rw [if_neg h1]
        by_cases h2 : k = a
        · subst h2; simp
        · rw [if_neg (by simp; omega)]
    · simp only [hv, if_false, tabGet, ih]
      by_cases h2 : a = k
      · subst h2; simp
      · rw [if_neg h2]
        by_cases h1 : a + 1 ≤ k ∧ k < a + 1 + r.length
        · rw [if_pos h1, if_pos (by simp; omega)]
          obtain ⟨n, hn⟩ : ∃ n, k - a = n + 1 := ⟨k - a - 1, by omega⟩
          rw [hn, show k - (a + 1) = n by omega]; rfl
        · rw [if_neg h1, if_neg (by simp; omega)]

theorem tabRun_any (d : α) (vs : List α) (a k : Nat) (h : (tabRun d a vs).any (fun e => e.1 == k) = true) :
    a ≤ k ∧ k < a + vs.length := by
  induction vs generalizing a with
  | nil => simp [tabRun] at h
  | cons v r ih =>
    unfold tabRun at h
    split at h
    · have := ih _ h; simp; omega
    · simp only [List.any_cons, Bool.or_eq_true, beq_iff_eq] at h
      rcases h with h | h
      · subst h; simp
      · have := ih _ h; simp; omega

omit [DecidableEq α] in
theorem tabGet_append_left (d : α) (t u : List (Nat × α)) (k : Nat) (h : u.any (fun e => e.1 == k) = false) :
    tabGet d (t ++ u) k = tabGet d t k := by
  rw [tabGet_append]
  split
  · rfl
  · rename_i ht
    rw [tabGet_eq_default d u k h, tabGet_eq_default d t k (Bool.eq_false_iff.2 ht)]

omit [DecidableEq α] in
theorem tabGet_append_right (d : α) (t u : List (Nat × α)) (k : Nat) (h : t.any (fun e => e.1 == k) = false) :
    tabGet d (t ++ u) k = tabGet d u k := by
  rw [tabGet_append, h]; rfl

omit [DecidableEq α] in
theorem filter_any_false (t : List (Nat × α)) (p : Nat → Bool) (k : Nat) (h : p k = false) :
    (t.filter fun e => p e.1).any (fun e => e.1 == k) = false := by
  simp only [List.any_eq_false, List.mem_filter, beq_iff_eq]
  rintro ⟨j, v⟩ ⟨_, hj⟩ rfl
  exact absurd hj (by simp [h])

/-- Reading after a run is stored: the run inside it, the old value outside it. -/
theorem tabGet_splice (d : α) (t : List (Nat × α)) (a : Nat) (vs : List α) (k : Nat) :
    tabGet d (tabSplice d t a vs) k = if a ≤ k ∧ k < a + vs.length then vs.getD (k - a) d else tabGet d t k := by
  have low (h : a ≤ k) := filter_any_false t (fun j => decide (j < a)) k (by simp; omega)
  have high (h : k < a + vs.length) := filter_any_false t (fun j => decide (a + vs.length ≤ j)) k (by simp; omega)
  have run (h : ¬(a ≤ k ∧ k < a + vs.length)) : (tabRun d a vs).any (fun e => e.1 == k) = false :=
    Bool.eq_false_iff.2 fun hc => h (tabRun_any d vs a k hc)
  unfold tabSplice
  by_cases h : a ≤ k ∧ k < a + vs.length
  · rw [tabGet_append_left _ _ _ _ (high h.2), tabGet_append_right _ _ _ _ (low h.1), tabGet_run, if_pos h, if_pos h]
  · rw [if_neg h]
    by_cases hk : k < a
    · rw [tabGet_append_left _ _ _ _ (high (by omega)), tabGet_append_left _ _ _ _ (run h),
        tabGet_filter d t (fun j => decide (j < a)) k]
      simp [hk]
    · rw [List.append_assoc, tabGet_append_right _ _ _ _ (low (by omega)), tabGet_append_right _ _ _ _ (run h),
        tabGet_filter d t (fun j => decide (a + vs.length ≤ j)) k]
      have : a + vs.length ≤ k := by omega
      simp [this]

/-- Reading after one value is stored. -/
@[simp] theorem tabGet_set (d : α) (t : List (Nat × α)) (k j : Nat) (v : α) :
    tabGet d (tabSet d t k v) j = if j = k then v else tabGet d t j := by
  unfold tabSet
  rw [tabGet_splice]
  by_cases h : j = k
  · subst h; simp
  · rw [if_neg (by simp; omega), if_neg h]

/-- A second value at a key replaces the first. -/
@[simp] theorem tabSet_tabSet (d : α) (t : List (Nat × α)) (k : Nat) (v w : α) :
    tabSet d (tabSet d t k v) k w = tabSet d t k w := by
  unfold tabSet tabSplice
  have e1 : (tabRun d k [v]).filter (fun e => decide (e.1 < k)) = [] := by
    unfold tabRun tabRun; split <;> simp
  have e2 : (tabRun d k [v]).filter (fun e => decide (k + [w].length ≤ e.1)) = [] := by
    unfold tabRun tabRun; split <;> simp
  have e3 : (t.filter fun e => decide (k + [v].length ≤ e.1)).filter (fun e => decide (e.1 < k)) = [] := by
    simp only [List.filter_filter, List.filter_eq_nil_iff]
    rintro ⟨j, x⟩ _; simp; omega
  have e4 : (t.filter fun e => decide (e.1 < k)).filter (fun e => decide (k + [w].length ≤ e.1)) = [] := by
    simp only [List.filter_filter, List.filter_eq_nil_iff]
    rintro ⟨j, x⟩ _; simp; omega
  have e5 : (t.filter fun e => decide (e.1 < k)).filter (fun e => decide (e.1 < k)) = t.filter fun e => decide (e.1 < k) := by
    simp [List.filter_filter]
  have e6 : (t.filter fun e => decide (k + [v].length ≤ e.1)).filter (fun e => decide (k + [w].length ≤ e.1)) =
      t.filter fun e => decide (k + [w].length ≤ e.1) := by
    simp [List.filter_filter]
  simp only [List.filter_append, e1, e2, e3, e4, e5, e6, List.append_nil, List.nil_append]

/-! ## The canonical form -/

/-- The canonical form as two facts: no entry holds the default, and the keys rise. -/
theorem tabWf_iff (d : α) (t : List (Nat × α)) :
    tabWf d t = true ↔ (∀ e ∈ t, e.2 ≠ d) ∧ (t.map (·.1)).Pairwise (· < ·) := by
  induction t with
  | nil => simp [tabWf]
  | cons e r ih =>
    obtain ⟨j, v⟩ := e
    cases r with
    | nil => simp [tabWf]
    | cons e' r' =>
      obtain ⟨k, w⟩ := e'
      simp only [tabWf, Bool.and_eq_true, decide_eq_true_eq, ih, List.map_cons, List.pairwise_cons, List.mem_cons,
        forall_eq_or_imp]
      constructor
      · rintro ⟨⟨h1, h2⟩, ⟨h3, h4⟩, h5, h6⟩
        exact ⟨⟨h1, h3, h4⟩, ⟨h2, fun a ha => Nat.lt_trans h2 (h5 a ha)⟩, h5, h6⟩
      · rintro ⟨⟨h1, h3, h4⟩, ⟨h2, _⟩, h5, h6⟩
        exact ⟨⟨h1, h2⟩, ⟨h3, h4⟩, h5, h6⟩

omit [DecidableEq α] in
theorem keys_filter_pairwise (t : List (Nat × α)) (p : Nat × α → Bool) (h : (t.map (·.1)).Pairwise (· < ·)) :
    ((t.filter p).map (·.1)).Pairwise (· < ·) :=
  h.sublist ((List.filter_sublist (l := t)).map _)

theorem tabWf_filter (d : α) (t : List (Nat × α)) (p : Nat × α → Bool) (h : tabWf d t = true) :
    tabWf d (t.filter p) = true := by
  rw [tabWf_iff] at *
  exact ⟨fun e he => h.1 e (List.mem_filter.1 he).1, keys_filter_pairwise t p h.2⟩

theorem tabWf_clear (d : α) (t : List (Nat × α)) (a n : Nat) (h : tabWf d t = true) : tabWf d (tabClear t a n) = true :=
  tabWf_filter d t _ h

theorem tabRun_wf (d : α) (vs : List α) (a : Nat) :
    (∀ e ∈ tabRun d a vs, e.2 ≠ d ∧ a ≤ e.1 ∧ e.1 < a + vs.length) ∧ ((tabRun d a vs).map (·.1)).Pairwise (· < ·) := by
  induction vs generalizing a with
  | nil => simp [tabRun]
  | cons v r ih =>
    obtain ⟨h1, h2⟩ := ih (a + 1)
    have h1' : ∀ e ∈ tabRun d (a + 1) r, e.2 ≠ d ∧ a ≤ e.1 ∧ e.1 < a + (v :: r).length := fun e he => by
      have := h1 e he; simp; exact ⟨this.1, by omega, by omega⟩
    unfold tabRun
    split
    · exact ⟨h1', h2⟩
    · rename_i hv
      refine ⟨?_, ?_⟩
      · intro e he
        rcases List.mem_cons.1 he with rfl | he
        · exact ⟨hv, Nat.le_refl _, by simp⟩
        · exact h1' e he
      · simp only [List.map_cons, List.pairwise_cons, List.mem_map]
        refine ⟨?_, h2⟩
        rintro _ ⟨e, he, rfl⟩
        have := h1 e he; omega

/-- A stored run keeps the canonical form. -/
theorem tabWf_splice (d : α) (t : List (Nat × α)) (a : Nat) (vs : List α) (h : tabWf d t = true) :
    tabWf d (tabSplice d t a vs) = true := by
  rw [tabWf_iff] at *
  obtain ⟨hr1, hr2⟩ := tabRun_wf d vs a
  unfold tabSplice
  refine ⟨?_, ?_⟩
  · intro e he
    simp only [List.mem_append, List.mem_filter] at he
    rcases he with (he | he) | he
    · exact h.1 e he.1
    · exact (hr1 e he).1
    · exact h.1 e he.1
  · simp only [List.map_append, List.pairwise_append, List.mem_append, List.mem_map, List.mem_filter]
    refine ⟨⟨keys_filter_pairwise t _ h.2, hr2, ?_⟩, keys_filter_pairwise t _ h.2, ?_⟩
    · rintro _ ⟨e, ⟨_, he⟩, rfl⟩ _ ⟨f, hf, rfl⟩
      have := (hr1 f hf).2; simp at he; omega
    · rintro _ (⟨e, ⟨_, he⟩, rfl⟩ | ⟨e, he, rfl⟩) _ ⟨f, ⟨_, hf⟩, rfl⟩
      · simp at he hf; omega
      · have := (hr1 e he).2; simp at hf; omega

theorem tabWf_set (d : α) (t : List (Nat × α)) (k : Nat) (v : α) (h : tabWf d t = true) :
    tabWf d (tabSet d t k v) = true :=
  tabWf_splice d t k [v] h

end Sys2Proof.Machine
end

