-- ==== Sys2Proof/Safety.lean ====
section
/-! DEFINITION. What counts as a safe run, and the words in which claims are made about one instruction: when an
instruction that stands at its engine has its own effect, and the state in which the engine has passed it. -/

namespace Sys2Proof.Machine

/-! ## Safe runs -/

/-- The machine goes on: neither a fault nor a refusal. -/
def GoesOn (o : Host.Outcome State Fault Refusal) : Prop := ∃ t, o = .next t

/-- A state from which a number of steps all go on. -/
def SafeRun : Nat → State → Prop
  | 0, _ => True
  | n + 1, s => ∃ t, step s = .next t ∧ SafeRun n t

/-! ## An instruction at its engine -/

/-- The frame lets an instruction have its effect: its token bits name neighbours (R22), the slip window is open (R15),
no scalar that it reads is still being loaded (R113), neither they nor its predicate have an uncorrectable error (R435),
the predicate is true (R21),
and its tokens and the room for its pushes are there (R20). -/
def State.ready (s : State) (h : Hdr) (uses : List SReg) : Bool :=
  tokensExist s.here.vup s.cur.eng h && s.here.windowOpen s.cur.eng && !uses.any s.me.loading &&
  (s.me.getP h.pred != h.neg) && !s.here.badPred s.cur.eng h.pred &&
  !uses.any (fun r => s.here.badReg (64 * engNum s.cur.eng + r.toNat)) &&
  s.here.tokensReady s.cur.eng h s.me.resumes

/-- The engine has passed the instruction to a target: t is the instruction's own effect on s; then it is counted, its
tokens move, and the engine stands at the target one step further (R15, R20, R35). -/
def State.afterTo (s : State) (h : Hdr) (t : State) (target : Word) : State :=
  (t.count s.cur.cell (0x10 + engNum s.cur.eng) 1).finish s.cur.cell s.cur.eng h s.me.resumes target

/-- The engine has passed the instruction to the next word. -/
def State.after (s : State) (h : Hdr) (t : State) : State := s.afterTo h t (s.me.pc + 16)

/-- A program instruction of the S, L, M, V, W, X and common blocks, with whether it is an X instruction, its header, and
the scalar registers that it reads. C instructions and the rendezvous are not among them. -/
def framed : Instr → Option (Bool × Hdr × List SReg)
  | .add h _ sa b | .sub h _ sa b | .mul h _ sa b | .mulh h _ sa b _ | .div h _ sa b _ | .rem h _ sa b _ | .and h _ sa b
  | .or h _ sa b | .xor h _ sa b | .shl h _ sa b | .shr h _ sa b | .sra h _ sa b | .rol h _ sa b | .ror h _ sa b
  | .min h _ sa b _ | .max h _ sa b _ | .bfx h _ sa b | .bfxs h _ sa b | .cmp h _ sa b _ | .sel h _ sa b _
  | .sfadd h _ sa b _ | .sfmul h _ sa b _ | .sfdiv h _ sa b _ => some (false, h, sa :: srcRegs b)
  | .clz h _ sa | .ctz h _ sa | .popc h _ sa | .brev h _ sa | .sext h _ sa _ | .sfcvt h _ sa _ _ => some (false, h, [sa])
  | .bfi h _ sa f sc => some (false, h, sa :: sc :: srcRegs f)
  | .li h _ _ | .pand h _ _ _ _ _ | .por h _ _ _ _ _ | .pxor h _ _ _ _ _ | .pnot h _ _ | .mfs h _ _ => some (false, h, [])
  | .addx h _ sa sb _ _ | .ld h _ sa sb _ _ _ | .lda h _ sa sb _ _ _ _ => some (false, h, [sa, sb])
  | .sffma h _ sa sb sc _ | .st h sa sb sc _ _ | .stl h sa sb sc _ _ _ | .amoFaddTree h sa sb sc _ _ _ =>
      some (false, h, [sa, sb, sc])
  | .amoAdd h o | .amoAnd h o | .amoOr h o | .amoXor h o | .amoMin h o _ | .amoMax h o _ | .amoXchg h o | .amoFadd h o
  | .amoFmin h o | .amoFmax h o => some (false, h, [o.sa, o.sb])
  | .amoCas h o sc => some (false, h, [o.sa, o.sb, sc])
  | .qpush h _ b => some (false, h, srcRegs b)
  | .mts h _ sa => some (false, h, [sa])
  | .poolAlloc h _ sa _ _ _ | .poolFree h _ sa | .ownAcq h _ sa | .ownRel h _ sa | .ownTest h _ sa | .sreRun h _ sa
  | .watchSet h _ sa _ _ _ | .syscall h sa _ | .ctxSave h _ sa _ _ | .ctxLoad h _ sa => some (true, h, [sa])
  | .poolStat h _ sa sb | .tlbInv h sa sb _ => some (true, h, [sa, sb])
  | .ctxResume h _ | .ctxSwitch h => some (true, h, [])
  | .pref h _ _ => some (false, h, [])
  | .vld h r _ _ _ _ | .vldRaw h r _ _ _ _ | .vldb h r _ _ _ _ _ | .vst h r _ _ _ _ | .vstAmx h r _ _ _ _
  | .stf h r _ _ _ => some (false, h, [r.base, r.index])
  | .copy h o | .copyEnc h o | .copyDec h o | .copyExport h o | .gather h o | .scatter h o | .xchgAll h o =>
      some (false, h, copyRegs o)
  | .dld h _ sa _ => some (false, h, [sa])
  | .dst h _ sb _ => some (false, h, [sb])
  | .wpwait h _ _ sa _ => some (false, h, [sa])
  | .mma h _ | .msd h _ | .macc h _ _ _ _ | .macw h _ _ _ _ _ | .mzeroOpen h _ | .mzero h _ _ | .mlagset h _
  | .mmerge h _ _ _ _ _ _ _ | .descPath h _ | .descPathLoad h _ => some (false, h, [])
  | .mmaG h _ _ sa sb | .descGroup h _ sa sb _ _ _ _ _ _ => some (false, h, [sa, sb])
  | .mmode h _ _ sa => some (false, h, [sa])
  | .descStep h o | .descWalk h o => some (false, h, [o.sb])
  | .vadd h _ b _ | .vsub h _ b _ | .vmul h _ b _ | .vfma h _ b _ _ | .vfms h _ b _ _ | .vmin h _ b | .vmax h _ b
  | .vdiv h _ b _ | .vcmp h _ _ b _ _ _ | .vsel h _ _ b _ | .viadd h _ b | .visub h _ b | .vimul h _ b | .vimad h _ b _
  | .vand h _ b | .vor h _ b | .vxor h _ b | .vshl h _ b | .vshr h _ b | .vsra h _ b | .vbfx h _ b _ | .vbfi h _ b _
  | .vfshl h _ _ b | .vfshr h _ _ b | .vidot4 h _ b _ _ _ | .vidot8 h _ b _ _ _ | .vmov h _ b _ _ | .vperm h _ b =>
      some (false, h, vsrcRegs b)
  | .vabs h _ | .vneg h _ | .vrcp h _ _ | .vrsq h _ _ | .vsqrt h _ _ | .vexp2 h _ _ | .vlog2 h _ _ | .vtanh h _ _
  | .vsigm h _ _ | .vnot h _ | .vpopc h _ | .vclz h _ | .vcvtI2f h _ _ _ | .vcvtF2i h _ _ _ | .vredr h _ _ _ _ _
  | .vredc h _ _ _ _ _ | .vscanr h _ _ _ _ _ _ | .viota h _ _ _ _ _ | .vext h _ _ _ _ | .vsortc h _ _ _ _ _ _
  | .vmand h _ _ _ | .vmor h _ _ _ | .vmxor h _ _ _ | .vmnot h _ _ | .vmpopc h _ _ | .vmff h _ _ => some (false, h, [])
  | .vrotr h _ ss _ | .vrotc h _ ss _ | .vbcr h _ ss _ | .vbcc h _ ss _ | .vmovs h _ ss _ => some (false, h, [ss])
  | .vstAmxDrain h base _ _ => some (false, h, [base])
  | .vsct h _ _ ss _ _ _ _ => some (false, h, [ss])
  | .epi h sa sb _ _ _ _ _ _ _ _ _ => some (false, h, [sa, sb])
  | .fence _ h _ | .mark _ h | .qpop _ h _ _ | .qpopP _ h _ _ | .trap _ h _ => some (false, h, [])
  | .barInit _ h sa sb sc _ _ _ _ => some (false, h, [sa, sb, sc])
  | .barInitInv _ h sa _ => some (false, h, [sa])
  | .barArv _ h sd sa _ | .barTest _ h sd sa _ => some (false, h, [sd, sa])
  | .barArvx _ h sd sa sb _ => some (false, h, [sd, sa, sb])
  | .barWait _ h _ sa sb _ => some (false, h, [sa, sb])
  | .ringWf _ h _ _ _ far | .ringWe _ h _ _ _ far | .ringClm _ h _ _ _ far | .ringPub _ h _ _ _ far
  | .ringPop _ h _ _ _ far => some (false, h, farRegs far)
  | .ringWeLoad _ h _ _ sb => some (false, h, [sb])
  | _ => none

/-- A cell without what every instruction of an engine may change as the engine passes or waits: its program counter,
step count, wait, retirement list and marks, the cell's token counters, and its performance counters. -/
def Cell.frame (e : Eng) (x : Cell) : Cell :=
  { (x.setEng e { x.eng e with
      pc := 0#64, step := 0, stall := .none, stalled := [], progress := none, flight := none, arrived := false
      resolved := false, watchPass := false, retire := [] }) with tok := [], tokReserved := [], pcnt := [] }

/-- Lanes in which a write of an engine to a vector register loses a race with the write of another engine: of the lanes
that the other wrote, those that the turn names (R29); none where the writes are ordered. -/
def Cell.lost (x : Cell) (e : Eng) (older : List (Nat × BitVec 1024)) (v : Nat) : BitVec 1024 :=
  match x.racing e v with
  | none => 0#1024
  | some w => tabGet 0#1024 older v &&& w.lanes

/-- The same for a register that the executing engine writes in this turn. -/
def State.lost (s : State) (v : VNum) : BitVec 1024 := s.here.lost s.cur.eng s.cur.old v.toNat

/-- Two states agree but for what every instruction may change, once what the instruction itself changes in its cell has
been put out of sight in both by f; and every byte of memory reads alike. -/
def Keeps (f : Eng → Cell → Cell) (s t : State) : Prop :=
  t.modHere (fun x => (f s.cur.eng x).frame s.cur.eng) = s.modHere (fun x => (f s.cur.eng x).frame s.cur.eng) ∧
  ∀ k, t.byte k = s.byte k

/-- Nothing is put out of sight. -/
def nothing (_ : Eng) (x : Cell) : Cell := x

/-- The executing engine stands at a target, one step further. -/
def Passes (s t : State) (target : Word) : Prop :=
  t.cur = s.cur ∧ t.me.pc = target ∧ t.me.step = s.me.step + 1 ∧ t.me.stall = .none

/-- The executing engine has taken no trap. -/
def State.untrapped (s : State) (c : Nat) (e : Eng) : Prop := (s.eng c e).trap = none

end Sys2Proof.Machine
end

