-- ==== Sys2Proof/Laws/State.lean ====
section
/-! SUPPORT. Laws of the state's updates: what each field holds after a cell, an engine or a register is written. -/

namespace Sys2Proof.Machine

/-! ## One cell replaced or changed -/

@[simp] theorem State.cell_setCell (s : State) (c d : Nat) (x : Cell) :
    (s.setCell c x).cell d = if d = c then x else s.cell d := by
  simp [State.cell, State.setCell]

@[simp] theorem State.setCell_setCell (s : State) (c : Nat) (x y : Cell) :
    (s.setCell c x).setCell c y = s.setCell c y := by
  simp [State.setCell]

@[simp] theorem State.cell_modCell (s : State) (c d : Nat) (f : Cell → Cell) :
    (s.modCell c f).cell d = if d = c then f (s.cell c) else s.cell d := by
  simp [State.modCell]

@[simp] theorem State.modCell_modCell (s : State) (c : Nat) (f g : Cell → Cell) :
    (s.modCell c f).modCell c g = s.modCell c fun x => g (f x) := by
  simp [State.modCell]

@[simp] theorem State.modCell_setCell (s : State) (c : Nat) (x : Cell) (g : Cell → Cell) :
    (s.setCell c x).modCell c g = s.setCell c (g x) := by
  simp [State.modCell]

/-! ### setCell leaves every field but the cells -/

@[simp] theorem State.setCell_cycle (s : State) (c : Nat) (x : Cell) : (s.setCell c x).cycle = s.cycle := rfl
@[simp] theorem State.setCell_agenda (s : State) (c : Nat) (x : Cell) : (s.setCell c x).agenda = s.agenda := rfl
@[simp] theorem State.setCell_rota (s : State) (c : Nat) (x : Cell) : (s.setCell c x).rota = s.rota := rfl
@[simp] theorem State.setCell_cur (s : State) (c : Nat) (x : Cell) : (s.setCell c x).cur = s.cur := rfl
@[simp] theorem State.setCell_mem (s : State) (c : Nat) (x : Cell) : (s.setCell c x).mem = s.mem := rfl
@[simp] theorem State.setCell_ecc (s : State) (c : Nat) (x : Cell) : (s.setCell c x).ecc = s.ecc := rfl
@[simp] theorem State.setCell_relTags (s : State) (c : Nat) (x : Cell) : (s.setCell c x).relTags = s.relTags := rfl
@[simp] theorem State.setCell_podDev (s : State) (c : Nat) (x : Cell) : (s.setCell c x).podDev = s.podDev := rfl
@[simp] theorem State.setCell_ctxBase (s : State) (c : Nat) (x : Cell) : (s.setCell c x).ctxBase = s.ctxBase := rfl
@[simp] theorem State.setCell_tlb (s : State) (c : Nat) (x : Cell) : (s.setCell c x).tlb = s.tlb := rfl
@[simp] theorem State.setCell_barriers (s : State) (c : Nat) (x : Cell) : (s.setCell c x).barriers = s.barriers := rfl
@[simp] theorem State.setCell_released (s : State) (c : Nat) (x : Cell) : (s.setCell c x).released = s.released := rfl
@[simp] theorem State.setCell_mergeBuf (s : State) (c : Nat) (x : Cell) : (s.setCell c x).mergeBuf = s.mergeBuf := rfl
@[simp] theorem State.setCell_tgu (s : State) (c : Nat) (x : Cell) : (s.setCell c x).tgu = s.tgu := rfl
@[simp] theorem State.setCell_fab (s : State) (c : Nat) (x : Cell) : (s.setCell c x).fab = s.fab := rfl
@[simp] theorem State.setCell_pool (s : State) (c : Nat) (x : Cell) : (s.setCell c x).pool = s.pool := rfl
@[simp] theorem State.setCell_own (s : State) (c : Nat) (x : Cell) : (s.setCell c x).own = s.own := rfl
@[simp] theorem State.setCell_sre (s : State) (c : Nat) (x : Cell) : (s.setCell c x).sre = s.sre := rfl
@[simp] theorem State.setCell_mc (s : State) (c : Nat) (x : Cell) : (s.setCell c x).mc = s.mc := rfl
@[simp] theorem State.setCell_flash (s : State) (c : Nat) (x : Cell) : (s.setCell c x).flash = s.flash := rfl
@[simp] theorem State.setCell_supTrap (s : State) (c : Nat) (x : Cell) : (s.setCell c x).supTrap = s.supTrap := rfl
@[simp] theorem State.setCell_supPreempt (s : State) (c : Nat) (x : Cell) : (s.setCell c x).supPreempt = s.supPreempt := rfl
@[simp] theorem State.setCell_reply (s : State) (c : Nat) (x : Cell) : (s.setCell c x).reply = s.reply := rfl
@[simp] theorem State.setCell_draws (s : State) (c : Nat) (x : Cell) : (s.setCell c x).draws = s.draws := rfl

/-! ### modCell leaves every field but the cells -/

@[simp] theorem State.modCell_cycle (s : State) (c : Nat) (f : Cell → Cell) : (s.modCell c f).cycle = s.cycle := rfl
@[simp] theorem State.modCell_agenda (s : State) (c : Nat) (f : Cell → Cell) : (s.modCell c f).agenda = s.agenda := rfl
@[simp] theorem State.modCell_rota (s : State) (c : Nat) (f : Cell → Cell) : (s.modCell c f).rota = s.rota := rfl
@[simp] theorem State.modCell_cur (s : State) (c : Nat) (f : Cell → Cell) : (s.modCell c f).cur = s.cur := rfl
@[simp] theorem State.modCell_mem (s : State) (c : Nat) (f : Cell → Cell) : (s.modCell c f).mem = s.mem := rfl
@[simp] theorem State.modCell_ecc (s : State) (c : Nat) (f : Cell → Cell) : (s.modCell c f).ecc = s.ecc := rfl
@[simp] theorem State.modCell_relTags (s : State) (c : Nat) (f : Cell → Cell) : (s.modCell c f).relTags = s.relTags := rfl
@[simp] theorem State.modCell_podDev (s : State) (c : Nat) (f : Cell → Cell) : (s.modCell c f).podDev = s.podDev := rfl
@[simp] theorem State.modCell_ctxBase (s : State) (c : Nat) (f : Cell → Cell) : (s.modCell c f).ctxBase = s.ctxBase := rfl
@[simp] theorem State.modCell_tlb (s : State) (c : Nat) (f : Cell → Cell) : (s.modCell c f).tlb = s.tlb := rfl
@[simp] theorem State.modCell_barriers (s : State) (c : Nat) (f : Cell → Cell) : (s.modCell c f).barriers = s.barriers := rfl
@[simp] theorem State.modCell_released (s : State) (c : Nat) (f : Cell → Cell) : (s.modCell c f).released = s.released := rfl
@[simp] theorem State.modCell_mergeBuf (s : State) (c : Nat) (f : Cell → Cell) : (s.modCell c f).mergeBuf = s.mergeBuf := rfl
@[simp] theorem State.modCell_tgu (s : State) (c : Nat) (f : Cell → Cell) : (s.modCell c f).tgu = s.tgu := rfl
@[simp] theorem State.modCell_fab (s : State) (c : Nat) (f : Cell → Cell) : (s.modCell c f).fab = s.fab := rfl
@[simp] theorem State.modCell_pool (s : State) (c : Nat) (f : Cell → Cell) : (s.modCell c f).pool = s.pool := rfl
@[simp] theorem State.modCell_own (s : State) (c : Nat) (f : Cell → Cell) : (s.modCell c f).own = s.own := rfl
@[simp] theorem State.modCell_sre (s : State) (c : Nat) (f : Cell → Cell) : (s.modCell c f).sre = s.sre := rfl
@[simp] theorem State.modCell_mc (s : State) (c : Nat) (f : Cell → Cell) : (s.modCell c f).mc = s.mc := rfl
@[simp] theorem State.modCell_flash (s : State) (c : Nat) (f : Cell → Cell) : (s.modCell c f).flash = s.flash := rfl
@[simp] theorem State.modCell_supTrap (s : State) (c : Nat) (f : Cell → Cell) : (s.modCell c f).supTrap = s.supTrap := rfl
@[simp] theorem State.modCell_supPreempt (s : State) (c : Nat) (f : Cell → Cell) : (s.modCell c f).supPreempt = s.supPreempt := rfl
@[simp] theorem State.modCell_reply (s : State) (c : Nat) (f : Cell → Cell) : (s.modCell c f).reply = s.reply := rfl
@[simp] theorem State.modCell_draws (s : State) (c : Nat) (f : Cell → Cell) : (s.modCell c f).draws = s.draws := rfl

/-! ### modEng leaves every field but the cells -/

@[simp] theorem State.modEng_cycle (s : State) (c : Nat) (e : Eng) (f : EngState → EngState) : (s.modEng c e f).cycle = s.cycle := rfl
@[simp] theorem State.modEng_agenda (s : State) (c : Nat) (e : Eng) (f : EngState → EngState) : (s.modEng c e f).agenda = s.agenda := rfl
@[simp] theorem State.modEng_rota (s : State) (c : Nat) (e : Eng) (f : EngState → EngState) : (s.modEng c e f).rota = s.rota := rfl
@[simp] theorem State.modEng_cur (s : State) (c : Nat) (e : Eng) (f : EngState → EngState) : (s.modEng c e f).cur = s.cur := rfl
@[simp] theorem State.modEng_mem (s : State) (c : Nat) (e : Eng) (f : EngState → EngState) : (s.modEng c e f).mem = s.mem := rfl
@[simp] theorem State.modEng_ecc (s : State) (c : Nat) (e : Eng) (f : EngState → EngState) : (s.modEng c e f).ecc = s.ecc := rfl
@[simp] theorem State.modEng_podDev (s : State) (c : Nat) (e : Eng) (f : EngState → EngState) : (s.modEng c e f).podDev = s.podDev := rfl
@[simp] theorem State.modEng_ctxBase (s : State) (c : Nat) (e : Eng) (f : EngState → EngState) : (s.modEng c e f).ctxBase = s.ctxBase := rfl
@[simp] theorem State.modEng_tlb (s : State) (c : Nat) (e : Eng) (f : EngState → EngState) : (s.modEng c e f).tlb = s.tlb := rfl
@[simp] theorem State.modEng_barriers (s : State) (c : Nat) (e : Eng) (f : EngState → EngState) : (s.modEng c e f).barriers = s.barriers := rfl
@[simp] theorem State.modEng_released (s : State) (c : Nat) (e : Eng) (f : EngState → EngState) : (s.modEng c e f).released = s.released := rfl
@[simp] theorem State.modEng_mergeBuf (s : State) (c : Nat) (e : Eng) (f : EngState → EngState) : (s.modEng c e f).mergeBuf = s.mergeBuf := rfl
@[simp] theorem State.modEng_tgu (s : State) (c : Nat) (e : Eng) (f : EngState → EngState) : (s.modEng c e f).tgu = s.tgu := rfl
@[simp] theorem State.modEng_fab (s : State) (c : Nat) (e : Eng) (f : EngState → EngState) : (s.modEng c e f).fab = s.fab := rfl
@[simp] theorem State.modEng_pool (s : State) (c : Nat) (e : Eng) (f : EngState → EngState) : (s.modEng c e f).pool = s.pool := rfl
@[simp] theorem State.modEng_own (s : State) (c : Nat) (e : Eng) (f : EngState → EngState) : (s.modEng c e f).own = s.own := rfl
@[simp] theorem State.modEng_sre (s : State) (c : Nat) (e : Eng) (f : EngState → EngState) : (s.modEng c e f).sre = s.sre := rfl
@[simp] theorem State.modEng_mc (s : State) (c : Nat) (e : Eng) (f : EngState → EngState) : (s.modEng c e f).mc = s.mc := rfl
@[simp] theorem State.modEng_flash (s : State) (c : Nat) (e : Eng) (f : EngState → EngState) : (s.modEng c e f).flash = s.flash := rfl
@[simp] theorem State.modEng_supTrap (s : State) (c : Nat) (e : Eng) (f : EngState → EngState) : (s.modEng c e f).supTrap = s.supTrap := rfl
@[simp] theorem State.modEng_supPreempt (s : State) (c : Nat) (e : Eng) (f : EngState → EngState) : (s.modEng c e f).supPreempt = s.supPreempt := rfl
@[simp] theorem State.modEng_reply (s : State) (c : Nat) (e : Eng) (f : EngState → EngState) : (s.modEng c e f).reply = s.reply := rfl
@[simp] theorem State.modEng_draws (s : State) (c : Nat) (e : Eng) (f : EngState → EngState) : (s.modEng c e f).draws = s.draws := rfl

/-! ### modMe leaves every field but the cells -/

@[simp] theorem State.modMe_cycle (s : State) (f : EngState → EngState) : (s.modMe f).cycle = s.cycle := rfl
@[simp] theorem State.modMe_agenda (s : State) (f : EngState → EngState) : (s.modMe f).agenda = s.agenda := rfl
@[simp] theorem State.modMe_rota (s : State) (f : EngState → EngState) : (s.modMe f).rota = s.rota := rfl
@[simp] theorem State.modMe_cur (s : State) (f : EngState → EngState) : (s.modMe f).cur = s.cur := rfl
@[simp] theorem State.modMe_mem (s : State) (f : EngState → EngState) : (s.modMe f).mem = s.mem := rfl
@[simp] theorem State.modMe_ecc (s : State) (f : EngState → EngState) : (s.modMe f).ecc = s.ecc := rfl
@[simp] theorem State.modMe_podDev (s : State) (f : EngState → EngState) : (s.modMe f).podDev = s.podDev := rfl
@[simp] theorem State.modMe_ctxBase (s : State) (f : EngState → EngState) : (s.modMe f).ctxBase = s.ctxBase := rfl
@[simp] theorem State.modMe_tlb (s : State) (f : EngState → EngState) : (s.modMe f).tlb = s.tlb := rfl
@[simp] theorem State.modMe_barriers (s : State) (f : EngState → EngState) : (s.modMe f).barriers = s.barriers := rfl
@[simp] theorem State.modMe_released (s : State) (f : EngState → EngState) : (s.modMe f).released = s.released := rfl
@[simp] theorem State.modMe_mergeBuf (s : State) (f : EngState → EngState) : (s.modMe f).mergeBuf = s.mergeBuf := rfl
@[simp] theorem State.modMe_tgu (s : State) (f : EngState → EngState) : (s.modMe f).tgu = s.tgu := rfl
@[simp] theorem State.modMe_fab (s : State) (f : EngState → EngState) : (s.modMe f).fab = s.fab := rfl
@[simp] theorem State.modMe_pool (s : State) (f : EngState → EngState) : (s.modMe f).pool = s.pool := rfl
@[simp] theorem State.modMe_own (s : State) (f : EngState → EngState) : (s.modMe f).own = s.own := rfl
@[simp] theorem State.modMe_sre (s : State) (f : EngState → EngState) : (s.modMe f).sre = s.sre := rfl
@[simp] theorem State.modMe_mc (s : State) (f : EngState → EngState) : (s.modMe f).mc = s.mc := rfl
@[simp] theorem State.modMe_flash (s : State) (f : EngState → EngState) : (s.modMe f).flash = s.flash := rfl
@[simp] theorem State.modMe_supTrap (s : State) (f : EngState → EngState) : (s.modMe f).supTrap = s.supTrap := rfl
@[simp] theorem State.modMe_supPreempt (s : State) (f : EngState → EngState) : (s.modMe f).supPreempt = s.supPreempt := rfl
@[simp] theorem State.modMe_reply (s : State) (f : EngState → EngState) : (s.modMe f).reply = s.reply := rfl
@[simp] theorem State.modMe_draws (s : State) (f : EngState → EngState) : (s.modMe f).draws = s.draws := rfl

/-! ### modHere leaves every field but the cells -/

@[simp] theorem State.modHere_cycle (s : State) (f : Cell → Cell) : (s.modHere f).cycle = s.cycle := rfl
@[simp] theorem State.modHere_agenda (s : State) (f : Cell → Cell) : (s.modHere f).agenda = s.agenda := rfl
@[simp] theorem State.modHere_rota (s : State) (f : Cell → Cell) : (s.modHere f).rota = s.rota := rfl
@[simp] theorem State.modHere_cur (s : State) (f : Cell → Cell) : (s.modHere f).cur = s.cur := rfl
@[simp] theorem State.modHere_mem (s : State) (f : Cell → Cell) : (s.modHere f).mem = s.mem := rfl
@[simp] theorem State.modHere_ecc (s : State) (f : Cell → Cell) : (s.modHere f).ecc = s.ecc := rfl
@[simp] theorem State.modHere_podDev (s : State) (f : Cell → Cell) : (s.modHere f).podDev = s.podDev := rfl
@[simp] theorem State.modHere_ctxBase (s : State) (f : Cell → Cell) : (s.modHere f).ctxBase = s.ctxBase := rfl
@[simp] theorem State.modHere_tlb (s : State) (f : Cell → Cell) : (s.modHere f).tlb = s.tlb := rfl
@[simp] theorem State.modHere_barriers (s : State) (f : Cell → Cell) : (s.modHere f).barriers = s.barriers := rfl
@[simp] theorem State.modHere_released (s : State) (f : Cell → Cell) : (s.modHere f).released = s.released := rfl
@[simp] theorem State.modHere_mergeBuf (s : State) (f : Cell → Cell) : (s.modHere f).mergeBuf = s.mergeBuf := rfl
@[simp] theorem State.modHere_tgu (s : State) (f : Cell → Cell) : (s.modHere f).tgu = s.tgu := rfl
@[simp] theorem State.modHere_fab (s : State) (f : Cell → Cell) : (s.modHere f).fab = s.fab := rfl
@[simp] theorem State.modHere_pool (s : State) (f : Cell → Cell) : (s.modHere f).pool = s.pool := rfl
@[simp] theorem State.modHere_own (s : State) (f : Cell → Cell) : (s.modHere f).own = s.own := rfl
@[simp] theorem State.modHere_sre (s : State) (f : Cell → Cell) : (s.modHere f).sre = s.sre := rfl
@[simp] theorem State.modHere_mc (s : State) (f : Cell → Cell) : (s.modHere f).mc = s.mc := rfl
@[simp] theorem State.modHere_flash (s : State) (f : Cell → Cell) : (s.modHere f).flash = s.flash := rfl
@[simp] theorem State.modHere_supTrap (s : State) (f : Cell → Cell) : (s.modHere f).supTrap = s.supTrap := rfl
@[simp] theorem State.modHere_supPreempt (s : State) (f : Cell → Cell) : (s.modHere f).supPreempt = s.supPreempt := rfl
@[simp] theorem State.modHere_reply (s : State) (f : Cell → Cell) : (s.modHere f).reply = s.reply := rfl
@[simp] theorem State.modHere_draws (s : State) (f : Cell → Cell) : (s.modHere f).draws = s.draws := rfl

/-! ## Engines of a cell -/

@[simp] theorem Cell.eng_setEng (x : Cell) (e g : Eng) (st : EngState) :
    (x.setEng e st).eng g = if g = e then st else x.eng g := by
  cases e <;> cases g <;> simp [Cell.eng, Cell.setEng]

@[simp] theorem Cell.setEng_setEng (x : Cell) (e : Eng) (a b : EngState) : (x.setEng e a).setEng e b = x.setEng e b := by
  cases e <;> rfl

@[simp] theorem Cell.setEng_eng (x : Cell) (e : Eng) : x.setEng e (x.eng e) = x := by cases e <;> rfl

@[simp] theorem Cell.setEng_tok (x : Cell) (e : Eng) (st : EngState) : (x.setEng e st).tok = x.tok := by cases e <;> rfl
@[simp] theorem Cell.setEng_tokReserved (x : Cell) (e : Eng) (st : EngState) : (x.setEng e st).tokReserved = x.tokReserved := by cases e <;> rfl
@[simp] theorem Cell.setEng_q (x : Cell) (e : Eng) (st : EngState) : (x.setEng e st).q = x.q := by cases e <;> rfl
@[simp] theorem Cell.setEng_condq (x : Cell) (e : Eng) (st : EngState) : (x.setEng e st).condq = x.condq := by cases e <;> rfl
@[simp] theorem Cell.setEng_vreg (x : Cell) (e : Eng) (st : EngState) : (x.setEng e st).vreg = x.vreg := by cases e <;> rfl
@[simp] theorem Cell.setEng_mreg (x : Cell) (e : Eng) (st : EngState) : (x.setEng e st).mreg = x.mreg := by cases e <;> rfl
@[simp] theorem Cell.setEng_vhist (x : Cell) (e : Eng) (st : EngState) : (x.setEng e st).vhist = x.vhist := by cases e <;> rfl
@[simp] theorem Cell.setEng_mhist (x : Cell) (e : Eng) (st : EngState) : (x.setEng e st).mhist = x.mhist := by cases e <;> rfl
@[simp] theorem Cell.setEng_vstamp (x : Cell) (e : Eng) (st : EngState) : (x.setEng e st).vstamp = x.vstamp := by cases e <;> rfl
@[simp] theorem Cell.setEng_ring (x : Cell) (e : Eng) (st : EngState) : (x.setEng e st).ring = x.ring := by cases e <;> rfl
@[simp] theorem Cell.setEng_hold (x : Cell) (e : Eng) (st : EngState) : (x.setEng e st).hold = x.hold := by cases e <;> rfl
@[simp] theorem Cell.setEng_desc (x : Cell) (e : Eng) (st : EngState) : (x.setEng e st).desc = x.desc := by cases e <;> rfl
@[simp] theorem Cell.setEng_wp (x : Cell) (e : Eng) (st : EngState) : (x.setEng e st).wp = x.wp := by cases e <;> rfl
@[simp] theorem Cell.setEng_issued (x : Cell) (e : Eng) (st : EngState) : (x.setEng e st).issued = x.issued := by cases e <;> rfl
@[simp] theorem Cell.setEng_chOrd (x : Cell) (e : Eng) (st : EngState) : (x.setEng e st).chOrd = x.chOrd := by cases e <;> rfl
@[simp] theorem Cell.setEng_amx (x : Cell) (e : Eng) (st : EngState) : (x.setEng e st).amx = x.amx := by cases e <;> rfl
@[simp] theorem Cell.setEng_path (x : Cell) (e : Eng) (st : EngState) : (x.setEng e st).path = x.path := by cases e <;> rfl
@[simp] theorem Cell.setEng_tiles (x : Cell) (e : Eng) (st : EngState) : (x.setEng e st).tiles = x.tiles := by cases e <;> rfl
@[simp] theorem Cell.setEng_tF (x : Cell) (e : Eng) (st : EngState) : (x.setEng e st).tF = x.tF := by cases e <;> rfl
@[simp] theorem Cell.setEng_tD (x : Cell) (e : Eng) (st : EngState) : (x.setEng e st).tD = x.tD := by cases e <;> rfl
@[simp] theorem Cell.setEng_closed (x : Cell) (e : Eng) (st : EngState) : (x.setEng e st).closed = x.closed := by cases e <;> rfl
@[simp] theorem Cell.setEng_mcmds (x : Cell) (e : Eng) (st : EngState) : (x.setEng e st).mcmds = x.mcmds := by cases e <;> rfl
@[simp] theorem Cell.setEng_seq (x : Cell) (e : Eng) (st : EngState) : (x.setEng e st).seq = x.seq := by cases e <;> rfl
@[simp] theorem Cell.setEng_mode (x : Cell) (e : Eng) (st : EngState) : (x.setEng e st).mode = x.mode := by cases e <;> rfl
@[simp] theorem Cell.setEng_lag (x : Cell) (e : Eng) (st : EngState) : (x.setEng e st).lag = x.lag := by cases e <;> rfl
@[simp] theorem Cell.setEng_merges (x : Cell) (e : Eng) (st : EngState) : (x.setEng e st).merges = x.merges := by cases e <;> rfl
@[simp] theorem Cell.setEng_holding (x : Cell) (e : Eng) (st : EngState) : (x.setEng e st).holding = x.holding := by cases e <;> rfl
@[simp] theorem Cell.setEng_copies (x : Cell) (e : Eng) (st : EngState) : (x.setEng e st).copies = x.copies := by cases e <;> rfl
@[simp] theorem Cell.setEng_xchg (x : Cell) (e : Eng) (st : EngState) : (x.setEng e st).xchg = x.xchg := by cases e <;> rfl
@[simp] theorem Cell.setEng_vup (x : Cell) (e : Eng) (st : EngState) : (x.setEng e st).vup = x.vup := by cases e <;> rfl
@[simp] theorem Cell.setEng_slipw (x : Cell) (e : Eng) (st : EngState) : (x.setEng e st).slipw = x.slipw := by cases e <;> rfl
@[simp] theorem Cell.setEng_qtimeout (x : Cell) (e : Eng) (st : EngState) : (x.setEng e st).qtimeout = x.qtimeout := by cases e <;> rfl
@[simp] theorem Cell.setEng_ckptlim (x : Cell) (e : Eng) (st : EngState) : (x.setEng e st).ckptlim = x.ckptlim := by cases e <;> rfl
@[simp] theorem Cell.setEng_fflags (x : Cell) (e : Eng) (st : EngState) : (x.setEng e st).fflags = x.fflags := by cases e <;> rfl
@[simp] theorem Cell.setEng_satcnt (x : Cell) (e : Eng) (st : EngState) : (x.setEng e st).satcnt = x.satcnt := by cases e <;> rfl
@[simp] theorem Cell.setEng_seed (x : Cell) (e : Eng) (st : EngState) : (x.setEng e st).seed = x.seed := by cases e <;> rfl
@[simp] theorem Cell.setEng_watch (x : Cell) (e : Eng) (st : EngState) : (x.setEng e st).watch = x.watch := by cases e <;> rfl
@[simp] theorem Cell.setEng_pevsel (x : Cell) (e : Eng) (st : EngState) : (x.setEng e st).pevsel = x.pevsel := by cases e <;> rfl
@[simp] theorem Cell.setEng_pcnt (x : Cell) (e : Eng) (st : EngState) : (x.setEng e st).pcnt = x.pcnt := by cases e <;> rfl
@[simp] theorem Cell.setEng_owner (x : Cell) (e : Eng) (st : EngState) : (x.setEng e st).owner = x.owner := by cases e <;> rfl
@[simp] theorem Cell.setEng_iter (x : Cell) (e : Eng) (st : EngState) : (x.setEng e st).iter = x.iter := by cases e <;> rfl
@[simp] theorem Cell.setEng_starting (x : Cell) (e : Eng) (st : EngState) : (x.setEng e st).starting = x.starting := by cases e <;> rfl
@[simp] theorem Cell.setEng_lastRec (x : Cell) (e : Eng) (st : EngState) : (x.setEng e st).lastRec = x.lastRec := by cases e <;> rfl
@[simp] theorem Cell.setEng_reserved (x : Cell) (e : Eng) (st : EngState) : (x.setEng e st).reserved = x.reserved := by cases e <;> rfl
@[simp] theorem Cell.setEng_carve (x : Cell) (e : Eng) (st : EngState) : (x.setEng e st).carve = x.carve := by cases e <;> rfl
@[simp] theorem Cell.setEng_ovfptr (x : Cell) (e : Eng) (st : EngState) : (x.setEng e st).ovfptr = x.ovfptr := by cases e <;> rfl
@[simp] theorem Cell.setEng_ovflen (x : Cell) (e : Eng) (st : EngState) : (x.setEng e st).ovflen = x.ovflen := by cases e <;> rfl
@[simp] theorem Cell.setEng_frozen (x : Cell) (e : Eng) (st : EngState) : (x.setEng e st).frozen = x.frozen := by cases e <;> rfl
@[simp] theorem Cell.setEng_supRun (x : Cell) (e : Eng) (st : EngState) : (x.setEng e st).supRun = x.supRun := by cases e <;> rfl
@[simp] theorem Cell.setEng_preempt (x : Cell) (e : Eng) (st : EngState) : (x.setEng e st).preempt = x.preempt := by cases e <;> rfl
@[simp] theorem Cell.setEng_ckptIdx (x : Cell) (e : Eng) (st : EngState) : (x.setEng e st).ckptIdx = x.ckptIdx := by cases e <;> rfl
@[simp] theorem Cell.setEng_watchEvents (x : Cell) (e : Eng) (st : EngState) : (x.setEng e st).watchEvents = x.watchEvents := by cases e <;> rfl
@[simp] theorem Cell.setEng_icache (x : Cell) (e : Eng) (st : EngState) : (x.setEng e st).icache = x.icache := by cases e <;> rfl
@[simp] theorem Cell.setEng_stfs (x : Cell) (e : Eng) (st : EngState) : (x.setEng e st).stfs = x.stfs := by cases e <;> rfl
@[simp] theorem Cell.setEng_uncorr (x : Cell) (e : Eng) (st : EngState) : (x.setEng e st).uncorr = x.uncorr := by cases e <;> rfl
@[simp] theorem Cell.setEng_regErr (x : Cell) (e : Eng) (st : EngState) : (x.setEng e st).regErr = x.regErr := by cases e <;> rfl

@[simp] theorem State.cell_modEng (s : State) (c d : Nat) (e : Eng) (f : EngState → EngState) :
    (s.modEng c e f).cell d = if d = c then (s.cell c).setEng e (f ((s.cell c).eng e)) else s.cell d := by
  simp [State.modEng]

@[simp] theorem State.eng_modEng (s : State) (c d : Nat) (e g : Eng) (f : EngState → EngState) :
    (s.modEng c e f).eng d g = if d = c ∧ g = e then f (s.eng c e) else s.eng d g := by
  by_cases hd : d = c <;> by_cases hg : g = e <;> simp [State.eng, hd, hg]

@[simp] theorem State.me_modMe (s : State) (f : EngState → EngState) : (s.modMe f).me = f s.me := by
  simp [State.me, State.modMe, State.eng]

@[simp] theorem State.here_modMe (s : State) (f : EngState → EngState) :
    (s.modMe f).here = s.here.setEng s.cur.eng (f s.me) := by
  simp [State.here, State.modMe, State.me, State.eng]

@[simp] theorem State.here_modHere (s : State) (f : Cell → Cell) : (s.modHere f).here = f s.here := by
  simp [State.here, State.modHere]

@[simp] theorem State.me_modHere (s : State) (f : Cell → Cell) : (s.modHere f).me = (f s.here).eng s.cur.eng := by
  simp [State.me, State.modHere, State.eng, State.here]

theorem State.me_eq (s : State) : s.me = s.here.eng s.cur.eng := rfl

/-! ## Scalar and predicate registers (R26, R99) -/

@[simp] theorem EngState.getS_zero (st : EngState) : st.getS 0#6 = 0#64 := rfl

theorem EngState.getS_setS (st : EngState) (r q : SReg) (v : Word) :
    (st.setS r v).getS q = if q = 0#6 then 0#64 else if q = r then v else st.getS q := by
  by_cases hq : q = 0#6
  · simp [hq]
  · by_cases hr : r = 0#6
    · have : q ≠ r := by rw [hr]; exact hq
      simp [EngState.setS, hr, hq, this]
    · by_cases h : q = r
      · subst h; simp [EngState.setS, EngState.getS, hr]
      · have : q.toNat ≠ r.toNat := fun hc => h (BitVec.eq_of_toNat_eq hc)
        simp [EngState.setS, EngState.getS, hr, hq, h, this]

@[simp] theorem EngState.getS_supersede (st : EngState) (r q : SReg) : (st.supersede r).getS q = st.getS q := rfl

@[simp] theorem State.setS_cur (s : State) (r : SReg) (v : Word) : (s.setS r v).cur = s.cur := by
  unfold State.setS; dsimp only; split <;> rfl

/-- The engine after a scalar register is written. -/
theorem State.me_setS (s : State) (r : SReg) (v : Word) : (s.setS r v).me = (s.me.supersede r).setS r v := by
  unfold State.setS
  dsimp only
  split
  · simp
  · cases h : s.cur.eng <;> simp [Cell.eng, Cell.setEng, h]

/-- What a scalar register reads after one is written: s0 reads zero, the destination the value, the others as before. -/
theorem State.getS_setS (s : State) (r q : SReg) (v : Word) :
    (s.setS r v).getS q = if q = 0#6 then 0#64 else if q = r then v else s.getS q := by
  simp [State.getS, State.me_setS, EngState.getS_setS]

@[simp] theorem EngState.getP_true (st : EngState) : st.getP 15#4 = true := by simp [EngState.getP]

theorem EngState.getP_setP (st : EngState) (p q : PReg) (v : Bool) :
    (st.setP p v).getP q = if q = 15#4 then true else if q = p then v else st.getP q := by
  by_cases hq : q = 15#4
  · simp [hq]
  · by_cases hp : p = 15#4
    · have : q ≠ p := by rw [hp]; exact hq
      simp [EngState.setP, hp, hq]
    · have hb : (BitVec.ofNat 16 (2 ^ p.toNat)).getLsbD q.toNat = decide (p = q) := by
        have key : ∀ (a b : BitVec 4), (BitVec.ofNat 16 (2 ^ a.toNat)).getLsbD b.toNat = decide (a = b) := by decide
        exact key p q
      have hlt : decide (q.toNat < 16) = true := decide_eq_true q.isLt
      have hq' : (q == 15#4) = false := beq_false_of_ne hq
      unfold EngState.setP EngState.getP
      rw [if_neg hp, if_neg hq]
      by_cases h : q = p
      · subst h
        cases v <;> simp only [if_true, if_false, Bool.false_eq_true, BitVec.getLsbD_or, BitVec.getLsbD_and, BitVec.getLsbD_not,
          hb, hlt, hq', decide_true, Bool.true_and, Bool.not_true, Bool.and_false, Bool.or_true, Bool.or_false]
      · have h' : decide (p = q) = false := decide_eq_false fun e => h e.symm
        cases v <;> simp only [if_true, if_false, h, Bool.false_eq_true, BitVec.getLsbD_or, BitVec.getLsbD_and,
          BitVec.getLsbD_not, hb, h', hlt, Bool.true_and, Bool.not_false, Bool.and_true, Bool.or_false]

/-- The engine after a predicate is written. -/
theorem State.me_setP (s : State) (p : PReg) (v : Bool) : (s.setP p v).me = s.me.setP p v := by
  unfold State.setP
  dsimp only
  split
  · simp
  · cases h : s.cur.eng <;> simp [Cell.eng, Cell.setEng, h]

@[simp] theorem State.setP_cur (s : State) (p : PReg) (v : Bool) : (s.setP p v).cur = s.cur := by
  unfold State.setP; dsimp only; split <;> rfl

/-- What a predicate reads after one is written. -/
theorem State.getP_setP (s : State) (p q : PReg) (v : Bool) :
    (s.setP p v).getP q = if q = 15#4 then true else if q = p then v else s.getP q := by
  simp [State.getP, State.me_setP, EngState.getP_setP]

/-! ## Vector and mask registers -/

@[simp] theorem fitLanes_length (x : List Lane) : (fitLanes x).length = 1024 := by
  rw [fitLanes, List.length_take, List.length_append, zeroLanes, List.length_replicate]; omega

theorem fitLanes_eq (x : List Lane) (h : x.length = 1024) : fitLanes x = x := by
  unfold fitLanes; rw [← h, List.take_left']; rfl

theorem Cell.getV_setV (x : Cell) (v w : Nat) (y : List Lane) (h : y.length = 1024) :
    (x.setV v y).getV w = if w = v then y else x.getV w := by
  by_cases hw : w = v <;> simp [Cell.getV, Cell.setV, hw, fitLanes_eq y h]

@[simp] theorem Cell.getV_length (x : Cell) (v : Nat) : (x.getV v).length = 1024 := fitLanes_length _

/-- An engine reads a vector register as it stands where no write of another engine races with the read. -/
theorem Cell.readV_of_ordered (x : Cell) (e : Eng) (o : List (Nat × BitVec 1024)) (v : Nat) (h : x.racing e v = none) :
    x.readV e o v = x.getV v := by
  simp [Cell.readV, h]

theorem mixLanes_length (mk : BitVec 1024) (a b : List Lane) (ha : a.length = 1024) (hb : b.length = 1024) :
    (mixLanes mk a b).length = 1024 := by
  unfold mixLanes
  split
  · exact hb
  · split
    · exact ha
    · simp [lanesOf]

@[simp] theorem mixLanes_zero (a b : List Lane) : mixLanes 0#1024 a b = b := if_pos rfl

/-- A lane of two images mixed under a mask. -/
theorem lane_mixLanes (mk : BitVec 1024) (a b : List Lane) (l : Nat) (hl : l < 1024) :
    lane (mixLanes mk a b) l = if mk.getLsbD l then lane a l else lane b l := by
  unfold mixLanes
  split
  · next h => simp [h]
  · split
    · next h => rw [h, BitVec.getLsbD_allOnes]; simp [hl]
    · simp [lane, lanesOf, hl]

/-- What an engine's write leaves of a cell: the register with the lanes that it writes and wins, and its history. -/
theorem Cell.putV_eq (x : Cell) (e : Eng) (o : List (Nat × BitVec 1024)) (v : Nat) (mk : BitVec 1024) (y : List Lane) :
    x.putV e o v mk y = { x.setV v (mixLanes (mk &&& ~~~x.lost e o v) y (x.getV v)) with
      vhist := tabSet none x.vhist v (some { by' := e, old := x.getV v, lanes := mk, stamp := x.vstamp + 1 })
      vstamp := x.vstamp + 1 } := rfl

/-- A vector register after an engine's write. -/
theorem Cell.getV_putV (x : Cell) (e : Eng) (o : List (Nat × BitVec 1024)) (v w : Nat) (mk : BitVec 1024) (y : List Lane)
    (hy : y.length = 1024) :
    (x.putV e o v mk y).getV w = if w = v then mixLanes (mk &&& ~~~x.lost e o v) y (x.getV v) else x.getV w := by
  rw [Cell.putV_eq]; exact Cell.getV_setV x v w _ (mixLanes_length _ _ _ hy (Cell.getV_length _ _))

/-- An engine's own write races with nothing that it reads afterwards. -/
theorem Cell.racing_putV (x : Cell) (e : Eng) (o : List (Nat × BitVec 1024)) (v w : Nat) (mk : BitVec 1024) (y : List Lane) :
    (x.putV e o v mk y).racing e w = if w = v then none else x.racing e w := by
  rw [Cell.putV_eq]
  generalize hu : ({ by' := e, old := x.getV v, lanes := mk, stamp := x.vstamp + 1 } : VWrite) = u
  have hg : tabGet none (tabSet none x.vhist v (some u)) w = if w = v then some u else tabGet none x.vhist w :=
    tabGet_set _ _ _ _ _
  have hs : ∀ r : Cell, r.eng e = x.eng e → r.vhist ≠ [] →
      r.racing e w = (tabGet none r.vhist w).filter fun u => u.by' != e && decide ((x.eng e).synced < u.stamp) := by
    intro r hr hn
    simp [Cell.racing, hr, List.isEmpty_iff, hn]
  have hne : tabSet none x.vhist v (some u) ≠ [] := by
    intro hnil
    have := tabGet_set none x.vhist v v (some u)
    rw [hnil] at this; simp [tabGet] at this
  rw [hs _ (by cases e <;> rfl) hne, hg]
  split
  · simp [← hu]
  · unfold Cell.racing
    split
    · next h => rw [List.isEmpty_iff] at h; simp [h, tabGet]
    · rfl

/-- An engine's next read of a vector register after a write of it. -/
theorem Cell.readV_putV (x : Cell) (e : Eng) (o : List (Nat × BitVec 1024)) (v w : Nat) (mk : BitVec 1024) (y : List Lane)
    (hy : y.length = 1024) :
    (x.putV e o v mk y).readV e o w = if w = v then mixLanes (mk &&& ~~~x.lost e o v) y (x.getV v) else x.readV e o w := by
  unfold Cell.readV
  rw [Cell.racing_putV, Cell.getV_putV _ _ _ _ _ _ _ hy]
  by_cases h : w = v <;> simp [h]

theorem Cell.getM_setM (x : Cell) (m n : MNum) (v : BitVec 1024) :
    (x.setM m v).getM n = if n = 15#4 then BitVec.allOnes 1024 else if n = m then v else x.getM n := by
  by_cases hn : n = 15#4
  · simp [Cell.getM, hn]
  · by_cases hm : m = 15#4
    · have : n ≠ m := by rw [hm]; exact hn
      simp [Cell.setM, hm, hn, this]
    · by_cases h : n = m
      · subst h; simp [Cell.setM, Cell.getM, hm]
      · have : n.toNat ≠ m.toNat := fun hc => h (BitVec.eq_of_toNat_eq hc)
        simp [Cell.setM, Cell.getM, hm, hn, h, this]

/-- A mask register after an engine's write. -/
theorem Cell.getM_putM (x : Cell) (e : Eng) (m n : MNum) (v : BitVec 1024) :
    (x.putM e m v).getM n = if n = 15#4 then BitVec.allOnes 1024 else if n = m then v else x.getM n :=
  Cell.getM_setM x m n v

/-- An engine's next read of a mask register after a write of it. -/
theorem Cell.readM_putM (x : Cell) (e : Eng) (o : List (Nat × BitVec 1024)) (m n : MNum) (v : BitVec 1024) :
    (x.putM e m v).readM e o n = if n = 15#4 then BitVec.allOnes 1024 else if n = m then v else x.readM e o n := by
  by_cases hn : n = 15#4
  · simp [Cell.readM, Cell.getM_putM, hn]
  · by_cases h : n = m
    · subst h
      have hg : (x.putM e n v).getM n = v := by rw [Cell.getM_putM]; simp [hn]
      have hh : tabGet none (x.putM e n v).mhist n.toNat = some { by' := e, old := x.getM n, stamp := x.vstamp + 1 } := by
        unfold Cell.putM; dsimp only; rw [if_neg hn, tabGet_set, if_pos rfl]
      simp [Cell.readM, hn, hh, hg]
    · have hne : n.toNat ≠ m.toNat := fun hc => h (BitVec.eq_of_toNat_eq hc)
      have hh : tabGet none (x.putM e m v).mhist n.toNat = tabGet none x.mhist n.toNat := by
        unfold Cell.putM; dsimp only; split
        · rfl
        · rw [tabGet_set, if_neg hne]
      have he : (x.putM e m v).eng e = x.eng e := by unfold Cell.putM Cell.setM; split <;> cases e <;> rfl
      simp [Cell.readM, Cell.getM_putM, hn, h, hh, he]

/-- An engine reads a mask register as it stands where no other engine has written it since the last ordering (R29). -/
theorem Cell.readM_of_ordered (x : Cell) (e : Eng) (o : List (Nat × BitVec 1024)) (m : MNum) (h : tabGet none x.mhist m.toNat = none) :
    x.readM e o m = x.getM m := by
  simp [Cell.readM, h]

/-- What a ring register holds after one is written. -/
theorem Cell.getR_setR (x : Cell) (g k : Nat) (r : Ring) : (x.setR g r).getR k = if k = g then r else x.getR k := by
  simp [Cell.getR, Cell.setR]

/-! ## Memory (R399) -/

@[simp] theorem State.setBytes_cells (s : State) (pa : Nat) (bs : List Byte) : (s.setBytes pa bs).cells = s.cells := by
  unfold State.setBytes; split <;> rfl

/-- A byte after a run of bytes is stored. -/
theorem State.byte_setBytes_of_not_held (s : State) (pa k : Nat) (bs : List Byte) (h : s.held pa = false)
    (hc : tabGet none s.own.cache k = none) :
    (s.setBytes pa bs).byte k = if pa ≤ k ∧ k < pa + bs.length then bs.getD (k - pa) 0#8 else s.byte k := by
  simp only [State.setBytes, h, Bool.false_eq_true, if_false, State.byte, hc]
  exact tabGet_splice _ _ _ _ _

/-- Storing bytes changes no byte outside them. -/
theorem State.byte_setBytes_outside (s : State) (pa k : Nat) (bs : List Byte) (h : ¬(pa ≤ k ∧ k < pa + bs.length)) :
    (s.setBytes pa bs).byte k = s.byte k := by
  unfold State.setBytes
  split
  · simp only [State.byte, tabGet_splice, List.length_map, if_neg h]
  · simp only [State.byte, tabGet_splice, if_neg h]

/-- Storing bytes keeps memory canonical. -/
theorem State.setBytes_wf (s : State) (pa : Nat) (bs : List Byte) (h : Memory.wf s.mem = true) :
    Memory.wf (s.setBytes pa bs).mem = true := by
  unfold State.setBytes
  split
  · exact h
  · exact tabWf_splice _ _ _ _ h

theorem State.scrubbed_mem (s : State) (ps : List Put) : (s.scrubbed ps).mem = s.mem := by
  unfold State.scrubbed; split <;> rfl

theorem State.scrubbed_byte (s : State) (ps : List Put) (k : Nat) : (s.scrubbed ps).byte k = s.byte k := by
  unfold State.scrubbed; split <;> rfl

theorem State.untagged_mem (s : State) (ks : List Nat) : (s.untagged ks).mem = s.mem := by
  unfold State.untagged; split <;> rfl

theorem State.untagged_byte (s : State) (ks : List Nat) (k : Nat) : (s.untagged ks).byte k = s.byte k := by
  unfold State.untagged; split <;> rfl

theorem State.tagged_mem (s : State) (a : Agent) (sc : Option Scope) (ks : List Nat) (n : Nat) :
    (s.tagged a sc ks n).mem = s.mem := by
  unfold State.tagged; split <;> rfl

theorem State.tagged_byte (s : State) (a : Agent) (sc : Option Scope) (ks : List Nat) (n k : Nat) :
    (s.tagged a sc ks n).byte k = s.byte k := by
  unfold State.tagged; split <;> rfl

/-- Performing writes keeps memory canonical. -/
theorem State.puts_wf (s : State) (ps : List Put) (h : Memory.wf s.mem = true) : Memory.wf (s.puts ps).mem = true := by
  unfold State.puts
  rw [State.untagged_mem, State.scrubbed_mem]
  induction ps generalizing s with
  | nil => exact h
  | cons p r ih => exact ih _ (State.setBytes_wf _ _ _ h)

/-- Performing writes changes no byte that none of them names. -/
theorem State.byte_puts_outside (s : State) (ps : List Put) (k : Nat) (h : ∀ p ∈ ps, p.1 ≠ k) :
    (s.puts ps).byte k = s.byte k := by
  unfold State.puts
  rw [State.untagged_byte, State.scrubbed_byte]
  induction ps generalizing s with
  | nil => rfl
  | cons p r ih =>
    rw [List.foldl_cons, ih _ fun q hq => h q (List.mem_cons_of_mem _ hq)]
    have := h p (List.mem_cons_self ..)
    exact State.byte_setBytes_outside _ _ _ _ (by simp; omega)

end Sys2Proof.Machine
end

