-- ==== Sys2Proof/Certificates/Slice0/Obligations.lean ====
section
/-! DEFINITION. The statements about the machine: what each says comes from the rules of the specification that it
cites, in the words of Safety.lean and of the model's shared operations. -/

open Sys2Proof Sys2Proof.Machine

/-- Put out of sight what an engine has read ahead. -/
def Sys2Proof.Claims.hideAhead (e : Eng) (x : Cell) : Cell := x.setEng e { x.eng e with ahead := [] }

/-- Put out of sight what an acquire orders (R302): what the engine has read ahead, and the writes to vector registers that
it has synchronised with. -/
def Sys2Proof.Claims.hideSync (e : Eng) (x : Cell) : Cell := x.setEng e { x.eng e with ahead := [], synced := 0 }

open Sys2Proof.Claims

/-! ## Tokens, the slip window and predicates (01 R15, R20–R22) -/

/-- R22: a token bit that names a neighbour which does not exist raises ENC_ILLEGAL, and no token moves. The trap waits
until every older instruction of the engine has retired (R36, R238). -/
def Obligations.TokenBitOfAbsentNeighbourTraps : Prop :=
  ∀ (i : Instr) (x : Bool) (h : Hdr) (uses : List SReg) (s : State),
    framed i = some (x, h, uses) → tokensExist s.here.vup s.cur.eng h = false → s.cur.eng ≠ .sup →
    (s.here.retired s.cur.eng = true →
      exec i s = .next (s.takeTrap s.cur.cell s.cur.eng { cause := 0x01#8, detail := 3, x }) ∧
      (s.takeTrap s.cur.cell s.cur.eng { cause := 0x01#8, detail := 3, x }).here.tok = s.here.tok) ∧
    (s.here.retired s.cur.eng = false →
      ∃ t, exec i s = .next t ∧ t.me.stall = .fault ∧ t.me.pc = s.me.pc ∧ t.me.step = s.me.step ∧ Keeps nothing s t)

/-- R15: an engine that would pass the slip window stalls before it issues, and takes no token and no queue entry. -/
def Sys2Proof.Claims.SlipWindowStalls : Prop :=
  ∀ (i : Instr) (x : Bool) (h : Hdr) (uses : List SReg) (s : State),
    framed i = some (x, h, uses) → tokensExist s.here.vup s.cur.eng h = true →
    (∃ T, s.here.trailing = some T ∧ s.me.step + 1 > T + s.here.slipw.toNat) → s.cur.eng ≠ .sup →
    ∃ t, exec i s = .next t ∧ t.me.stall = .window ∧ t.me.pc = s.me.pc ∧ t.me.step = s.me.step ∧
      t.here.tok = s.here.tok ∧ t.here.q = s.here.q ∧ Keeps nothing s t

/-- R20: until every queue that it pops holds a token and every queue that it pushes holds fewer than 32, the engine
stalls on the instruction and takes nothing; each queue keeps the cycle in which its own stall began (R25). -/
def Sys2Proof.Claims.MissingTokenStalls : Prop :=
  ∀ (i : Instr) (x : Bool) (h : Hdr) (uses : List SReg) (s : State) (k : Nat),
    framed i = some (x, h, uses) → tokensExist s.here.vup s.cur.eng h = true → s.here.windowOpen s.cur.eng = true →
    s.here.badPred s.cur.eng h.pred = false →
    (s.me.getP h.pred ≠ h.neg → uses.any s.me.loading = false ∧
      uses.any (fun r => s.here.badReg (64 * engNum s.cur.eng + r.toNat)) = false) →
    s.me.resumes = false →
    ((k ∈ popsOf s.here.vup s.cur.eng h ∧ tabGet 0 s.here.tok k = 0) ∨
     (k ∈ pushesOf s.here.vup s.cur.eng h.rq h.fq ∧ 32 ≤ tabGet 0 s.here.tok k + tabGet 0 s.here.tokReserved k)) →
    ∃ t, exec i s = .next t ∧ t.me.stall = .queue ∧
      (k, ((s.me.stalled.find? fun w => w.1 == k).map (·.2)).getD s.cycle) ∈ t.me.stalled ∧ t.me.pc = s.me.pc ∧ t.me.step = s.me.step ∧
      t.here.tok = s.here.tok ∧ t.here.tokReserved = s.here.tokReserved ∧ Keeps nothing s t

/-- R15, R20: an engine held back by the slip window or by a queue stands, and takes nothing. -/
def Obligations.StallsTakeNothing : Prop :=
  Claims.SlipWindowStalls ∧ Claims.MissingTokenStalls

/-- R21: a predicated-false instruction moves its tokens exactly as a true one does, passes, and has no other effect; it
reads no scalar. -/
def Sys2Proof.Claims.FalsePredicateOnlyMovesTokens : Prop :=
  ∀ (i : Instr) (x : Bool) (h : Hdr) (uses : List SReg) (s : State),
    framed i = some (x, h, uses) → tokensExist s.here.vup s.cur.eng h = true → s.here.windowOpen s.cur.eng = true →
    s.here.badPred s.cur.eng h.pred = false →
    s.here.tokensReady s.cur.eng h s.me.resumes = true → s.me.getP h.pred = h.neg →
    ∃ t, exec i s = .next t ∧ t = s.finish s.cur.cell s.cur.eng h s.me.resumes (s.me.pc + 16) ∧
      Passes s t (s.me.pc + 16) ∧ Keeps nothing s t

/-- R20: an instruction takes its pops as it issues, and its pushes become visible when it retires: at once, where its
engine has nothing outstanding. Stated of MARK, which then only orders what the engine has read ahead (R122). -/
def Sys2Proof.Claims.MarkMovesItsTokens : Prop :=
  ∀ (e : Eng) (h : Hdr) (s : State),
    s.ready h [] = true → s.me.resumes = false → s.me.queue = [] → s.me.retire = [] →
    (s.cur.eng = .m → s.here.mcmds = []) →
    ∃ t, exec (.mark e h) s = .next t ∧ Passes s t (s.me.pc + 16) ∧ Keeps hideAhead s t ∧ t.me.ahead = [] ∧
      (∀ k, tabGet 0 t.here.tok k =
        tabGet 0 s.here.tok k - (popsOf s.here.vup s.cur.eng h).count k + (pushesOf s.here.vup s.cur.eng h.rq h.fq).count k) ∧
      ∀ k, tabGet 0 t.here.tokReserved k = tabGet 0 s.here.tokReserved k

/-- R20–R22: an instruction moves its tokens as it passes, whether its predicate is true or false. -/
def Obligations.TokensMoveAsInstructionsPass : Prop :=
  Claims.FalsePredicateOnlyMovesTokens ∧ Claims.MarkMovesItsTokens


namespace Sys2Proof.Claims

/-! ## What the S results are, in the words of the rules -/

/-- The bits that a field descriptor extracts from a 64-bit source (R104). -/
def fieldBits (pos w : Nat) : Nat := if pos < 64 then min w (64 - pos) else 0

/-- A quotient under R102. -/
def isQuotient (u : Bool) (a b v : Word) : Prop :=
  if b = 0#64 then v = 0xFFFFFFFFFFFFFFFF#64
  else if u then v.toNat = a.toNat / b.toNat
  else if a = 0x8000000000000000#64 ∧ b = 0xFFFFFFFFFFFFFFFF#64 then v = a
  else v.toInt = a.toInt.tdiv b.toInt

/-- A remainder under R102: it has the sign of a. -/
def isRemainder (u : Bool) (a b v : Word) : Prop :=
  if b = 0#64 then v = a
  else if u then v.toNat = a.toNat % b.toNat
  else v.toInt = a.toInt.tmod b.toInt

/-- The S instructions that compute one scalar register without floating point: header, registers read, destination, and
what the result v must be (R101–R105, R108). -/
def integerResult (s : State) : Instr → Option (Hdr × List SReg × SReg × (Word → Prop))
  | .add h sd sa b => some (h, sa :: srcRegs b, sd, fun v => v = s.getS sa + s.src b)
  | .sub h sd sa b => some (h, sa :: srcRegs b, sd, fun v => v = s.getS sa - s.src b)
  | .mul h sd sa b => some (h, sa :: srcRegs b, sd, fun v => v.toNat = (s.getS sa).toNat * (s.src b).toNat % 2 ^ 64)
  | .mulh h sd sa b u => some (h, sa :: srcRegs b, sd, fun v =>
      if u then v.toNat = (s.getS sa).toNat * (s.src b).toNat / 2 ^ 64
      else v.toInt = (s.getS sa).toInt * (s.src b).toInt / 2 ^ 64)
  | .div h sd sa b u => some (h, sa :: srcRegs b, sd, isQuotient u (s.getS sa) (s.src b))
  | .rem h sd sa b u => some (h, sa :: srcRegs b, sd, isRemainder u (s.getS sa) (s.src b))
  | .and h sd sa b => some (h, sa :: srcRegs b, sd, fun v => ∀ i, v.getLsbD i = ((s.getS sa).getLsbD i && (s.src b).getLsbD i))
  | .or h sd sa b => some (h, sa :: srcRegs b, sd, fun v => ∀ i, v.getLsbD i = ((s.getS sa).getLsbD i || (s.src b).getLsbD i))
  | .xor h sd sa b => some (h, sa :: srcRegs b, sd, fun v => ∀ i, v.getLsbD i = ((s.getS sa).getLsbD i ^^ (s.src b).getLsbD i))
  | .shl h sd sa b => some (h, sa :: srcRegs b, sd, fun v => v.toNat = (s.getS sa).toNat * 2 ^ (s.src b).toNat % 2 ^ 64)
  | .shr h sd sa b => some (h, sa :: srcRegs b, sd, fun v => v.toNat = (s.getS sa).toNat / 2 ^ (s.src b).toNat)
  | .sra h sd sa b => some (h, sa :: srcRegs b, sd, fun v => v.toInt = (s.getS sa).toInt / 2 ^ (s.src b).toNat)
  | .rol h sd sa b => some (h, sa :: srcRegs b, sd, fun v =>
      ∀ i < 64, v.getLsbD ((i + (s.src b).toNat) % 64) = (s.getS sa).getLsbD i)
  | .ror h sd sa b => some (h, sa :: srcRegs b, sd, fun v =>
      ∀ i < 64, v.getLsbD i = (s.getS sa).getLsbD ((i + (s.src b).toNat) % 64))
  | .min h sd sa b u => some (h, sa :: srcRegs b, sd, fun v =>
      if u then v.toNat = min (s.getS sa).toNat (s.src b).toNat else v.toInt = min (s.getS sa).toInt (s.src b).toInt)
  | .max h sd sa b u => some (h, sa :: srcRegs b, sd, fun v =>
      if u then v.toNat = max (s.getS sa).toNat (s.src b).toNat else v.toInt = max (s.getS sa).toInt (s.src b).toInt)
  | .clz h sd sa => some (h, [sa], sd, fun v => v.toNat ≤ 64 ∧ (∀ i < v.toNat, (s.getS sa).getLsbD (63 - i) = false) ∧
      (v.toNat < 64 → (s.getS sa).getLsbD (63 - v.toNat) = true))
  | .ctz h sd sa => some (h, [sa], sd, fun v => v.toNat ≤ 64 ∧ (∀ i < v.toNat, (s.getS sa).getLsbD i = false) ∧
      (v.toNat < 64 → (s.getS sa).getLsbD v.toNat = true))
  | .popc h sd sa => some (h, [sa], sd, fun v => v.toNat = (List.range 64).countP fun i => (s.getS sa).getLsbD i)
  | .brev h sd sa => some (h, [sa], sd, fun v => ∀ i < 64, v.getLsbD (63 - i) = (s.getS sa).getLsbD i)
  | .bfx h sd sa f => some (h, sa :: srcRegs f, sd, fun v =>
      let pos := (s.src f).toNat % 256
      let n := fieldBits pos ((s.src f).toNat / 256 % 256)
      ∀ i < 64, v.getLsbD i = (decide (i < n) && (s.getS sa).getLsbD (pos + i)))
  | .bfxs h sd sa f => some (h, sa :: srcRegs f, sd, fun v =>
      let pos := (s.src f).toNat % 256
      let n := fieldBits pos ((s.src f).toNat / 256 % 256)
      ∀ i < 64, v.getLsbD i = (decide (0 < n) && (s.getS sa).getLsbD (pos + min i (n - 1))))
  | .bfi h sd sa f sc => some (h, sa :: sc :: srcRegs f, sd, fun v =>
      let pos := (s.src f).toNat % 256
      let n := fieldBits pos ((s.src f).toNat / 256 % 256)
      ∀ i < 64, v.getLsbD i = if pos ≤ i ∧ i < pos + n then (s.getS sa).getLsbD (i - pos) else (s.getS sc).getLsbD i)
  | .sext h sd sa sz => some (h, [sa], sd, fun v =>
      let top := match sz with | .b => 7 | .h => 15 | .w => 31
      ∀ i < 64, v.getLsbD i = (s.getS sa).getLsbD (min i top))
  | .li h sd imm => some (h, [], sd, fun v => v = imm)
  | .addx h sd sa sb sh imm => some (h, [sa, sb], sd, fun v =>
      v.toNat = ((s.getS sa).toNat + (s.getS sb).toNat * 2 ^ sh.toNat + imm.toNat) % 2 ^ 64)
  | .sel h sd sa b pc => some (h, sa :: srcRegs b, sd, fun v => v = if s.getP pc then s.getS sa else s.src b)
  | _ => none

/-- The truth of a condition code (R106). -/
def isTrue (cc : CC) (a b : Word) : Bool :=
  let x := value32 (a.setWidth 32)
  let y := value32 (b.setWidth 32)
  match cc with
  | .eq => decide (a = b) | .ne => decide (a ≠ b)
  | .lt => decide (a.toInt < b.toInt) | .ge => decide (a.toInt ≥ b.toInt)
  | .le => decide (a.toInt ≤ b.toInt) | .gt => decide (a.toInt > b.toInt)
  | .ltu => decide (a.toNat < b.toNat) | .geu => decide (a.toNat ≥ b.toNat)
  | .leu => decide (a.toNat ≤ b.toNat) | .gtu => decide (a.toNat > b.toNat)
  | .feq => fvEq x y | .fne => !fvEq x y
  | .flt => fvLt x y | .fle => fvLt x y || fvEq x y
  | .funord => x.isNan || y.isNan

/-- The predicates that an S instruction reads beside that of its header. -/
def predicatesRead : Instr → List PReg
  | .pand _ _ pa pb _ _ | .por _ _ pa pb _ _ | .pxor _ _ pa pb _ _ => [pa, pb]
  | .pnot _ _ pa => [pa]
  | .sel _ _ _ _ pc => [pc]
  | _ => []

/-- None of the predicates that an instruction reads has an uncorrectable error (R435). -/
def predicatesSound (s : State) (i : Instr) : Prop := ∀ p ∈ predicatesRead i, s.here.badPred s.cur.eng p = false

/-- The S instructions that compute a predicate: header, registers read, destination and truth (R106, R107). -/
def predicateResult (s : State) : Instr → Option (Hdr × List SReg × PReg × Bool)
  | .cmp h pd sa b cc => some (h, sa :: srcRegs b, pd, isTrue cc (s.getS sa) (s.src b))
  | .pand h pd pa pb na nb => some (h, [], pd, (s.getP pa != na) && (s.getP pb != nb))
  | .por h pd pa pb na nb => some (h, [], pd, (s.getP pa != na) || (s.getP pb != nb))
  | .pxor h pd pa pb na nb => some (h, [], pd, (s.getP pa != na) != (s.getP pb != nb))
  | .pnot h pd pa => some (h, [], pd, !s.getP pa)
  | _ => none

/-- The scalar float instructions: header, registers read, destination, result and flags (R109, R110), over the shared
float operations. -/
def floatResult (s : State) : Instr → Option (Hdr × List SReg × SReg × Word × Flags)
  | .sfadd h sd sa b rnd =>
      let r := fadd (lo32 (s.getS sa)) (lo32 (s.src b)) (s.rmReg rnd sd.toNat 0)
      some (h, sa :: srcRegs b, sd, r.val.setWidth 64, r.fl)
  | .sfmul h sd sa b rnd =>
      let r := fmul (lo32 (s.getS sa)) (lo32 (s.src b)) (s.rmReg rnd sd.toNat 0)
      some (h, sa :: srcRegs b, sd, r.val.setWidth 64, r.fl)
  | .sfdiv h sd sa b rnd =>
      let r := fdiv (lo32 (s.getS sa)) (lo32 (s.src b)) (s.rmReg rnd sd.toNat 0)
      some (h, sa :: srcRegs b, sd, r.val.setWidth 64, r.fl)
  | .sffma h sd sa sb sc rnd =>
      let r := ffma (lo32 (s.getS sa)) (lo32 (s.getS sb)) (lo32 (s.getS sc)) false (s.rmReg rnd sd.toNat 0)
      some (h, [sa, sb, sc], sd, r.val.setWidth 64, r.fl)
  | .sfcvt h sd sa op rnd =>
      let m := s.rmReg rnd sd.toNat 0
      match op with
      | .f2i =>
        let r := toIntRange (value32 (lo32 (s.getS sa))) (-(2 ^ 63)) (2 ^ 63 - 1) m
        some (h, [sa], sd, BitVec.ofInt 64 r.val, r.fl)
      | .f2u =>
        let r := toIntRange (value32 (lo32 (s.getS sa))) 0 (2 ^ 64 - 1) m
        some (h, [sa], sd, BitVec.ofInt 64 r.val, r.fl)
      | .i2f =>
        let r := toLane (intVal (s.getS sa).toInt) m
        some (h, [sa], sd, r.val.setWidth 64, r.fl)
      | .u2f =>
        let r := toLane (intVal (s.getS sa).toNat) m
        some (h, [sa], sd, r.val.setWidth 64, r.fl)
  | _ => none

/-- Put one scalar register of an engine out of sight, with the loads that would still write it and its error mark. -/
def hideS (r : SReg) (e : Eng) (x : Cell) : Cell :=
  { (x.setEng e (((x.eng e).supersede r).setS r 0#64)) with
    regErr := tabSet false x.regErr (64 * engNum e + r.toNat) false }

/-- Put one predicate of an engine out of sight, with its error mark. -/
def hideP (p : PReg) (e : Eng) (x : Cell) : Cell :=
  { (x.setEng e ((x.eng e).setP p false)) with regErr := tabSet false x.regErr (4000 + 16 * engNum e + p.toNat) false }

/-- Put the five flags of an engine's group out of sight, SATCNT, and what the present cycle has added to them (R34, R93). -/
def hideFlags (g : Eng) (x : Cell) : Cell :=
  { x with fflags := x.fflags &&& ~~~(31#25 <<< flagShift g), satcnt := 0#64, tally := {} }

/-- The scalar register that an instruction without memory effect writes, with whether it may set flags of the S group. -/
def scalarDest : Instr → Option (SReg × Bool)
  | .add _ sd _ _ | .sub _ sd _ _ | .mul _ sd _ _ | .mulh _ sd _ _ _ | .div _ sd _ _ _ | .rem _ sd _ _ _ | .and _ sd _ _
  | .or _ sd _ _ | .xor _ sd _ _ | .shl _ sd _ _ | .shr _ sd _ _ | .sra _ sd _ _ | .rol _ sd _ _ | .ror _ sd _ _
  | .min _ sd _ _ _ | .max _ sd _ _ _ | .clz _ sd _ | .ctz _ sd _ | .popc _ sd _ | .brev _ sd _ | .bfx _ sd _ _
  | .bfxs _ sd _ _ | .bfi _ sd _ _ _ | .sext _ sd _ _ | .li _ sd _ | .addx _ sd _ _ _ _ | .sel _ sd _ _ _ | .mfs _ sd _
  | .vext _ sd _ _ _ | .vmpopc _ sd _ | .vmff _ sd _ | .wpwait _ sd _ _ _ | .ringWf _ _ sd _ _ none
  | .ringWe _ _ sd _ _ none | .ownTest _ sd _ => some (sd, false)
  | .sfadd _ sd _ _ _ | .sfmul _ sd _ _ _ | .sfdiv _ sd _ _ _ | .sffma _ sd _ _ _ _ | .sfcvt _ sd _ _ _ => some (sd, true)
  | _ => none

/-- The instructions among them that acquire or take a turn at a ring (R182, R302, R303). -/
def synchronises : Instr → Bool
  | .wpwait .. | .ringWf .. | .ringWe .. => true
  | _ => false

/-- Put the order of a ring's operations in one cycle out of sight (R182). -/
def hideTurns (x : Cell) : Cell := { x with ringTurn := [] }

end Sys2Proof.Claims

/-! ## Scalar results and their frame (04 R99–R110) -/

/-- R101–R105, R108: an S instruction that its frame lets act writes the result that the table gives into sd, or nothing
into s0 (R99), and passes; nothing else changes, and no flag is set (R102). -/
def Obligations.IntegerInstructionsWriteTheirResult : Prop :=
  ∀ (i : Instr) (h : Hdr) (uses : List SReg) (sd : SReg) (is : Word → Prop) (s : State),
    integerResult s i = some (h, uses, sd, is) → s.ready h uses = true → predicatesSound s i →
    ∃ v t, is v ∧ exec i s = .next t ∧ Passes s t (s.me.pc + 16) ∧ (t.getS sd = if sd = 0#6 then 0#64 else v) ∧
      Keeps (hideS sd) s t

/-- R106, R107: CMP and the predicate instructions write the truth into pd, or nothing into p15 (R99), and pass. -/
def Obligations.PredicateInstructionsWriteTheirTruth : Prop :=
  ∀ (i : Instr) (h : Hdr) (uses : List SReg) (pd : PReg) (v : Bool) (s : State),
    predicateResult s i = some (h, uses, pd, v) → s.ready h uses = true → predicatesSound s i →
    ∃ t, exec i s = .next t ∧ Passes s t (s.me.pc + 16) ∧ (t.getP pd = if pd = 15#4 then true else v) ∧
      Keeps (hideP pd) s t

/-- R109, R110: a scalar float instruction writes its result, bits 63:32 zero, sets its flags in the S group, and passes. -/
def Obligations.ScalarFloatsWriteResultAndFlags : Prop :=
  ∀ (i : Instr) (h : Hdr) (uses : List SReg) (sd : SReg) (v : Word) (fl : Flags) (s : State),
    floatResult s i = some (h, uses, sd, v, fl) → s.ready h uses = true →
    ∃ t, exec i s = .next t ∧ Passes s t (s.me.pc + 16) ∧ (t.getS sd = if sd = 0#6 then 0#64 else v) ∧
      t.here.fflags = (s.here.fflags ||| fl.setWidth 25) ∧ t.here.satcnt = s.here.satcnt ∧
      Keeps (fun e x => hideFlags .s (hideS sd e x)) s t

/-- The frame of the instructions that write one scalar register: whatever next state is reached without a trap, that
register of the engine's bank, the S flags of a float instruction, what an acquire orders and a turn at a ring, and what
passing or waiting moves are all that may differ; every byte of memory reads as before. -/
def Obligations.ScalarInstructionsChangeNothingElse : Prop :=
  ∀ (i : Instr) (sd : SReg) (fl : Bool) (s t : State),
    scalarDest i = some (sd, fl) → exec i s = .next t → t.untrapped s.cur.cell s.cur.eng →
    Keeps (fun e x =>
      let x := if synchronises i then hideTurns (hideSync e x) else x
      if fl then hideFlags .s (hideS sd e x) else hideS sd e x) s t

namespace Sys2Proof.Claims

/-! ## Memory accesses -/

/-- A state without its bytes, their errors and the releases that wrote them. -/
def noBytes (s : State) : State := { s with mem := [], ecc := [], relTags := [], own := { s.own with cache := [] } }

/-- Two states agree but for the bytes of some keys, what every instruction may change, and what f puts out of sight. -/
def KeepsOutside (ks : List Nat) (f : Eng → Cell → Cell) (s t : State) : Prop :=
  (noBytes t).modHere (fun x => (f s.cur.eng x).frame s.cur.eng) =
    (noBytes s).modHere (fun x => (f s.cur.eng x).frame s.cur.eng) ∧
  ∀ k, k ∉ ks → t.byte k = s.byte k

/-- Put an engine's queue of accesses out of sight, with the number of its next access. -/
def hideQueue (e : Eng) (x : Cell) : Cell := x.setEng e { x.eng e with queue := [], nextId := 0 }

/-- The value that a load gives for its bytes (R111): zero-extended, or sign-extended from their highest bit. -/
def isLoaded (u : Bool) (bs : List Byte) (v : Word) : Prop :=
  if u then v.toNat = leNat bs else ∀ i < 64, v.getLsbD i = (leNat bs).testBit (min i (8 * bs.length - 1))

/-- No access in the engine's queue must go before a new one (R301). -/
def goesFirst (s : State) (a : Access) : Prop := s.me.queue.any (fun q => mustFollow q.acc a) = false

/-- The new value of an atomic on n-bit operands (R114, R116): old value m, operand b, CAS value c. -/
def atomicValue {n : Nat} (op : AmoOp) (m b c : BitVec n) : BitVec n :=
  match op with
  | .add => m + b | .and => m &&& b | .or => m ||| b | .xor => m ^^^ b
  | .min u => if (if u then decide (m.toNat ≤ b.toNat) else decide (m.toInt ≤ b.toInt)) then m else b
  | .max u => if (if u then decide (b.toNat ≤ m.toNat) else decide (b.toInt ≤ m.toInt)) then m else b
  | .xchg => b
  | .cas => if m = b then c else m
  | .fadd => (fadd (m.setWidth 32) (b.setWidth 32) rmRne).val.setWidth n
  | .fmin => (fminmax false (m.setWidth 32) (b.setWidth 32)).setWidth n
  | .fmax => (fminmax true (m.setWidth 32) (b.setWidth 32)).setWidth n

/-- The bytes that an atomic leaves at its address. -/
def atomicBytes (op : AmoOp) (dbl : Bool) (old : Nat) (b c : Word) : List Byte :=
  if dbl then leBytes 8 (atomicValue op (BitVec.ofNat 64 old) b c).toNat
  else leBytes 4 (atomicValue op (BitVec.ofNat 32 old) (b.setWidth 32) (c.setWidth 32)).toNat

/-- The atomics: operation, operands and CAS register. -/
def atomicOf : Instr → Option (Hdr × AmoOp × AmoOps × SReg)
  | .amoAdd h o => some (h, .add, o, 0#6) | .amoAnd h o => some (h, .and, o, 0#6) | .amoOr h o => some (h, .or, o, 0#6)
  | .amoXor h o => some (h, .xor, o, 0#6) | .amoMin h o u => some (h, .min u, o, 0#6)
  | .amoMax h o u => some (h, .max u, o, 0#6) | .amoXchg h o => some (h, .xchg, o, 0#6)
  | .amoCas h o sc => some (h, .cas, o, sc) | .amoFadd h o => some (h, .fadd, o, 0#6)
  | .amoFmin h o => some (h, .fmin, o, 0#6) | .amoFmax h o => some (h, .fmax, o, 0#6)
  | _ => none

/-- The agent that an engine's access acts as (R283). -/
def self (s : State) : Agent := s.agentOf s.cur.cell s.cur.eng

/-- The access that an atomic makes at some keys, with the scopes of its acquire and its release (R115, R302). -/
def atomicAccess (s : State) (op : AmoOp) (o : AmoOps) (sc : SReg) (ks : List Nat) : Access :=
  .atomic op o.dbl ks (s.getS o.sb) (s.getS sc) o.sd
    { acq := if o.acq then some o.scope else none, rel := if o.rel then some o.scope else none }

/-- No release among the tags of some bytes has older plain accesses of its engine still in a queue. -/
def noDebts (s : State) (ks : List Nat) : Prop :=
  ∀ k ∈ ks, ∀ g ∈ tabGet [] s.relTags k, ∀ c, g.1.cell = some c →
    ∀ q ∈ (s.eng c g.1.eng).queue, q.acc.plain = true → g.2.2 ≤ q.id

/-- What an acquire finds: the accesses that precede the releases which it may return have been performed (R302–R305). -/
def found (s : State) (acq : Option Scope) (ks : List Nat) : State :=
  match acq with
  | some sc => s.settleDebts (self s) sc ks
  | none => s

/-- What the access of an atomic leaves: the old value, zero-extended, in its register; the new bytes at its keys; the
releases before it, and its own, to be acquired (R303); an acquire where it returns one that its scope joins (R304). -/
def atomicLeaves (s t : State) (op : AmoOp) (dbl : Bool) (ks : List Nat) (b c : Word) (rd : SReg) (ord : Order) : Prop :=
  let old := leNat (ks.map s.view)
  (t.getS rd = if rd = 0#6 then 0#64 else BitVec.ofNat 64 old) ∧
  (∀ k, t.byte k = (s.puts (fullPuts ks (atomicBytes op dbl old b c))).byte k) ∧
  (∀ k, ∀ g ∈ tabGet [] s.relTags k, g ∈ tabGet [] t.relTags k) ∧
  (∀ sc, ord.rel = some sc → ∀ k ∈ ks, (self s, sc, 0) ∈ tabGet [] t.relTags k) ∧
  ∀ sc, ord.acq = some sc → s.syncsWith (self s) sc ks = true → t.me.synced = s.here.vstamp

/-! ## Barrier objects, rings, queues -/

/-- Put the marks of a barrier operation out of sight: nothing of the cell but its destination. -/
def sameCells (f : Eng → Cell → Cell) (s t : State) : Prop :=
  ∀ c, (if c = s.cur.cell then (f s.cur.eng (t.cell c)).frame s.cur.eng else t.cell c) =
    if c = s.cur.cell then (f s.cur.eng (s.cell c)).frame s.cur.eng else s.cell c

/-- The object that an arrival of some bytes leaves, before Complete() looks at it, and the phase that it counts for; or
the detail of BAR_CORRUPT (R290). -/
def arrivalAt (b : Barrier) (add : Int) : Except Nat (Barrier × BitVec 32) :=
  let p := b.pending.toInt + add
  if p < -(2 ^ 39) ∨ 2 ^ 39 ≤ p then .error 2
  else if b.arrivals < b.expected then
    .ok ({ b with arrivals := b.arrivals + 1, pending := BitVec.ofInt 40 p }, b.phase)
  else if b.early < b.expected then
    .ok ({ b with early := b.early + 1, pending := BitVec.ofInt 40 p }, b.phase + 1)
  else .error 3

/-- The result and the new counters of a ring operation of n slots on a ring of the home cell, when it completes
(R179–R183): the value in sd and the ring. -/
def ringDone (hold : Nat → Bool) (r : Ring) (n : Nat) : Instr → Option (Word × Ring)
  | .ringWf .. => if n ≤ r.nslots ∧ n ≤ r.ready then some (BitVec.ofNat 64 r.ready, r) else none
  | .ringWe .. =>
      if n ≤ r.nslots ∧ r.used + n ≤ r.nslots ∧ r.used ≤ r.nslots ∧ ∀ j < n, hold ((r.t.toNat + j) % r.nslots) = false then
        some (r.addr r.t.toNat, r) else none
  | .ringClm .. => if n ≤ r.ready then some (r.addr r.k.toNat, { r with k := r.k + BitVec.ofNat 32 n }) else none
  | .ringPub .. =>
      if r.used + n ≤ r.nslots then
        some ((r.t + BitVec.ofNat 32 n).setWidth 64, { r with t := r.t + BitVec.ofNat 32 n }) else none
  | .ringPop .. =>
      if n ≤ r.claimed then some ((r.h + BitVec.ofNat 32 n).setWidth 64, { r with h := r.h + BitVec.ofNat 32 n }) else none
  | _ => none

/-- The ring operations: header, destination, ring, slots, and the scalar of .far. -/
def ringOf : Instr → Option (Hdr × SReg × GNum × BitVec 13 × Option SReg)
  | .ringWf _ h sd g n far | .ringWe _ h sd g n far | .ringClm _ h sd g n far | .ringPub _ h sd g n far
  | .ringPop _ h sd g n far => some (h, sd, g, n, far)
  | _ => none

/-- What the engine itself must have behind it before a ring operation acts: RING.PUB its earlier accesses and writes of the
slots (R181, R302), RING.POP its accesses, RING.WF and RING.CLM its releases (R302). -/
def ringWaits (s : State) (r : Ring) (n : Nat) : Instr → Prop
  | .ringPub .. => s.slotsWritten r n = true
  | .ringPop .. => s.me.queue = []
  | .ringWf .. | .ringClm .. => s.me.releasing = false
  | _ => True

/-- The engine as the read of RING.WE.load: a watchpoint matches it on S and W alone (R378). -/
def ringReader (s : State) : State :=
  if s.cur.eng = .s ∨ s.cur.eng = .w then s else s.modMe fun st => { st with watchPass := true }

/-- The special registers as R30 gives them, for the registers that have no unit of their own; MLAG and MMODE are those of
M's oldest command, or the next command's where M has none (R237). -/
def specialValue (s : State) (n : Nat) : Option Word :=
  let x := s.here
  match n with
  | 0x000 => some (BitVec.ofNat 64 (s.podDev.toNat * 256 + s.cur.cell))
  | 0x001 => some (BitVec.ofNat 64 s.cycle)
  | 0x002 => some ((x.owner.getD 0#14).setWidth 64)
  | 0x008 => some (if x.vup then 1#64 else 0#64)
  | 0x009 => some (x.slipw.setWidth 64)
  | 0x00A => some (x.qtimeout.setWidth 64)
  | 0x00B => some (x.ckptlim.setWidth 64)
  | 0x010 => some (BitVec.ofNat 64 (match x.mcmds with | m :: _ => m.lag | [] => x.lag))
  | 0x011 =>
    let m := match x.mcmds with | m :: _ => m.mode | [] => x.mode
    some (BitVec.ofNat 64 ((match m.rnd with | .rne => 0 | .rtz => 1 | .rdn => 2 | .rup => 3 | .rsr => 4) +
      if m.zlog.isSome then 8 else 0))
  | 0x018 => some (x.fflags.setWidth 64)
  | 0x019 => some x.satcnt
  | 0x01A => some x.seed
  | 0x020 => some (tabGet 0#64 x.watch 0) | 0x021 => some (tabGet 0#64 x.watch 1)
  | 0x022 => some (tabGet 0#64 x.watch 2) | 0x023 => some (tabGet 0#64 x.watch 3)
  | n =>
    if 0x40 ≤ n ∧ n < 0x50 then some ((tabGet 0#17 x.pevsel (n - 0x40)).setWidth 64)
    else if 0x50 ≤ n ∧ n < 0x60 then some (tabGet 0#64 x.pcnt (n - 0x50))
    else none

/-- A cell after MTS of a register that cell programs may write (R30, R32–R35): SLIPW clipped to 64–8,192, FFLAGS write
one to clear, but a flag set in the same cycle stays set (R34), and saturations of the same cycle add to a value written to
SATCNT (R93); ENGCFG only while no token is held. -/
def specialWritten (x : Cell) (now n : Nat) (v : Word) : Cell :=
  let t : Tally := if x.tally.cycle = now then x.tally else {}
  match n with
  | 0x008 => if x.tok = [] ∧ x.tokReserved = [] then { x with vup := v.getLsbD 0 } else x
  | 0x009 => { x with slipw := BitVec.ofNat 14 (max 64 (min 8192 (v.toNat % 2 ^ 14))) }
  | 0x00A => { x with qtimeout := v.setWidth 32 }
  | 0x018 => { x with fflags := x.fflags &&& (~~~(v.setWidth 25) ||| t.flags) }
  | 0x019 => { x with satcnt := BitVec.ofNat 64 (min (v.toNat + t.sat) (2 ^ 64 - 1)) }
  | 0x01A => { x with seed := v }
  | n =>
    if 0x40 ≤ n ∧ n < 0x50 then { x with pevsel := tabSet 0#17 x.pevsel (n - 0x40) (v.setWidth 17) }
    else if 0x50 ≤ n ∧ n < 0x60 then { x with pcnt := tabSet 0#64 x.pcnt (n - 0x50) v }
    else x

end Sys2Proof.Claims

/-! ## Loads, stores and atomics (04 R111–R117) -/

/-- Whole bytes written at distinct keys are read back, and every other byte reads as before. The premise on the
ownership cache, that it lists only bytes of regions held, is what writing keeps (R399). -/
def Obligations.WrittenBytesAreReadBack : Prop :=
  ∀ (s : State) (ks : List Nat) (bs : List Byte),
    ks.Nodup → bs.length = ks.length → (∀ k, s.held k = false → tabGet none s.own.cache k = none) →
    (∀ (n k : Nat) (b : Byte), ks[n]? = some k → bs[n]? = some b → (s.puts (fullPuts ks bs)).byte k = b) ∧
    (∀ k, k ∉ ks → (s.puts (fullPuts ks bs)).byte k = s.byte k) ∧
    ∀ k, (s.puts (fullPuts ks bs)).held k = false → tabGet none (s.puts (fullPuts ks bs)).own.cache k = none

/-- R111: a scalar access that is not a multiple of its size raises ALIGN with the address, and no byte is accessed. Stated of
cell programs: a supervisor core's own trap has no entry in the specification, and stops the model by name (log 31). -/
def Obligations.MisalignedScalarAccessTraps : Prop :=
  ∀ (i : Instr) (h : Hdr) (uses : List SReg) (s : State) (va : Word) (n : Nat),
    (∃ sd sa sb imm sz u, i = .ld h sd sa sb imm sz u ∧ uses = [sa, sb] ∧ va = s.getS sa + s.getS sb + imm ∧ n = sizeBytes sz) ∨
    (∃ sd sa sb imm sz u sc, i = .lda h sd sa sb imm sz u sc ∧ uses = [sa, sb] ∧ va = s.getS sa + s.getS sb + imm ∧
      n = sizeBytes sz) ∨
    (∃ sa sb sc imm sz, i = .st h sa sb sc imm sz ∧ uses = [sa, sb, sc] ∧ va = s.getS sa + s.getS sb + imm ∧ n = sizeBytes sz) ∨
    (∃ sa sb sc imm sz sp, i = .stl h sa sb sc imm sz sp ∧ uses = [sa, sb, sc] ∧ va = s.getS sa + s.getS sb + imm ∧
      n = sizeBytes sz) →
    s.ready h uses = true → va.toNat % n ≠ 0 → s.cur.eng ≠ .sup → s.here.retired s.cur.eng = true →
    ∃ t, exec i s = .next t ∧ t = s.takeTrap s.cur.cell s.cur.eng { cause := 0x03#8, addr := va } ∧
      ∀ k, ¬(supPa s.cur.cell (64 * engNum s.cur.eng) ≤ k ∧ k < supPa s.cur.cell (64 * engNum s.cur.eng) + 64) →
        t.byte k = s.byte k

/-- R111, R113, R302: a scalar load whose checks pass, behind no older access that it must follow, performs: the bytes at
its keys go to sd, extended, as memory holds them, or for LD as L or S has read them ahead (R301, R305). LDA first lets what
precedes the releases that it may return be performed (R302–R305), drops what has been read ahead, and orders what a release
that it returns has written where each scope contains the other agent (R304). A supervisor core's loads of memory are among
these; its loads from the MMIO map return what the register reads, or zero for an access that R415 does not allow, which is
the model's choice (logs 31 and 33). -/
def Obligations.ScalarLoadsReadTheirBytes : Prop :=
  ∀ (h : Hdr) (sd sa sb : SReg) (imm : Word) (sz : Size) (u : Bool) (scope : Scope) (s : State) (ks : List Nat),
    s.ready h [sa, sb] = true → s.scalarKeys false (s.getS sa + s.getS sb + imm) (sizeBytes sz) = .ok ks →
    (∀ off, mmioOf (ks.headD 0) = some off →
      exec (.ld h sd sa sb imm sz u) s = .next (s.after h (s.setS sd
        (if mmioOk off (sizeBytes sz) then loadValue (!u) (s.mmioRead off (sizeBytes sz)) else 0#64)))) ∧
    (mmioOf (ks.headD 0) = none →
    (s.cur.wait = false → goesFirst s (.load ks (.scalar sd (!u))) → ∃ v t, isLoaded u (s.readFor s.cur.cell s.cur.eng 8 ks) v ∧
      (s.me.ahead = [] → isLoaded u (ks.map s.view) v) ∧ exec (.ld h sd sa sb imm sz u) s = .next t ∧
      Passes s t (s.me.pc + 16) ∧ (t.getS sd = if sd = 0#6 then 0#64 else v) ∧
      Keeps (fun e x => hideAhead e (hideS sd e x)) s t) ∧
    (s.cur.wait = false → goesFirst s (.acquire ks (.scalar sd (!u)) scope) →
      let s' := found (s.countBytes s.cur.cell [s.getS sa + s.getS sb + imm] ks) (some scope) ks
      ∃ v t, isLoaded u (ks.map s'.view) v ∧ exec (.lda h sd sa sb imm sz u scope) s = .next t ∧
        Passes s t (s.me.pc + 16) ∧ (t.getS sd = if sd = 0#6 then 0#64 else v) ∧ (∀ k, t.byte k = s'.byte k) ∧
        (noDebts s ks → isLoaded u (ks.map s.view) v ∧
          (t.me.synced = if s.syncsWith (self s) scope ks then s.here.vstamp else s.me.synced) ∧
          Keeps (fun e x => hideSync e (hideS sd e x)) s t)))

/-- R113, R301: a load or a store, acquiring and releasing ones among them, that must follow an older access, or that the
schedule holds back, takes its place at the end of the engine's queue as the engine passes; no byte has changed yet. -/
def Sys2Proof.Claims.WaitingAccessesQueue : Prop :=
  ∀ (i : Instr) (h : Hdr) (sd sa sb sc : SReg) (imm : Word) (sz : Size) (u : Bool) (s : State) (ks : List Nat) (a : Access),
    (s.ready h [sa, sb] = true ∧ s.scalarKeys false (s.getS sa + s.getS sb + imm) (sizeBytes sz) = .ok ks ∧
      (i = .ld h sd sa sb imm sz u ∧ a = .load ks (.scalar sd (!u)) ∨
        ∃ scope, i = .lda h sd sa sb imm sz u scope ∧ a = .acquire ks (.scalar sd (!u)) scope)) ∨
    (s.ready h [sa, sb, sc] = true ∧ s.scalarKeys true (s.getS sa + s.getS sb + imm) (sizeBytes sz) = .ok ks ∧ s.barriers = [] ∧
      ∃ rel : Option Scope, a = .store (fullPuts ks (leBytes (sizeBytes sz) (s.getS sc).toNat)) rel ∧
        (i = .st h sa sb sc imm sz ∧ rel = none ∨ ∃ scope, i = .stl h sa sb sc imm sz scope ∧ rel = some scope)) →
    mmioOf (ks.headD 0) = none → (s.cur.wait = true ∨ ¬ goesFirst s a) →
    ∃ t, exec i s = .next t ∧ Passes s t (s.me.pc + 16) ∧
      t.me.queue = s.me.queue ++ [{ id := s.me.nextId, acc := a, places := [(ks.headD 0, s.getS sa + s.getS sb + imm)] }] ∧
      Keeps hideQueue s t

/-- R111, R302: a scalar store whose checks pass, behind no older access that it must follow, leaves the low bytes of s[sc]
at its keys; every byte outside them, and everything else, is as before. STL leaves its bytes to an acquire at its scope, which
finds performed what precedes it (R302–R305), where a plain store leaves them to none (R303). A register of the MMIO map is
written as R415 gives; that a supervisor core's write of a size that R415 does not allow does nothing is the model's choice
(log 33). -/
def Obligations.ScalarStoresWriteTheirBytes : Prop :=
  ∀ (i : Instr) (h : Hdr) (sa sb sc : SReg) (imm : Word) (sz : Size) (s : State) (ks : List Nat),
    ∀ rel : Option Scope,
    (i = .st h sa sb sc imm sz ∧ rel = none ∨ ∃ scope, i = .stl h sa sb sc imm sz scope ∧ rel = some scope) →
    s.ready h [sa, sb, sc] = true → s.scalarKeys true (s.getS sa + s.getS sb + imm) (sizeBytes sz) = .ok ks →
    (mmioOf (ks.headD 0) = none → s.cur.wait = false → s.barriers = [] →
      goesFirst s (.store (fullPuts ks (leBytes (sizeBytes sz) (s.getS sc).toNat)) rel) →
      ∃ t, exec i s = .next t ∧ Passes s t (s.me.pc + 16) ∧
        (∀ k, t.byte k = (s.puts (fullPuts ks (leBytes (sizeBytes sz) (s.getS sc).toNat))).byte k) ∧
        (∀ k ∈ ks, tabGet [] t.relTags k = rel.toList.map fun scope => (self s, scope, s.me.nextId)) ∧
        KeepsOutside ks nothing s t) ∧
    (∀ off, mmioOf (ks.headD 0) = some off →
      exec i s = .next (s.after h
        (if mmioOk off (sizeBytes sz) then s.mmioWrite off (leBytes (sizeBytes sz) (s.getS sc).toNat) else s)))

/-- The frame of the scalar stores: in whatever next state without a trap, every byte outside those that the address
computed from the operands translates to reads as before, and every register is as before. Registers of the MMIO map, which a
supervisor core alone reaches, are not memory. -/
def Obligations.ScalarStoresChangeNoOtherByte : Prop :=
  ∀ (i : Instr) (h : Hdr) (sa sb sc : SReg) (imm : Word) (sz : Size) (s t : State),
    (i = .st h sa sb sc imm sz ∨ ∃ scope, i = .stl h sa sb sc imm sz scope) → s.cur.eng ≠ .sup →
    exec i s = .next t → t.untrapped s.cur.cell s.cur.eng →
    (∀ ks, s.scalarKeys true (s.getS sa + s.getS sb + imm) (sizeBytes sz) = .ok ks → KeepsOutside ks hideQueue s t) ∧
    ((∀ ks, s.scalarKeys true (s.getS sa + s.getS sb + imm) (sizeBytes sz) ≠ .ok ks) → KeepsOutside [] hideQueue s t)

/-- R114–R116: an atomic whose checks pass, with no older access and nothing that holds it back, reads the old value at its
address, writes the new value that the table gives, returns the old value zero-extended, and the engine passes. One that
acquires first lets what precedes the releases that it returns be performed (R302–R305). -/
def Obligations.AtomicsReadModifyWrite : Prop :=
  ∀ (i : Instr) (h : Hdr) (op : AmoOp) (o : AmoOps) (sc : SReg) (s : State) (ks : List Nat) (uses : List SReg),
    atomicOf i = some (h, op, o, sc) → framed i = some (false, h, uses) → s.ready h uses = true →
    s.atomicKeys true (s.getS o.sa + o.imm) (if o.dbl then 8 else 4) = .ok ks → s.me.queue = [] → s.cur.wait = false →
    s.meetsBarrier ks = false →
    let ord : Order := { acq := if o.acq then some o.scope else none, rel := if o.rel then some o.scope else none }
    let s' := found ((s.countBytes s.cur.cell [s.getS o.sa + o.imm] ks).count s.cur.cell 0x60 1) ord.acq ks
    ∃ t, exec i s = .next t ∧ Passes s t (s.me.pc + 16) ∧
      atomicLeaves s' t op o.dbl ks (s.getS o.sb) (s.getS sc) o.sd ord ∧
      (o.acq = false ∨ noDebts s ks → KeepsOutside ks (fun e x => hideSync e (hideS o.sd e x)) s t)

/-- R115, R297: an atomic behind older accesses, or that the schedule holds back, takes its place in the engine's queue as
the engine passes; nothing else has changed. -/
def Sys2Proof.Claims.WaitingAtomicsQueue : Prop :=
  ∀ (i : Instr) (h : Hdr) (op : AmoOp) (o : AmoOps) (sc : SReg) (s : State) (ks : List Nat) (uses : List SReg),
    atomicOf i = some (h, op, o, sc) → framed i = some (false, h, uses) → s.ready h uses = true →
    s.atomicKeys true (s.getS o.sa + o.imm) (if o.dbl then 8 else 4) = .ok ks → (s.me.queue ≠ [] ∨ s.cur.wait = true) →
    ∃ t, exec i s = .next t ∧ Passes s t (s.me.pc + 16) ∧
      t.me.queue = s.me.queue ++ [{ id := s.me.nextId, acc := atomicAccess s op o sc ks
                                    places := [(ks.headD 0, s.getS o.sa + o.imm)] }] ∧ Keeps hideQueue s t

/-- R115, R297: an atomic at the head of its engine's queue is performed at its home and leaves the queue; a memory whose
switch has failed gives a deferred POOL_LOST in its place (R403). -/
def Sys2Proof.Claims.AtomicRepliesComplete : Prop :=
  ∀ (c : Nat) (e : Eng) (s : State) (q : Queued) (rest : List Queued) (op : AmoOp) (dbl : Bool) (ks : List Nat)
    (b v : Word) (rd : SReg) (ord : Order),
    let s₀ := s.asEngine c e
    (s.eng c e).queue = q :: rest → q.acc = .atomic op dbl ks b v rd ord → ks.length = (if dbl then 8 else 4) →
    s.meetsBarrier ks = false → (∀ o ∈ rest, o.id ≠ q.id) →
    (ks.find? s.lostKey = none → ord.acq = none ∨ noDebts s ks →
      ∃ t, exec (.atomicPerform c e) s = .next t ∧ (t.eng c e).queue = rest ∧ (t.eng c e).pc = (s.eng c e).pc ∧
        atomicLeaves s₀ (t.asEngine c e) op dbl ks b v rd ord ∧
        KeepsOutside ks (fun e x => hideQueue e (hideSync e (hideS rd e x))) s₀ (t.asEngine c e)) ∧
    ∀ k, ks.find? s.lostKey = some k →
      ∃ t, exec (.atomicPerform c e) s = .next t ∧ (t.eng c e).queue = rest ∧ (t.eng c e).pc = (s.eng c e).pc ∧
        (t.eng c e).deferred = (s.eng c e).deferred ++ [{ cause := 0x0A#8, deferred := true, addr := q.va k }] ∧
        ∀ j, t.byte j = s.byte j

/-- R115, R297: an atomic on its way stands in its engine's queue, and acts when it reaches its home: where the event
atomicPerform completes. -/
def Obligations.AtomicRequestsAndReplies : Prop :=
  WaitingAtomicsQueue ∧ AtomicRepliesComplete

/-- R301: an access of an engine's queue that no older entry must precede is performed when its turn comes, at any place in
the queue: a store's bytes are written, but for those of a memory that is lost (R390, R403), and of a notifying store's those
that their target takes (R406); a load's bytes go to its register, as memory holds them or as they were read ahead, and for an
acquire after what precedes the releases that it may return; the entry leaves the queue. -/
def Sys2Proof.Claims.QueuedAccessesArePerformed : Prop :=
  ∀ (c : Nat) (e : Eng) (s : State) (n : Nat) (q : Queued),
    (s.eng c e).queue[n]? = some q → (∀ o ∈ (s.eng c e).queue.take n, mustFollow o.acc q.acc = false) →
    let left := (s.eng c e).queue.filter fun o => o.id != q.id
    (∀ ps rel, q.acc = .store ps rel →
      let kept := ps.filter fun p => !s.lostKey p.1
      ∃ t, exec (.accessPerformed c e n) s = .next t ∧ (t.eng c e).queue = left ∧
        (∀ k, t.byte k = (s.puts kept).byte k) ∧ (t.eng c e).pc = (s.eng c e).pc ∧
        (∀ k ∈ kept.map (·.1), tabGet [] t.relTags k ⊆ rel.toList.map fun scope => (s.agentOf c e, scope, q.id)) ∧
        ∀ r, (t.eng c e).getS r = (s.eng c e).getS r) ∧
    (∀ ps, q.acc = .notify ps →
      ∃ t, exec (.accessPerformed c e n) s = .next t ∧ (t.eng c e).queue = left ∧ (t.eng c e).pc = (s.eng c e).pc ∧
        ∀ k, t.byte k = (s.puts (ps.filter fun p => (s.noteCheck c p.1).isNone)).byte k) ∧
    (∀ ks rd sx, q.acc = .load ks (.scalar rd sx) →
      ∃ v t, isLoaded (!sx) (s.readFor c e 8 ks) v ∧ exec (.accessPerformed c e n) s = .next t ∧
        (t.eng c e).getS rd = (if rd = 0#6 then 0#64 else v) ∧ (∀ r, r ≠ rd → (t.eng c e).getS r = (s.eng c e).getS r) ∧
        (t.eng c e).pc = (s.eng c e).pc ∧ (t.eng c e).queue = left ∧ ∀ k, t.byte k = s.byte k) ∧
    (∀ ks rd sx sc, q.acc = .acquire ks (.scalar rd sx) sc →
      let s' := s.settleDebts (s.agentOf c e) sc ks
      ∃ v t, isLoaded (!sx) (ks.map s'.view) v ∧ exec (.accessPerformed c e n) s = .next t ∧
        ((t.eng c e).getS rd = if rd = 0#6 then 0#64 else v) ∧ (t.eng c e).pc = (s.eng c e).pc ∧
        (t.eng c e).ahead = [] ∧ ∀ k, t.byte k = s'.byte k) ∧
    (∀ ks v f raw z els, q.acc = .load ks (.lanes v f raw z els) →
      ∃ t, exec (.accessPerformed c e n) s = .next t ∧ (t.eng c e).queue = left ∧
        (∀ k, t.byte k = s.byte k) ∧ (t.eng c e).pc = (s.eng c e).pc ∧
        (∀ u, u ≠ v.toNat → (t.cell c).getV u = (s.cell c).getV u) ∧
        (∀ l < 1024, (∀ p ∈ els, p.1 ≠ l) → z = false → lane ((t.cell c).getV v.toNat) l = lane ((s.cell c).getV v.toNat) l) ∧
        (els.Pairwise (fun a b => a.1 < b.1) → ∀ l nib, (l, nib) ∈ els → l < 1024 →
          ((s.cell c).lost e s.cur.old v.toNat).getLsbD l = false →
          let b := elemOf f (decide (nib % 2 = 1)) (((s.readFor c e (elemBytes f) ks).drop (nib / 2)).take (elemBytes f))
          lane ((t.cell c).getV v.toNat) l = if raw then BitVec.ofNat 32 b else widen f b)) ∧
    ∀ ks d img, q.acc = .load ks (.desc d img) →
      ∃ t, exec (.accessPerformed c e n) s = .next t ∧ (t.eng c e).queue = left ∧
        (∀ k, (t.cell c).getD k = if k = d then img else (s.cell c).getD k) ∧ ∀ k, t.byte k = s.byte k

/-- R113, R301: an access that must wait queues as its engine passes, and is performed in its turn: where the event
accessPerformed completes. -/
def Obligations.AccessesWaitTheirTurn : Prop :=
  WaitingAccessesQueue ∧ QueuedAccessesArePerformed

/-! ## Barriers (11 R284–R298) -/

/-- R290: an arrival at a live object counts one arrival, or one early arrival where the phase is full, adds its bytes to
the pending count, and then completes the phase as R291 gives; a breach of its bounds names its detail. -/
def Sys2Proof.Claims.ArrivalsCount : Prop :=
  ∀ (s : State) (who : Agent) (pa : Nat) (add : Int),
    (s.barrierAt pa = none → s.arrive who pa add none = .error 4) ∧
    ∀ b, s.barrierAt pa = some b →
      match arrivalAt b add with
      | .error d => s.arrive who pa add none = .error d
      | .ok (b', ph) => s.arrive who pa add none =
          .ok (((s.setBarrier (b'.met ph who)).imageTagged who (scopeOf? b.scope) pa).complete pa 3, ph)

/-- R291: Complete(). While an object's arrivals are its expected count and nothing is pending, its phase advances modulo
2^32, the early arrivals become the arrivals of the new phase, and every waiter of the phase that ended is released with true;
its other fields, and its other waiters, stay. A phase completes once, or twice where the early arrivals fill the next one
(they cannot fill a third, since none is left); an object that is not full changes nothing. Waiters of this device are
released by a Release of the model; a peer's is answered over the fabric. -/
def Sys2Proof.Claims.PhasesComplete : Prop :=
  ∀ (s : State) (pa : Nat) (b : Barrier), s.barrierAt pa = some b → b.pa = pa → 1 ≤ b.expected →
    let n := if b.arrivals = b.expected ∧ b.pending = 0#40 then (if b.early = b.expected then 2 else 1) else 0
    let over' (w : Waiter) : Bool := decide (1 ≤ n) && w.phase == b.phase || decide (n = 2) && w.phase == b.phase + 1
    let freed (ph : BitVec 32) : List (Waiter × Nat × Bool) :=
      (b.waiters.filter fun w => w.phase == ph && w.peer.isNone).map fun w => (w, pa, true)
    let t := s.complete pa 3
    (n = 0 → t = s) ∧
    (∃ b', t.barrierAt pa = some b' ∧ b'.phase = b.phase + BitVec.ofNat 32 n ∧
      (b'.arrivals = if n = 0 then b.arrivals else if n = 1 then b.early else 0) ∧ (b'.early = if n = 0 then b.early else 0) ∧
      b'.pending = b.pending ∧ b'.expected = b.expected ∧ b'.wire = b.wire ∧ b'.tag = b.tag ∧ b'.scope = b.scope ∧
      b'.waiters = b.waiters.filter fun w => !over' w) ∧
    t.released.map (fun r => (r.waiter, r.pa, r.ok)) = s.released.map (fun r => (r.waiter, r.pa, r.ok)) ++
      (if 1 ≤ n then freed b.phase else []) ++ if n = 2 then freed (b.phase + 1) else []

/-- The queues hold no access of the 64 bytes of a line. -/
def Sys2Proof.Claims.lineIdle (s : State) (k : Nat) : Prop :=
  ∀ c e, ∀ q ∈ (s.eng c e).queue, ∀ j ∈ accessKeys q.acc, j / 64 * 64 ≠ k

/-- R287, R289–R293, R298: the effect of a barrier request i of the executing engine of s at the object of key k, answered
by o: BAR.INIT makes a live object with the counts, scope, tag and wire that it is given, in place of a live one, whose waiters
it releases with false; what the queues still hold for the line of a new object is performed first, which is the model's
choice (log 127);
BAR.INIT.inv of a dead object does nothing, and of a live one releases its waiters and leaves none; BAR.ARV, BAR.ARVX and
AMO.FADD.tree have the effect of their arrival, and the first two return the phase that it counts for; BAR.WAIT passes with
true on another phase, with false on a dead object, and otherwise joins the waiters; BAR.TEST returns the status word. -/
def Sys2Proof.Claims.barrierEffect (s : State) (k : Nat) (i : Instr) (o : Host.Outcome State Fault Refusal) : Prop :=
  let gone (t : State) : Prop := ∀ b, s.barrierAt k = some b →
    t.released = s.released ++ (b.waiters.filter fun w => w.peer.isNone).map fun w =>
      { waiter := w, pa := k, ok := false, sync := s.endSyncs (self s) b w }
  let arrives (sd : SReg) (add : Int) : Prop := ∀ s' ph, s.arrive (self s) k add none = .ok (s', ph) →
    o = .next (s.after (hdrOfInstr i) (s'.setS sd (ph.setWidth 64)))
  match i with
  | .barInit _ _ _ sb sc _ scope tag wire =>
      let s' := if (s.barrierAt k).isSome then s else s.drainKeys fun j => j / 64 * 64 == k
      1 ≤ (s.getS sb).toNat → (s.getS sb).toNat < 2 ^ 24 → -(2 ^ 39) ≤ (s.getS sc).toInt → (s.getS sc).toInt < 2 ^ 39 →
      (wire = true → ∀ b ∈ s.barriers, ¬(b.wire = true ∧ b.tag = tag ∧ b.pa ≠ k ∧ s.halfAt b.pa = s.halfAt k)) →
      (s.barrierAt k = none → s.linesFree (s.halfAt k) 1 = true) →
      ∃ t b, o = .next t ∧ Passes s t (s.me.pc + 16) ∧
        t.barrierAt k = some b ∧ b.phase = 0#32 ∧ b.arrivals = 0 ∧ b.early = 0 ∧ b.expected = (s.getS sb).toNat ∧
        b.pending.toInt = (s.getS sc).toInt ∧ b.waiters = [] ∧ b.contribs = [] ∧ b.scope = scopeCode scope ∧ b.tag = tag ∧
        b.wire = wire ∧ gone t ∧ sameCells nothing s' t ∧ (∀ j, t.byte j = s'.byte j) ∧ (lineIdle s k → s' = s)
  | .barInitInv .. =>
      ∃ t, o = .next t ∧ Passes s t (s.me.pc + 16) ∧ t.barrierAt k = none ∧ (s.barrierAt k = none → Keeps nothing s t) ∧
        gone t ∧ sameCells nothing s t ∧ ∀ j, ¬(k ≤ j ∧ j < k + 64) → t.byte j = s.byte j
  | .barArv _ _ sd _ _ => arrives sd 0
  | .barArvx _ _ sd _ sb _ => arrives sd (s.getS sb).toInt
  | .barWait _ _ pd _ sb _ =>
      (∀ b, s.barrierAt k = some b → b.phase ≠ (s.getS sb).setWidth 32 →
        ∃ t, o = .next t ∧ Passes s t (s.me.pc + 16) ∧ t.getP pd = true ∧
          (t.me.synced =
            if (s.getS sb).setWidth 32 ≠ b.phase + 1 ∧ s.phaseSyncs b ((s.getS sb).setWidth 32) (self s) = true then s.here.vstamp
            else s.me.synced) ∧
          Keeps (fun e x => hideSync e (hideP pd e x)) s t) ∧
      (s.barrierAt k = none →
        ∃ t, o = .next t ∧ Passes s t (s.me.pc + 16) ∧ (t.getP pd = if pd = 15#4 then true else false) ∧
          Keeps (hideP pd) s t) ∧
      (∀ b, s.barrierAt k = some b → b.phase = (s.getS sb).setWidth 32 → s.linesFree (s.halfAt k) 1 = true →
        ∃ t, o = .next t ∧ t.me.stall = .barrier ∧ t.me.pc = s.me.pc ∧ t.me.flight = some i ∧
          t.barriers = (s.setBarrier { b with waiters := b.waiters ++
            [{ cell := s.cur.cell, eng := s.cur.eng, phase := (s.getS sb).setWidth 32, peer := none }] }).barriers)
  | .barTest _ _ sd _ _ =>
      ∃ t, o = .next t ∧ Passes s t (s.me.pc + 16) ∧
        (t.getS sd = if sd = 0#6 then 0#64 else match s.barrierAt k with | none => 0#64 | some b => b.status) ∧
        (∀ b, s.barrierAt k = some b → t.me.synced =
          if ∃ p ∈ b.arrivers, p.1 ≠ b.phase ∧ p.1 ≠ b.phase + 1 ∧ s.phaseSyncs b p.1 (self s) = true then s.here.vstamp
          else s.me.synced) ∧
        Keeps (fun e x => hideSync e (hideS sd e x)) s t
  | .amoFaddTree _ sa sb _ imm rel scope =>
      ∀ ks s' ph, s.atomicKeys false (s.getS sa + imm) 4 = .ok ks →
        ((s.barrierAt k).isSome = true → s.linesFree (s.halfAt k) 1 = true) →
        s.arrive (self s) k 0 (some
          { target := ks.headD 0, ea := s.getS sa + imm, dev := s.podDev, cell := s.cur.cell, ordinal := 0, early := false
            val := (s.getS sb).setWidth 32, rel := if rel then some (self s, scope, 0) else none }) = .ok (s', ph) →
        o = .next (s.after (hdrOfInstr i) (s'.count s.cur.cell 0x60 1))
  | _ => True

/-- The barrier requests: header, scalars read, and the address of the object. -/
def Sys2Proof.Claims.barrierRequest (s : State) : Instr → Option (Hdr × List SReg × Word)
  | .barInit _ h sa sb sc imm _ _ _ => some (h, [sa, sb, sc], s.getS sa + imm)
  | .barInitInv _ h sa imm => some (h, [sa], s.getS sa + imm)
  | .barArv _ h sd sa imm => some (h, [sd, sa], s.getS sa + imm)
  | .barArvx _ h sd sa sb imm => some (h, [sd, sa, sb], s.getS sa + imm)
  | .barWait _ h _ sa sb imm => some (h, [sa, sb], s.getS sa + imm)
  | .barTest _ h sd sa imm => some (h, [sd, sa], s.getS sa + imm)
  | .amoFaddTree h sa sb sc _ _ _ => some (h, [sa, sb, sc], s.getS sc)
  | _ => none

/-- R290, R298: BAR.ARV, BAR.ARVX and AMO.FADD.tree, with no earlier access outstanding and no reply awaited, have the
effect of their arrival at the object. -/
def Sys2Proof.Claims.ArrivalInstructionsComplete : Prop :=
  ∀ (i : Instr) (h : Hdr) (uses : List SReg) (va : Word) (s : State) (k : Nat),
    (∃ e sd sa imm, i = .barArv e h sd sa imm) ∨ (∃ e sd sa sb imm, i = .barArvx e h sd sa sb imm) ∨
      (∃ sa sb sc imm rel scope, i = .amoFaddTree h sa sb sc imm rel scope) →
    barrierRequest s i = some (h, uses, va) → s.ready h uses = true → s.settled = true → s.cur.wait = false →
    s.barrierKey va = .ok k → s.lineTrap va k = none → barrierEffect s k i (exec i s)

/-- R290, R291, R298: what an arrival counts, how phases complete, and the instructions that arrive. -/
def Obligations.ArrivalsComplete : Prop :=
  ArrivalsCount ∧ PhasesComplete ∧ ArrivalInstructionsComplete

/-- R289, R292, R293: BAR.INIT, BAR.INIT.inv, BAR.WAIT and BAR.TEST, with no earlier access outstanding and no reply
awaited, have their effect at the object as they issue, whether it is live or not. -/
def Obligations.BarrierInstructionsComplete : Prop :=
  ∀ (i : Instr) (h : Hdr) (uses : List SReg) (va : Word) (s : State) (k : Nat),
    (∃ e sa sb sc imm scope tag wire, i = .barInit e h sa sb sc imm scope tag wire) ∨ (∃ e sa imm, i = .barInitInv e h sa imm) ∨
      (∃ e pd sa sb imm, i = .barWait e h pd sa sb imm) ∨ (∃ e sd sa imm, i = .barTest e h sd sa imm) →
    barrierRequest s i = some (h, uses, va) → s.ready h uses = true → s.settled = true → s.cur.wait = false →
    s.barrierKey va = .ok k → s.lineTrap va k = none → barrierEffect s k i (exec i s)

/-- R294: any barrier request, BAR.INIT, BAR.INIT.inv, BAR.ARV, BAR.ARVX, BAR.WAIT, BAR.TEST or AMO.FADD.tree, that is on its
way reaches its owning half and acts there as at issue. -/
def Sys2Proof.Claims.BarrierRequestsActAtTheirHalf : Prop :=
  ∀ (c : Nat) (e : Eng) (i : Instr) (h : Hdr) (uses : List SReg) (va : Word) (s : State) (k : Nat),
    let s₀ := (s.acts c e).asEngine c e
    barrierRequest s₀ i = some (h, uses, va) → s₀.me.flight = some i →
    ((∃ e' pd sa sb imm, i = .barWait e' h pd sa sb imm) → s₀.me.stall ≠ .barrier) → s₀.settled = true →
    s.unfrozen c e = true → (s.eng c e).deferred = [] → s₀.barrierKey va = .ok k → s₀.lineTrap va k = none →
    barrierEffect s₀ k i (exec (.barrierOperation c e) s)

/-- R292, R296: a release that reaches a waiting engine writes pd, true after a phase change and false after BAR_REINIT,
and lets the engine pass; the release is gone. A release of a completed phase that the scopes join synchronises (R304). -/
def Sys2Proof.Claims.ReleasesWakeTheirWaiter : Prop :=
  ∀ (c : Nat) (e e' : Eng) (h : Hdr) (pd : PReg) (sa sb : SReg) (imm : Word) (s : State) (r : Release) (rest : List Release),
    let s₀ := (s.acts c e).asEngine c e
    s₀.me.flight = some (.barWait e' h pd sa sb imm) → s.released = r :: rest → r.waiter.cell = c → r.waiter.eng = e →
    r.waiter.peer = none → s.unfrozen c e = true → (s.eng c e).deferred = [] →
    ∃ t, exec (.barWaitRelease c e) s = .next t ∧ Passes s₀ t (s₀.me.pc + 16) ∧ t.released = rest ∧
      (t.getP pd = if pd = 15#4 then true else r.ok) ∧ (t.me.synced = if r.sync then s₀.here.vstamp else s₀.me.synced) ∧
      sameCells (fun e x => hideSync e (hideP pd e x)) s₀ t ∧ ∀ k, t.byte k = s.byte k

/-- R292, R294, R296: barrier requests and releases reach their half and their waiter: where the events barrierOperation and
barWaitRelease complete. -/
def Obligations.BarrierEventsComplete : Prop :=
  BarrierRequestsActAtTheirHalf ∧ ReleasesWakeTheirWaiter

/-! ## Rings and write pointers (07 R176–R189) -/

/-- R179–R183, R277: the effect of a ring operation i of the executing engine of s at its home cell, answered by o: RING.WF,
RING.WE, RING.CLM, RING.PUB or RING.POP whose bounds hold and for which the slots are there returns its value in sd and
leaves the ring's counters as the rules give; no other ring changes, and no byte. -/
def Sys2Proof.Claims.ringEffect (s : State) (home : Nat) (i : Instr) (sd : SReg) (g : GNum) (n : BitVec 13)
    (o : Host.Outcome State Fault Refusal) : Prop :=
  let r := (s.cell home).getR g.toNat
  ∀ v r', r.nslots ≠ 0 → (s.cell home).badReg (5000 + g.toNat) = false → ringWaits s r n.toNat i →
    ringDone (fun j => (s.cell home).holdOf g.toNat j != 0) r n.toNat i = some (v, r') →
    ∃ t, o = .next t ∧ Passes s t (s.me.pc + 16) ∧ (t.getS sd = if sd = 0#6 then 0#64 else v) ∧
      (t.cell home).getR g.toNat = r' ∧ (∀ k, t.byte k = s.byte k) ∧
      ∀ c g', ¬(c = home ∧ g' = g.toNat) → (t.cell c).getR g' = (s.cell c).getR g'

/-- R179–R183: a ring operation has its effect as it issues, at its own cell or, where the schedule does not hold the request
back, at the home cell that .far names; no operation of the same cycle that goes after it has acted (R182). -/
def Obligations.RingOperationsComplete : Prop :=
  ∀ (i : Instr) (h : Hdr) (sd : SReg) (g : GNum) (n : BitVec 13) (far : Option SReg) (s : State) (home : Nat),
    ringOf i = some (h, sd, g, n, far) → s.ready h (farRegs far) = true → s.ringHome far = .ok home →
    (far = none ∨ s.cur.wait = false) → s.ringOrder home g.toNat (ringRank far.isSome s.cur.eng) = true →
    ringEffect s home i sd g n (exec i s)

/-- R182: a .far request of RING.WF, RING.WE, RING.CLM, RING.PUB or RING.POP that reaches its home cell acts there, and its
result lets the engine pass. -/
def Sys2Proof.Claims.FarRingRequestsComplete : Prop :=
  ∀ (c : Nat) (e : Eng) (i : Instr) (h : Hdr) (sd : SReg) (g : GNum) (n : BitVec 13) (sa : SReg) (s : State) (home : Nat),
    let s₀ := (s.acts c e).asEngine c e
    ringOf i = some (h, sd, g, n, some sa) → s₀.me.flight = some i → s.unfrozen c e = true → (s.eng c e).deferred = [] →
    s₀.ringHome (some sa) = .ok home → s₀.ringOrder home g.toNat 6 = true →
    ringEffect s₀ home i sd g n (exec (.ringFarOperation c e) s)

/-- R184: RING.WE.load loads an idle ring register from a checked image, counters zero, and returns zero; R189: WPWAIT
returns the write pointer once it has reached the target. -/
def Sys2Proof.Claims.RingLoadAndWpwaitComplete : Prop :=
  (∀ (e : Eng) (h : Hdr) (sd : SReg) (g : GNum) (sb : SReg) (s : State) (ks : List Nat),
    let va := s.getS sb
    let img := leNat (s.readFor s.cur.cell s.cur.eng 8 ks)
    let new := Ring.ofImage img
    let old := s.here.getR g.toNat
    s.ready h [sb] = true → va.toNat % 64 = 0 → s.ringOrder s.cur.cell g.toNat (ringRank false s.cur.eng) = true →
    (old.nslots = 0 ∨ old.used = 0 ∧ old.claimed = 0 ∧ ∀ p ∈ s.here.hold, p.1 / 4096 ≠ g.toNat) →
    (ringReader s).scalarKeys false va 64 = .ok ks →
    s.me.loadBlocked ks = false → ringImageOk img = true →
    ∃ t, exec (.ringWeLoad e h sd g sb) s = .next t ∧ Passes s t (s.me.pc + 16) ∧ t.getS sd = 0#64 ∧
      t.here.getR g.toNat = { new with cell := if new.cell = 0x7F then s.cur.cell else new.cell } ∧
      ∀ k, t.byte k = s.byte k) ∧
  (∀ (h : Hdr) (sd : SReg) (ch : BitVec 2) (sa : SReg) (imm : Word) (s : State),
    let wp := tabGet 0#64 s.here.wp ch.toNat
    s.ready h [sa] = true → (s.getS sa + imm).toNat ≤ tabGet 0 s.here.issued ch.toNat →
    (s.getS sa + imm).toNat ≤ wp.toNat → s.here.badReg (7000 + ch.toNat) = false →
    ∃ t, exec (.wpwait h sd ch sa imm) s = .next t ∧ Passes s t (s.me.pc + 16) ∧
      (t.getS sd = if sd = 0#6 then 0#64 else wp) ∧ t.me.synced = s.here.vstamp ∧
      Keeps (fun e x => hideSync e (hideS sd e x)) s t)

/-- R182, R184, R189: .far requests, ring loads and waits on a write pointer: where the event ringFarOperation, RING.WE.load and
WPWAIT complete. -/
def Obligations.RingRequestsAndWaits : Prop :=
  FarRingRequestsComplete ∧ RingLoadAndWpwaitComplete

/-! ## Queues, special registers, fences and traps (01 R24, R30–R37; 04 R118–R123) -/

/-- R118, R119: QPUSH appends to a queue of fewer than 16 entries; QPOP and QPOP.P take its oldest entry. -/
def Obligations.ScalarQueuesAreFifo : Prop :=
  ∀ (e : Eng) (h : Hdr) (q : QNum) (b : Src) (sd : SReg) (pd : PReg) (s : State) (v : Word) (rest : List Word),
    (s.ready h (srcRegs b) = true → (tabGet [] s.here.q q.toNat).length < 16 →
      ∃ t, exec (.qpush h q b) s = .next t ∧ Passes s t (s.me.pc + 16) ∧
        (∀ k, tabGet [] t.here.q k = if k = q.toNat then tabGet [] s.here.q k ++ [s.src b] else tabGet [] s.here.q k) ∧
        Keeps (fun _ x => { x with q := [] }) s t) ∧
    (s.ready h [] = true → tabGet [] s.here.q q.toNat = v :: rest →
      (∃ t, exec (.qpop e h sd q) s = .next t ∧ Passes s t (s.me.pc + 16) ∧ tabGet [] t.here.q q.toNat = rest ∧
        (t.getS sd = if sd = 0#6 then 0#64 else v) ∧ Keeps (fun e x => { hideS sd e x with q := [] }) s t) ∧
      (∃ t, exec (.qpopP e h pd q) s = .next t ∧ Passes s t (s.me.pc + 16) ∧ tabGet [] t.here.q q.toNat = rest ∧
        (t.getP pd = if pd = 15#4 then true else v.getLsbD 0) ∧ Keeps (fun e x => { hideP pd e x with q := [] }) s t))

/-- R30–R35: MFS reads a special register; MTS writes it as its access allows, and only the supervisor core writes
CKPTLIM. That ENGCFG.vup is written only while no push is reserved, beside R32's empty token queues, is the model's choice
(log 19). -/
def Obligations.SpecialRegistersReadAndWrite : Prop :=
  ∀ (h : Hdr) (sd sa : SReg) (n : BitVec 12) (s : State),
    (∀ v, s.ready h [] = true → specialValue s n.toNat = some v →
      ∃ t, exec (.mfs h sd n) s = .next t ∧ Passes s t (s.me.pc + 16) ∧ (t.getS sd = if sd = 0#6 then 0#64 else v)) ∧
    (s.ready h [sa] = true → n ≠ 0x00B#12 →
      exec (.mts h n sa) s = .next (s.after h (s.modHere fun x => specialWritten x s.cycle n.toNat (s.getS sa)))) ∧
    (s.ready h [sa] = true → s.cur.eng = .sup →
      exec (.mts h 0x00B#12 sa) s = .next (s.after h (s.modHere fun x => { x with ckptlim := (s.getS sa).setWidth 32 })))

/-- R30, R55: MTS to CKPTLIM and the privileged X instructions raise PRIV in a cell program. -/
def Obligations.PrivilegedInstructionsTrapInCellPrograms : Prop :=
  ∀ (i : Instr) (x : Bool) (h : Hdr) (uses : List SReg) (s : State),
    framed i = some (x, h, uses) →
    (∃ sa, i = .mts h 0x00B#12 sa) ∨ (∃ sa sb k, i = .tlbInv h sa sb k) ∨ (∃ sd sa f r, i = .ctxSave h sd sa f r) ∨
      (∃ sd sa, i = .ctxLoad h sd sa) ∨ (∃ f, i = .ctxResume h f) ∨ i = .ctxSwitch h →
    s.ready h uses = true → s.cur.eng ≠ .sup → s.here.retired s.cur.eng = true →
    exec i s = .next (s.takeTrap s.cur.cell s.cur.eng { cause := 0x02#8, x })

/-- R121, R122, R302: with every asynchronous command of L or W and every earlier access of the engine done, FENCE passes,
orders what it has seen before what follows, and changes nothing else; it waits for either. MARK passes, and behind outstanding
accesses it takes a place in the queue that later accesses must follow. A FENCE at engine scope does as MARK does once the
commands are done, every wider scope waits for the same accesses, and FENCE on M passes with tile commands outstanding: these
are the model's choices (logs 117 and 37). -/
def Obligations.FenceAndMarkOrderAccesses : Prop :=
  ∀ (e : Eng) (h : Hdr) (scope : Scope) (s : State), s.ready h [] = true →
    let done' := (s.cur.eng = .l → s.here.copies = [] ∧ s.here.xchg = none) ∧ (s.cur.eng = .w → s.here.stfs = [])
    (done' → scope ≠ .eng → s.me.queue = [] →
      ∃ t, exec (.fence e h scope) s = .next t ∧ Passes s t (s.me.pc + 16) ∧ t.me.synced = s.here.vstamp ∧ t.me.ahead = [] ∧
        Keeps hideSync s t) ∧
    (¬done' ∨ scope ≠ .eng ∧ s.me.queue ≠ [] →
      ∃ t, exec (.fence e h scope) s = .next t ∧ t.me.pc = s.me.pc ∧ t.me.step = s.me.step ∧ t.me.stall = .other ∧
        Keeps nothing s t) ∧
    ∀ i, i = .mark e h ∨ i = .fence e h .eng ∧ done' →
      (s.me.queue = [] →
        ∃ t, exec i s = .next t ∧ Passes s t (s.me.pc + 16) ∧ t.me.ahead = [] ∧ Keeps hideAhead s t) ∧
      (s.me.queue ≠ [] →
        ∃ t, exec i s = .next t ∧ Passes s t (s.me.pc + 16) ∧
          t.me.queue = s.me.queue ++ [{ id := s.me.nextId, acc := .mark }] ∧ Keeps hideQueue s t)

/-- R123, R374: with every older instruction retired, TRAP and SYSCALL take trap cause 0x11 with their code; SYSCALL gives its
flag and address. No token has been taken. -/
def Obligations.SoftwareTrapsAreTaken : Prop :=
  ∀ (e : Eng) (h : Hdr) (sa : SReg) (code : BitVec 16) (s : State),
    s.cur.eng ≠ .sup → s.here.retired s.cur.eng = true →
    (s.ready h [] = true → exec (.trap e h code) s =
      .next (s.takeTrap s.cur.cell s.cur.eng { cause := 0x11#8, code, hdr := some h })) ∧
    (s.ready h [sa] = true → exec (.syscall h sa code) s =
      .next (s.takeTrap s.cur.cell s.cur.eng
        { cause := 0x11#8, sys := true, x := true, code, addr := s.getS sa, hdr := some h }))

/-- R36, R37, R370: an engine that takes a trap has its 64-byte record at supervisor-memory address 64 × engine, with cause,
engine, detail, flags, program counter and address in their places; its cell is frozen from this cycle, its supervisor core
runs, and every register and every other byte is as before. The entry address of the handler is the model's (log 2). -/
def Obligations.TrapEntrySavesItsRecord : Prop :=
  ∀ (s : State) (c : Nat) (e : Eng) (t : TrapRec),
    e ≠ .sup → t.cause ≠ 0x0D#8 → t.detail < 256 → (s.cell c).frozen = none → s.held (supPa c (64 * engNum e)) = false →
    (∀ k, s.held k = false → tabGet none s.own.cache k = none) →
    let a := supPa c (64 * engNum e)
    let u := s.takeTrap c e t
    u.byte a = t.cause ∧ u.byte (a + 1) = BitVec.ofNat 8 (engNum e) ∧ u.byte (a + 2) = BitVec.ofNat 8 t.detail ∧
    (u.byte (a + 3)).toNat = (if t.deferred then 1 else 0) + (if t.sys then 2 else 0) + (if t.x then 4 else 0) +
      (if t.idx.isSome then 8 else 0) ∧
    (∀ i < 8, u.byte (a + 8 + i) = BitVec.ofNat 8 ((s.eng c e).pc.toNat / 256 ^ i)) ∧
    (∀ i < 8, u.byte (a + 16 + i) = BitVec.ofNat 8 (t.addr.toNat / 256 ^ i)) ∧
    (∀ k, ¬(a ≤ k ∧ k < a + 64) → u.byte k = s.byte k) ∧
    (u.cell c).frozen = some s.cycle ∧ (u.cell c).supRun = true ∧ (u.cell c).sup.pc = s.supTrap ∧
    (u.eng c e).pc = (s.eng c e).pc ∧ (u.eng c e).trap = some { t with pc := (s.eng c e).pc } ∧
    (∀ e' r, (u.eng c e').getS r = (s.eng c e').getS r ∨ e' = .sup) ∧ (u.cell c).tok = (s.cell c).tok ∧
    ∀ d, d ≠ c → u.cell d = s.cell d

namespace Sys2Proof.Claims

/-! ## What the V results are -/

/-- Put a vector register out of sight, with its history and its error mark. -/
def hideV (v : VNum) (_ : Eng) (x : Cell) : Cell :=
  { x.setV v.toNat zeroLanes with
    vhist := tabSet none x.vhist v.toNat none, vstamp := 0, regErr := tabSet false x.regErr (1000 + v.toNat) false }

/-- Put a mask register out of sight, with its history and its error mark. -/
def hideM (m : MNum) (_ : Eng) (x : Cell) : Cell :=
  { x.setM m 0#1024 with
    mhist := tabSet none x.mhist m.toNat none, vstamp := 0, regErr := tabSet false x.regErr (3000 + m.toNat) false }

/-- The bits of a lane that a field descriptor selects (R141). -/
def laneField (pos w : Nat) : Nat := if pos < 32 then min w (32 - pos) else 0

/-- Element i of a lane of packed integers of a width (R143). -/
def packedElement (w : Nat) (u : Bool) (x : Lane) (i : Nat) : Int :=
  if u then ((x.toNat / 2 ^ (w * i) % 2 ^ w : Nat) : Int) else (BitVec.ofNat w (x.toNat / 2 ^ (w * i))).toInt

/-- A sum clamped to INT32 (R143). -/
def clamped (t : Int) : Lane := BitVec.ofInt 32 (min (max t (-(2 ^ 31))) (2 ^ 31 - 1))

/-- An elementwise vector instruction: header, operands, scalars and vector registers read, and for each lane what its
value must be and the flags of the operation (R137–R143). Float results are over the shared float operations. -/
structure LaneResult where
  h : Hdr
  o : VOps
  uses : List SReg
  srcs : List VNum
  is : Nat → Lane → Prop
  fl : Nat → Flags

/-- A result that is exact and sets no flag. -/
def exactLanes (h : Hdr) (o : VOps) (uses : List SReg) (srcs : List VNum) (is : Nat → Lane → Prop) : LaneResult :=
  { h, o, uses, srcs, is, fl := fun _ => 0#5 }

/-- A result of the float operations. -/
def floatLanes (h : Hdr) (o : VOps) (uses : List SReg) (srcs : List VNum) (r : Nat → Res Lane) : LaneResult :=
  { h, o, uses, srcs, is := fun l v => v = (r l).val, fl := fun l => (r l).fl }

/-- The results of R137–R143. -/
def laneResult (s : State) (i : Instr) : Option LaneResult :=
  let a (o : VOps) (l : Nat) : Lane := lane (s.vr o.va) l
  let rm (o : VOps) (rnd : Rnd) (l : Nat) : Rm := s.rmReg rnd o.vd.toNat l
  let two (o : VOps) (b : VSrc) : List VNum := o.va :: vsrcVecs b
  let exact1 (h : Hdr) (o : VOps) (is : Lane → Lane → Prop) := some (exactLanes h o [] [o.va] fun l v => is (a o l) v)
  let exact2 (h : Hdr) (o : VOps) (b : VSrc) (is : Lane → Lane → Lane → Prop) :=
    some (exactLanes h o (vsrcRegs b) (two o b) fun l v => is (a o l) (s.vsrc b l) v)
  let exact3 (h : Hdr) (o : VOps) (b : VSrc) (vc : VNum) (is : Lane → Lane → Lane → Lane → Prop) :=
    some (exactLanes h o (vsrcRegs b) (two o b ++ [vc]) fun l v => is (a o l) (s.vsrc b l) (lane (s.vr vc) l) v)
  let special1 (h : Hdr) (o : VOps) (rnd : Rnd) (k : Nat) :=
    some (floatLanes h o [] [o.va] fun l => finishExact (special k (value32 (a o l))) (rm o rnd l))
  match i with
  | .vadd h o b rnd => some (floatLanes h o (vsrcRegs b) (two o b) fun l => fadd (a o l) (s.vsrc b l) (rm o rnd l))
  | .vsub h o b rnd => some (floatLanes h o (vsrcRegs b) (two o b) fun l => fsub (a o l) (s.vsrc b l) (rm o rnd l))
  | .vmul h o b rnd => some (floatLanes h o (vsrcRegs b) (two o b) fun l => fmul (a o l) (s.vsrc b l) (rm o rnd l))
  | .vdiv h o b rnd => some (floatLanes h o (vsrcRegs b) (two o b) fun l => fdiv (a o l) (s.vsrc b l) (rm o rnd l))
  | .vfma h o b vc rnd => some (floatLanes h o (vsrcRegs b) (two o b ++ [vc]) fun l =>
      ffma (a o l) (s.vsrc b l) (lane (s.vr vc) l) false (rm o rnd l))
  | .vfms h o b vc rnd => some (floatLanes h o (vsrcRegs b) (two o b ++ [vc]) fun l =>
      ffma (a o l) (s.vsrc b l) (lane (s.vr vc) l) true (rm o rnd l))
  | .vmin h o b => exact2 h o b fun a b v => v = fminmax false a b
  | .vmax h o b => exact2 h o b fun a b v => v = fminmax true a b
  | .vabs h o => exact1 h o fun a v => ∀ i < 32, v.getLsbD i = (a.getLsbD i && decide (i ≠ 31))
  | .vneg h o => exact1 h o fun a v => ∀ i < 32, v.getLsbD i = (a.getLsbD i != decide (i = 31))
  | .vrcp h o rnd => special1 h o rnd 0
  | .vrsq h o rnd => special1 h o rnd 1
  | .vsqrt h o rnd => special1 h o rnd 2
  | .vexp2 h o rnd => special1 h o rnd 3
  | .vlog2 h o rnd => special1 h o rnd 4
  | .vtanh h o rnd => special1 h o rnd 5
  | .vsigm h o rnd => special1 h o rnd 6
  | .viadd h o b => exact2 h o b fun a b v => v.toNat = (a.toNat + b.toNat) % 2 ^ 32
  | .visub h o b => exact2 h o b fun a b v => v.toNat = (a.toNat + 2 ^ 32 - b.toNat) % 2 ^ 32
  | .vimul h o b => exact2 h o b fun a b v => v.toNat = a.toNat * b.toNat % 2 ^ 32
  | .vimad h o b vc => exact3 h o b vc fun a b c v => v.toNat = (a.toNat * b.toNat + c.toNat) % 2 ^ 32
  | .vand h o b => exact2 h o b fun a b v => ∀ i < 32, v.getLsbD i = (a.getLsbD i && b.getLsbD i)
  | .vor h o b => exact2 h o b fun a b v => ∀ i < 32, v.getLsbD i = (a.getLsbD i || b.getLsbD i)
  | .vxor h o b => exact2 h o b fun a b v => ∀ i < 32, v.getLsbD i = (a.getLsbD i ^^ b.getLsbD i)
  | .vnot h o => exact1 h o fun a v => ∀ i < 32, v.getLsbD i = !a.getLsbD i
  | .vshl h o b => exact2 h o b fun a b v => v.toNat = if 32 ≤ b.toNat then 0 else a.toNat * 2 ^ b.toNat % 2 ^ 32
  | .vshr h o b => exact2 h o b fun a b v => v.toNat = if 32 ≤ b.toNat then 0 else a.toNat / 2 ^ b.toNat
  | .vsra h o b => exact2 h o b fun a b v => ∀ i < 32, v.getLsbD i = a.getLsbD (min (i + b.toNat) 31)
  | .vpopc h o => exact1 h o fun a v => v.toNat = (List.range 32).countP fun i => a.getLsbD i
  | .vclz h o => exact1 h o fun a v => v.toNat ≤ 32 ∧ (∀ i < v.toNat, a.getLsbD (31 - i) = false) ∧
      (v.toNat < 32 → a.getLsbD (31 - v.toNat) = true)
  | .vbfx h o f sx => exact2 h o f fun a f v =>
      let pos := f.toNat % 256
      let n := laneField pos (f.toNat / 256 % 256)
      ∀ i < 32, v.getLsbD i = if sx then decide (0 < n) && a.getLsbD (pos + min i (n - 1)) else decide (i < n) && a.getLsbD (pos + i)
  | .vbfi h o f vc => exact3 h o f vc fun a f c v =>
      let pos := f.toNat % 256
      let n := laneField pos (f.toNat / 256 % 256)
      ∀ i < 32, v.getLsbD i = if pos ≤ i ∧ i < pos + n then a.getLsbD (i - pos) else c.getLsbD i
  | .vfshl h o vb n => exact3 h o n vb fun a n b v =>
      v.toNat = if n.toNat < 64 then (a.toNat * 2 ^ 32 + b.toNat) * 2 ^ n.toNat % 2 ^ 64 / 2 ^ 32 else 0
  | .vfshr h o vb n => exact3 h o n vb fun a n b v =>
      v.toNat = if n.toNat < 64 then (a.toNat * 2 ^ 32 + b.toNat) / 2 ^ n.toNat % 2 ^ 32 else 0
  | .vcvtI2f h o u rnd => some (floatLanes h o [] [o.va] fun l =>
      toLane (intVal (if u then ((a o l).toNat : Int) else (a o l).toInt)) (rm o rnd l))
  | .vcvtF2i h o u rnd =>
      let r (l : Nat) := toIntRange (value32 (a o l)) (if u then 0 else -(2 ^ 31)) (if u then 2 ^ 32 - 1 else 2 ^ 31 - 1) (rm o rnd l)
      some { h, o, uses := [], srcs := [o.va], is := fun l v => v = BitVec.ofInt 32 (r l).val, fl := fun l => (r l).fl }
  | .vidot4 h o b vc ua ub => exact3 h o b vc fun a b c v =>
      v = clamped (c.toInt + packedElement 8 ua a 0 * packedElement 8 ub b 0 + packedElement 8 ua a 1 * packedElement 8 ub b 1 +
        packedElement 8 ua a 2 * packedElement 8 ub b 2 + packedElement 8 ua a 3 * packedElement 8 ub b 3)
  | .vidot8 h o b vc ua ub => exact3 h o b vc fun a b c v =>
      v = clamped (c.toInt + ((List.range 8).map fun i => packedElement 4 ua a i * packedElement 4 ub b i).sum)
  | _ => none

/-- A flag is the union over the selected lanes (R132, R136). -/
def unionFlags (fl : Flags) (on : Nat → Prop) (each : Nat → Flags) : Prop :=
  ∀ i < 5, fl.getLsbD i = true ↔ ∃ l, l < 1024 ∧ on l ∧ (each l).getLsbD i = true

/-- The vector registers that an instruction reads have no uncorrectable error (R435). -/
def soundRegs (s : State) (vs : List VNum) : Prop := ∀ v ∈ vs, s.here.badReg (1000 + v.toNat) = false

/-- The mask registers that an instruction reads have no uncorrectable error (R435). -/
def soundMasks (s : State) (ms : List MNum) : Prop := ∀ m ∈ ms, s.here.badMask m = false

/-- Lanes of a register that an instruction writes: where the write races with another engine's, a lane may keep the value
of the other write; every other lane is the instruction's own (R29). -/
def wonLanes (s t : State) (vd : VNum) (is : Nat → Lane → Prop) : Prop :=
  ∀ l < 1024, if (s.lost vd).getLsbD l = true then lane (t.vr vd) l = lane (s.here.getV vd.toNat) l else is l (lane (t.vr vd) l)

/-- Lanes written under mask use d (R132): an active lane takes its new value, an inactive one keeps its old value or
becomes zero under .z. -/
def writtenLanes (s t : State) (vd : VNum) (mk : MNum) (z : Bool) (is : Nat → Lane → Prop) : Prop :=
  wonLanes s t vd fun l v =>
    if (s.mr mk).getLsbD l = true then is l v else v = if z then 0#32 else lane (s.here.getV vd.toNat) l

/-- The moves of R148 and R149 that write under mask use d: header, destination, mask, .z, scalars and registers read, and
what each lane receives. -/
def laneMove (s : State) : Instr → Option (Hdr × VNum × MNum × Bool × List SReg × List VNum × (Nat → Lane))
  | .vrotr h o ss imm =>
      let k := (s.getS ss + imm.signExtend 64).toNat % 64
      some (h, o.vd, o.msk, o.z, [ss], [o.va], fun l => lane (s.vr o.va) (64 * (l / 64) + (l % 64 + (64 - k)) % 64))
  | .vrotc h o ss imm =>
      let k := (s.getS ss + imm.signExtend 64).toNat % 16
      some (h, o.vd, o.msk, o.z, [ss], [o.va], fun l => lane (s.vr o.va) (64 * ((l / 64 + (16 - k)) % 16) + l % 64))
  | .vbcr h o ss imm =>
      let k := (s.getS ss + imm.signExtend 64).toNat % 64
      some (h, o.vd, o.msk, o.z, [ss], [o.va], fun l => lane (s.vr o.va) (64 * (l / 64) + k))
  | .vbcc h o ss imm =>
      let k := (s.getS ss + imm.signExtend 64).toNat % 16
      some (h, o.vd, o.msk, o.z, [ss], [o.va], fun l => lane (s.vr o.va) (64 * k + l % 64))
  | .viota h vd pat imm mk z => some (h, vd, mk, z, [], [], fun l =>
      BitVec.ofNat 32 (imm.toNat + match pat with | .lane => l | .row => l / 64 | .col => l % 64))
  | .vmov h vd b mk z => some (h, vd, mk, z, vsrcRegs b, vsrcVecs b, fun l => s.vsrc b l)
  | .vperm h o b => some (h, o.vd, o.msk, o.z, vsrcRegs b, o.va :: vsrcVecs b, fun l =>
      if (s.vsrc b l).toNat < 1024 then lane (s.vr o.va) (s.vsrc b l).toNat else 0#32)
  | _ => none

/-- The tree of R145 over n = 2^d values from lo on: the value and the union of the flags of its nodes, or absent. -/
def reduceTree (op : RedOp) (rm : Nat → Rm) (x : Nat → Option Lane) : Nat → Nat → Nat → Option (Lane × Flags)
  | 0, lo, _ => (x lo).map fun v => (v, 0#5)
  | d + 1, lo, j =>
    match reduceTree op rm x d lo (2 * j), reduceTree op rm x d (lo + 2 ^ d) (2 * j + 1) with
    | none, r => r
    | l, none => l
    | some l, some r => some ((redStep op (rm j) l.1 r.1).val, (redStep op (rm j) l.1 r.1).fl ||| l.2 ||| r.2)

/-- The prefix of R147 up to a column: the running value before it, and the flags of the steps so far. -/
def runBefore (op : RedOp) (rm : Nat → Rm) (x : Nat → Option Lane) : Nat → Option Lane × Flags
  | 0 => (none, 0#5)
  | n + 1 =>
    match runBefore op rm x n, x n with
    | r, none => r
    | (none, f), some a => (some a, f)
    | (some v, f), some a => (some (redStep op (rm n) v a).val, f ||| (redStep op (rm n) v a).fl)

/-- The selected value of a place in a register, under a mask (use i of R132). -/
def selected (s : State) (va : VNum) (mk : MNum) (l : Nat) : Option Lane :=
  if (s.mr mk).getLsbD l = true then some (lane (s.vr va) l) else none

/-- The keys in lower lanes that fall in the bucket of a key, and the out-of-range keys (R168). -/
def sameBucket (s : State) (va : VNum) (mk : MNum) (n k l : Nat) : Nat :=
  (List.range l).countP fun j => (s.mr mk).getLsbD j && decide ((lane (s.vr va) j).toNat < n) &&
    decide ((lane (s.vr va) j).toNat = k)

end Sys2Proof.Claims

/-! ## Vector compute (05 R130–R150, 06 R167, R168) -/

/-- R132, R134, R136–R143: an elementwise instruction gives every active lane its table's result, computed from the sources
as they stood, leaves or clears the inactive lanes, adds the flags of the active lanes to the V group, and passes. -/
def Obligations.VectorInstructionsComputeEachLane : Prop :=
  ∀ (i : Instr) (r : LaneResult) (s : State),
    laneResult s i = some r → s.ready r.h r.uses = true → soundRegs s r.srcs → soundMasks s [r.o.msk] →
    ∃ t fl, exec i s = .next t ∧ Passes s t (s.me.pc + 16) ∧ writtenLanes s t r.o.vd r.o.msk r.o.z r.is ∧
      unionFlags fl (fun l => (s.mr r.o.msk).getLsbD l = true) r.fl ∧
      t.here.fflags = (s.here.fflags ||| (fl.setWidth 25 <<< 15)) ∧ t.here.satcnt = s.here.satcnt

/-- R148, R149: rotations, broadcasts, VIOTA, VMOV and VPERM place their lanes under mask use d and pass; VMOVS writes one
lane from a scalar. -/
def Obligations.VectorMovesPlaceTheirLanes : Prop :=
  (∀ (i : Instr) (h : Hdr) (vd : VNum) (mk : MNum) (z : Bool) (uses : List SReg) (srcs : List VNum) (f : Nat → Lane) (s : State),
    laneMove s i = some (h, vd, mk, z, uses, srcs, f) → s.ready h uses = true → soundRegs s srcs → soundMasks s [mk] →
    ∃ t, exec i s = .next t ∧ Passes s t (s.me.pc + 16) ∧ writtenLanes s t vd mk z fun l v => v = f l) ∧
  ∀ (h : Hdr) (vd : VNum) (ss : SReg) (n : BitVec 14) (s : State), s.ready h [ss] = true → n.toNat < 1024 →
    ∃ t, exec (.vmovs h vd ss n) s = .next t ∧ Passes s t (s.me.pc + 16) ∧
      wonLanes s t vd fun l v => v = if l = n.toNat then (s.getS ss).setWidth 32 else lane (s.here.getV vd.toNat) l

/-- R145–R147: VREDR and VREDC write the tree's value of every row or column into all its lanes; VSCANR writes the prefix of
each row, exclusive under .ex. The flags are those of the combinations made. -/
def Sys2Proof.Claims.VectorReductionsFollowTheirOrders : Prop :=
  ∀ (h : Hdr) (vd va : VNum) (mk : MNum) (op : RedOp) (rnd : Rnd) (ex : Bool) (s : State),
    s.ready h [] = true → soundRegs s [va] → soundMasks s [mk] →
    let rm := s.rmReg rnd vd.toNat
    let row (r : Nat) := reduceTree op (fun j => rm (64 * r + j)) (fun c => selected s va mk (64 * r + c)) 6 0 1
    let col (c : Nat) := reduceTree op (fun j => rm (16 * c + j)) (fun r => selected s va mk (64 * r + c)) 4 0 1
    let run (r c : Nat) := runBefore op (fun k => rm (64 * r + k)) (fun k => selected s va mk (64 * r + k)) c
    (∃ t fl, exec (.vredr h vd va mk op rnd) s = .next t ∧ Passes s t (s.me.pc + 16) ∧
      wonLanes s t vd (fun l v => v = redFinal op ((row (l / 64)).map (·.1))) ∧
      unionFlags fl (fun _ => True) (fun l => ((row (l / 64)).map (·.2)).getD 0#5) ∧
      t.here.fflags = (s.here.fflags ||| (fl.setWidth 25 <<< 15))) ∧
    (∃ t fl, exec (.vredc h vd va mk op rnd) s = .next t ∧ Passes s t (s.me.pc + 16) ∧
      wonLanes s t vd (fun l v => v = redFinal op ((col (l % 64)).map (·.1))) ∧
      unionFlags fl (fun _ => True) (fun l => ((col (l % 64)).map (·.2)).getD 0#5) ∧
      t.here.fflags = (s.here.fflags ||| (fl.setWidth 25 <<< 15))) ∧
    (∃ t fl, exec (.vscanr h vd va mk op rnd ex) s = .next t ∧ Passes s t (s.me.pc + 16) ∧
      wonLanes s t vd (fun l v => v = redFinal op (run (l / 64) (if ex then l % 64 else l % 64 + 1)).1) ∧
      unionFlags fl (fun _ => True) (fun l => (run (l / 64) 64).2) ∧
      t.here.fflags = (s.here.fflags ||| (fl.setWidth 25 <<< 15)))

/-- R144, R149, R150: VCMP writes the truth of its condition into the active bits of md; VSEL chooses lane by lane; the mask
operations write every bit of md; m15 stays all ones; VEXT, VMPOPC and VMFF write a scalar. -/
def Obligations.MasksAndSelectionsAreWritten : Prop :=
  ∀ (h : Hdr) (md ma mb mk : MNum) (vd va : VNum) (b : VSrc) (z : Bool) (cc : CC) (ss : SReg) (n : BitVec 14) (sx : Bool) (s : State),
    let A := s.mr ma
    let B := s.mr mb
    let K := s.mr mk
    let maskIs (i : Instr) (v : Nat → Bool) : Prop :=
      ∃ t, exec i s = .next t ∧ Passes s t (s.me.pc + 16) ∧
        ∀ l < 1024, (t.here.getM md).getLsbD l = if md = 15#4 then true else v l
    let scalarIs (i : Instr) (is : Word → Prop) : Prop :=
      ∃ v t, is v ∧ exec i s = .next t ∧ Passes s t (s.me.pc + 16) ∧ t.getS ss = if ss = 0#6 then 0#64 else v
    (s.ready h (vsrcRegs b) = true → soundRegs s (va :: vsrcVecs b) → soundMasks s [mk] →
      maskIs (.vcmp h md va b mk z cc) (fun l => if K.getLsbD l then cc32 cc (lane (s.vr va) l) (s.vsrc b l)
        else if z then false else (s.here.getM md).getLsbD l) ∧
      ∃ t, exec (.vsel h vd va b mk) s = .next t ∧ Passes s t (s.me.pc + 16) ∧
        wonLanes s t vd fun l v => v = if K.getLsbD l then lane (s.vr va) l else s.vsrc b l) ∧
    (s.ready h [] = true → soundMasks s [ma, mb] →
      maskIs (.vmand h md ma mb) (fun l => A.getLsbD l && B.getLsbD l) ∧
      maskIs (.vmor h md ma mb) (fun l => A.getLsbD l || B.getLsbD l) ∧
      maskIs (.vmxor h md ma mb) (fun l => A.getLsbD l != B.getLsbD l) ∧
      maskIs (.vmnot h md ma) (fun l => !A.getLsbD l) ∧
      scalarIs (.vmpopc h ss ma) (fun v => v.toNat = (List.range 1024).countP fun l => A.getLsbD l) ∧
      scalarIs (.vmff h ss ma) (fun v => v.toNat ≤ 1024 ∧ (∀ l < v.toNat, A.getLsbD l = false) ∧
        (v.toNat < 1024 → A.getLsbD v.toNat = true))) ∧
    (s.ready h [] = true → soundRegs s [va] → scalarIs (.vext h ss va n sx) (fun v =>
        ∀ i < 64, v.getLsbD i = if sx then (lane (s.vr va) n.toNat).getLsbD (min i 31) else (lane (s.vr va) n.toNat).getLsbD i))

/-- R167, R168: VSORTC gives each selected key within range its bucket's count so far plus its place among the selected keys
of that bucket in lower lanes, and every other lane 0xFFFF_FFFF; vc leaves with every bucket's count; the scalar is the
number of selected keys out of range. -/
def Sys2Proof.Claims.SortAndCountRanksStably : Prop :=
  ∀ (h : Hdr) (vd va vc : VNum) (n : BitVec 14) (ss : SReg) (mk : MNum) (s : State),
    s.ready h [] = true → soundRegs s [va, vc] → soundMasks s [mk] → vd ≠ vc → 1 ≤ n.toNat → n.toNat ≤ 1024 →
    ∃ t, exec (.vsortc h vd va vc n ss mk) s = .next t ∧ Passes s t (s.me.pc + 16) ∧
      wonLanes s t vd (fun l v =>
        let k := (lane (s.vr va) l).toNat
        v =
          if (s.mr mk).getLsbD l = true ∧ k < n.toNat then
            lane (s.vr vc) k + BitVec.ofNat 32 (sameBucket s va mk n.toNat k l)
          else 0xFFFFFFFF#32) ∧
      wonLanes s t vc (fun l v => v = lane (s.vr vc) l + BitVec.ofNat 32 (sameBucket s va mk n.toNat l 1024)) ∧
      t.getS ss = (if ss = 0#6 then 0#64 else BitVec.ofNat 64 ((List.range 1024).countP fun l =>
        (s.mr mk).getLsbD l && decide (n.toNat ≤ (lane (s.vr va) l).toNat)))

/-- R145–R147, R167, R168: reductions, prefixes and sort-and-count. -/
def Obligations.VectorReductionsAndSorts : Prop :=
  VectorReductionsFollowTheirOrders ∧ SortAndCountRanksStably

namespace Sys2Proof.Claims

/-- What a V instruction that moves no memory may change besides what passing changes: its vector or mask register, its
counts register, its scalar, and the flags of its group. -/
def vectorHides : Instr → Option (Eng → Cell → Cell)
  | .vadd _ o _ _ | .vsub _ o _ _ | .vmul _ o _ _ | .vfma _ o _ _ _ | .vfms _ o _ _ _ | .vdiv _ o _ _ | .vrcp _ o _
  | .vrsq _ o _ | .vsqrt _ o _ | .vexp2 _ o _ | .vlog2 _ o _ | .vtanh _ o _ | .vsigm _ o _ | .vcvtI2f _ o _ _
  | .vcvtF2i _ o _ _ => some fun e x => hideFlags .v (hideV o.vd e x)
  | .vredr _ vd _ _ _ _ | .vredc _ vd _ _ _ _ | .vscanr _ vd _ _ _ _ _ => some fun e x => hideFlags .v (hideV vd e x)
  | .vmin _ o _ | .vmax _ o _ | .vabs _ o | .vneg _ o | .viadd _ o _ | .visub _ o _ | .vimul _ o _ | .vimad _ o _ _
  | .vand _ o _ | .vor _ o _ | .vxor _ o _ | .vnot _ o | .vshl _ o _ | .vshr _ o _ | .vsra _ o _ | .vbfx _ o _ _
  | .vbfi _ o _ _ | .vpopc _ o | .vclz _ o | .vfshl _ o _ _ | .vfshr _ o _ _ | .vidot4 _ o _ _ _ _ | .vidot8 _ o _ _ _ _
  | .vrotr _ o _ _ | .vrotc _ o _ _ | .vbcr _ o _ _ | .vbcc _ o _ _ | .vperm _ o _ => some (hideV o.vd)
  | .viota _ vd _ _ _ _ | .vmov _ vd _ _ _ | .vmovs _ vd _ _ | .vsel _ vd _ _ _ => some (hideV vd)
  | .vcmp _ md _ _ _ _ _ | .vmand _ md _ _ | .vmor _ md _ _ | .vmxor _ md _ _ | .vmnot _ md _ => some (hideM md)
  | .vsortc _ vd _ vc _ ss _ => some fun e x => hideS ss e (hideV vc e (hideV vd e x))
  | _ => none

end Sys2Proof.Claims

/-- R133, R136 and the frame of the V instructions: whatever next state is reached without a trap, the destination registers,
the V flags of a float instruction, and what passing or waiting moves are all that may differ; SATCNT and every byte of
memory are as before. -/
def Obligations.VectorInstructionsChangeNothingElse : Prop :=
  ∀ (i : Instr) (f : Eng → Cell → Cell) (s t : State),
    vectorHides i = some f → exec i s = .next t → t.untrapped s.cur.cell s.cur.eng →
    Keeps f s t ∧ t.here.satcnt = s.here.satcnt

namespace Sys2Proof.Claims

/-! ## Vector loads and stores -/

/-- Where element l of an image stands (R153): its first byte, and whether it is the high nibble there. -/
def elementAt (f : Fmt) (ea : Word) (pitch : Option Word) (l : Nat) : Word × Bool :=
  let bit := (match pitch with | none => l | some _ => l % 64) * fmtBits f
  let row := match pitch with | none => 0#64 | some p => BitVec.ofNat 64 (l / 64) * p
  (ea + row + BitVec.ofNat 64 (bit / 8), decide (bit % 8 ≠ 0))

/-- The bit pattern of an element in its bytes (R74, R158). -/
def elementBits (f : Fmt) (hi : Bool) (bs : List Byte) : Nat :=
  if fmtBits f = 4 then (if hi then leNat bs / 16 else leNat bs % 16) else leNat bs

/-- The base address of repetition n (R155). -/
def runAddress (s : State) (r : RunOps) (idx : IdxMode) (n : Nat) : Word :=
  s.getS r.base + (if idx = .none then s.getS r.index else 0#64) + r.off.signExtend 64 +
    BitVec.ofNat 64 n * r.step.signExtend 64

/-- A load of L: header, address fields, format, raw or widened, mask, .z, index mode, and the shape of VLDB. -/
structure VLoad where
  h : Hdr
  r : RunOps
  f : Fmt
  raw : Bool
  mask : MNum
  z : Bool
  idx : IdxMode
  shape : Option Shape

/-- The vector loads. -/
def vectorLoad : Instr → Option VLoad
  | .vld h r f mk z idx => some { h, r, f, raw := false, mask := mk, z, idx, shape := none }
  | .vldRaw h r f mk z idx => some { h, r, f, raw := true, mask := mk, z, idx, shape := none }
  | .vldb h r f mk z idx shape => some { h, r, f, raw := false, mask := mk, z, idx, shape := some shape }
  | _ => none

/-- Where element j of repetition n stands (R153, R159). -/
def VLoad.place (q : VLoad) (s : State) (n j : Nat) : Word × Bool :=
  let ea := runAddress s q.r q.idx n
  match q.shape, q.idx with
  | some .col, .pitch => (ea + BitVec.ofNat 64 j * s.getS q.r.index, false)
  | some _, _ => elementAt q.f ea none j
  | none, .pitch => elementAt q.f ea (some (s.getS q.r.index)) j
  | none, _ => elementAt q.f ea none j

/-- The elements that a repetition reads: those of the active lanes, or every element of a shape. -/
def VLoad.reads (q : VLoad) (s : State) (j : Nat) : Prop :=
  match q.shape with
  | none => j < 1024 ∧ (s.mr q.mask).getLsbD j = true
  | some .row => j < 64
  | some .col => j < 16
  | some .one => j = 0

/-- The element that a lane receives. -/
def VLoad.element (q : VLoad) (l : Nat) : Nat :=
  match q.shape with
  | none => l
  | some .row => l % 64
  | some .col => l / 64
  | some .one => 0

/-- Put n vector registers from a number on out of sight. -/
def hideRun (v n : Nat) (e : Eng) (x : Cell) : Cell :=
  (List.range n).foldl (fun x i => hideV (BitVec.ofNat 10 (v + i)) e x) x

/-- A store of W: header, scalars read, repetitions, format, need, the lanes of a repetition with their places, the element
that each of them stores, and what else a repetition leaves. -/
structure VStore where
  h : Hdr
  uses : List SReg
  reps : Nat
  /-- it repeats, and may resume at a later repetition (R47) -/
  repeats : Bool
  f : Fmt
  need : Need
  lanes : State → Nat → List (Nat × Place)
  value : State → Nat → Nat → Place → Res Nat
  also : Nat → State → State

/-- The active lanes of a mask at their places. -/
def activeAt (mk : BitVec 1024) (place : Nat → Place) : List (Nat × Place) :=
  ((List.range 1024).filter fun l => mk.getLsbD l).map fun l => (l, place l)

/-- The rounding of an element stored at a place (R84). -/
def storeRm (s : State) (cvt : Cvt) (p : Place) : Rm :=
  { mode := cvtRnd cvt, seed := s.here.seed, c := coordMem s.cur.cell p.va.toNat p.hi }

/-- The store of a run of registers (R162). -/
def runStore (h : Hdr) (r : RunOps) (f : Fmt) (cvt : Cvt) (need : Need) (idx : IdxMode) (addIndex : Bool) (mk : State → BitVec 1024)
    (also : Nat → State → State) : VStore :=
  { h, uses := [r.base, r.index], reps := r.rep.toNat + 1, repeats := true, f, need
    lanes := fun s n => activeAt (mk s) (lanePlace f (s.runBase r addIndex n) (s.pitchOf r idx))
    value := fun s n l p => storeElem f cvt (if idx == .scale then value32 (lo32 (s.getS r.index)) else .fin false 1 1)
      (lane (s.vrAt (r.reg.toNat + n)) l) (storeRm s cvt p)
    also }

/-- The stores of W (R162–R164, R249, R405), over the element and place functions of the model. -/
def vectorStore : Instr → Option VStore
  | .vst h r f cvt mk idx => some (runStore h r f cvt .store idx (idx == .none) (fun s => s.mr mk) fun _ t => t)
  | .vstAmx h r f rnd amx idx => some (runStore h r f (.mode rnd) .store idx (idx == .none) (fun _ => BitVec.allOnes 1024)
      fun n t => t.modHere fun x => x.amxTake amx.toNat (t.vrAt (r.reg.toNat + n)))
  | .vstAmxDrain h base off amx => some
      { h, uses := [base], reps := 1, repeats := true, f := .fp32, need := .store
        lanes := fun s _ => [(0, { va := s.getS base + off.signExtend 64, hi := false })]
        value := fun s _ _ _ => { val := (tabGet 0#32 s.here.amx amx.toNat).toNat }
        also := fun _ t => t.modHere fun x => { x with amx := tabSet 0#32 x.amx amx.toNat 0#32 } }
  | .vsct h va vb ss mk imm f cvt => some
      { h, uses := [ss], reps := 1, repeats := false, f, need := .store
        lanes := fun s _ => activeAt (s.mr mk) fun l =>
          { va := s.getS ss + (lane (s.vr vb) l).signExtend 64 + imm.signExtend 64, hi := false }
        value := fun s _ l p => storeElem f cvt (.fin false 1 1) (lane (s.vr va) l) (storeRm s cvt p)
        also := fun _ t => t }
  | .epi h sa sb vr cnt f cvt act cols imm bias scale => 
      let n := cols.toNat + 1
      some
      { h, uses := [sa, sb], reps := 1, repeats := false, f, need := .store
        lanes := fun s _ => (List.range ((cnt.toNat + 1) * n)).map fun l =>
          (l, placeAt f (s.getS sa + BitVec.ofNat 64 (l / n) * s.getS sb) (l % n))
        value := fun s _ l p =>
          let y := epiValue (s.here.getT s.here.tD) (if bias then some (s.vrAt vr.toNat) else none) act (l / n) (l % n)
          let z := storeElem f cvt (if scale then value32 imm else .fin false 1 1) y.val (storeRm s cvt p)
          { z with fl := y.fl ||| z.fl }
        also := fun _ t => t.modHere fun x =>
          { x with tD := x.tD + 1, closed := x.closed &&& ~~~(BitVec.ofNat 16 (2 ^ tileSlot x.tD)) } }
  | .stf h r f cvt mk => some (runStore h r f cvt .notify .none false (fun s => s.mr mk) fun _ t => t)
  | _ => none

/-- The keys of the elements of a repetition, or nothing where one of them does not translate. -/
def VStore.keys (q : VStore) (s : State) : List (Nat × Place) → Option (List (List Nat))
  | [] => some []
  | (_, p) :: rest =>
    match s.span q.need p.va (elemBytes q.f), q.keys s rest with
    | .ok ks, some kss => some (ks :: kss)
    | _, _ => none

/-- One repetition whose elements translate to given keys: the stores leave, in lane order, with their flags and counts. -/
def VStore.step (q : VStore) (s : State) (n : Nat) (kss : List (List Nat)) : State :=
  let r := storeGo q.f (q.value s n) (q.lanes s n) kss
  let vas := (q.lanes s n).map fun p => p.2.va
  q.also n ((((s.countBytes s.cur.cell vas kss.flatten).access (placesOf kss vas)
    (storeAccess q.need (s.notPeerObject r.1)))).effects s.cur.cell .w r.2.1 r.2.2)

/-- Some repetitions from number n on: the state that they leave, and the keys of every byte that they store to. -/
def VStore.run (q : VStore) : Nat → Nat → State → Option (State × List Nat)
  | 0, _, s => some (s, [])
  | m + 1, n, s =>
    match q.keys s (q.lanes s n) with
    | none => none
    | some kss =>
      let t := q.step s n kss
      match q.run m (n + 1) (if t.me.watchPass then t.modMe fun st => { st with watchPass := false } else t) with
      | none => none
      | some (u, ks) => some (u, kss.flatten ++ ks)

/-- The keys of every byte that some repetitions from number n on store to, up to the first whose elements do not all
translate. -/
def VStore.reached (q : VStore) : Nat → Nat → State → List Nat
  | 0, _, _ => []
  | m + 1, n, s =>
    match q.keys s (q.lanes s n) with
    | none => []
    | some kss =>
      let t := q.step s n kss
      kss.flatten ++ q.reached m (n + 1) (if t.me.watchPass then t.modMe fun st => { st with watchPass := false } else t)

/-- What else a store needs before it acts: sound source registers (R435), for EPI a closed tile at the drain end. -/
def storeAble (s : State) : Instr → Prop
  | .vst _ r _ _ mk _ => (∀ n ≤ r.rep.toNat, s.here.badReg (1000 + (r.reg.toNat + n)) = false) ∧ soundMasks s [mk]
  | .vstAmx _ r _ _ amx _ => s.here.badReg (9000 + amx.toNat) = false ∧ ∀ n ≤ r.rep.toNat, s.here.badReg (1000 + (r.reg.toNat + n)) = false
  | .vsct _ va vb _ mk _ _ _ => soundRegs s [va, vb] ∧ soundMasks s [mk]
  | .epi _ _ _ vr _ _ _ _ _ _ bias _ => s.here.openTiles ≠ 0 ∧ s.here.isClosed s.here.tD = true ∧
      s.here.badReg (2000 + tileSlot s.here.tD) = false ∧ (bias = true → s.here.badReg (1000 + vr.toNat) = false)
  | .vstAmxDrain _ _ _ amx => s.here.badReg (9000 + amx.toNat) = false
  | _ => False

/-- What a store may change in its cell: W's queue, flags and SATCNT, the amx registers, the drain end of the result ring,
and the list of notifying stores. -/
def hideStore (e : Eng) (x : Cell) : Cell :=
  { hideFlags .w (hideQueue e x) with amx := [], tD := 0#32, closed := 0#16, stfs := [] }

end Sys2Proof.Claims

/-! ## Vector loads and stores (06 R153–R165, 09 R249, 16 R405) -/

/-- R153, R155–R159: a vector load whose elements translate, with no older access before it, fills the active lanes of each
repetition's register with their elements, widened or raw, as memory holds them where L has read nothing ahead, keeps or
clears the others, and passes; a lane may keep the value of another engine's write that races (R29); nothing else changes.
PREF (R160), which no error in its scalars stops, may add translations to the caches and changes nothing else. -/
def Obligations.VectorLoadsFillTheirLanes : Prop :=
  (∀ (i : Instr) (q : VLoad) (s : State) (ks : Nat → Nat → List Nat),
    vectorLoad i = some q → s.ready q.h [q.r.base, q.r.index] = true → s.me.resumes = false →
    q.r.reg.toNat + q.r.rep.toNat < 640 → soundMasks s [q.mask] → s.cur.wait = false → s.me.queue = [] → s.here.watch = [] →
    (∀ n ≤ q.r.rep.toNat, ∀ j, q.reads s j →
      s.span .load (q.place s n j).1 (elemBytes q.f) = .ok (ks n j) ∧ ∀ k ∈ ks n j, s.bad k = false) →
    ∃ t, exec i s = .next t ∧ Passes s t (s.me.pc + 16) ∧ 
      Keeps (fun e x => hideAhead e (hideRun q.r.reg.toNat (q.r.rep.toNat + 1) e x)) s t ∧
      (s.me.ahead = [] → ∀ n ≤ q.r.rep.toNat, ∀ l < 1024, lane (t.here.getV (q.r.reg.toNat + n)) l =
        if (s.here.lost s.cur.eng s.cur.old (q.r.reg.toNat + n)).getLsbD l = true then lane (s.here.getV (q.r.reg.toNat + n)) l
        else if (s.mr q.mask).getLsbD l = true then
          let b := elementBits q.f (q.place s n (q.element l)).2 ((ks n (q.element l)).map s.view)
          if q.raw then BitVec.ofNat 32 b else widen q.f b
        else if q.z then 0#32 else lane (s.here.getV (q.r.reg.toNat + n)) l)) ∧
  ∀ (h : Hdr) (r : RunOps) (x : Extent) (s : State), s.ready h [] = true → s.me.resumes = false →
    s.me.loading r.base = false → s.me.loading r.index = false →
    ∃ t, exec (.pref h r x) s = .next t ∧ Passes s t (s.me.pc + 16) ∧ Keeps nothing s { t with tlb := s.tlb } ∧
      ∀ e ∈ s.tlb, e ∈ t.tlb


/-- R153, R156, R162–R164, R249: a store of W whose elements all translate stores every element in its turn, and passes; where
nothing holds it back, the bytes of its only repetition are those that R162 gives. -/
def Obligations.VectorStoresWriteTheirElements : Prop :=
  ∀ (i : Instr) (q : VStore) (s u : State) (ks : List Nat),
    vectorStore i = some q → s.ready q.h q.uses = true → s.me.resumes = false → storeAble s i →
    s.here.watch = [] → s.barriers = [] → s.me.watchPass = false → q.run q.reps 0 s = some (u, ks) →
    ∃ t, exec i s = .next t ∧ t = s.after q.h u ∧ Passes s t (s.me.pc + 16) ∧ KeepsOutside ks hideStore s t ∧
      (q.reps = 1 → s.cur.wait = false → s.me.queue = [] → ∀ kss, q.keys s (q.lanes s 0) = some kss →
        ∀ k, t.byte k = (s.puts (storeGo q.f (q.value s 0) (q.lanes s 0) kss).1).byte k)

/-- The frame of the stores of W: whatever next state is reached without a trap, every byte outside those that its elements
translate to, each in its repetition's turn, reads as before, and nothing changes but W's queue and flags, the amx registers,
the drain end of the result ring and the notifying stores. -/
def Obligations.VectorStoresChangeNoOtherByte : Prop :=
  ∀ (i : Instr) (q : VStore) (s t : State),
    vectorStore i = some q → s.cur.eng = .w → exec i s = .next t → t.untrapped s.cur.cell .w →
    let start := match s.me.progress with | some p => if q.repeats = true ∧ p.pc = s.me.pc then p.idx else 0 | none => 0
    KeepsOutside (q.reached (q.reps - start) start s) hideStore s t

namespace Sys2Proof.Claims

/-! ## Copies -/

/-- What taking a copy command changes: the channel's commands, bytes issued, ordinals and write pointer. -/
def hideCopies (_ : Eng) (x : Cell) : Cell := { x with copies := [], issued := [], chOrd := [], wp := [] }

/-- Put the descriptor registers out of sight, with the error mark of one. -/
def hideDesc (d : DNum) (_ : Eng) (x : Cell) : Cell :=
  { x with desc := [], regErr := tabSet false x.regErr (6000 + d.toNat) false }

/-- No command of a cell waits only to be taken off its list. -/
def unsettled (x : Cell) : Prop := ∀ a ∈ x.copies, a.lead ≠ a.units

end Sys2Proof.Claims

/-! ## Descriptors and copies (07 R187–R189, 08 R192, R200–R222) -/

/-- R192: DLD loads a checked image, and raises META 0x20 for an invalid one, its older accesses retired; DST stores an image
unchecked. That the 32-bit offset is sign-extended is the model's choice (log 123). -/
def Obligations.DescriptorsLoadAndStore : Prop :=
  ∀ (h : Hdr) (d : DNum) (r : SReg) (imm : Lane) (s : State) (ks : List Nat),
    let va := s.getS r + imm.signExtend 64
    let img := leNat (s.readFor s.cur.cell .l 8 ks)
    s.ready h [r] = true → va.toNat % 64 = 0 → s.here.watch = [] → s.cur.wait = false → s.me.queue = [] →
    (s.span .load va 64 = .ok ks → (∀ k ∈ ks, s.bad k = false) →
      (descOk img = true →
        ∃ t, exec (.dld h d r imm) s = .next t ∧ Passes s t (s.me.pc + 16) ∧
          (∀ e, t.here.getD e = if e = d then BitVec.ofNat 512 img else s.here.getD e) ∧
          Keeps (fun e x => hideAhead e (hideDesc d e x)) s t) ∧
      (descOk img = false → s.cur.eng ≠ .sup → s.here.retired s.cur.eng = true →
        exec (.dld h d r imm) s = .next (s.takeTrap s.cur.cell s.cur.eng
          { cause := 0x06#8, info := [0x20#8, 1#8, BitVec.ofNat 8 (128 + d.toNat)] ++ List.replicate 29 0#8 }))) ∧
    (s.span .store va 64 = .ok ks → s.barriers = [] → s.here.badReg (6000 + d.toNat) = false →
      ∃ t, exec (.dst h d r imm) s = .next t ∧ Passes s t (s.me.pc + 16) ∧
        (∀ k, t.byte k = (s.puts (fullPuts ks (leBytes 64 (s.here.getD d).toNat))).byte k) ∧ KeepsOutside ks nothing s t)

/-- A copy command may read what it names: no load of its descriptors is outstanding, no earlier command, not complete, writes
a header or a directory entry that it reads at issue (R306), and its descriptors have no error (R435). -/
def Sys2Proof.Claims.copyReadable (s : State) (i : Instr) (o : CopyOps) : Prop :=
  s.me.loadingDesc o.ds = false ∧ s.me.loadingDesc o.dd = false ∧ s.headerPending i o = false ∧
  s.here.badReg (6000 + o.ds.toNat) = false ∧ s.here.badReg (6000 + o.dd.toNat) = false

/-- R203, R187, R189: a copy command that its checks let pass joins its channel with everything it read at issue, its bytes
count as issued, and L passes; a command without units is done at once. A breach of the checks raises its trap, and with as
many commands as L holds, behind a MARK that L has not reached (R122), behind a load of its descriptor, or behind a command
that writes what it reads at issue (R306), it waits. -/
def Sys2Proof.Claims.CopyCommandsAreAccepted : Prop :=
  ∀ (i : Instr) (h : Hdr) (o : CopyOps) (s : State),
    copyOps i = some (h, o) → i ≠ .xchgAll h o → s.ready h (copyRegs o) = true → unsettled s.here →
    (s.me.marked = true → ∃ t, exec i s = .next t ∧ t.me.stall = .other ∧ t.me.pc = s.me.pc ∧ Keeps nothing s t) ∧
    (s.me.marked = false → s.here.copies.length < Config.copyDepth →
      (s.me.loadingDesc o.ds || s.me.loadingDesc o.dd || s.headerPending i o) = true →
      ∃ t, exec i s = .next t ∧ t.me.stall = .other ∧ t.me.pc = s.me.pc ∧ Keeps nothing s t) ∧
    (s.me.marked = false → copyReadable s i o →
    (Config.copyDepth ≤ s.here.copies.length →
      ∃ t, exec i s = .next t ∧ t.me.stall = .copies ∧ t.me.pc = s.me.pc ∧ Keeps nothing s t) ∧
    (s.here.copies.length < Config.copyDepth →
      (∀ tr, s.prepare i = .error tr → s.cur.eng ≠ .sup → s.here.retired s.cur.eng = true →
        exec i s = .next (s.takeTrap s.cur.cell s.cur.eng tr)) ∧
      ∀ k, s.prepare i = .ok k →
        k.inst = i ∧ k.sa = s.getS o.sa ∧ k.sb = s.getS o.sb ∧ k.sx = s.getS o.sx ∧ k.ds = s.here.getD o.ds ∧
        k.dd = s.here.getD o.dd ∧ k.seed = s.here.seed ∧ k.lead = 0 ∧ k.extra = [] ∧ k.halted = false ∧
        k.start = tabGet 0 s.here.issued o.ch.toNat ∧ k.ord = tabGet 0 s.here.chOrd o.ch.toNat ∧
        ∃ t, exec i s = .next t ∧ Passes s t (s.me.pc + 16) ∧ Keeps hideCopies s t ∧
          t.here.copies = (if k.units = 0 then s.here.copies else s.here.copies ++ [k]) ∧
          (∀ c, tabGet 0 t.here.issued c = if c = o.ch.toNat then k.start + k.total else tabGet 0 s.here.issued c) ∧
          ∀ c, tabGet 0 t.here.chOrd c = if c = o.ch.toNat then k.ord + 1 else tabGet 0 s.here.chOrd c))

/-- R219, R210: a copy whose write meets a byte that it reads, where it may not, raises OVERLAP once its addresses, pages
and barrier have been checked; nothing has been issued. -/
def Sys2Proof.Claims.OverlappingCopiesTrap : Prop :=
  ∀ (i : Instr) (h : Hdr) (o : CopyOps) (s : State) (p : Plan) (rp wp : List Page) (key : Nat),
    copyOps i = some (h, o) → s.ready h (copyRegs o) = true → s.here.xchg = none → s.here.copies.length < Config.copyDepth →
    s.me.marked = false → copyReadable s i o → s.cur.eng ≠ .sup →
    s.here.retired s.cur.eng = true →
    s.planOf i = .ok p → (∀ a ∈ p.aligned, a.1.toNat % a.2 = 0) →
    s.pagesOf s.here.asid false p.reads = .ok rp → s.pagesOf s.here.asid true [p.write] = .ok wp → s.liveIn wp p.write = none →
    (o.sc = 0#6 ∨ s.barrierKey (s.getS o.sc) = .ok key) →
    (p.ownSlice = true → ∀ g ∈ wp, s.pageKey g 0 / 0x800000 = slicePa s.cur.cell 0 / 0x800000) →
    p.reads.any (meets p.write) = true → p.serial = false →
    exec i s = .next (s.takeTrap s.cur.cell s.cur.eng { cause := 0x08#8 })

/-- R203, R210, R219: what the acceptance of a copy leaves, and the overlap that it refuses: where copy, copyEnc, copyDec,
copyExport, gather and scatter complete. -/
def Obligations.CopiesAreTaken : Prop :=
  CopyCommandsAreAccepted ∧ OverlappingCopiesTrap

/-- A unit of a command has landed. -/
def Sys2Proof.Claims.hasLanded (k : Copy) (u : Nat) : Prop := u < k.lead ∨ u ∈ k.extra

/-- Some units of a command land one after the other; nothing where one of them cannot be read or written. -/
def Sys2Proof.Claims.landAll (c j : Nat) : Nat → Nat → State → Option State
  | 0, _, s => some s
  | n + 1, u, s => match s.landUnit c j u with | .ok t => landAll c j n (u + 1) t | .error _ => none

/-- R188, R191, R205, R208: a unit of a copy that has not landed writes its bytes, those that a later unit has written
excepted, adds its flags and saturations, and has landed then; no other unit has. -/
def Sys2Proof.Claims.UnitsWriteTheirBytes : Prop :=
  ∀ (c j u : Nat) (s : State) (k : Copy) (x : Landing) (ps : List Put),
    (s.cell c).copies[j]? = some k → u < k.units → ¬ hasLanded k u → s.unitOf c k u = .ok x → s.landKeys k x.writes = .ok ps →
    ∃ t k', s.landUnit c j u = .ok t ∧
      (∀ b, t.byte b = (s.puts (s.notPeerObject ((ps.zip x.writes).map fun p => (p.1.1, (k.older u p.2).2.1, p.1.2.2)))).byte b) ∧
      (t.cell c).fflags = ((s.cell c).fflags ||| (x.fl.setWidth 25 <<< 5)) ∧
      (t.cell c).satcnt.toNat = min ((s.cell c).satcnt.toNat + x.sat) (2 ^ 64 - 1) ∧
      (t.cell c).copies[j]? = some k' ∧ k'.inst = k.inst ∧ k'.halted = k.halted ∧ ∀ v, hasLanded k' v ↔ hasLanded k v ∨ v = u

/-- R188, R204, R206, R221: COPY_LAND lands n units of a copy that may land, and those that share their aligned 8 bytes, one
after the other; after its last unit the command leaves, and the write pointer of its channel follows. A unit that cannot be
read or written halts the command with a deferred fault at its index in channel order, and no byte changes. That units which
share aligned 8 bytes land together, and that the fault's address is the number of bytes of the channel before it, are the
model's choices (logs 78 and 65). -/
def Sys2Proof.Claims.CopyUnitsLand : Prop :=
  ∀ (c j first n : Nat) (s : State) (k : Copy),
    (s.cell c).copies[j]? = some k → n ≠ 0 → s.mayLand c j (k.group first).1 = true → k.bar = none → k.barVa = 0#64 →
    let last := k.group (first + (n - 1))
    let m := if k.srcs = [] then last.1 + last.2 - (k.group first).1 else 1
    (∀ u k', landAll c j m (k.group first).1 s = some u → (u.cell c).copies[j]? = some k' → k'.bar = none → k'.barVa = 0#64 → k'.watched = none →
      ∃ t, exec (.copyLand c j first n) s = .next t ∧ (∀ b, t.byte b = u.byte b) ∧ (t.cell c).fflags = (u.cell c).fflags ∧
        (t.cell c).satcnt = (u.cell c).satcnt ∧
        (if k'.lead = k'.units then (t.cell c).copies = (u.cell c).copies.eraseIdx j
         else (t.cell c).copies[j]? = some { k' with landedBytes := k'.landed }) ∧
        tabGet 0#64 (t.cell c).wp k'.ch = (t.cell c).writePointer k'.ch) ∧
    (∀ tr, first = k.lead → s.unitOf c k k.lead = .error tr → k.lead ∉ k.extra →
      ∃ t, exec (.copyLand c j first n) s = .next t ∧ (∀ b, t.byte b = s.byte b) ∧
        (∃ k', (t.cell c).copies[j]? = some k' ∧ k'.halted = true ∧ k'.lead = k.lead) ∧
        (t.eng c .l).deferred = (s.eng c .l).deferred ++
          [{ tr with deferred := true, unit := k.ch, idx := some k.ord, addr := BitVec.ofNat 64 (k.start + k.landed) }])

/-- R208, R209: what a unit of COPY between strided arrays of one format, unscaled, writes: at the position of channel order
in the destination, the source element that the window origin gives, transposed or not, bit for bit; outside the source a
fill of zero bits, or nothing under .padskip. -/
def Sys2Proof.Claims.PlainCopiesMoveBits : Prop :=
  ∀ (c u : Nat) (s : State) (k : Copy) (h : Hdr) (o : CopyOps),
    let ds := Desc.of k.ds.toNat
    let dd := Desc.of k.dd.toNat
    let at' := dd.index u
    let x : Int := (at'.getD 0 0 : Int) - o.lo0.toNat
    let y : Int := (at'.getD 1 0 : Int) - o.lo1.toNat
    let src0 := if o.tr then y else x
    let src1 := if o.tr then x else y
    k.inst = .copy h o → ds.kind = 0 → ds.fmt = dd.fmt → o.scl = .none →
    (0 ≤ src0 ∧ src0 < ds.sz 0 ∧ 0 ≤ src1 ∧ src1 < max (ds.sz 1) 1 →
      ∀ b, s.readElem k k.pages ds.fmt (ds.place k.sa ([src0.toNat, src1.toNat] ++ at'.drop 2)) = .ok b →
        s.unitOf c k u = .ok { writes := placeWrites dd.fmt (dd.place k.sb at') b }) ∧
    (¬(0 ≤ src0 ∧ src0 < ds.sz 0 ∧ 0 ≤ src1 ∧ src1 < max (ds.sz 1) 1) →
      s.unitOf c k u = .ok { writes := if o.padskip then [] else placeWrites dd.fmt (dd.place k.sb at') 0 })

/-- R188, R204–R209: how the units of a copy land, and what a plain copy moves: where the event copyLand completes. The model's
choices: the index in a trap counts over the channel (log 65), and units of shared aligned 8 bytes land together (log 78). -/
def Obligations.CopiesLand : Prop :=
  UnitsWriteTheirBytes ∧ CopyUnitsLand ∧ PlainCopiesMoveBits

/-- R217, R218: XCHG.ALL registers with its group and stands; when every cell of the group has issued one that its checks
let pass, with chunks of one size, all are accepted together and every L passes: where xchgAll and the event xchgAccept complete. -/
def Obligations.ExchangesJoinTheirGroup : Prop :=
  (∀ (h : Hdr) (o : CopyOps) (s : State) (k : Copy),
    s.ready h (copyRegs o) = true → s.here.xchg = none → s.here.copies.length < Config.copyDepth →
    s.me.marked = false → s.me.loadingDesc o.ds = false → s.me.loadingDesc o.dd = false →
    s.here.badReg (6000 + o.ds.toNat) = false → s.here.badReg (6000 + o.dd.toNat) = false → s.prepare (.xchgAll h o) = .ok k →
    ∃ t, exec (.xchgAll h o) s = .next t ∧ t.here.xchg = some { half := o.grp == .half, inst := .xchgAll h o } ∧
      t.me.pc = s.me.pc ∧ Keeps (fun _ x => { x with xchg := none }) s t) ∧
  ∀ (c : Nat) (half : Bool) (s : State) (ks : Nat → Copy) (ws : Nat → XchgWait) (bits : Nat),
    let cs := groupCells half c
    c ∈ cs →
    (∀ d ∈ cs, (s.cell d).xchg = some (ws d) ∧ (ws d).half = half ∧ (s.cell d).frozen = none ∧ (s.eng d .l).deferred = [] ∧
      (s.asEngine d .l).prepare (ws d).inst = .ok (ks d) ∧ (ks d).units ≠ 0 ∧ (ks d).units * (ks d).ubits = bits ∧
      unsettled (s.cell d)) →
    ∃ t xid, exec (.xchgAccept c) s = .next t ∧
      (∀ d ∈ cs, (t.cell d).xchg = none ∧ (t.eng d .l).pc = (s.eng d .l).pc + 16 ∧
        (t.eng d .l).step = (s.eng d .l).step + 1 ∧
        (t.cell d).copies = (s.cell d).copies ++ [{ ks d with
          xid, srcs := cs.map fun e => { cell := e, ds := (ks e).ds, base := (ks e).sa, pages := (ks e).pages } }]) ∧
      (∀ d, d ∉ cs → t.cell d = s.cell d) ∧ ∀ k, t.byte k = s.byte k

namespace Sys2Proof.Claims

/-! ## Tile commands -/

/-- What accepting a tile command changes: the commands, their numbers, the counters of the ring registers, and what the
claim orders, as an acquire (R302). -/
def hideCommands (e : Eng) (x : Cell) : Cell :=
  { (x.setEng e { x.eng e with nextId := 0, ahead := [], synced := 0 }) with
    mcmds := [], seq := 0, ring := [], ringTurn := [], hold := [], holding := none }

/-- A command as it joins the queue: what it read at issue (R238, R84, R85). -/
def joins (s : State) (i : Instr) (ti : BitVec 4) (sa sb : Word) (m : MCmd) : Prop :=
  m.inst = i ∧ m.pc = s.me.pc ∧ m.sa = sa ∧ m.sb = sb ∧ m.seq = s.here.seq ∧ m.seed = s.here.seed ∧ m.mode = s.here.mode ∧
  m.lag = s.here.lag ∧ m.tile = s.here.tF - 1#32 - ti.setWidth 32 ∧ m.claimed = true ∧ m.started = false ∧ m.sibling = none

/-- The claims of a command: K of each ring moves by what it takes, and nothing else of any ring (R238). -/
def claimsTaken (s t : State) (taken : Nat → Nat) : Prop :=
  ∀ g, t.here.getR g = { s.here.getR g with k := (s.here.getR g).k + BitVec.ofNat 32 (taken g) }

/-- The pre-pass of a command that has taken its claims finds no content fault, or its faults are logged (R252–R254). -/
def prepassClean (s : State) (m : MCmd) : Prop := m.mode.zlog.isSome = true ∨ s.prepass m = []

/-- The tile of an offset is open and writable, no older command closes it, and it has no error (R235, R238, R435). -/
def tileOpen (s : State) (ti : BitVec 4) : Prop :=
  ti.toNat < s.here.openTiles ∧ s.here.isClosed (s.here.tileNo ti) = false ∧
  (∀ m ∈ s.here.mcmds, m.closes = true → m.tile ≠ s.here.tileNo ti) ∧
  s.here.badReg (2000 + tileSlot (s.here.tileNo ti)) = false

/-- The array's queue takes another command: it has room, and no older command has yet to be issued again (R238). -/
def queueOpen (s : State) : Prop := s.here.queued < Config.arrayQueue ∧ ∀ m ∈ s.here.mcmds, m.claimed = true

/-- The tile fields of MMA and MSD, and whether it is MSD. -/
def pairCommand : Instr → Option (Hdr × TileOps × Bool)
  | .mma h o => some (h, o, false)
  | .msd h o => some (h, o, true)
  | _ => none

/-- The fields of a descent. -/
def descentCommand : Instr → Option (Hdr × DescOps)
  | .descStep h o | .descWalk h o => some (h, o)
  | _ => none

/-- Every tile but that of an offset keeps its accumulators and stays open or closed. -/
def otherTiles (s t : State) (ti : BitVec 4) : Prop :=
  ∀ u, tileSlot u ≠ tileSlot (s.here.tileNo ti) → t.here.getT u = s.here.getT u ∧ t.here.isClosed u = s.here.isClosed u

/-- Put the result ring out of sight, with the errors of its tiles. -/
def hideTiles (_ : Eng) (x : Cell) : Cell := { x with tiles := [], tF := 0#32, closed := 0#16, regErr := [] }

/-- Put the path trace out of sight, with its errors. -/
def hidePath (_ : Eng) (x : Cell) : Cell :=
  { x with path := [], regErr := x.regErr.filter fun e => !(decide (8000 ≤ e.1) && decide (e.1 < 8128)) }

end Sys2Proof.Claims

/-! ## Tile commands (09 R234–R249, 10 R258–R279) -/

/-- R237, R238, R252: MMA and MSD, their checks passed and their slots published, claim a slot pair for each step from both
rings and join the array's queue; without the slots they wait and claim nothing; a content fault that the pre-pass finds, where
it is not logged, traps at the command with the pre-pass's first record, and nothing is claimed. That the pre-pass runs as the
command issues is the model's choice (log 80). -/
def Sys2Proof.Claims.TileProductsAreAccepted : Prop :=
  ∀ (i : Instr) (h : Hdr) (o : TileOps) (sq : Bool) (s : State),
    pairCommand i = some (h, o, sq) → s.ready h [] = true → queueOpen s → tileOpen s o.ti →
    let n := o.cnt.toNat + 1
    let a := s.here.getR o.ga.toNat
    let b := s.here.getR o.gb.toNat
    let s' := s.modHere fun x => (x.claim s.cycle o.ga n).claim s.cycle o.gb n
    let m' := { s.newCommand i o.ti 0#64 0#64 with ra := a, rb := b, claimed := true }
    let turn := s.ringTurnM o.ga = true ∧ s.ringTurnM o.gb = true
    s.ringChecks sq o.ga o.gb n = none → s.homeTrap o = none →
    (turn → prepassClean s' m' → n ≤ a.ready → n ≤ b.ready → s.slotTrap a (a.claimSlots n) = none → s.slotTrap b (b.claimSlots n) = none →
      ∃ t m, exec i s = .next t ∧ Passes s t (s.me.pc + 16) ∧ t.here.mcmds = s.here.mcmds ++ [m] ∧
        joins s i o.ti 0#64 0#64 m ∧ m.ra = a ∧ m.rb = b ∧ t.here.seq = s.here.seq + 1 ∧
        claimsTaken s t (fun g => (if g = o.ga.toNat then n else 0) + if g = o.gb.toNat then n else 0) ∧
        Keeps hideCommands s t) ∧
    (turn → n ≤ a.ready → n ≤ b.ready → s.slotTrap a (a.claimSlots n) = none → s.slotTrap b (b.claimSlots n) = none →
      ∀ f fs, s.here.mode.zlog = none → s'.prepass m' = f :: fs → s.cur.eng ≠ .sup → s.here.retired s.cur.eng = true →
        exec i s = .next (s.takeTrap s.cur.cell s.cur.eng { cause := 0x06#8, info := f })) ∧
    (¬turn ∨ a.ready < n ∨ b.ready < n →
      ∃ t, exec i s = .next t ∧ t.me.stall = .slots ∧ t.me.pc = s.me.pc ∧ Keeps nothing s t)

/-- R274, R275, R277: MMA.G reads its table once, holds the weight slots that its blocks name, claims its token slots and
joins the queue; where weight slots are not yet published it waits with what it has read, and joins later with the SEED then
in force (R85). -/
def Sys2Proof.Claims.GroupedProductsAreAccepted : Prop :=
  ∀ (h : Hdr) (o : TileOps) (gc : GNum) (sa sb : SReg) (s : State) (m : MCmd),
    s.ready h [sa, sb] = true → queueOpen s →
    let n := o.cnt.toNat + 1
    let a := s.here.getR o.ga.toNat
    (s.here.holding = none → s.planGrouped o gc sb (s.here.tileTrap o.ti true true) (s.newCommand (.mmaG h o gc sa sb) o.ti (s.getS sa) (s.getS sb)) = .ok m →
    (s.here.canHold o m = true → s.ringTurnM o.ga = true →
      prepassClean (((s.groupedRead o gc sb m).modHere fun x => x.takeHolds m).modHere fun x => x.claim s.cycle o.ga n)
        { m with ra := a, claimed := true } → n ≤ a.ready → s.slotTrap a (a.claimSlots n) = none →
      s.slotTrap m.rb (m.holds.map (· % 4096)) = none →
      ∃ t, exec (.mmaG h o gc sa sb) s = .next t ∧ Passes s t (s.me.pc + 16) ∧
        t.here.mcmds = s.here.mcmds ++ [{ m with ra := a, claimed := true }] ∧
        joins s (.mmaG h o gc sa sb) o.ti (s.getS sa) (s.getS sb) { m with ra := a, claimed := true } ∧
        claimsTaken s t (fun g => if g = o.ga.toNat then n else 0) ∧
        (∀ k, tabGet 0 t.here.hold k = tabGet 0 s.here.hold k + m.holds.count k) ∧ Keeps hideCommands s t) ∧
    (s.here.canHold o m = false →
      ∃ t, exec (.mmaG h o gc sa sb) s = .next t ∧ t.me.stall = .slots ∧ t.me.pc = s.me.pc ∧
        t.here.holding = some (m, false) ∧ Keeps hideCommands s t)) ∧
    ∀ held : Bool, s.here.holding = some (m, held) → (held = false → s.here.canHold o m = true) → n ≤ a.ready →
      s.ringTurnM o.ga = true →
      prepassClean ((if held then s else s.modHere fun x => x.takeHolds m).modHere fun x => x.claim s.cycle o.ga n)
        { m with ra := a, claimed := true } →
      s.slotTrap a (a.claimSlots n) = none → s.slotTrap m.rb (m.holds.map (· % 4096)) = none →
      ∃ t, exec (.mmaG h o gc sa sb) s = .next t ∧ Passes s t (s.me.pc + 16) ∧ t.here.holding = none ∧
        t.here.mcmds = s.here.mcmds ++ [{ m with ra := a, claimed := true, seed := s.here.seed }] ∧
        claimsTaken s t (fun g => if g = o.ga.toNat then n else 0) ∧
        (∀ k, tabGet 0 t.here.hold k = tabGet 0 s.here.hold k + if held then 0 else m.holds.count k) ∧
        Keeps hideCommands s t

/-- R258–R263: DESC.STEP and DESC.WALK, their rings, margin tile and trace checked and no descent before them, claim one slot
of ga unless .keep leaves it, and join the queue. -/
def Sys2Proof.Claims.DescentsAreAccepted : Prop :=
  ∀ (i : Instr) (h : Hdr) (o : DescOps) (s : State),
    descentCommand i = some (h, o) → s.ready h [o.sb] = true → queueOpen s → tileOpen s o.ti →
    let a := s.here.getR o.ga.toNat
    s.treeTrap o = none → (∀ m ∈ s.here.mcmds, m.descent = none) → 1 ≤ a.ready → s.slotTrap a (a.claimSlots 1) = none →
    tracesOk o.depth.toNat a.rows (if o.init then startTraces a.rows else s.here.traces) = true →
    (o.init = false → s.here.badPath = false) → (o.keep = false → s.ringTurnM o.ga = true) →
    prepassClean (if o.keep then s else s.modHere fun x => x.claim s.cycle o.ga 1)
      { s.newCommand i o.ti 0#64 (s.getS o.sb) with ra := a, rb := s.here.getR o.gc.toNat, claimed := true } →
    ∃ t m, exec i s = .next t ∧ Passes s t (s.me.pc + 16) ∧ t.here.mcmds = s.here.mcmds ++ [m] ∧
      joins s i o.ti 0#64 (s.getS o.sb) m ∧ m.ra = a ∧ m.rb = s.here.getR o.gc.toNat ∧ t.here.seq = s.here.seq + 1 ∧
      claimsTaken s t (fun g => if g = o.ga.toNat ∧ o.keep = false then 1 else 0) ∧ Keeps hideCommands s t

/-- R237, R238, R258–R263, R274–R277: the issue of every tile command. -/
def Obligations.TileCommandsAreAccepted : Prop :=
  TileProductsAreAccepted ∧ GroupedProductsAreAccepted ∧ DescentsAreAccepted

/-- R270–R273, R279: DESC.GROUP, with no command before it and its checks passed, writes its table into the ring's area, the
overflow table under .spill, and the bias addends under .bias, and passes. That the overflow table carries the same flags as the
main one is the model's choice (log 92). -/
def Sys2Proof.Claims.TablesAreStored : Prop :=
  ∀ (h : Hdr) (gc : GNum) (sa sb : SReg) (vr : VNum) (keys spill bias : Bool) (g1 cap : BitVec 16) (s : State)
    (sks tks : List Nat) (step : Lane) (adds : List (Word × List Nat × Lane)),
    let g := g1.toNat + 1
    let ring := s.here.getR gc.toNat
    let offers := s.offers keys vr g
    let flags := spill.toNat + 2 * keys.toNat
    let main := buildTable offers cap.toNat flags (!spill) spill
    let second := (buildTable ((List.range g).map fun k => (main.2.filter fun p => p.1 == k).map (·.2)) 0 flags false false).1
    let w := tableMax g (if keys then 1024 else 128)
    s.ready h [sa, sb] = true → s.here.mcmds = [] → w ≤ ring.nslots * ring.slotSize → s.here.watch = [] →
    s.here.badReg (5000 + gc.toNat) = false →
    (keys = true → soundRegs s [vr]) → (keys = false → s.here.badPath = false) → (spill = true → s.spillKeys (s.getS sa) w = .ok sks) →
    (bias = true → s.biasStep (s.getS sb) gc.toNat = .ok step) → s.tableKeys ring main.1.length = .ok tks →
    (spill = true → s.objectTrap (s.getS sa) (sks.take second.length) = none) →
    (if bias then s.biasWrites (s.getS sb) step offers = .ok adds else adds = []) →
    ∃ t, exec (.descGroup h gc sa sb vr keys spill bias g1 cap) s = .next t ∧ Passes s t (s.me.pc + 16) ∧
      (∀ k, t.byte k = (adds.foldl (fun s a => (s.atomic .fadd false a.2.1 (a.2.2.setWidth 64) 0#64).1)
        (if spill then (s.puts (fullPuts tks main.1)).puts (fullPuts sks second) else s.puts (fullPuts tks main.1))).byte k) ∧
      KeepsOutside (tks ++ (if spill then sks else []) ++ adds.flatMap (·.2.1)) hideAhead s t

/-- R270: the tokens that DESC.GROUP offers to a group, in ascending source index: lanes of the key register, or the finished
entries of the path trace. -/
def Sys2Proof.Claims.OffersFollowTheirSource : Prop :=
  ∀ (s : State) (keys : Bool) (vr : VNum) (g : Nat),
    (s.offers keys vr g).length = g ∧
    ∀ k < g, (s.offers keys vr g).getD k [] =
      if keys then (List.range 1024).filter fun l => decide ((lane (s.vr vr) l).toNat = k)
      else (List.range 128).filter fun i =>
        let w := s.here.trace i
        w.getLsbD 48 && w.getLsbD 49 && decide (w.toNat / 2 ^ 24 % 2 ^ 16 = k)

/-- R268–R271: every field of the table that grouping makes of the tokens offered to its groups, and the overflow: header,
counts, tiles, blocks, permutation, and the overflow list where it is kept. A block begins at every tile boundary and at every
change of group; what lies between the sections is the model's choice (log 158), and no clause here speaks of it. -/
def Sys2Proof.Claims.TableFields : Prop :=
  ∀ (offers : List (List Nat)) (cap flags : Nat) (list spill : Bool),
    offers.length ≤ 65536 → (offers.map List.length).sum ≤ 1024 → (∀ l ∈ offers, ∀ x ∈ l, x < 1024) → cap < 65536 → flags < 4 →
    let table := buildTable offers cap flags list spill
    let rd (off n : Nat) : Nat := leNat ((table.1.drop off).take n)
    let g := offers.length
    let all (k : Nat) : List Nat := offers.getD k []
    let toks := (List.range g).flatMap fun k => (if cap = 0 then all k else (all k).take cap).map fun x => (k, x)
    let rest := (List.range g).flatMap fun k => (if cap = 0 then [] else (all k).drop cap).map fun x => (k, x)
    let group (p : Nat) : Nat := (toks.getD p (0, 0)).1
    let starts := (List.range toks.length).filter fun p => decide (p % 128 = 0) || decide (group p ≠ group (p - 1))
    let tiles := (toks.length + 127) / 128
    let up (n : Nat) : Nat := (n + 15) / 16 * 16
    let tileOff := up (64 + 8 * g)
    let blkOff := up (tileOff + 8 * tiles)
    let permOff := blkOff + 16 * starts.length
    let ovfOff := permOff + 512 * tiles
    table.2 = rest ∧
    rd 0 8 = tiles ∧ rd 8 8 = starts.length ∧ rd 16 4 = g ∧ rd 20 4 = toks.length ∧
    rd 24 4 = (if list then rest.length else 0) ∧ rd 28 4 = (if spill then rest.length else 0) ∧
    rd 32 4 = 64 ∧ rd 36 4 = tileOff ∧ rd 40 4 = blkOff ∧ rd 44 4 = permOff ∧ rd 48 4 = ovfOff ∧
    rd 52 4 = cap ∧ rd 56 1 = 0 ∧ rd 57 1 = flags ∧ rd 58 6 = 0 ∧
    (∀ k < g, rd (64 + 8 * k) 4 = (if cap = 0 then (all k).length else min cap (all k).length) ∧
      rd (64 + 8 * k + 4) 4 = (all k).length) ∧
    (∀ t < tiles, rd (tileOff + 8 * t) 4 = starts.countP (fun p => decide (p < 128 * t)) ∧
      rd (tileOff + 8 * t + 4) 2 = starts.countP (fun p => decide (p / 128 = t)) ∧
      rd (tileOff + 8 * t + 6) 2 = min 128 (toks.length - 128 * t)) ∧
    (∀ i < starts.length,
      let p := starts.getD i 0
      let next := starts.getD (i + 1) toks.length
      let b := blkOff + 16 * i
      rd b 4 = group p ∧ rd (b + 4) 1 = p % 128 ∧ rd (b + 5) 1 = next - p - 1 ∧ rd (b + 6) 2 = group p % 4096 ∧
        rd (b + 8) 4 = p ∧ rd (b + 12) 4 = 0) ∧
    (∀ p < 128 * tiles, rd (permOff + 4 * p) 4 = if p < toks.length then (toks.getD p (0, 0)).2 else 0xFFFFFFFF) ∧
    (list = true → ∀ i < rest.length, rd (ovfOff + 4 * i) 2 = (rest.getD i (0, 0)).2 ∧
      rd (ovfOff + 4 * i + 2) 2 = (rest.getD i (0, 0)).1)

/-- R268–R273, R279: DESC.GROUP: what it offers, the fields of the tables that it makes, and where it writes them. That the overflow
table carries the flags of the main one is the model's choice (log 92). -/
def Obligations.GroupTablesAreWritten : Prop :=
  TablesAreStored ∧ OffersFollowTheirSource ∧ TableFields

/-- R245–R248, R267: MZERO.open opens zeroed tiles while the result ring has room, and otherwise waits; MZERO zeroes a tile;
MACC and MACW move pieces between a tile and registers behind every command, and no other tile changes; MMODE and MLAGSET set what later commands read;
DESC.PATH and its .load move the path trace. -/
def Obligations.MatrixRegistersMove : Prop :=
  ∀ (h : Hdr) (s : State),
    (∀ cnt : BitVec 7, s.ready h [] = true →
      let n := cnt.toNat + 1
      (s.here.openTiles + n ≤ 16 →
        ∃ t, exec (.mzeroOpen h cnt) s = .next t ∧ Passes s t (s.me.pc + 16) ∧ t.here.tF = s.here.tF + BitVec.ofNat 32 n ∧
          (∀ u : BitVec 32,
            if ∃ i < n, tileSlot u = tileSlot (s.here.tF + BitVec.ofNat 32 i) then
              t.here.getT u = zeroTile ∧ t.here.isClosed u = false
            else t.here.getT u = s.here.getT u ∧ t.here.isClosed u = s.here.isClosed u) ∧ Keeps hideTiles s t) ∧
      (16 < s.here.openTiles + n →
        ∃ t, exec (.mzeroOpen h cnt) s = .next t ∧ t.me.stall = .other ∧ t.me.pc = s.me.pc ∧ Keeps nothing s t)) ∧
    (∀ (ti : BitVec 4) (cl : Bool), s.ready h [] = true → (∀ m ∈ s.here.mcmds, m.tile ≠ s.here.tileNo ti) →
      ti.toNat < s.here.openTiles → s.here.isClosed (s.here.tileNo ti) = false →
      ∃ t, exec (.mzero h ti cl) s = .next t ∧ Passes s t (s.me.pc + 16) ∧
        t.here.getT (s.here.tileNo ti) = zeroTile ∧ t.here.isClosed (s.here.tileNo ti) = cl ∧ t.here.tF = s.here.tF ∧
        otherTiles s t ti ∧ Keeps hideTiles s t) ∧
    (∀ (ti p : BitVec 4) (vr : VNum) (cnt : BitVec 7), s.ready h [] = true → s.here.mcmds = [] →
      ti.toNat < s.here.openTiles → s.here.badReg (2000 + tileSlot (s.here.tileNo ti)) = false →
      p.toNat + cnt.toNat < 16 → vr.toNat + cnt.toNat < 640 →
      ∃ t, exec (.macc h ti vr cnt p) s = .next t ∧ Passes s t (s.me.pc + 16) ∧
        Keeps (hideRun vr.toNat (cnt.toNat + 1)) s t ∧
        ∀ i ≤ cnt.toNat, ∀ l < 1024, lane (t.here.getV (vr.toNat + i)) l =
          if (s.here.lost s.cur.eng s.cur.old (vr.toNat + i)).getLsbD l = true then lane (s.here.getV (vr.toNat + i)) l
          else (s.here.getT (s.here.tileNo ti)).at (16 * ((p.toNat + i) / 2) + l / 64) (64 * ((p.toNat + i) % 2) + l % 64)) ∧
    (∀ (ti p : BitVec 4) (vr : VNum) (cnt : BitVec 7) (cl : Bool), s.ready h [] = true → s.here.mcmds = [] →
      ti.toNat < s.here.openTiles → s.here.isClosed (s.here.tileNo ti) = false →
      p.toNat + cnt.toNat < 16 → vr.toNat + cnt.toNat < 640 →
      (∀ i ≤ cnt.toNat, s.here.badReg (1000 + vr.toNat + i) = false) →
      ∃ t, exec (.macw h ti vr cnt p cl) s = .next t ∧ Passes s t (s.me.pc + 16) ∧ Keeps hideTiles s t ∧
        t.here.isClosed (s.here.tileNo ti) = cl ∧ t.here.tF = s.here.tF ∧ otherTiles s t ti ∧
        ∀ r < 128, ∀ c < 128,
          let q := 2 * (r / 16) + c / 64
          (t.here.getT (s.here.tileNo ti)).at r c =
            if p.toNat ≤ q ∧ q ≤ p.toNat + cnt.toNat then
              lane (s.vrAt (vr.toNat + (q - p.toNat))) (64 * (r % 16) + c % 64)
            else (s.here.getT (s.here.tileNo ti)).at r c) ∧
    (∀ (rnd : Rnd) (zlog : Bool) (sa : SReg), s.ready h [sa] = true → (zlog = true → s.logTrap (s.getS sa) = none) →
      ∃ t, exec (.mmode h rnd zlog sa) s = .next t ∧ Passes s t (s.me.pc + 16) ∧
        t.here.mode = { rnd, zlog := if zlog then some (s.getS sa) else none } ∧
        Keeps (fun _ x => { x with mode := {} }) s t) ∧
    (∀ n : BitVec 2, s.ready h [] = true →
      ∃ t, exec (.mlagset h n) s = .next t ∧ Passes s t (s.me.pc + 16) ∧ t.here.lag = n.toNat ∧
        Keeps (fun _ x => { x with lag := 0 }) s t) ∧
    (∀ vr : VNum, s.ready h [] = true → s.here.mcmds = [] →
      (s.here.badPath = false → ∃ t, exec (.descPath h vr) s = .next t ∧ Passes s t (s.me.pc + 16) ∧ Keeps (hideV vr) s t ∧
        wonLanes s t vr fun l v => v = if 256 ≤ l then 0#32
          else if l % 2 = 0 then (s.here.trace (l / 2)).setWidth 32 else (s.here.trace (l / 2) >>> 32).setWidth 32) ∧
      (soundRegs s [vr] →
        let w (i : Nat) : Word := lane (s.vr vr) (2 * i + 1) ++ lane (s.vr vr) (2 * i)
        ((∀ i < 128, traceOk (w i) = true) →
          ∃ t, exec (.descPathLoad h vr) s = .next t ∧ Passes s t (s.me.pc + 16) ∧
            (∀ i < 128, t.here.trace i = w i) ∧ Keeps hidePath s t) ∧
        ((∃ i < 128, traceOk (w i) = false) → s.cur.eng ≠ .sup → s.here.retired s.cur.eng = true →
          exec (.descPathLoad h vr) s = .next (s.takeTrap s.cur.cell s.cur.eng (metaArray 0x3E 6 0 s.here.seq)))))

namespace Sys2Proof.Claims

/-! ## The array at work -/

/-- What the completion of a tile command leaves in its cell: the tile in its slot and every other tile as it was, the
command gone, its slots popped, its holds given back, its flags in the M group (R238, R277). -/
def completes (s t : State) (c : Nat) (m : MCmd) (k : Computed) (cl : Bool) : Prop :=
  let x := s.cell c
  let y := t.cell c
  y.getT m.tile = fitTile k.tile ∧ (∀ u, tileSlot u ≠ tileSlot m.tile → y.getT u = x.getT u) ∧
  (∀ u, y.isClosed u = (x.isClosed u || (cl && decide (tileSlot u = tileSlot m.tile)))) ∧
  y.mcmds = x.mcmds.filter (fun o => o.id != m.id) ∧ y.fflags = (x.fflags ||| (k.fl.setWidth 25 <<< 10)) ∧
  (∀ g, y.getR g = { x.getR g with
    h := (x.getR g).h + BitVec.ofNat 32 ((m.claims.filter fun p => p.1.toNat == g).map (·.2)).sum }) ∧
  (∀ j, tabGet 0 y.hold j = tabGet 0 x.hold j - m.holds.count j)

/-- The slots that a command claimed are still claimed. -/
def stillClaimed (x : Cell) (m : MCmd) : Prop :=
  ∀ g, ((m.claims.filter fun p => p.1.toNat == g).map (·.2)).sum ≤ (x.getR g).claimed

/-- Every other cell is as it was, and so is every byte. -/
def onlyCell (c : Nat) (s t : State) : Prop := (∀ d, d ≠ c → t.cell d = s.cell d) ∧ ∀ k, t.byte k = s.byte k

/-! ## What products and descents are, position by position (R94–R97, R226, R239–R241, R264) -/

/-- The element at a position of a row as the array takes it; +0 where the row holds none (R226). -/
def elementOf (r : Row) (k : Nat) : FVal := ((r.find? fun e => e.1 == k).map (·.2)).getD (.fin false 0 1)

/-- One product, or one squared difference, formed exactly; a zero factor makes it zero (R97, R240). -/
def term (sq : Bool) (x y : FVal) : Res FVal :=
  if sq then
    let d := exactAdd x y.negate .rne
    { val := (exactMul d.val d.val).val, fl := d.fl }
  else if x.isZero || y.isZero then { val := .fin false 0 1 }
  else exactMul x y

/-- An accumulator over the first positions under the 16-bit rule (R95, R97), with the count of its additions and its flags. -/
def wideDot (sq : Bool) (x y sx sy : Nat → FVal) (mode : Rnd) (rm : Nat → Rm) (start : Lane) : Nat → Lane × Nat × Flags
  | 0 => (start, 0, 0#5)
  | k + 1 =>
    let r := wideDot sq x y sx sy mode rm start k
    let p := term sq (x k) (y k)
    if p.val.isZero || (sx k).isZero || (sy k).isZero then r
    else
      let q := exactMul p.val (sx k)
      let w := exactMul q.val (sy k)
      let a := finishExact (exactAdd (value32 r.1) w.val mode) (rm r.2.1)
      (a.val, r.2.1 + 1, r.2.2 ||| p.fl ||| q.fl ||| w.fl ||| a.fl)

/-- The exact sum of a block's products (R96). -/
def blockTotal (ps : List (Res FVal)) : Res FVal :=
  let fl := ps.foldl (fun f p => f ||| p.fl) 0#5
  if ∃ p ∈ ps, p.val.isNan = true then { val := .nan false, fl }
  else if (∃ p ∈ ps, p.val = .inf true) ∧ ∃ p ∈ ps, p.val = .inf false then { val := .nan false, fl := fl ||| flNV }
  else if ∃ p ∈ ps, p.val = .inf true then { val := .inf true, fl }
  else if ∃ p ∈ ps, p.val = .inf false then { val := .inf false, fl }
  else { val := ps.foldl (fun s p => (exactAdd s p.val .rne).val) (.fin false 0 1), fl }

/-- An accumulator over the first blocks of 32 positions under the narrow rule (R96, R97). -/
def narrowDot (sq : Bool) (x y sx sy : Nat → FVal) (mode : Rnd) (rm : Nat → Rm) (start : Lane) : Nat → Lane × Nat × Flags
  | 0 => (start, 0, 0#5)
  | b + 1 =>
    let r := narrowDot sq x y sx sy mode rm start b
    let sum := blockTotal (((List.range 32).map fun k => term sq (x (32 * b + k)) (y (32 * b + k))).filter fun p => !p.val.isZero)
    if sum.val.isZero then r
    else
      let q := exactMul sum.val (sx (32 * b))
      let w := exactMul q.val (sy (32 * b))
      let T := toLane w.val (rm r.2.1)
      let a := finishExact (exactAdd (value32 r.1) (value32 T.val) mode) (rm r.2.1)
      (a.val, r.2.1 + 1, r.2.2 ||| sum.fl ||| q.fl ||| w.fl ||| T.fl ||| a.fl)

/-- An accumulator over K positions, under the rule of the pair of formats (R94, R224). -/
def dotOf (fa fb : Fmt) (sq : Bool) (x y sx sy : Nat → FVal) (mode : Rnd) (rm : Nat → Rm) (start : Lane) (K : Nat) :
    Lane × Nat × Flags :=
  if ((pairRule fa fb).map (·.1)).getD true then wideDot sq x y sx sy mode rm start K
  else narrowDot sq x y sx sy mode rm start (ceilDiv K 32)

/-- The slots of B that row i of a command's tile meets: for MMA.G those of the block that covers the row (R239, R276). -/
def rowSlots (m : MCmd) (o : TileOps) (i : Nat) : Option (List Nat) :=
  match m.inst with
  | .mmaG .. => (m.blocks.find? fun b => decide (b.row0 ≤ i ∧ i < b.row0 + b.rows)).map fun b =>
      (List.range (pairsOf o)).map fun j => (b.w + j) % m.rb.nslots
  | _ => if i < m.ra.rows then some (m.rb.claimSlots (pairsOf o)) else none

/-- Accumulator (i, j) of a command against some slots of B (R239, R240). -/
def accumulated (s : State) (m : MCmd) (o : TileOps) (sq : Bool) (old : Lane) (js : List Nat) (i j : Nat) : Lane × Nat × Flags :=
  let is := m.ra.claimSlots (pairsOf o)
  dotOf m.ra.fmt m.rb.fmt sq (elementOf (s.operandRow m.ra is i)) (elementOf (s.operandRow m.rb js j))
    (s.operandScale m.ra is i) (s.operandScale m.rb js j) m.mode.rnd
    (fun k => { mode := m.mode.rnd, seed := m.seed, c := BitVec.ofNat 64 (m.seq * 2 ^ 40 + k * 2 ^ 14 + i * 128 + j) })
    old (m.ra.kext * pairsOf o)

/-- A candidate of a selection, as rank, value and index, ranks before another (R241). -/
def ranksBefore (x y : Lane × Lane × Nat) : Prop :=
  let a := value32 x.1
  let b := value32 y.1
  if a.isNan then b.isNan = true ∧ x.2.2 < y.2.2
  else b.isNan = true ∨ fvLt b a = true ∨ fvEq a b = true ∧ x.2.2 < y.2.2

/-- A row holds the best k of some candidates, best first, with their indices, and fillers (R241). -/
def bestRow (k : Nat) (cands : List (Lane × Lane × Nat)) (row : Nat → Lane) : Prop :=
  ∃ sel rest : List (Lane × Lane × Nat), (sel ++ rest).Perm cands ∧ sel.length = min k cands.length ∧
    sel.Pairwise (fun x y => ¬ ranksBefore y x) ∧ (∀ x ∈ sel, ∀ y ∈ rest, ¬ ranksBefore y x) ∧
    ∀ j < 128, row j =
      if j < 16 then (match sel[j]? with | some x => x.2.1 | none => 0xFF800000#32)
      else if j < 32 then (match sel[j - 16]? with | some x => BitVec.ofNat 32 x.2.2 | none => 0xFFFF#32)
      else 0#32

/-- The candidates of row i of a command under .topk: its accumulators, ranked with their biases where it reads some (R241,
R278). -/
def candidates (s : State) (m : MCmd) (o : TileOps) (sq : Bool) (old : Tile) (js : List Nat) (i : Nat) :
    List (Lane × Lane × Nat) :=
  (List.range m.rb.rows).map fun j =>
    let v := (accumulated s m o sq (old.at i j) js i j).1
    (if m.bias = [] then v else (fadd v (m.bias.getD j 0#32) rmRne).val, v, o.colbase.toNat + j)

/-- The geometry of a command: its rows lie in the tile and in A (R223, R275). -/
def fitsTile (m : MCmd) : Prop :=
  m.ra.rows ≤ 128 ∧ m.rb.rows ≤ 128 ∧ ∀ b ∈ m.blocks, b.row0 + b.rows ≤ m.ra.rows

/-- R94–R97, R239–R241, R276: the accumulators that a command leaves, element by element: the products of each position in
ascending order, each zero factor skipped, under the rule of its formats; under .topk each row's best columns; the flags of
every rounding. -/
def productsAre (s t : State) (c : Nat) (m : MCmd) (o : TileOps) (sq : Bool) : Prop :=
  let old := (s.cell c).getT m.tile
  let new := (t.cell c).getT m.tile
  (∀ i < 128,
    match rowSlots m o i with
    | none => ∀ j < 128, new.at i j = if o.topk then 0#32 else old.at i j
    | some js =>
      if o.topk = true then bestRow (o.kk.toNat + 1) (candidates s m o sq old js i) (new.at i)
      else ∀ j < 128, new.at i j = if j < m.rb.rows then (accumulated s m o sq (old.at i j) js i j).1 else old.at i j) ∧
  ∀ b < 5, (t.cell c).fflags.getLsbD (10 + b) = true ↔ (s.cell c).fflags.getLsbD (10 + b) = true ∨
    ∃ i < 128, ∃ j < m.rb.rows, ∃ js, rowSlots m o i = some js ∧
      (accumulated s m o sq (old.at i j) js i j).2.2.getLsbD b = true

/-- A row of the array takes part in a level: its entry is valid and not done (R264). -/
def takesPart (w : Word) : Bool := w.getLsbD 48 && !w.getLsbD 49

/-- The completed levels and the node of an entry (R260). -/
def levelAndNode (w : Word) : Nat × Nat := (w.toNat / 2 ^ 16 % 32, w.toNat / 2 ^ 24 % 2 ^ 16)

/-- The dot product of row i with its node (R264). -/
def nodeDot (s : State) (m : MCmd) (v : Row × List FVal) (i l : Nat) : Lane × Nat × Flags :=
  let is := m.ra.claimSlots 1
  dotOf m.ra.fmt m.rb.fmt false (elementOf (s.operandRow m.ra is i)) (elementOf v.1) (s.operandScale m.ra is i)
    (fun k => if v.2 = [] then .fin false 1 1 else v.2.getD (k / 32) (.fin false 1 1)) m.mode.rnd
    (fun k => { mode := m.mode.rnd, seed := m.seed, c := BitVec.ofNat 64 (m.seq * 2 ^ 40 + k * 2 ^ 14 + i * 128 + l) })
    0#32 m.ra.kext

/-- The entry of a token that has completed level l at node x with dot product d, by the fields of R260. -/
def stepsTo (D : Nat) (w : Word) (d : Lane) (w' : Word) : Prop :=
  let (l, x) := levelAndNode w
  let right := !fvLt (value32 d) (.fin false 0 1)
  levelAndNode w' = (l + 1, 2 * x + right.toNat) ∧ w'.getLsbD 48 = true ∧ (w'.getLsbD 49 = true ↔ l + 1 = D) ∧
  w'.getLsbD 50 = (w.getLsbD 50 || (value32 d).isNan) ∧ w'.getLsbD 51 = (w.getLsbD 51 || (value32 d).isZero) ∧
  ∀ k < 16, w'.getLsbD k = if k = l then right else w.getLsbD k

/-- One level over entries and margin tile (R261, R264): every row that takes part, and nothing else. -/
def levelDone (s : State) (o : DescOps) (m : MCmd) (a b : (Nat → Word) × (Nat → Nat → Lane)) : Prop :=
  ∀ i < 128,
    if takesPart (a.1 i) = true then
      ∃ v, s.node o m (levelAndNode (a.1 i)).1 (levelAndNode (a.1 i)).2 = .ok v ∧
        let d := (nodeDot s m v i (levelAndNode (a.1 i)).1).1
        stepsTo o.depth.toNat (a.1 i) d (b.1 i) ∧
        ∀ j < 128, b.2 i j =
          if j = (levelAndNode (a.1 i)).1 then d
          else if j = 16 + (levelAndNode (a.1 i)).1 then BitVec.ofNat 32 (levelAndNode (a.1 i)).2 else a.2 i j
    else b.1 i = a.1 i ∧ ∀ j < 128, b.2 i j = a.2 i j

/-- R261, R264–R266: what a descent whose trace is in order leaves. Where every node of its tree can be read, DESC.STEP does
one level and DESC.WALK goes on until no row takes part; a level that meets a fault writes nothing, and the fault is
deferred. -/
def descends (s t : State) (c : Nat) (m : MCmd) (o : DescOps) (whole : Bool) : Prop :=
  let start := if o.init then startTraces m.ra.rows else (s.cell c).traces
  let old : (Nat → Word) × (Nat → Nat → Lane) := ((start.getD · 0#64), ((s.cell c).getT m.tile).at)
  let new : (Nat → Word) × (Nat → Nat → Lane) := ((t.cell c).trace, ((t.cell c).getT m.tile).at)
  ((∀ l < o.depth.toNat, ∀ x < 2 ^ l, ∃ v, (s.asEngine c .m).node o m l x = .ok v) →
    (whole = false → levelDone (s.asEngine c .m) o m old new) ∧
    (whole = true → ∃ (n : Nat) (f : Nat → (Nat → Word) × (Nat → Nat → Lane)), f 0 = old ∧ (∀ k < n, levelDone (s.asEngine c .m) o m (f k) (f (k + 1))) ∧
      (∀ i < 128, takesPart ((f n).1 i) = false ∧ new.1 i = (f n).1 i ∧ ∀ j < 128, new.2 i j = (f n).2 i j))) ∧
  (whole = false →
    (∃ i < 128, takesPart (old.1 i) = true ∧
      ∃ e, (s.asEngine c .m).node o m (levelAndNode (old.1 i)).1 (levelAndNode (old.1 i)).2 = .error e) →
    (∀ i < 128, new.1 i = old.1 i ∧ ∀ j < 128, new.2 i j = old.2 i j) ∧
    ∃ e, (t.eng c .m).deferred = (s.eng c .m).deferred ++ [e] ∧ e.deferred = true ∧ e.idx = some m.seq)

/-- R228, R238, R254: the oldest command that has not started, and holds its claims, starts, with the records of its pre-pass
under zero-and-log (its pre-pass has run at its issue: assumption log 80). One that gave its claims back is issued again, and a
trap that it then meets is taken at the command's own address, when it is the oldest and nothing older of M is outstanding. -/
def TileCommandsStart : Prop :=
  ∀ (c i : Nat) (m : MCmd) (s : State),
    (s.cell c).mcmds[i]? = some m → m.started = false → s.unfrozen c .m = true →
    (s.cell c).preempt = none → (∀ j < i, ∃ k, (s.cell c).mcmds[j]? = some k ∧ k.started = true ∧ k.sibling = none) →
    (m.claimed = true →
      ∃ t, exec (.tileCommandStart c) s = .next t ∧ onlyCell c s t ∧
        ∀ j, (t.cell c).mcmds[j]? =
          if j = i then
            some { m with
              started := true, sibling := none, logs := if m.mode.zlog.isSome then (s.asEngine c .m).prepass m else [] }
          else (s.cell c).mcmds[j]?) ∧
    (m.claimed = false → i = 0 → (∀ q ∈ (s.cell c).engM.queue, m.id < q.id) →
      ∀ r, (s.asEngine c .m).reissue m = .trap r →
        ∃ t, exec (.tileCommandStart c) s = .next t ∧ (t.eng c .m).trap = some { r with pc := m.pc } ∧
          (t.cell c).frozen = some s.cycle)

/-- R231: the window loads one more k block of the command that needs it. -/
def WindowsLoad : Prop :=
  ∀ (c i : Nat) (m : MCmd) (s : State),
    (s.cell c).mcmds[i]? = some m → m.started = true → m.sibling = none → m.windowDone = false →
    (s.cell c).frozen = none → (∀ j < i, ∃ k, (s.cell c).mcmds[j]? = some k ∧ k.windowDone = true) →
    ∃ t, exec (.bWindowLoad c) s = .next t ∧ onlyCell c s t ∧
      ∀ j, (t.cell c).mcmds[j]? = if j = i then some { m with loaded := m.loaded + 1 } else (s.cell c).mcmds[j]?

/-- R94–R97, R238–R242, R264–R266: the oldest command, once started and its window done, completes: the accumulators of its
product, or the margins and trace of its descent, with its slots popped, behind what is done to its rings in that cycle
(R182); a partial that has been delivered leaves its staging
tile at +0. -/
def TileCommandsComplete : Prop :=
  ∀ (c : Nat) (m : MCmd) (rest : List MCmd) (s : State),
    (s.cell c).mcmds = m :: rest → m.started = true → m.sibling = none → m.windowDone = true → (s.cell c).frozen = none →
    m.mode.zlog = none → stillClaimed (s.cell c) m → (s.asEngine c .m).mayPop m = true →
    let t₀ := s.asEngine c .m
    (∀ o sq, m.product = some (o, sq) → m.parts = 1 →
      let k := t₀.compute m o sq (!(s.cell c).pevsel.isEmpty) ((s.cell c).getT m.tile)
      k.bad = none →
      ∃ t, exec (.tileCommandComplete c) s = .next t ∧ completes s t c m k o.cl ∧ onlyCell c s t ∧
        (s.ecc = [] → fitsTile m → productsAre t₀ t c m o sq)) ∧
    (∀ o sq k, m.product = some (o, sq) → 1 < m.parts → m.delivered = true → m.computed = some k →
      ∃ t, exec (.tileCommandComplete c) s = .next t ∧ completes s t c m { k with tile := zeroTile } o.cl ∧ onlyCell c s t) ∧
    (∀ o whole, m.descent = some (o, whole) →
      let w := t₀.walkTree o whole m
      (t₀.spoilt m.ra (m.ra.claimSlots 1)).first = none →
      ∃ t, exec (.tileCommandComplete c) s = .next t ∧ onlyCell c s t ∧ (t.cell c).traces = w.traces ∧
        completes s t c m { tile := w.tile, fl := w.fl } (o.cl && w.fault.isNone) ∧
        (s.ecc = [] → m.ra.rows ≤ 128 → o.depth.toNat ≤ 16 →
          tracesOk o.depth.toNat m.ra.rows (if o.init then startTraces m.ra.rows else (s.cell c).traces) = true →
          descends s t c m o whole) ∧
        (t.eng c .m).deferred = (s.eng c .m).deferred ++ w.fault.toList)

/-- R250, R251: the oldest relocatable command of the cell with the most queued starts on an idle sibling of its context, and
completes at its origin with the tile that the sibling returns. -/
def RelocationsReturn : Prop :=
  (∀ (c sib i : Nat) (m : MCmd) (s : State),
    c / 4 = sib / 4 → c ≠ sib → (s.cell c).owner.isSome = true → (s.cell sib).owner = (s.cell c).owner →
    (s.cell sib).iter.isSome = true →
    (s.cell sib).mcmds = [] → (s.cell sib).frozen = none → (s.cell c).frozen = none → s.runsFor sib = false →
    (s.cell c).relocatable = some (m, i) →
    (∀ d, d / 4 = c / 4 → d ≠ sib → d ≠ c → (s.cell d).owner = (s.cell c).owner → (s.cell d).relocatable.isSome = true →
      (s.cell d).queued < (s.cell c).queued ∨ (s.cell d).queued = (s.cell c).queued ∧ c < d) →
    ∃ t, exec (.tileRelocate c sib) s = .next t ∧
      (t.cell c).mcmds[i]? =
        some { m with
          started := true, sibling := some sib, logs := if m.mode.zlog.isSome then (s.asEngine c .m).prepass m else [] } ∧ (t.cell sib).mcmds = [] ∧
      ∀ k, t.byte k = s.byte k) ∧
  ∀ (c sib : Nat) (m : MCmd) (rest : List MCmd) (o : TileOps) (sq : Bool) (s : State),
    (s.cell c).mcmds = m :: rest → m.sibling = some sib → (s.cell c).frozen = none → (s.cell sib).frozen = none →
    m.mode.zlog = none → stillClaimed (s.cell c) m → (s.asEngine c .m).mayPop m = true → m.product = some (o, sq) →
    m.parts = 1 →
    let k := (s.asEngine c .m).compute m o sq (!(s.cell sib).pevsel.isEmpty) ((s.cell c).getT m.tile)
    k.bad = none →
    ∃ t, exec (.relocatedTileReturn c sib) s = .next t ∧ completes s t c m k o.cl ∧ ∀ b, t.byte b = s.byte b

/-- R242: a partial of the oldest command enters its cluster's merge buffer while it has room, with its home, tag, number and
tile or lists. That the lists of .topk rank by the values that they hold is the model's choice (assumption log 89). -/
def PartialsAreDelivered : Prop :=
  ∀ (c : Nat) (m : MCmd) (rest : List MCmd) (o : TileOps) (sq : Bool) (s : State),
    (s.cell c).mcmds = m :: rest → m.started = true → m.sibling = none → m.windowDone = true → (s.cell c).frozen = none →
    m.product = some (o, sq) → 1 < m.parts → m.delivered = false → m.computed = none →
    s.buffered (c / 4) < Config.mergeDepth →
    let k := (s.asEngine c .m).compute m o sq (!(s.cell c).pevsel.isEmpty) ((s.cell c).getT m.tile)
    ∃ t m', exec (.partialDeliver c) s = .next t ∧ (t.cell c).mcmds = m' :: rest ∧ m'.delivered = true ∧ m'.inst = m.inst ∧
      t.mergeBuf = s.mergeBuf ++ [{ asid := (s.cell c).asid, home := 4 * (c / 4) + o.home.toNat, tag := o.tag, q := o.q.toNat
                                    p := o.np.toNat + 1, topk := o.topk, tile := if o.topk then zeroTile else k.tile
                                    lists := k.lists }] ∧
      onlyCell c s t

/-- R243: MMERGE binds its tag to a writable tile and stands; a tag already bound raises RING_BOUND with detail 11. -/
def MergesBind : Prop :=
  ∀ (h : Hdr) (ti kk np : BitVec 4) (tag : BitVec 8) (topk dao cl : Bool) (s : State),
    s.ready h [] = true → tileOpen s ti →
    ((∀ b ∈ s.here.merges, b.tag ≠ tag) →
      ∃ t, exec (.mmerge h ti kk np tag topk dao cl) s = .next t ∧ t.me.pc = s.me.pc ∧ t.me.stall = .merge ∧
        t.me.flight = some (.mmerge h ti kk np tag topk dao cl) ∧
        t.here.merges = s.here.merges ++ [{ tag, tile := s.here.tileNo ti }] ∧
        Keeps (fun _ x => { x with merges := [] }) s t) ∧
    ((∃ b ∈ s.here.merges, b.tag = tag) → s.cur.eng ≠ .sup → s.here.retired s.cur.eng = true →
      exec (.mmerge h ti kk np tag topk dao cl) s =
        .next (s.takeTrap s.cur.cell s.cur.eng { cause := 0x07#8, detail := 11 }))

/-- One element of a merge: partials added in turn under RNE, with the flags of the additions (R98, R244). -/
def mergeOf (old : Lane) (i j : Nat) (ps : List Partial) : Lane × Flags :=
  ps.foldl (fun v p => let r := fadd v.1 (p.tile.at i j) rmRne; (r.val, v.2 ||| r.fl)) (old, 0#5)

/-- R243, R244: an MMERGE whose partials have all arrived, each once, writes their RNE sum with its tile in arrival order, or
in ascending number under .dao, with the flags of the additions, or row by row the best of the union of their lists under .topk, with none; the tag is free,
and M passes. That lists are ranked by the values that they hold is the model's choice (assumption log 89). -/
def MergesComplete : Prop :=
  ∀ (c : Nat) (h : Hdr) (ti kk np : BitVec 4) (tag : BitVec 8) (topk dao cl : Bool) (b : Merge) (s : State),
    let ps := s.arrived c tag
    (s.eng c .m).flight = some (.mmerge h ti kk np tag topk dao cl) → s.unfrozen c .m = true → (s.eng c .m).deferred = [] →
    (s.cell c).merges.find? (fun b => b.tag == tag) = some b → (∀ m ∈ (s.cell c).mcmds, m.tile ≠ b.tile) →
    (∀ p ∈ ps, p.p = np.toNat + 1 ∧ p.topk = topk) → (ps.map (·.q)).Nodup → (∀ q ≤ np.toNat, ∃ p ∈ ps, p.q = q) →
    ∃ t, exec (.mergePartials c) s = .next t ∧ Passes ((s.acts c .m).asEngine c .m) t ((s.eng c .m).pc + 16) ∧
      t.mergeBuf = s.mergeBuf.filter (fun p => !ps.contains p) ∧
      (t.cell c).merges = (s.cell c).merges.filter (fun b => b.tag != tag) ∧
      (cl = true → (t.cell c).isClosed b.tile = true) ∧ (∀ k, t.byte k = s.byte k) ∧
      if topk then
        (t.cell c).fflags = (s.cell c).fflags ∧
        ∀ i < 128, if ∃ p ∈ ps, (p.lists.getD i none).isSome = true then
            bestRow (kk.toNat + 1) (ps.flatMap fun p => ((p.lists.getD i none).getD []).map fun e => (e.1, e.1, e.2.toNat))
              (((t.cell c).getT b.tile).at i)
          else ∀ j < 128, ((t.cell c).getT b.tile).at i j = 0#32
      else
        ∃ qs, qs.Perm ps ∧ (if dao then qs.Pairwise (fun p q => p.q < q.q) else qs = ps) ∧
          let sum (i j : Nat) := mergeOf (((s.cell c).getT b.tile).at i j) i j qs
          (∀ i < 128, ∀ j < 128, ((t.cell c).getT b.tile).at i j = (sum i j).1) ∧
          ∀ f < 5, (t.cell c).fflags.getLsbD (10 + f) = true ↔ (s.cell c).fflags.getLsbD (10 + f) = true ∨
            ∃ i < 128, ∃ j < 128, (sum i j).2.getLsbD f = true

end Sys2Proof.Claims

/-- R228, R231, R238–R241, R250, R251: how the array runs its commands: start, B window, completion, relocation and return: where
the events tileCommandStart, bWindowLoad, tileCommandComplete, tileRelocate and relocatedTileReturn complete. The model's
choices: NV of the narrow products is judged at each multiplication (assumption log 116); content faults trap at issue (log
80). -/
def Obligations.ArrayRunsItsCommands : Prop := TileCommandsStart ∧ WindowsLoad ∧ TileCommandsComplete ∧ RelocationsReturn

/-- R242–R244: how partial tiles reach the merge buffer and are merged: where MMERGE and the events partialDeliver and
mergePartials complete. That .topk ranks by the values that lists hold is the model's choice (assumption log 89). -/
def Obligations.PartialsMerge : Prop := PartialsAreDelivered ∧ MergesBind ∧ MergesComplete

namespace Sys2Proof.Claims

/-! ## Control flow (01 R17, R18; 04 R125–R129; 14 R356–R358) -/

/-- A control instruction in its own right: header, scalars that S reads, and whether its outcome depends on one. -/
def controlOf : Instr → Option (Hdr × List SReg × Bool)
  | .nop h | .ret h | .halt h | .ckpt h _ => some (h, [], false)
  | .br h (.rel _) | .call h (.rel _) => some (h, [], false)
  | .br h (.ind sa _) | .call h (.ind sa _) => some (h, [sa], true)
  | .brc h sa sb _ _ => some (h, [sa, sb], true)
  | .loop h sa _ => some (h, [sa], true)
  | _ => none

/-- The outcome that S resolves where the predicate is true (R17, R50, R125, R127). -/
def resolved (s : State) : Instr → Cond
  | .br _ (.ind sa d) | .call _ (.ind sa d) => { taken := true, target := s.getS sa + 16#64 * d.signExtend 64 }
  | .brc _ sa sb cc _ => { taken := isTrue cc (s.getS sa) (s.getS sb), target := 0#64 }
  | .loop _ sa _ => { taken := s.getS sa != 1#64, target := 0#64 }
  | _ => { taken := true, target := 0#64 }

/-- The entry that S appends: the outcome under the predicate. -/
def entryOf (s : State) (h : Hdr) (i : Instr) : Cond :=
  if s.getP h.pred = h.neg then { taken := false, target := 0#64 } else resolved s i

/-- An indirect target must be a multiple of 16 (R50). -/
def targetSound (s : State) (i : Instr) : Prop :=
  match i with
  | .br _ (.ind ..) | .call _ (.ind ..) => (resolved s i).target.toNat % 16 = 0
  | _ => True

/-- Where an engine goes with an outcome, and its return-address stack after it; `none` where CALL or RET traps. -/
def followed (s : State) (o : Cond) : Instr → Option (Word × List Word)
  | .br _ (.rel d) | .brc _ _ _ _ d | .loop _ _ d =>
      some (if o.taken then s.me.pc + 16#64 * d.signExtend 64 else s.me.pc + 16, s.me.ras)
  | .br _ (.ind ..) => some (if o.taken then o.target else s.me.pc + 16, s.me.ras)
  | .call _ t =>
      if !o.taken then some (s.me.pc + 16, s.me.ras)
      else if 64 ≤ s.me.ras.length then none
      else some ((match t with | .rel d => s.me.pc + 16#64 * d.signExtend 64 | .ind .. => o.target), s.me.ras ++ [s.me.pc + 16])
  | .ret _ =>
      if !o.taken then some (s.me.pc + 16, s.me.ras)
      else match s.me.ras.getLast? with
        | some a => some (a, s.me.ras.dropLast)
        | none => none
  | .halt _ => some (if o.taken then s.me.pc else s.me.pc + 16, s.me.ras)
  | _ => some (s.me.pc + 16, s.me.ras)

/-- The trap of an engine that cannot follow: SPILL_OVF at a CALL, cause 0x11 with code 0xFFFF at a RET (R126). -/
def callTrap : Instr → TrapRec
  | .ret _ => { cause := 0x11#8, code := 0xFFFF#16, retry := true }
  | _ => { cause := 0x10#8 }

/-- Put out of sight what a control instruction itself changes: the return stack, whether the engine runs or has stopped at
a checkpoint, the cell's request, and the condition queue. -/
def hideControl (e : Eng) (x : Cell) : Cell :=
  let x := [Eng.l, .m, .v, .w].foldl (fun x e => x.setEng e { x.eng e with condPopped := 0 }) x
  { (x.setEng e { x.eng e with ras := [], halted := false, stopped := false }) with condq := [], preempt := none }

/-- What LOOP alone writes besides: S's own copy of its register. -/
def hideLoop (i : Instr) (e : Eng) (x : Cell) : Cell :=
  match i with
  | .loop _ sa _ => if e = .s ∨ e = .sup then hideS sa e (hideControl e x) else hideControl e x
  | _ => hideControl e x

/-- An engine has followed a control instruction. -/
def Follows (i : Instr) (s t : State) (o : Cond) : Prop :=
  ∃ pc ras, followed s o i = some (pc, ras) ∧ Passes s t pc ∧ t.me.ras = ras ∧
    (t.me.halted = true ↔ s.me.halted = true ∨ ((∃ h, i = .halt h) ∧ o.taken = true)) ∧ Keeps (hideLoop i) s t

/-- R17, R128: a control instruction with neither a predicate nor a register is followed by each engine without the queue. -/
def UnqueuedControlIsFollowed : Prop :=
  ∀ (i : Instr) (h : Hdr) (s : State),
    controlOf i = some (h, [], false) → h.pred = 15#4 → h.neg = false → s.ready h [] = true → s.cur.eng ≠ .sup →
    (∀ pc ras, followed s (resolved s i) i = some (pc, ras) →
      ∃ t, exec i s = .next t ∧ Follows i s t (resolved s i) ∧ t.here.condq = s.here.condq) ∧
    (followed s (resolved s i) i = none → s.here.retired s.cur.eng = true →
      exec i s = .next (s.takeTrap s.cur.cell s.cur.eng (callTrap i)))

/-- R17, R18, R50, R127: S resolves a queued control instruction, appends its outcome and follows it (that it appends as it
passes, and that a predicated-false one falls through with an entry of its own, are the model's choices: assumption logs 16
and 17); LOOP leaves its
decrement in S's copy. Where the predicate is false it reads no scalar. With 128 entries held it stalls; a full or empty
return stack and a target off its grid raise their traps, the engine's older work retired (R36). -/
def QueuedControlIsResolved : Prop :=
  ∀ (i : Instr) (h : Hdr) (uses : List SReg) (q : Bool) (s : State),
    controlOf i = some (h, uses, q) → (q = true ∨ h.pred ≠ 15#4 ∨ h.neg = true) → s.cur.eng = .s →
    s.ready { h with pred := 15#4, neg := false } (if s.getP h.pred = h.neg then [] else uses) = true →
    s.here.badPred .s h.pred = false →
    ((s.getP h.pred ≠ h.neg → targetSound s i) → s.here.condq.length < 128 →
      (∀ pc ras, followed s (entryOf s h i) i = some (pc, ras) →
        ∃ t, exec i s = .next t ∧ Follows i s t (entryOf s h i) ∧ t.here.condq = s.here.condq ++ [entryOf s h i] ∧
          ∀ h' sa d, i = .loop h' sa d → s.getP h.pred ≠ h.neg → t.getS sa = if sa = 0#6 then 0#64 else s.getS sa - 1) ∧
      (followed s (entryOf s h i) i = none → s.here.retired .s = true → exec i s = .next (s.takeTrap s.cur.cell .s (callTrap i)))) ∧
    ((s.getP h.pred ≠ h.neg → targetSound s i) → 128 ≤ s.here.condq.length →
      ∃ t, exec i s = .next t ∧ t.me.stall = .queue ∧ t.me.pc = s.me.pc ∧ Keeps nothing s t) ∧
    (s.getP h.pred ≠ h.neg → ¬ targetSound s i → s.here.retired .s = true →
      exec i s = .next (s.takeTrap s.cur.cell .s { cause := 0x03#8, addr := (resolved s i).target }))

/-- R17, R18: L, M, V and W each read the entries in the order in which S appended them, each entry once, and follow them;
without one they stall. What another of them reads next is as before. -/
def QueuedControlIsFollowed : Prop :=
  ∀ (i : Instr) (h : Hdr) (uses : List SReg) (q : Bool) (s : State),
    controlOf i = some (h, uses, q) → (q = true ∨ h.pred ≠ 15#4 ∨ h.neg = true) → s.cur.eng ∈ consumers →
    s.ready { h with pred := 15#4, neg := false } [] = true →
    (∀ o pc ras, s.here.condq[s.me.condPopped]? = some o → followed s o i = some (pc, ras) →
      ∃ t, exec i s = .next t ∧ Follows i s t o ∧
        t.here.condq[t.me.condPopped]? = s.here.condq[s.me.condPopped + 1]? ∧
        ∀ e ∈ consumers, e ≠ s.cur.eng →
          t.here.condq[(t.here.eng e).condPopped]? = s.here.condq[(s.here.eng e).condPopped]?) ∧
    (∀ o, s.here.condq[s.me.condPopped]? = some o → followed s o i = none → s.here.retired s.cur.eng = true →
      exec i s = .next (s.takeTrap s.cur.cell s.cur.eng (callTrap i))) ∧
    (s.here.condq[s.me.condPopped]? = none →
      ∃ t, exec i s = .next t ∧ t.me.stall = .queue ∧ t.me.pc = s.me.pc ∧ t.here.condq = s.here.condq ∧ Keeps nothing s t)

/-- R369, R17, R50, R125–R128: a supervisor core resolves its own control instructions, in order, and uses no condition queue;
HALT ends its run. What would trap there has no entry in the manual: that the model stops by name is its choice (assumption
log 31). -/
def SupervisorControlIsFollowed : Prop :=
  ∀ (i : Instr) (h : Hdr) (uses : List SReg) (q : Bool) (s : State),
    controlOf i = some (h, uses, q) → s.cur.eng = .sup →
    s.ready { h with pred := 15#4, neg := false } (if s.getP h.pred = h.neg then [] else uses) = true →
    s.here.badPred .sup h.pred = false →
    ((s.getP h.pred ≠ h.neg → targetSound s i) →
      (∀ pc ras, followed s (entryOf s h i) i = some (pc, ras) →
        ∃ t, exec i s = .next t ∧ Passes s t pc ∧ t.me.ras = ras ∧ t.here.condq = s.here.condq ∧
          t.here.preempt = s.here.preempt ∧
          (∀ h' sa d, i = .loop h' sa d → s.getP h.pred ≠ h.neg → t.getS sa = if sa = 0#6 then 0#64 else s.getS sa - 1) ∧
          (t.here.supRun = true ↔ s.here.supRun = true ∧ ¬((∃ h', i = .halt h') ∧ s.getP h.pred ≠ h.neg)) ∧
          Keeps (fun e x => { hideLoop i e x with supRun := false }) s t) ∧
      (followed s (entryOf s h i) i = none → exec i s = .fault (.supervisorTrap (callTrap i).cause (callTrap i).detail))) ∧
    (s.getP h.pred ≠ h.neg → ¬ targetSound s i → exec i s = .fault (.supervisorTrap 0x03#8 0))

/-- R380, R383: an engine passes a checkpoint and goes on unless a request is pending; the first instance beyond the
request's limit becomes its target, with its index, and there the engine stops. -/
def CheckpointsStopTheirTarget : Prop :=
  ∀ (h : Hdr) (idx : BitVec 16) (s t : State),
    h.pred = 15#4 → h.neg = false → s.ready h [] = true → s.cur.eng ≠ .sup → exec (.ckpt h idx) s = .next t →
    (s.here.preempt = none → t.here.preempt = none ∧ t.me.stopped = s.me.stopped) ∧
    ∀ p, s.here.preempt = some p →
      (∀ k, p.target = some k → t.here.preempt = some p ∧ (t.me.stopped = true ↔ s.me.stopped = true ∨ s.me.step = k)) ∧
      (p.target = none → s.me.step ≤ p.limit → t.here.preempt = some p ∧ t.me.stopped = s.me.stopped) ∧
      (p.target = none → p.limit < s.me.step →
        t.here.preempt = some { p with target := some s.me.step, idx := some idx } ∧ t.me.stopped = true)

/-- The engines that make a rendezvous, and the queue that a launch submits to. -/
def meetingOf : Instr → Option (Hdr × List Eng × List SReg)
  | .launch h sa _ => some (h, [.s, .l, .m, .v, .w], [sa])
  | .launchNw h sa _ => some (h, [.s, .v, .w], [sa])
  | .yield h _ => some (h, [.s, .l, .m, .v, .w], [])
  | _ => none

/-- Every engine of a list stands one word and one step past where it stood. -/
def allPass (es : List Eng) (s t : State) : Prop :=
  ∀ e ∈ es, (t.eng s.cur.cell e).pc = (s.eng s.cur.cell e).pc + 16 ∧
    (t.eng s.cur.cell e).step = (s.eng s.cur.cell e).step + 1 ∧ (t.eng s.cur.cell e).arrived = false

/-- The instruction has met at S: its own accesses are behind it, and every other of its engines has arrived, with no fault to
raise (R206). -/
def gathered (es : List Eng) (s : State) : Prop :=
  s.settled = true ∧ ∀ e ∈ es, e ≠ .s →
    (s.eng s.cur.cell e).arrived = true ∧ (s.eng s.cur.cell e).deferred = []

/-- A launch that its checks let submit (R356). -/
def submits (s : State) (va : Word) (q : Nat) : Prop :=
  let l := s.tgu.q q
  va.toNat % 128 = 0 ∧ l.enabled = true ∧ l.cellsLaunch = true ∧ l.size ≠ 0#64 ∧ l.asid = s.here.asid ∧
  s.here.owner.isSome = true ∧ (l.tail - l.head).toNat < l.size.toNat ∧ s.tgu.parked < Config.parkedMax

/-- The instruction goes through the condition queue: it is predicated (R17). -/
def goesThroughQueue (h : Hdr) : Prop := h.pred ≠ 15#4 ∨ h.neg = true

/-- What S checks of a launch as it reaches it (R356). -/
def launchTrap (s : State) : Instr → Option TrapRec
  | .launch _ sa q | .launchNw _ sa q =>
      if (s.getS sa).toNat % 128 ≠ 0 then some { cause := 0x03#8, addr := s.getS sa }
      else
        let l := s.tgu.q q.toNat
        if l.enabled = true ∧ l.cellsLaunch = true ∧ l.size ≠ 0#64 ∧ l.asid = s.here.asid ∧ s.here.owner.isSome = true then none
        else some { cause := 0x05#8, addr := s.getS sa }
  | _ => none

/-- R129, R356–R358: once every engine of a LAUNCH or LAUNCH.NW has arrived, and S has resolved its predicate, S appends the
entry to its queue, and those engines pass together, each with its entry of the condition queue; a YIELD passes together, and
with a request pending it is its target. -/
def MeetingsPassTogether : Prop :=
  ∀ (i : Instr) (h : Hdr) (es : List Eng) (uses : List SReg) (s : State),
    meetingOf i = some (h, es, uses) → s.cur.eng = .s → s.ready { h with pred := 15#4, neg := false } uses = true →
    s.getP h.pred ≠ h.neg → gathered es s → (goesThroughQueue h → s.me.resolved = true) →
    let popped (t : State) : Prop := ∀ e ∈ consumers, t.here.condq[(t.here.eng e).condPopped]? =
      s.here.condq[(s.here.eng e).condPopped + if (h.pred ≠ 15#4 ∨ h.neg = true) ∧ e ∈ es then 1 else 0]?
    (∀ sa q, (i = .launch h sa q ∨ i = .launchNw h sa q) → submits s (s.getS sa) q.toNat →
      ∃ t, exec i s = .next t ∧ Passes s t (s.me.pc + 16) ∧ allPass es s t ∧ popped t ∧
        (t.tgu.q q.toNat).tail = (s.tgu.q q.toNat).tail + 1 ∧
        ∀ k, t.byte k = (s.setBytes ((s.tgu.q q.toNat).base.toNat +
          16 * ((s.tgu.q q.toNat).tail.toNat % (s.tgu.q q.toNat).size.toNat))
          (leBytes 8 (s.getS sa).toNat ++ leBytes 8 0)).byte k) ∧
    (∀ idx, i = .yield h idx →
      ∃ t, exec i s = .next t ∧ Passes s t (s.me.pc + 16) ∧ allPass es s t ∧ popped t ∧ (∀ k, t.byte k = s.byte k) ∧
        ∀ p, s.here.preempt = some p → p.target = none →
          t.here.preempt = some { p with target := some s.me.step, idx := some idx } ∧
          ∀ e ∈ es, (t.eng s.cur.cell e).stopped = true)

/-- R17, R18, R356, R357: as S reaches a predicated rendezvous it appends the outcome (when it appends is the model's choice:
assumption log 16): where the predicate is false S passes
alone, and nothing is launched; where it is true S stands for the others, after the checks of a launch. With 128 entries held
it stalls. -/
def PredicatedMeetingsAreResolved : Prop :=
  ∀ (i : Instr) (h : Hdr) (es : List Eng) (uses : List SReg) (s : State),
    meetingOf i = some (h, es, uses) → goesThroughQueue h → s.cur.eng = .s → s.me.resolved = false →
    s.ready { h with pred := 15#4, neg := false } (if s.getP h.pred = h.neg then [] else uses) = true →
    s.here.badPred .s h.pred = false →
    (s.getP h.pred = h.neg → s.here.condq.length < 128 →
      ∃ t, exec i s = .next t ∧ Passes s t (s.me.pc + 16) ∧
        t.here.condq = s.here.condq ++ [{ taken := false, target := 0#64 }] ∧ Keeps (fun _ x => { x with condq := [] }) s t) ∧
    (s.getP h.pred ≠ h.neg → launchTrap s i = none → s.here.condq.length < 128 →
      ∃ t, exec i s = .next t ∧ t.me.pc = s.me.pc ∧ t.me.step = s.me.step ∧ t.me.resolved = true ∧
        t.here.condq = s.here.condq ++ [{ taken := true, target := 0#64 }] ∧ Keeps (fun _ x => { x with condq := [] }) s t) ∧
    (∀ r, s.getP h.pred ≠ h.neg → launchTrap s i = some r → s.here.retired .s = true →
      exec i s = .next (s.takeTrap s.cur.cell .s r)) ∧
    ((s.getP h.pred ≠ h.neg → launchTrap s i = none) → 128 ≤ s.here.condq.length →
      ∃ t, exec i s = .next t ∧ t.me.stall = .queue ∧ t.me.pc = s.me.pc ∧ Keeps nothing s t)

/-- R17, R18, R357, R358: at a predicated rendezvous L, M, V and W read the outcome: with none they stall, at a false one, or
one that is not theirs, they take it and pass, and at a true one they arrive and take it as they pass. -/
def PredicatedMeetingsAreRead : Prop :=
  ∀ (i : Instr) (h : Hdr) (es : List Eng) (uses : List SReg) (s : State),
    meetingOf i = some (h, es, uses) → goesThroughQueue h → s.cur.eng ∈ consumers →
    s.ready { h with pred := 15#4, neg := false } [] = true →
    (s.here.condq[s.me.condPopped]? = none →
      ∃ t, exec i s = .next t ∧ t.me.stall = .queue ∧ t.me.pc = s.me.pc ∧ Keeps nothing s t) ∧
    ∀ o, s.here.condq[s.me.condPopped]? = some o →
      (o.taken = true → s.cur.eng ∈ es → s.settled = true →
        ∃ t, exec i s = .next t ∧ t.me.arrived = true ∧ t.me.pc = s.me.pc ∧ t.me.step = s.me.step ∧ Keeps nothing s t) ∧
      (o.taken = false ∨ s.cur.eng ∉ es →
        ∃ t, exec i s = .next t ∧ Passes s t (s.me.pc + 16) ∧ Keeps hideControl s t ∧
          t.here.condq[t.me.condPopped]? = s.here.condq[s.me.condPopped + 1]? ∧
          ∀ e ∈ consumers, e ≠ s.cur.eng →
            t.here.condq[(t.here.eng e).condPopped]? = s.here.condq[(s.here.eng e).condPopped]?)

/-- R356, R369: on a supervisor core a launch meets no one: it submits and passes, or traps where it has no entry in the manual;
YIELD, and any of them under a false predicate, only passes. That it acts alone, and stops by name at a trap of its own, are the
model's choices (assumption logs 30 and 31). -/
def SupervisorLaunches : Prop :=
  ∀ (i : Instr) (h : Hdr) (es : List Eng) (uses : List SReg) (s : State),
    meetingOf i = some (h, es, uses) → s.cur.eng = .sup →
    s.ready { h with pred := 15#4, neg := false } (if s.getP h.pred = h.neg then [] else uses) = true →
    s.here.badPred .sup h.pred = false →
    (s.getP h.pred = h.neg ∨ uses = [] → ∃ t, exec i s = .next t ∧ Passes s t (s.me.pc + 16) ∧ Keeps nothing s t) ∧
    ∀ sa q, s.getP h.pred ≠ h.neg → (i = .launch h sa q ∨ i = .launchNw h sa q) →
      (submits s (s.getS sa) q.toNat →
        ∃ t, exec i s = .next t ∧ Passes s t (s.me.pc + 16) ∧ (t.tgu.q q.toNat).tail = (s.tgu.q q.toNat).tail + 1 ∧
          ∀ k, t.byte k = (s.setBytes ((s.tgu.q q.toNat).base.toNat +
            16 * ((s.tgu.q q.toNat).tail.toNat % (s.tgu.q q.toNat).size.toNat))
            (leBytes 8 (s.getS sa).toNat ++ leBytes 8 0)).byte k) ∧
      ∀ r, launchTrap s i = some r → exec i s = .fault (.supervisorTrap r.cause r.detail)

/-- R129, R357, R358: an engine that reaches a rendezvous of its own with its older work behind it registers and stands;
L and M pass LAUNCH.NW, which is none of theirs. -/
def EnginesArriveAtMeetings : Prop :=
  ∀ (i : Instr) (h : Hdr) (es : List Eng) (uses : List SReg) (s : State),
    meetingOf i = some (h, es, uses) → h.pred = 15#4 → h.neg = false → s.cur.eng ∈ consumers → s.ready h [] = true →
    (s.cur.eng ∈ es → s.settled = true →
      ∃ t, exec i s = .next t ∧ t.me.arrived = true ∧ t.me.pc = s.me.pc ∧ t.me.step = s.me.step ∧ Keeps nothing s t) ∧
    (s.cur.eng ∉ es → ∃ t, exec i s = .next t ∧ Passes s t (s.me.pc + 16) ∧ Keeps nothing s t)

end Sys2Proof.Claims

/-! ## Control flow -/

/-- R17, R18, R50, R125–R128, R369, R380: control instructions take every engine along the path that S resolves, and a
supervisor core along its own. The model's choices: when S appends an entry (assumption log 16), the entry of a predicated-false
instruction (log 17), and what a supervisor core does at CKPT and at a trap of its own (logs 30 and 31). -/
def Obligations.ControlFollowsOnePath : Prop :=
  UnqueuedControlIsFollowed ∧ QueuedControlIsResolved ∧ QueuedControlIsFollowed ∧ SupervisorControlIsFollowed ∧
  CheckpointsStopTheirTarget

/-- R129, R356–R358: LAUNCH, LAUNCH.NW and YIELD. The model's choices: when S appends the entry of a predicated one (assumption
log 16), and what a supervisor core does alone and at a trap of its own (logs 30 and 31). -/
def Obligations.RendezvousPassTogether : Prop :=
  MeetingsPassTogether ∧ PredicatedMeetingsAreResolved ∧ PredicatedMeetingsAreRead ∧ EnginesArriveAtMeetings ∧
  SupervisorLaunches

namespace Sys2Proof.Claims

/-! ## Pool memory and ownership (16 R394–R402) -/

/-- No engine has an access queued for a byte of some kind. -/
def unqueued (s : State) (p : Nat → Prop) : Prop := ∀ c e, ∀ q ∈ (s.eng c e).queue, ∀ k ∈ accessKeys q.acc, ¬ p k

/-- The ownership cache lists bytes of allocated pool regions, or of other classes. -/
def cacheAllocated (s : State) : Prop :=
  ∀ k, tabGet none s.own.cache k ≠ none → paClass k = 4 → ∃ r ∈ s.pool.regions, r.base ≤ k ∧ k < r.base + r.size

/-- A switch that the device reaches is healthy (R396, R403, R431). -/
def serves (s : State) (sw : Nat) : Prop := s.minimal = false ∧ s.switch sw = .healthy

/-- A switch offers a range for an allocation of n granules at granule g (R396). -/
def offers (s : State) (mir : Bool) (n sw g : Nat) : Prop :=
  sw < 8 ∧ serves s sw ∧ g + n ≤ mereGranules ∧ s.pool.rangeFree sw g n = true ∧
  (mir = true → serves s (sw ^^^ 4) ∧ s.pool.rangeFree (sw ^^^ 4) g n = true)

/-- The order of the switches: upwards from the preferred one, else by most free granules, ties to the lower. -/
def comesFirst (s : State) (pref : Option Nat) (a b : Nat) : Prop :=
  match pref with
  | some p => (a + 8 - p) % 8 < (b + 8 - p) % 8
  | none => s.pool.freeGranules b < s.pool.freeGranules a ∨ (s.pool.freeGranules b = s.pool.freeGranules a ∧ a < b)

/-- R395, R396: POOL.ALLOC answers with the status that R396 gives, or allocates zeroed bytes on the first switch of the order
that has room and returns their address. Which free range of that switch it takes is free (log 14). -/
def AllocationsAreTaken : Prop :=
  ∀ (h : Hdr) (sd sa : SReg) (mir : Bool) (pref : BitVec 3) (given : Bool) (s : State),
    let size := (s.getS sa).toNat
    let n := size / 0x200000
    let p := if given = true then some pref.toNat else none
    let badSize := size = 0 ∨ size % 0x200000 ≠ 0 ∨ 2 ^ 39 < size
    let beyond := tabGet 0 s.pool.quota s.tenant.toNat < s.pool.usedBy s.tenant + size * (if mir = true then 2 else 1)
    let paired := ∃ sw < 8, serves s sw ∧ serves s (sw ^^^ 4)
    s.ready h [sa] = true →
    (badSize → exec (.poolAlloc h sd sa mir pref given) s = .next (s.after h (s.setS sd 3#64))) ∧
    (¬ badSize → beyond → exec (.poolAlloc h sd sa mir pref given) s = .next (s.after h (s.setS sd 1#64))) ∧
    (¬ badSize → ¬ beyond → mir = true → ¬ paired →
      exec (.poolAlloc h sd sa mir pref given) s = .next (s.after h (s.setS sd 4#64))) ∧
    (¬ badSize → ¬ beyond → (mir = true → paired) → (¬ ∃ sw g, offers s mir n sw g) →
      exec (.poolAlloc h sd sa mir pref given) s = .next (s.after h (s.setS sd 2#64))) ∧
    (¬ badSize → ¬ beyond → (∃ sw g, offers s mir n sw g) → cacheAllocated s →
      ∃ sw g t, exec (.poolAlloc h sd sa mir pref given) s = .next t ∧ Passes s t (s.me.pc + 16) ∧ offers s mir n sw g ∧
        (∀ sw' g', offers s mir n sw' g' → sw' ≠ sw → comesFirst s p sw sw') ∧
        (t.getS sd = if sd = 0#6 then 0#64 else BitVec.ofNat 64 (0x01FFF00000000000 + sw * 2 ^ 39 + g * 0x200000)) ∧
        (∀ i < size, t.byte (mereKey sw (g * 0x200000) + i) = 0#8) ∧
        (∀ k, ¬(mereKey sw (g * 0x200000) ≤ k ∧ k < mereKey sw (g * 0x200000) + size) → t.byte k = s.byte k) ∧
        t.pool.regions = s.pool.regions ++
          [{ base := mereKey sw (g * 0x200000), size := size, tenant := s.tenant, mirror := mir }])

/-- R395, R397: POOL.FREE returns the region whose base the address is and revokes its tokens, once every earlier access of S
is performed and no outstanding access of the device needs one of them (R402); any other address gives status 5. What other
engines have queued for its bytes, which passed its checks, is performed first: with none of it, every byte is as it was. -/
def RegionsAreFreed : Prop :=
  ∀ (h : Hdr) (sd sa : SReg) (s : State) (k : Nat),
    s.ready h [sa] = true → s.regionKey s.here.asid (s.getS sa).toNat = .ok k → s.me.queue = [] →
    ((∀ r ∈ s.pool.regions, ¬(r.base = k ∧ r.tenant = s.tenant)) →
      exec (.poolFree h sd sa) s = .next (s.after h (s.setS sd 5#64))) ∧
    (∀ r ∈ s.pool.regions, r.base = k → r.tenant = s.tenant → (∀ q ∈ s.pool.regions, q.base = k → q = r) →
      (r.lost = false → s.revokeWaits r = false) →
      ∃ t, exec (.poolFree h sd sa) s = .next t ∧ Passes s t (s.me.pc + 16) ∧ t.getS sd = 0#64 ∧
        t.pool.regions = s.pool.regions.filter (fun q => q.base != k) ∧
        (∀ i < r.size / 0x200000, t.ownState (r.base / 0x200000 + i) ≠ .held) ∧
        (tabWf none s.own.cache = true → r.lost = false →
          unqueued s (r.has · = true) → ∀ j, t.byte j = s.byte j))

/-- R398: POOL.STAT stores its 64-byte report as R398 lays it out and returns status 0; a malformed query gives status 5. Kind 2
lists the tenant's lost regions by ascending address, seven from the index that the query gives. That the live count of kind 0
leaves lost regions out is the model's choice (assumption log 46). -/
def ReportsAreStored : Prop :=
  ∀ (h : Hdr) (sd sa sb : SReg) (s : State) (ks : List Nat),
    let q := (s.getS sa).toNat
    s.ready h [sa, sb] = true → (s.getS sb).toNat % 64 = 0 → s.span .store (s.getS sb) 64 = .ok ks →
    (∀ k ∈ ks, paClass k = 0 ∨ (paClass k = 1 ∧ k / 0x800000 % 128 = s.cur.cell)) →
    (2 < q % 256 ∨ q / 2 ^ 40 ≠ 0 → exec (.poolStat h sd sa sb) s = .next (s.after h (s.setS sd 5#64))) ∧
    (q % 256 ≤ 2 → q / 2 ^ 40 = 0 → s.barriers = [] → s.here.watch = [] → s.me.queue = [] →
      ∃ bs t, bs.length = 64 ∧ exec (.poolStat h sd sa sb) s = .next t ∧ Passes s t (s.me.pc + 16) ∧ t.getS sd = 0#64 ∧
        (∀ k, t.byte k = (s.puts (fullPuts ks bs)).byte k) ∧ KeepsOutside ks (hideS sd) s t ∧
        (q % 256 = 0 → field bs 0 8 = tabGet 0 s.pool.quota s.tenant.toNat % 2 ^ 64 ∧
          field bs 8 8 = s.pool.usedBy s.tenant % 2 ^ 64 ∧
          field bs 16 8 = (s.pool.regions.filter fun r => r.tenant == s.tenant && !r.lost).length % 2 ^ 64 ∧
          field bs 24 8 = (s.pool.regions.filter fun r => r.tenant == s.tenant && r.lost).length % 2 ^ 64 ∧ field bs 32 32 = 0) ∧
        (q % 256 = 1 → (∀ i < 8, field bs i 1 = (match s.switch i with | .healthy => 0 | .failed => 1 | .rebuilding => 2 | .absent => 3) ∧
          field bs (8 + 4 * i) 4 = s.pool.freeGranules i) ∧ field bs 40 24 = 0) ∧
        (q % 256 = 2 → ∃ lost : List Region,
          lost.Perm (s.pool.regions.filter fun r => r.tenant == s.tenant && r.lost) ∧
          lost.Pairwise (fun a b => a.base ≤ b.base) ∧ field bs 0 8 = lost.length % 2 ^ 64 ∧
          ∀ i < 7, field bs (8 + 8 * i) 8 = match lost[q / 256 % 2 ^ 32 + i]? with | some r => poolAddr r.base | none => 0))

/-- R400, R402: what the ownership instructions answer and do for a region that their checks accept: an acquire holds the
token and orders what follows (R302), a release writes back and gives it up, a test reports holder and state. A status of the
checks changes nothing else; an acquire waits for the releases that S has queued. A release first performs what other engines have
queued for the region: with none of it, every byte is as it was. -/
def TokensMove : Prop :=
  ∀ (h : Hdr) (sd sa : SReg) (s : State), s.ready h [sa] = true →
    (∀ n, s.areaOf (s.getS sa) = .code n →
      exec (.ownAcq h sd sa) s = .next (s.after h (s.setS sd (BitVec.ofNat 64 n))) ∧
      exec (.ownRel h sd sa) s = .next (s.after h (s.setS sd (BitVec.ofNat 64 n))) ∧
      exec (.ownTest h sd sa) s = .next (s.after h (s.setS sd (BitVec.ofNat 64 n)))) ∧
    ∀ rg, s.areaOf (s.getS sa) = .region rg →
      (s.me.releasing = true → ∃ t, exec (.ownAcq h sd sa) s = .next t ∧ t.me.pc = s.me.pc ∧ t.me.stall = .other ∧
        Keeps nothing s t) ∧
      (s.me.releasing = false → s.ownState rg = .held →
        exec (.ownAcq h sd sa) s = .next (s.after h ((s.acquired s.cur.cell s.cur.eng).setS sd 0#64))) ∧
      (s.me.releasing = false → s.ownState rg ≠ .held → 64 ≤ s.tokensHeld → exec (.ownAcq h sd sa) s = .next (s.after h (s.setS sd 6#64))) ∧
      (s.me.releasing = false → s.ownState rg ≠ .held → s.tokensHeld < 64 →
        ∃ t, exec (.ownAcq h sd sa) s = .next t ∧ Passes s t (s.me.pc + 16) ∧ t.getS sd = 0#64 ∧ t.ownState rg = .held ∧
          tabGet none t.own.holder rg = some s.podDev ∧ (∀ k, t.byte k = s.byte k) ∧
          ∀ r, r ≠ rg → t.ownState r = s.ownState r) ∧
      (s.ownState rg = .none → s.me.queue = [] → exec (.ownRel h sd sa) s = .next (s.after h (s.setS sd 7#64))) ∧
      (s.ownState rg ≠ .none → s.me.queue = [] →
        ∃ t, exec (.ownRel h sd sa) s = .next t ∧ Passes s t (s.me.pc + 16) ∧ t.getS sd = 0#64 ∧ t.ownState rg = .none ∧
          (∀ r, r ≠ rg → t.ownState r = s.ownState r) ∧
          (tabWf none s.own.cache = true → unqueued s (regionOf · = rg) → ∀ k, t.byte k = s.byte k) ∧
          (s.ownState rg = .held → tabGet none t.own.holder rg = none ∧ ∀ k, regionOf k = rg → tabGet none t.own.cache k = none)) ∧
      ∃ v, exec (.ownTest h sd sa) s = .next (s.after h (s.setS sd v)) ∧ v.toNat % 256 = 0 ∧
        v.toNat / 256 % 256 = (match tabGet none s.own.holder rg with | some d => d.toNat | none => 0xFF) ∧
        v.toNat / 65536 = (match s.ownState rg with | .none => 0 | .held => 1 | .revoked => 2)

/-! ## Watchpoints, jobs and notifying stores (15 R378; 16 R405–R411) -/

/-- R378: WATCH.SET writes the fields of its register and nothing else. -/
def WatchpointsAreSet : Prop :=
  ∀ (h : Hdr) (n : BitVec 2) (sa : SReg) (size : BitVec 6) (rd wr : Bool) (s : State), s.ready h [sa] = true →
    ∃ t, exec (.watchSet h n sa size rd wr) s = .next t ∧ Passes s t (s.me.pc + 16) ∧
      Keeps (fun _ x => { x with watch := tabSet 0#64 x.watch n.toNat 0#64 }) s t ∧
      let v := tabGet 0#64 t.here.watch n.toNat
      v.getLsbD 63 = (rd || wr) ∧ v.getLsbD 62 = wr ∧ v.getLsbD 61 = rd ∧ (∀ i, 57 ≤ i → i < 61 → v.getLsbD i = false) ∧
      (∀ i, 6 ≤ i → i < 57 → v.getLsbD i = (decide (size.toNat ≤ i) && (s.getS sa).getLsbD i)) ∧ v.toNat % 64 = size.toNat

/-- R410, R411: SRE.RUN of a sound block whose pages pass queues its job behind the stack's others and returns 0; a block out
of its table gives 1; with 8 jobs queued S stalls. -/
def JobsAreQueued : Prop :=
  ∀ (h : Hdr) (sd sa : SReg) (s : State) (b : SreBlock),
    s.ready h [sa] = true → s.me.queue = [] → s.sreRead (s.getS sa) = .ok b → b.misaligned = none →
    (b.sound = false → exec (.sreRun h sd sa) s = .next (s.after h (s.setS sd 1#64))) ∧
    ∀ ps flag, b.sound = true → s.sreMap b = .ok ps → s.span .store b.flag 8 = .ok flag →
      (∀ p ∈ ps, p.2 = none) → (∀ k ∈ flag, paClass k < 2) →
      ((s.jobs b.stack).length < 8 →
        ∃ t j, exec (.sreRun h sd sa) s = .next t ∧ Passes s t (s.me.pc + 16) ∧ t.getS sd = 0#64 ∧
          t.jobs b.stack = s.jobs b.stack ++ [j] ∧ j.started = false ∧ j.bufs = b.used ∧ j.dest = b.dest ∧
          j.length = b.length ∧ j.flag = flag ∧ j.fval = b.fval ∧ (∀ st, st ≠ b.stack → t.jobs st = s.jobs st) ∧
          ∀ k, t.byte k = s.byte k) ∧
      (8 ≤ (s.jobs b.stack).length →
        ∃ t, exec (.sreRun h sd sa) s = .next t ∧ t.me.pc = s.me.pc ∧ t.me.stall = .other ∧ Keeps nothing s t)

/-- R405, R406: an STF whose bytes and flag translate and share one target stores as VST does, and its flag update follows
the stores; a flag of another target raises PERM, with the flag's address and, by the model's choice (assumption log 43), the
index after the last repetition. -/
def NotifyingStoresIssue : Prop :=
  ∀ (h : Hdr) (r : RunOps) (f : Fmt) (cvt : Cvt) (mk : MNum) (q : VStore) (s u : State) (ks : List Nat)
    (data flag : List Nat),
    vectorStore (.stf h r f cvt mk) = some q → s.ready h [r.base, r.index] = true → s.me.resumes = false → s.cur.eng = .w →
    ¬(s.fab.en = true ∧ s.fab.asid = s.here.asid) → (∀ n ∈ s.here.stfs, n.issuing = false) → s.here.watch = [] → s.barriers = [] → s.me.watchPass = false →
    s.stfReps r f mk (r.rep.toNat + 1) 0 = .ok data → s.stfFlag r = .ok flag →
    ((∀ d ∈ data, targetOfKey d = targetOfKey (flag.headD 0)) → q.run q.reps 0 s = some (u, ks) →
      ∃ t n, exec (.stf h r f cvt mk) s = .next t ∧ Passes s t (s.me.pc + 16) ∧ t.here.stfs = s.here.stfs ++ [n] ∧
        n.flag = flag ∧ n.flagVa = s.getS r.index ∧ n.issuing = false ∧ n.stamp = u.me.nextId ∧ KeepsOutside ks hideStore s t ∧ ∀ k, t.byte k = u.byte k) ∧
    ((∃ d ∈ data, targetOfKey d ≠ targetOfKey (flag.headD 0)) → s.here.retired .w = true →
      exec (.stf h r f cvt mk) s = .next (s.takeTrap s.cur.cell .w
        { cause := 0x05#8, addr := s.getS r.index, idx := some (r.rep.toNat + 1) }))

/-! ## Contexts (15 R371–R379) -/

/-- R373: with nothing outstanding that a dropped entry translated, TLB.INV leaves no entry of its scope and every other one. -/
def TranslationsAreDropped : Prop :=
  ∀ (h : Hdr) (sa sb : SReg) (kind : InvKind) (s : State),
    let asid : BitVec 14 := (s.getS sa).setWidth 14
    let va := (s.getS sb).toNat
    let named (e : Tlb) : Prop :=
      match kind with
      | .every => True
      | .asid => e.asid = asid
      | .page => e.asid = asid ∧ e.va ≤ va ∧ va < e.va + e.size
    s.ready h [sa, sb] = true → s.cur.eng = .sup → (∀ e ∈ s.cells, e.2.translating (kind == .every) asid = false) →
    (∀ q ∈ s.sre, ∀ j ∈ q.2, kind ≠ .every ∧ j.asid ≠ asid) →
    ∃ t, exec (.tlbInv h sa sb kind) s = .next t ∧ Passes s t (s.me.pc + 16) ∧ (∀ e, e ∈ t.tlb ↔ e ∈ s.tlb ∧ ¬ named e) ∧
      ∀ k, t.byte k = s.byte k

/-- R375, R386: CTX.SAVE of a free cell returns 0, and with an area off its grid all ones; a full save of a quiet cell stores
an image with the header of R386, returns its length, and leaves every other byte; with .rel the cell is free. The image shows
an engine that a TRAP stopped past it (R123). -/
def ContextsAreSaved : Prop :=
  ∀ (h : Hdr) (sd sa : SReg) (full rel : Bool) (s : State),
    let a := (s.getS sa).toNat
    s.ready h [sa] = true → s.cur.eng = .sup →
    (s.here.iter = none → exec (.ctxSave h sd sa full rel) s = .next (s.after h (s.setS sd 0#64))) ∧
    (s.here.iter ≠ none → a % 64 ≠ 0 ∨ paClass a ≠ 0 →
      exec (.ctxSave h sd sa full rel) s = .next (s.after h (s.setS sd (BitVec.allOnes 64)))) ∧
    ∀ it n, s.here.iter = some it → s.here.saveReady = true → s.here.copies.length ≤ 1 → full = true →
      n = (((s.recall s.cur.cell).handled s.cur.cell).image s.cur.cell it 0xFFFF#16 true false (fullRanges s.here.carve)).length → s.areaOk a n = true →
      s.ecc = [] → s.here.regErr = [] → (∀ j < n, s.held (a + j) = false ∧ tabGet none s.own.cache (a + j) = none) →
      ∃ t, exec (.ctxSave h sd sa full rel) s = .next t ∧ Passes s t (s.me.pc + 16) ∧
        (t.getS sd = if sd = 0#6 then 0#64 else BitVec.ofNat 64 n) ∧
        (∀ k, ¬(a ≤ k ∧ k < a + n) → t.byte k = s.byte k) ∧
        t.num a 4 = 0x58544344 ∧ t.num (a + 8) 2 = it.asid.toNat ∧ t.num (a + 12) 1 = s.cur.cell % 256 ∧
        t.num (a + 13) 1 = 1 ∧ t.num (a + 16) 8 = n % 2 ^ 64 ∧ t.num (a + 24) 8 = it.va.toNat ∧
        t.num (a + 32) 8 = it.pos % 2 ^ 64 ∧ (rel = true → t.here.iter = none ∧ t.here.frozen = none)

/-- R376: CTX.LOAD refuses a cell that holds an iteration with 1 and an image that it cannot accept with 2; an accepted one
leaves the cell frozen in the image's context, with the registers of its engine blocks, and returns 0; while a tile command of
another context has claimed slots in the cell's slice it stands, by the model's choice (assumption log 127). -/
def ContextsAreLoaded : Prop :=
  ∀ (h : Hdr) (sd sa : SReg) (s : State),
    let a := (s.getS sa).toNat
    let busy := s.here.iter.isSome = true ∨ s.here.starting.isSome = true ∨ s.here.reserved = true
    s.ready h [sa] = true → s.cur.eng = .sup →
    (busy → exec (.ctxLoad h sd sa) s = .next (s.after h (s.setS sd 1#64))) ∧
    (¬ busy → s.readImage a = none → exec (.ctxLoad h sd sa) s = .next (s.after h (s.setS sd 2#64))) ∧
    (∀ x es b, ¬ busy → s.readImage a = some (x, es, b) → s.ecc = [] → s.slotsHeld s.cur.cell x.asid = true →
      ∃ t, exec (.ctxLoad h sd sa) s = .next t ∧ t.me.pc = s.me.pc ∧ t.me.stall = .other ∧ Keeps nothing s t) ∧
    ∀ x es b, ¬ busy → s.readImage a = some (x, es, b) → s.ecc = [] → s.slotsHeld s.cur.cell x.asid = false →
      ∃ t, exec (.ctxLoad h sd sa) s = .next t ∧ Passes s t (s.me.pc + 16) ∧ t.getS sd = 0#64 ∧
        t.here.owner = some (BitVec.ofNat 14 (s.num (a + 8) 2)) ∧ t.here.frozen = some s.cycle ∧ t.here.iter = x.iter ∧
        (∀ e ∈ engines, ∀ r : SReg, r ≠ 0#6 →
          (t.eng s.cur.cell e).getS r = BitVec.ofNat 64 (s.num (a + 0x40 + 1088 * engNum e + 24 + 8 * r.toNat) 8)) ∧
        ∀ e ∈ engines, (t.eng s.cur.cell e).pc.toNat = s.num (a + 0x40 + 1088 * engNum e) 8 / 16 * 16

/-- R371, R377: CTX.RESUME of a frozen cell unfreezes it and clears its traps, each engine at the trapping instruction or past
a TRAP; CTX.RESUME.end frees the cell; CTX.SWITCH places a request with the greatest step count as its limit; on a free
cell both have no effect. -/
def ContextsAreResumed : Prop :=
  ∀ (h : Hdr) (fin : Bool) (s : State), s.ready h [] = true → s.cur.eng = .sup →
    (s.here.iter = none → exec (.ctxResume h fin) s = .next (s.after h s) ∧ exec (.ctxSwitch h) s = .next (s.after h s)) ∧
    (s.here.iter ≠ none → s.here.frozen ≠ none →
      ∃ t, exec (.ctxResume h false) s = .next t ∧ Passes s t (s.me.pc + 16) ∧ t.here.frozen = none ∧
        ∀ e ∈ engines, (t.eng s.cur.cell e).trap = none ∧
          (t.eng s.cur.cell e).pc = match (s.eng s.cur.cell e).trap with
            | some r => if r.deferred = false ∧ r.cause = 0x11#8 ∧ r.retry = false ∧ r.hdr.isSome = true then
                (s.eng s.cur.cell e).pc + 16 else (s.eng s.cur.cell e).pc
            | none => (s.eng s.cur.cell e).pc) ∧
    (s.here.iter ≠ none → ∃ t, exec (.ctxResume h true) s = .next t ∧ Passes s t (s.me.pc + 16) ∧ t.here.iter = none ∧
      t.here.frozen = none ∧ t.here.owner = s.here.owner) ∧
    (s.here.iter ≠ none → s.here.preempt = none →
      ∃ t p, exec (.ctxSwitch h) s = .next t ∧ Passes s t (s.me.pc + 16) ∧ t.here.preempt = some p ∧ p.target = none ∧
        p.since = s.cycle ∧ (∀ e ∈ engines, (s.eng s.cur.cell e).step ≤ p.limit) ∧
        (∃ e ∈ engines, (s.eng s.cur.cell e).step = p.limit) ∧ Keeps (fun _ x => { x with preempt := none }) s t)

end Sys2Proof.Claims

/-! ## Pool memory, ownership, jobs, contexts -/

/-- R394–R402: pool and ownership instructions. The model's choices: a free range of a switch is any (assumption log 14), and
POOL.STAT's live regions leave out the lost ones (log 46). -/
def Obligations.PoolAndTokenInstructionsComplete : Prop :=
  AllocationsAreTaken ∧ RegionsAreFreed ∧ ReportsAreStored ∧ TokensMove

/-- R378, R405, R406, R410, R411: WATCH.SET, STF and SRE.RUN. Address and index of STF's PERM are the model's choice (assumption
log 43). -/
def Obligations.WatchesNotificationsAndJobs : Prop :=
  WatchpointsAreSet ∧ NotifyingStoresIssue ∧ JobsAreQueued

/-- R371, R373, R375–R379: the privileged instructions on the supervisor core. -/
def Obligations.ContextInstructionsComplete : Prop :=
  TranslationsAreDropped ∧ ContextsAreSaved ∧ ContextsAreLoaded ∧ ContextsAreResumed

namespace Sys2Proof.Claims

/-! ## Events of a cell (01 R25; 08 R206; 15 R381, R382) -/

/-- R25: an engine that has stalled on one queue for more than QTIMEOUT cycles takes QUEUE_TIMEOUT at its instruction, its older
work retired (R36); no other stall does, nor shorter stalls on several queues, and a bound of zero disables it. -/
def QueueStallsTimeOut : Prop :=
  ∀ (c : Nat) (e : Eng) (s : State), e ≠ .sup →
    ((s.eng c e).stall = .queue → (s.cell c).qtimeout ≠ 0#32 →
      (∃ w ∈ (s.eng c e).stalled, (s.cell c).qtimeout.toNat < s.cycle - w.2) →
      s.unfrozen c e = true → (s.eng c e).deferred = [] → (s.eng c e).trap = none → (s.eng c e).halted = false →
      (s.eng c e).stopped = false → (s.cell c).retired e = true →
      exec (.queueTimeout c e) s = .next ((s.acts c e).takeTrap c e { cause := 0x0E#8 })) ∧
    ((s.eng c e).stall ≠ .queue ∨ (s.cell c).qtimeout = 0#32 ∨
      (∀ w ∈ (s.eng c e).stalled, s.cycle - w.2 ≤ (s.cell c).qtimeout.toNat) → exec (.queueTimeout c e) s = .next s)

/-- R206, R36: the oldest deferred fault of an engine is raised where the engine stands, its older work retired. -/
def DeferredFaultsAreRaised : Prop :=
  ∀ (c : Nat) (e : Eng) (s : State) (r : TrapRec) (rest : List TrapRec),
    (s.eng c e).deferred = r :: rest → s.unfrozen c e = true → (s.cell c).retired e = true → e ≠ .sup →
    ∃ t, exec (.deferredTrap c e) s = .next t ∧ (t.eng c e).deferred = rest ∧
      (t.eng c e).trap = some { r with pc := (s.eng c e).pc } ∧ (t.eng c e).pc = (s.eng c e).pc ∧
      (t.cell c).frozen = some s.cycle

/-- R382: a request that is not complete within CKPTLIM cycles stops the engines at their next stopping points; once all
stand there, the engine with the least step count takes CKPT_TIMEOUT. That these are two events is the model's choice
(assumption log 21). -/
def CheckpointsTimeOut : Prop :=
  ∀ (c : Nat) (s : State) (p : Preempt), (s.cell c).preempt = some p → (s.cell c).frozen = none →
    (p.timedOut = false → (s.cell c).ckptlim ≠ 0#32 → (s.cell c).ckptlim.toNat < s.cycle - p.since →
      exec (.ckptTimeout c) s = .next (s.modCell c fun x => { x with preempt := some { p with timedOut := true } })) ∧
    (∀ e, p.timedOut = true → (s.cell c).atStoppingPoints = true → e ∈ engines → (s.eng c e).halted = false →
      (∀ o ∈ engines, (s.eng c o).halted = false → (s.eng c e).step < (s.eng c o).step ∨
        ((s.eng c e).step = (s.eng c o).step ∧ engNum e ≤ engNum o)) →
      exec (.ckptTimeout c) s = .next ((s.recall c).takeTrap c e { cause := 0x0F#8 }))

/-- R381: with all five acknowledgements in, the cell freezes, its request is no longer pending, the index of its checkpoint
stands for CTX.SAVE, and its supervisor core runs; CKPTLIM once passed, no longer (R382). The entry address is the model's
(log 2). -/
def QuiescentCellsFreeze : Prop :=
  ∀ (c : Nat) (s : State) (p : Preempt), (s.cell c).preempt = some p →
    ((p.timedOut = true ∨ ((s.cell c).ckptlim ≠ 0#32 ∧ (s.cell c).ckptlim.toNat < s.cycle - p.since)) →
      exec (.preemptQuiesce c) s = .next s) ∧
    (p.timedOut = false → ((s.cell c).ckptlim = 0#32 ∨ s.cycle - p.since ≤ (s.cell c).ckptlim.toNat) →
    p.target ≠ none → (s.cell c).frozen = none → (s.cell c).acknowledged = true →
    ∃ t, exec (.preemptQuiesce c) s = .next t ∧ (t.cell c).frozen = some s.cycle ∧ (t.cell c).preempt = none ∧
      (t.cell c).ckptIdx = p.idx ∧ (t.cell c).supRun = true ∧ (t.cell c).sup.pc = s.supPreempt ∧
      (∀ e ∈ engines, (t.eng c e).stopped = false ∧ (t.eng c e).pc = (s.eng c e).pc ∧ (t.eng c e).step = (s.eng c e).step) ∧
      ∀ k, t.byte k = s.byte k)

/-- R362–R368: a walk that ends brings its leaf into the translation caches, and nothing else changes; one that faults leaves
no entry. -/
def WalksFillTheCaches : Prop :=
  ∀ (asid : BitVec 14) (va : Word) (s : State), va.toNat < 2 ^ 57 →
    (∀ e ∈ s.tlb, ¬(e.asid = asid ∧ e.va ≤ va.toNat ∧ va.toNat < e.va + e.size)) →
    (∀ l, s.walk asid va.toNat = .ok l → ∃ e, exec (.pageWalk asid va) s = .next { s with tlb := e :: s.tlb } ∧
      e.asid = asid ∧ e.size = l.size ∧ e.va = va.toNat / l.size * l.size ∧ e.pa = l.pa ∧
      (e.r, e.w, e.x, e.sl) = (l.r, l.w, l.x, l.sl)) ∧
    (∀ x, s.walk asid va.toNat = .error x → exec (.pageWalk asid va) s = .next s)

/-! ## Records, walkers and iterations (14 R339–R352) -/

/-- Record numbers are distinct, and below the next one. -/
def numbered (s : State) : Prop :=
  (∀ r ∈ s.tgu.recs, r.id < s.tgu.nextId) ∧ ∀ r ∈ s.tgu.recs, ∀ q ∈ s.tgu.recs, r.id = q.id → r = q

/-- R339: a host write of LQ_TAIL that keeps within the queue and moves forward is its new tail; another posts event 0x0101;
on a queue that cells launch into it is ignored, as it is before the device has started (R428). -/
def TailsMoveForward : Prop :=
  ∀ (q : BitVec 3) (v : Word) (s : State), (s.open = false → exec (.lqTail q v) s = .next s) ∧
    let l := s.tgu.q q.toNat
    s.open = true →
    (l.cellsLaunch = true → exec (.lqTail q v) s = .next s) ∧
    (l.cellsLaunch = false → v - l.head ≤ l.size → l.tail - l.head ≤ v - l.head →
      ∃ t, exec (.lqTail q v) s = .next t ∧ (t.tgu.q q.toNat).tail = v ∧ (t.tgu.q q.toNat).head = l.head ∧ t.cells = s.cells ∧
        t.mem = s.mem) ∧
    (l.cellsLaunch = false → l.size < v - l.head ∨ v - l.head < l.tail - l.head →
      exec (.lqTail q v) s = .next (s.post 0x0101#16 1 q.toNat v.toNat l.head.toNat))

/-- R340: the TGU takes the next entry of the rotation: a sound record of a live context is accepted with status 1, ready
with deps zero and parked otherwise, and LQ_HEAD moves on. -/
def EntriesAreTaken : Prop :=
  ∀ (s : State) (n : Nat) (ks : List Nat) (f : RecFields),
    let l := s.tgu.q n
    let a := l.base.toNat + 16 * (l.head.toNat % l.size.toNat)
    let va : Word := BitVec.ofNat 64 (s.num a 8)
    let bs := ks.map s.view
    s.awake = true → s.tgu.parked < 4096 → s.tgu.nextQueue = some n → (∀ i < 16, s.bad (a + i) = false) →
    s.num (a + 8) 8 = 0 → va.toNat % 128 = 0 → s.tguSpan l.asid .load va.toNat 128 = .ok ks → (∀ k ∈ ks, paClass k = 0) →
    (∀ r ∈ s.tgu.recs, ¬(r.f.asid = l.asid ∧ r.va = va ∧ r.origin = none)) → field bs 0x28 4 % 16 = 0 →
    parseRecord l.asid bs = .ok f → (s.ctx l.asid).isSome = true → s.tgu.doomed = [] → numbered s →
    ∃ t r, exec .tguTakeEntry s = .next t ∧ t.tgu.recs = s.tgu.recs ++ [r] ∧ r.va = va ∧ r.f = f ∧ r.issued = false ∧
      r.phase = (if field bs 0x24 4 = 0 then .ready else .parked) ∧ (t.tgu.q n).head = l.head + 1 ∧
      (∀ ks', s.tguSpan l.asid .atomic (va.toNat + 0x28) 4 = .ok ks' → s.barriers = [] →
        ∀ k, t.byte k = (s.puts (fullPuts ks' (leBytes 4 1))).byte k)

/-- R343, R348: a walker without a record takes the ready record of highest effective level, the one first ready at a tie, and
issues it: its bounds are read once, and N is their product. -/
def RecordsIssue : Prop :=
  ∀ (w : Nat) (s : State) (r : Rec) (bs : List Nat),
    s.awake = true → w < 8 → (∀ q ∈ s.tgu.recs, q.phase ≠ .held w) → numbered s → r ∈ s.tgu.recs → r.phase = .ready →
    (∀ q ∈ s.tgu.recs, q.phase = .ready → q = r ∨ s.level q < s.level r ∨ (s.level q = s.level r ∧ r.ready < q.ready)) →
    r.issued = false → s.readBounds r.f = .ok bs →
    (r.f.place = 2 → bs.foldl (· * ·) 1 = r.f.gang ∧ r.f.gang ≤ s.cellCount) → bs.foldl (· * ·) 1 ≠ 0 →
    ∃ t r', exec (.recordIssue w) s = .next t ∧ r' ∈ t.tgu.recs ∧ r'.id = r.id ∧ r'.va = r.va ∧ r'.f = r.f ∧
      r'.phase = .held w ∧ r'.issued = true ∧ r'.bounds = bs ∧ r'.next = 0 ∧ r'.last = bs.foldl (· * ·) 1 ∧
      ∀ q ∈ s.tgu.recs, q.id ≠ r.id → q ∈ t.tgu.recs

/-- R346: without a gang, the first walker of the order places its record's next position on the lowest free cell. -/
def PositionsArePlaced : Prop :=
  ∀ (s : State) (r : Rec) (rest : List Rec) (c : Nat),
    s.awake = true → s.tgu.gang = none → (∀ k < 80, (s.cell k).reserved = false) → numbered s → r ∈ s.tgu.recs →
    s.ranked = r :: rest → r.f.place = 0 → c < s.cellCount → (s.cell c).free = true → (∀ k < c, (s.cell k).free = false) →
    ∃ t it r', exec .cellAssign s = .next t ∧ (t.cell c).starting = some it ∧ it.va = r.va ∧ it.asid = r.f.asid ∧
      it.pos = r.next ∧ it.recId = some r.id ∧ r' ∈ t.tgu.recs ∧ r'.id = r.id ∧ r'.next = r.next + 1 ∧
      r'.running = r.running + 1 ∧ r'.last = r.last ∧ ∀ k, k ≠ c → t.cell k = s.cell k

/-- Every register file of a cell, its array state and its special registers as an iteration finds them (R26, R28, R30, R84). -/
def fresh (x : Cell) : Prop :=
  (∀ v, x.getV v = List.replicate 1024 0#32) ∧ (∀ m : MNum, x.getM m = if m = 15#4 then BitVec.allOnes 1024 else 0#1024) ∧
  (∀ g, x.getR g = {}) ∧ (∀ d, x.getD d = 0#512) ∧ (∀ i, tabGet 0#64 x.wp i = 0#64) ∧ (∀ i, x.trace i = 0#64) ∧
  (∀ i, tabGet 0#32 x.amx i = 0#32) ∧ x.hold = [] ∧ x.tok = [] ∧ x.q = [] ∧ x.condq = [] ∧ x.mcmds = [] ∧ x.copies = [] ∧
  x.vup = false ∧ x.slipw = 1024#14 ∧ x.qtimeout = 0x1000000#32 ∧ x.fflags = 0#25 ∧ x.satcnt = 0#64 ∧ x.seed = 0#64 ∧
  (∀ i, tabGet 0#64 x.watch i = 0#64) ∧ (∀ i, tabGet 0#17 x.pevsel i = 0#17) ∧ (∀ i, tabGet 0#64 x.pcnt i = 0#64) ∧
  x.mode = { rnd := .rne, zlog := none } ∧ x.lag = 3 ∧ x.seq = 0

/-- R26–R28, R171, R344, R345: an iteration, once none of its record with a lower position waits to start, and (the model's
choice, assumption log 127) no command of another context holds slots of a slice that changes its context, starts with every
engine at the entry, s1–s6 the indices of its position, s7 the parameters, s8 the linear number, every other register as R26 and
R28 give it, and a slice of another context cleared. -/
def IterationsStart : Prop :=
  ∀ (c : Nat) (s : State) (it : Iter) (r : Rec),
    (s.cell c).starting = some it → it.recId.bind s.rec? = some r →
    (∀ e ∈ s.cells, ∀ o, e.2.starting = some o → o.recId = it.recId → it.pos ≤ o.pos) →
    ((s.cell c).owner = some r.f.asid ∨ s.slotsHeld c r.f.asid = false) →
    let idx := indicesOf r.bounds r.f.order it.pos
    ∃ t, exec (.iterationStart c) s = .next t ∧ (t.cell c).iter = some it ∧ (t.cell c).starting = none ∧
      (t.cell c).owner = some r.f.asid ∧ (t.cell c).carve = (r.f.spill + 0xFFFF) / 0x10000 * 0x10000 ∧
      (∀ e ∈ engines, (t.eng c e).pc = r.f.entry ∧ (t.eng c e).step = 0 ∧ (t.eng c e).halted = false ∧ (t.eng c e).ras = [] ∧
        (t.eng c e).preg = 0#16 ∧
        (∀ d < 6, (t.eng c e).getS (BitVec.ofNat 6 (d + 1)) = BitVec.ofNat 64 (idx.getD d 0)) ∧
        (t.eng c e).getS 7#6 = r.f.params ∧ (t.eng c e).getS 8#6 = BitVec.ofNat 64 (linearOf r.bounds idx) ∧
        ∀ n : SReg, 8 < n.toNat → (t.eng c e).getS n = 0#64) ∧
      fresh (t.cell c) ∧ (t.cell c).ckptlim = (s.cell c).ckptlim ∧
      (unqueued s (fun k => slicePa c 0 ≤ k ∧ k < slicePa c 0 + 0x800000) →
        ((s.cell c).owner ≠ some r.f.asid → (∀ k, tabGet none s.own.cache k = none) →
          ∀ k < 0x800000, t.byte (slicePa c k) = 0#8) ∧
        ∀ k, k ≠ c → t.cell k = s.cell k)

/-- R344: under order 0 the linear number is the position. -/
def LinearNumbersFollowTheOrder : Prop :=
  ∀ (bounds : List Nat) (m : Nat), m < bounds.foldl (· * ·) 1 →
    linearOf bounds (indicesOf bounds false m) = m ∧
    ∀ order, (indicesOf bounds order m).length = bounds.length ∧
      ∀ d < bounds.length, (indicesOf bounds order m).getD d 0 < bounds.getD d 0

/-- R128, R342, R347: an iteration ends once all five engines have halted and every command has completed: the cell is free, or
reserved for the gang that holds the reservation, and its record has one iteration less running. -/
def IterationsEnd : Prop :=
  ∀ (c : Nat) (s : State) (it : Iter),
    (s.cell c).iter = some it → (∀ e ∈ engines, (s.eng c e).halted = true) → (s.cell c).drained = true →
    (s.cell c).frozen = none →
    ∃ t, exec (.iterationEnd c) s = .next t ∧ (t.cell c).iter = none ∧ (t.cell c).free = s.tgu.gang.isNone ∧
      (t.cell c).reserved = s.tgu.gang.isSome ∧
      (t.cell c).owner = (s.cell c).owner ∧ (t.cell c).tok = [] ∧ (t.cell c).q = [] ∧ (t.cell c).condq = [] ∧
      (∀ r ∈ s.tgu.recs, it.recId = some r.id → { r with running := r.running - 1 } ∈ t.tgu.recs) ∧
      (∀ k, t.byte k = s.byte k) ∧ ∀ k, k ≠ c → t.cell k = s.cell k

/-- R342, R351, R352, R354: a record whose iterations have all ended is complete: it is let go with state 3 in its status word,
and then the deps of its successors are decremented in their order; with state 4 and the detail and first cause of its fault,
or with state 5 and detail 6 where it was cancelled; a stolen range reports to the device it came from instead. -/
def RecordsComplete : Prop :=
  ∀ (s : State) (r : Rec),
    s.awake = true → r ∈ s.tgu.recs → numbered s → r.issued = true → r.next = r.last → r.running = 0 → r.grants = [] →
    let gone (u : State) : Prop := ∀ q, q ∈ u.tgu.recs ↔ q ∈ s.tgu.recs ∧ q ≠ r
    let status (u : State) (v : Nat) : Prop := ∀ ks, s.tguSpan r.f.asid .atomic (r.va.toNat + 0x28) 4 = .ok ks →
      ∀ k, u.byte k = (s.puts (fullPuts ks (leBytes 4 v))).byte k
    (r.origin = none → r.fail = none → r.cancelled = false → s.barriers = [] →
      ∃ u, exec (.recordComplete r.id) s = .next (r.f.succ.foldl (fun u v => u.decrement r.f.asid v r.va) u) ∧ gone u ∧
        status u 3) ∧
    (∀ d cause, r.origin = none → r.fail = some (d, cause) → r.f.succ = [] → s.barriers = [] →
      ∃ u, exec (.recordComplete r.id) s = .next u ∧ gone u ∧ status u (4 + d * 2 ^ 16 + cause * 2 ^ 24)) ∧
    (r.origin = none → r.fail = none → r.cancelled = true → r.f.succ = [] → s.barriers = [] →
      ∃ u, exec (.recordComplete r.id) s = .next u ∧ gone u ∧ status u 0x60005) ∧
    ∀ dev record, r.origin = some (dev, record) →
      ∃ u, exec (.recordComplete r.id) s = .next u ∧ gone u ∧
        u.tgu.sent = s.tgu.sent ++ [.report dev r.f.asid record r.base (r.fail.map (·.2))] ∧ ∀ k, u.byte k = s.byte k

/-- R341: a decrement takes one from the deps of a successor in local HBM, and a parked successor that reaches zero is ready;
one that finds zero leaves it and posts event 0x0104, and one that cannot reach its word posts 0x0105: off its grid, outside
local HBM, without a translation or a permission, or with an uncorrectable error, which counts as one (R435). -/
def SuccessorsAreDecremented : Prop :=
  ∀ (s : State) (asid : BitVec 14) (va pred : Word),
    (va.toNat % 128 ≠ 0 → s.decrement asid va pred = s.post 0x0105#16 1 0 va.toNat pred.toNat) ∧
    (∀ cause, va.toNat % 128 = 0 → s.tguSpan asid .atomic (va.toNat + 0x24) 4 = .error cause →
      ∃ k, s.decrement asid va pred = (if cause = 0x0D#8 then s.errorAt k else s).post 0x0105#16 1 0 va.toNat pred.toNat) ∧
    ∀ ks : List Nat, numbered s → s.barriers = [] → va.toNat % 128 = 0 → s.tguSpan asid .atomic (va.toNat + 0x24) 4 = .ok ks →
    let deps := leNat (ks.map s.byte)
    ((∃ k ∈ ks, paClass k ≠ 0) → s.decrement asid va pred = s.post 0x0105#16 1 0 va.toNat pred.toNat) ∧
    ((∀ k ∈ ks, paClass k = 0) → deps = 0 →
      let u := s.post 0x0104#16 1 0 va.toNat pred.toNat
      (∀ k, (s.decrement asid va pred).byte k = u.byte k) ∧ (s.decrement asid va pred).mc = u.mc ∧
      ((∀ p ∈ s.tgu.recs, p.f.asid = asid → p.va = va → p.phase ≠ .parked) → s.decrement asid va pred = u)) ∧
    ((∀ k ∈ ks, paClass k = 0) → deps ≠ 0 →
      (∀ k, (s.decrement asid va pred).byte k = (s.puts (fullPuts ks (leBytes 4 (deps - 1)))).byte k) ∧
      (s.decrement asid va pred).mc = s.mc ∧
      ∀ p ∈ s.tgu.recs, p.f.asid = asid → p.va = va → p.phase = .parked → p.origin = none →
        (∀ q ∈ s.tgu.recs, q.f.asid = asid → q.va = va → q = p) →
        (deps = 1 → { p with phase := .ready, since := s.cycle, ready := s.tgu.clock } ∈ (s.decrement asid va pred).tgu.recs) ∧
        (1 < deps → (s.decrement asid va pred).tgu = s.tgu))

/-- R348: while eight walkers hold records and a ready record stands above one of them, a record of the lowest level held,
other than a gang's with the reservation, is given back and is ready again, its position kept. -/
def WalkersGiveBack : Prop :=
  ∀ (s : State) (r : Rec), let held (q : Rec) : Prop := ∃ w, q.phase = .held w
    s.awake = true → numbered s → (∀ q ∈ s.tgu.recs, q.f.prio ≤ 3) →
    (∃ qs : List Rec, qs.length = 8 ∧ qs.Nodup ∧ ∀ q ∈ qs, q ∈ s.tgu.recs ∧ held q) → s.topReady = some r →
    (∃ q ∈ s.tgu.recs, held q ∧ s.tgu.gang ≠ some q.id ∧ s.level q < s.level r) →
    ∃ h t, h ∈ s.tgu.recs ∧ held h ∧ s.tgu.gang ≠ some h.id ∧
      (∀ q ∈ s.tgu.recs, held q → s.tgu.gang ≠ some q.id → s.level h ≤ s.level q) ∧
      exec .walkerGiveBack s = .next t ∧
      { h with phase := .ready, since := s.cycle, ready := s.tgu.clock } ∈ t.tgu.recs ∧
      ∀ q ∈ s.tgu.recs, q.id ≠ h.id → q ∈ t.tgu.recs

/-- R349: time passes to the next moment at which a waiting record rises by one level. -/
def RecordsAge : Prop :=
  ∀ (s : State), s.awake = true → s.tgu.age ≠ 0#64 →
    (∃ r ∈ s.tgu.recs, (r.phase = .ready ∨ ∃ w, r.phase = .held w) ∧ s.level r < 3) →
    ∃ t r, exec .agingStep s = .next t ∧ s.cycle < t.cycle ∧ r ∈ s.tgu.recs ∧ (r.phase = .ready ∨ ∃ w, r.phase = .held w) ∧
      t.level r = s.level r + 1 ∧ t.tgu = s.tgu ∧
      ∀ q ∈ s.tgu.recs, (q.phase = .ready ∨ ∃ w, q.phase = .held w) → t.level q ≤ s.level q + 1

/-- R351, R354: a cancel of a record of this device that has not issued lets it go with state 5 and detail 6; of an issued one it
places nothing more, and tells the devices that stole from it. -/
def RecordsAreCancelled : Prop :=
  ∀ (s : State) (va : Word) (r : Rec), s.open = true → numbered s → r ∈ s.tgu.recs → r.f.asid = s.tgu.cancelAsid → r.va = va →
    r.origin = none → (∀ q ∈ s.tgu.recs, q.f.asid = s.tgu.cancelAsid → q.va = va → q.origin = none → q = r) →
    (r.issued = false → r.f.succ = [] → s.barriers = [] →
      ∃ t, exec (.tguCancel va) s = .next t ∧ (∀ q, q ∈ t.tgu.recs ↔ q ∈ s.tgu.recs ∧ q ≠ r) ∧
        ∀ ks, s.tguSpan r.f.asid .atomic (va.toNat + 0x28) 4 = .ok ks →
          ∀ k, t.byte k = (s.puts (fullPuts ks (leBytes 4 0x60005))).byte k) ∧
    (r.issued = true → ∃ t, exec (.tguCancel va) s = .next t ∧
      { r with cancelled := true, last := r.next, phase := .running, group := none } ∈ t.tgu.recs ∧
      (∀ g ∈ r.grants, .cancel g.dev va ∈ t.tgu.sent) ∧
      ∀ q ∈ s.tgu.recs, q ≠ r → q ∈ t.tgu.recs)

/-- R379, R380: each bit of PREEMPT_REQ places a request on its cell with the greatest step count as its limit; a cell
without an iteration ignores it, and one with a request pending keeps that. Before the device has started the write is dropped
(R428). -/
def RequestsArePlaced : Prop :=
  ∀ (hi : Bool) (v : Word) (s : State), (s.open = false → exec (.preemptReq hi v) s = .next s) ∧
  (s.open = true → ∃ t, exec (.preemptReq hi v) s = .next t ∧ (∀ k, t.byte k = s.byte k) ∧
    ∀ c, let asked := if hi = true then 64 ≤ c ∧ c < 80 ∧ v.getLsbD (c - 64) = true else c < 64 ∧ v.getLsbD c = true
      (asked ∧ (s.cell c).iter ≠ none ∧ (s.cell c).preempt = none →
        ∃ p, t.cell c = { s.cell c with preempt := some p } ∧ p.target = none ∧ p.since = s.cycle ∧ p.timedOut = false ∧
          (∀ e ∈ engines, (s.eng c e).step ≤ p.limit) ∧ ∃ e ∈ engines, (s.eng c e).step = p.limit) ∧
      (¬(asked ∧ (s.cell c).iter ≠ none ∧ (s.cell c).preempt = none) → t.cell c = s.cell c))

/-! ## Stealing (14 R353, R354) -/

/-- R353, R387: an idle walker sends a probe of its own to the next neighbour of its round, and after six refusals waits
TGU_STEAL cycles; no other walker's probe changes. That each walker has its own, and that a probe still out as the next is sent
has been refused, are the model's choices (assumption log 62). -/
def ProbesGoRound : Prop :=
  ∀ (w : Nat) (s : State),
    s.awake = true → s.minimal = false → w < 8 → s.tgu.steal ≠ 0#64 → (∀ q ∈ s.tgu.recs, q.phase ≠ .held w ∧ q.phase ≠ .ready) →
    s.freeCells ≠ [] → (s.tgu.probe w).pauseEnd = none →
    ∃ t, exec (.stealProbe w) s = .next t ∧ t.tgu.recs = s.tgu.recs ∧ (∀ v, v ≠ w → t.tgu.probe v = s.tgu.probe v) ∧
      (∀ d, (s.tgu.probe w).out = none ∧ d = 0 ∨ d < 6 ∧ (∃ p, (s.tgu.probe w).out = some p ∧ d = p + 1) →
        t.tgu.probe w = { out := some d } ∧ t.tgu.sent = s.tgu.sent ++ [.probe (neighbour s.podDev d)]) ∧
      (∀ d, (s.tgu.probe w).out = some d → 5 ≤ d →
        t.tgu.probe w = { pauseEnd := some (s.cycle + s.tgu.steal.toNat) } ∧ t.tgu.sent = s.tgu.sent)

/-- R387: the neighbours of a device lie one step along each axis of the torus of its coordinates. -/
def NeighboursOnTheTorus : Prop :=
  ∀ (n : BitVec 6) (d : Nat), d < 6 →
    let m := neighbour n d
    let step (k : Nat) : Nat := if d = 2 * k then 1 else if d = 2 * k + 1 then 3 else 0
    m.toNat % 4 = (n.toNat % 4 + step 0) % 4 ∧ m.toNat / 4 % 4 = (n.toNat / 4 % 4 + step 1) % 4 ∧
    m.toNat / 16 = (n.toNat / 16 + step 2) % 4

/-- R353: a pause that has run its time ends, and its walker may probe again; every other probe stays. -/
def PausesEnd : Prop :=
  ∀ (s : State), tabWf {} s.tgu.probes = true →
    ∃ t, exec .stealPauseExpire s = .next t ∧ t.tgu.recs = s.tgu.recs ∧
      ∀ w, t.tgu.probe w = if ∃ x, (s.tgu.probe w).pauseEnd = some x ∧ x ≤ s.cycle then {} else s.tgu.probe w

/-- R353: a neighbour's probe is answered with the last floor(u ÷ 2) of the u unplaced positions of the best stealable record,
whose fields and bounds go with them (R354); without one it is refused, and nothing changes. -/
def ProbesAreAnswered : Prop :=
  ∀ (dev : BitVec 6) (s : State), s.awake = true → s.minimal = false → dev ∈ neighbours s.podDev →
    ((∀ q ∈ s.tgu.recs, s.stealableRec q = false) → exec (.stealAnswer dev) s = .next s) ∧
    ∀ r, numbered s → r ∈ s.tgu.recs → s.stealableRec r = true → (∀ q ∈ s.tgu.recs, s.stealableRec q = true → q = r ∨ s.level q < s.level r) →
      ∃ t, exec (.stealAnswer dev) s = .next t ∧ (∀ q ∈ s.tgu.recs, q.id ≠ r.id → q ∈ t.tgu.recs) ∧
        { r with last := r.last - (r.last - r.next) / 2
                 grants := r.grants ++ [{ dev := dev, first := r.last - (r.last - r.next) / 2, count := (r.last - r.next) / 2 }] }
          ∈ t.tgu.recs ∧
        t.tgu.sent = s.tgu.sent ++ [.grant dev r.va r.f r.bounds (r.last - (r.last - r.next) / 2) ((r.last - r.next) / 2)]

/-- R354: a grant that answers a walker's probe (the lowest-numbered one that has a probe out to that device, by the model's
choice: assumption log 62) makes a record of its own at the thief, ready with the granted positions, and the
probe is over; a report at the origin ends its grant, and a fault that it carries is the record's, with detail 7 and the first
cause (R352). -/
def GrantsAndReports : Prop :=
  (∀ (g : Grant) (s : State) (w : Nat) (f : RecFields), s.awake = true → s.probing g.dev = some w → parseRecord g.asid g.fields = .ok f →
    (∀ r ∈ s.tgu.recs, r.id < s.tgu.nextId) →
    ∃ t r, exec (.stealGrant g) s = .next t ∧ t.tgu.recs = s.tgu.recs ++ [r] ∧ r.va = g.record ∧ r.f = f ∧ r.phase = .ready ∧
      r.issued = true ∧ r.bounds = g.bounds ∧ r.next = g.first ∧ r.last = g.first + g.count ∧
      r.origin = some (g.dev, g.record) ∧ r.base = g.first ∧ t.tgu.probe w = {} ∧ ∀ v, v ≠ w → t.tgu.probe v = s.tgu.probe v) ∧
  ∀ (dev : BitVec 6) (record : Word) (first : Nat) (fault : Option (BitVec 8)) (s : State) (r : Rec),
    numbered s → r ∈ s.tgu.recs → r.va = record → (∃ g ∈ r.grants, g.dev = dev ∧ g.first = first) →
    (∀ q ∈ s.tgu.recs, q.f.asid = r.f.asid → q.va = record → (∃ g ∈ q.grants, g.dev = dev ∧ g.first = first) → q = r) →
    ∃ t r', exec (.stealReport dev record { asid := r.f.asid, first, fault }) s = .next t ∧ r' ∈ t.tgu.recs ∧ r'.id = r.id ∧
      (∀ g, g ∈ r'.grants ↔ g ∈ r.grants ∧ ¬(g.dev = dev ∧ g.first = first)) ∧ r'.next = r.next ∧
      (fault = none → r'.last = r.last ∧ r'.fail = r.fail) ∧
      ∀ c, fault = some c → r'.last = r.next ∧
        r'.fail = if r.fail.isSome = true ∨ r.cancelled = true then r.fail else some (7, c.toNat)

end Sys2Proof.Claims

/-! ## Events of cells and of the task graph unit -/

/-- R25, R206, R362–R368, R381, R382: the events of a cell that no instruction makes, and where each completes: queueTimeout,
deferredTrap, ckptTimeout, preemptQuiesce, pageWalk. The two events of a CKPT_TIMEOUT are the model's choice (assumption log 21). -/
def Obligations.CellEventsComplete : Prop :=
  QueueStallsTimeOut ∧ DeferredFaultsAreRaised ∧ CheckpointsTimeOut ∧ QuiescentCellsFreeze ∧ WalksFillTheCaches

/-- R339–R349: records from the launch queue to issue, placement and the start and end of their iterations, and where each event
of that course completes: lqTail, tguTakeEntry, recordIssue, cellAssign, iterationStart, iterationEnd, recordComplete. -/
def Obligations.RecordsRunTheirIterations : Prop :=
  TailsMoveForward ∧ EntriesAreTaken ∧ RecordsIssue ∧ PositionsArePlaced ∧ IterationsStart ∧ LinearNumbersFollowTheOrder ∧
  IterationsEnd ∧ RecordsComplete ∧ SuccessorsAreDecremented

/-- R348, R349, R351, R353, R354, R379, R380, R387: giving back, aging, cancelling, stealing, and requests of pre-emption, and
where each of these events completes: walkerGiveBack, agingStep, tguCancel, preemptReq, stealProbe, stealPauseExpire,
stealAnswer, stealGrant, stealReport. Which probes are refused, and which walker a grant goes to, are the model's choices
(assumption log 62). -/
def Obligations.RecordsAreManaged : Prop :=
  WalkersGiveBack ∧ RecordsAge ∧ RecordsAreCancelled ∧ RequestsArePlaced ∧ ProbesGoRound ∧ NeighboursOnTheTorus ∧ PausesEnd ∧ ProbesAreAnswered ∧
  GrantsAndReports

namespace Sys2Proof.Claims

/-! ## Events of the fabric (16 R390–R413) -/

/-- A request from another device asks for some bytes: their keys. -/
def asked (pa n : Nat) : List Nat := (List.range n).map (pa + ·)

/-- What a plain request does at home: a read answers with the bytes, a write stores them, an atomic of AMO.ADD answers with
the old value, and a flag goes up by one (R390, R393, R406). -/
def servedPlainly (s t : State) (pa : Nat) : ReqKind → Prop
  | .read n => t.reply = { ok := true, data := (asked pa n).map s.byte } ∧ ∀ k, t.byte k = s.byte k
  | .write bs => t.reply.ok = true ∧ ∀ k, t.byte k = (s.puts (fullPuts (asked pa bs.length) bs)).byte k
  | .atomic op dbl b c =>
      let ks := asked pa (if dbl then 8 else 4)
      let old := leNat (ks.map s.byte)
      t.reply = { ok := true, data := leBytes 8 old } ∧
        ∀ k, t.byte k = (s.puts (fullPuts ks (atomicBytes op dbl old b c))).byte k
  | .flag =>
      let ks := asked pa 8
      t.reply.ok = true ∧
        ∀ k, t.byte k = (s.puts (fullPuts ks (leBytes 8 ((leNat (ks.map s.byte) + 1) % 2 ^ 64)))).byte k
  | _ => True

/-- A request that returns bytes meets no release whose engine has older accesses in a queue: those would be performed first
(R302–R305). -/
def servedAlone (s : State) (kind : ReqKind) (ks : List Nat) : Prop :=
  match kind with
  | .read _ | .atomic .. => noDebts s ks
  | _ => True

/-- The bytes of a request. -/
def requestLength : ReqKind → Nat
  | .read n => n
  | .write bs => bs.length
  | .atomic _ dbl _ _ => if dbl then 8 else 4
  | .flag => 8
  | _ => 1

/-- Loads, stores, atomics and flags, as against barrier operations. -/
def plainRequest : ReqKind → Prop
  | .read _ | .write _ | .atomic .. | .flag => True
  | _ => False

/-- What is asked of the pool's allocator, not of a device. -/
def poolRequest : ReqKind → Prop
  | .poolAlloc .. | .poolFree => True
  | _ => False

/-- R390, R401: a device that is not in service answers a peer with POOL_LOST; a request whose context entry here is not valid,
pod-wide and of the tenant carried, or whose slice belongs to another context, with PERM; one for a region whose token another device
holds with OWN_MISS; and nothing is written. Every other access is performed. An access of another device to a third one's memory
changes what this device reads there, once its target has taken it (R392): that such an access comes as a PEER_ACCESS is the
model's choice (assumption log 145). -/
def PeerAccessesAreServed : Prop :=
  ∀ (r : PeerReq) (s : State), let ks := asked r.pa (requestLength r.kind)
    (poolRequest r.kind → exec (.peerAccess r) s = .next s) ∧
    (¬ poolRequest r.kind → s.minimal = true ∨ s.open = false ∨ s.mc.power = .standby →
      exec (.peerAccess r) s = .next { s with reply := { ok := false, cause := 0x0A#8 } }) ∧
    (s.minimal = false → s.open = true → s.mc.power ≠ .standby → plainRequest r.kind → paClass r.pa = 2 ∨ paClass r.pa = 3 →
      (∀ k ∈ ks, paClass k = paClass r.pa ∧ paOk false k = true ∧ k / 2 ^ 40 % 64 ≠ s.podDev.toNat ∧
        tabGet false s.fab.out (k / 2 ^ 40 % 64) = false ∧ s.tokenElsewhere r.dev k = false) → s.barriers = [] → s.ecc = [] →
      servedAlone s r.kind ks →
      ∃ t, exec (.peerAccess r) s = .next t ∧ servedPlainly s t r.pa r.kind ∧ t.cells = s.cells) ∧
    (s.minimal = false → s.open = true → s.mc.power ≠ .standby → plainRequest r.kind → paClass r.pa ≠ 2 → paClass r.pa ≠ 3 →
      ((∀ x, s.ctx r.asid = some x → ¬(x.podWide = true ∧ x.tenant = r.tenant)) →
        exec (.peerAccess r) s = .next { s with reply := { ok := false, cause := 0x05#8 } }) ∧
      ∀ x, s.ctx r.asid = some x → x.podWide = true → x.tenant = r.tenant →
        ((∃ k ∈ ks, paClass k = 1 ∧ (s.cell (k / 0x800000 % 128)).owner ≠ some r.asid) →
          exec (.peerAccess r) s = .next { s with reply := { ok := false, cause := 0x05#8 } }) ∧
        ((∀ k ∈ ks, paClass k = 0 ∧ paOk false k = true) → (∃ k ∈ ks, s.tokenElsewhere r.dev k = true) →
          exec (.peerAccess r) s = .next { s with reply := { ok := false, cause := 0x0B#8 } }) ∧
        ((∀ k ∈ ks, paOk false k = true ∧ ((paClass k = 0 ∧ s.tokenElsewhere r.dev k = false) ∨
            (paClass k = 1 ∧ s.homeCheck r.asid k = none))) → s.barriers = [] → s.ecc = [] → servedAlone s r.kind ks →
          ∃ t, exec (.peerAccess r) s = .next t ∧ servedPlainly s t r.pa r.kind ∧ t.cells = s.cells))

/-- R396, R397: the pool's allocator answers another device's requests as it answers this one's. Which free range of the
switch an allocation takes is free (log 14). -/
def OthersAllocate : Prop :=
  ∀ (dev : BitVec 6) (tenant : BitVec 12) (pa size : Nat) (mir : Bool) (pref : Option (BitVec 3)) (s : State),
    let n := size / 0x200000
    let badSize := size = 0 ∨ size % 0x200000 ≠ 0 ∨ 2 ^ 39 < size
    let beyond := tabGet 0 s.pool.quota tenant.toNat < s.pool.usedBy tenant + size * (if mir = true then 2 else 1)
    let offered (sw g : Nat) : Prop := sw < 8 ∧ s.switch sw = .healthy ∧ g + n ≤ mereGranules ∧ s.pool.rangeFree sw g n = true ∧
      (mir = true → s.switch (sw ^^^ 4) = .healthy ∧ s.pool.rangeFree (sw ^^^ 4) g n = true)
    let ask (kind : ReqKind) : Instr := .poolAccess { dev, tenant, pa, kind }
    (badSize → exec (ask (.poolAlloc size mir pref)) s = .next { s with reply := { ok := true, data := leBytes 8 3 } }) ∧
    (¬ badSize → beyond → exec (ask (.poolAlloc size mir pref)) s = .next { s with reply := { ok := true, data := leBytes 8 1 } }) ∧
    (¬ badSize → ¬ beyond → (∃ sw g, offered sw g) →
      ∃ sw g t, exec (ask (.poolAlloc size mir pref)) s = .next t ∧ offered sw g ∧ t.cells = s.cells ∧
        t.reply = { ok := true, data := leBytes 8 (0x01FFF00000000000 + sw * 2 ^ 39 + g * 0x200000) } ∧
        t.pool.regions = s.pool.regions ++ [{ base := mereKey sw (g * 0x200000), size := size, tenant := tenant, mirror := mir }]) ∧
    ((∀ r ∈ s.pool.regions, ¬(r.base = pa ∧ r.tenant = tenant)) →
      exec (ask .poolFree) s = .next { s with reply := { ok := true, data := leBytes 8 5 } }) ∧
    ∀ r ∈ s.pool.regions, r.base = pa → r.tenant = tenant → (∀ q ∈ s.pool.regions, q.base = pa → q = r) →
      (r.lost = false → s.revokeWaits r = false) →
      ∃ t, exec (ask .poolFree) s = .next t ∧ t.reply = { ok := true, data := leBytes 8 0 } ∧
        (unqueued s (r.has · = true) → t.cells = s.cells) ∧
        t.pool.regions = s.pool.regions.filter (fun q => q.base != pa) ∧
        (∀ i < r.size / 0x200000, t.ownState (r.base / 0x200000 + i) ≠ .held) ∧
        (tabWf none s.own.cache = true → r.lost = false → unqueued s (r.has · = true) → ∀ j, t.byte j = s.byte j)

/-- R393, R401, R403: a switch performs an access to a granule of the requester's tenant, and otherwise writes nothing and
answers PERM, POOL_LOST for a lost region, or OWN_MISS where another device holds the token. -/
def PoolAccessesAreServed : Prop :=
  ∀ (r : PoolReq) (s : State), let pa := s.mirrorKey r.pa
    let ks := asked pa (requestLength r.kind)
    plainRequest r.kind → requestLength r.kind ≠ 0 → (∀ k ∈ ks, paClass k = 4 ∧ paOk false k = true) →
    ((∀ k ∈ ks, s.regionAt k = none) → (∀ k ∈ ks, s.switch (switchOf k) ≠ .failed) →
      exec (.poolAccess r) s = .next { s with reply := { ok := false, cause := 0x05#8 } }) ∧
    ∀ g, (∀ k ∈ ks, s.regionAt k = some g) →
      (g.tenant ≠ r.tenant → exec (.poolAccess r) s = .next { s with reply := { ok := false, cause := 0x05#8 } }) ∧
      (g.tenant = r.tenant → g.lost = true →
        exec (.poolAccess r) s = .next { s with reply := { ok := false, cause := 0x0A#8 } }) ∧
      (g.tenant = r.tenant → g.lost = false → (∃ k ∈ ks, s.tokenElsewhere r.dev k = true) →
        exec (.poolAccess r) s = .next { s with reply := { ok := false, cause := 0x0B#8 } }) ∧
      (g.tenant = r.tenant → g.lost = false → (∀ k ∈ ks, s.tokenElsewhere r.dev k = false) → s.barriers = [] → s.ecc = [] →
        servedAlone s r.kind ks →
        ∃ t, exec (.poolAccess r) s = .next t ∧ servedPlainly s t pa r.kind ∧ t.cells = s.cells)

/-- R402: a revocation of a token that this device holds, with no access to the region outstanding, writes the modified bytes
back, drops the copy and leaves the state revoked; no byte reads otherwise. That another holder's write-back arrives as that
device's accesses is the model's choice (assumption log 6). -/
def TokensAreRevoked : Prop :=
  ∀ (region : Nat) (dev : BitVec 6) (s : State), s.ownState region = .held → s.touchesRegion region = false →
    ∃ t, exec (.ownRevoke region dev) s = .next t ∧ t.ownState region = .revoked ∧ tabGet none t.own.holder region = some dev ∧
      (∀ k, regionOf k = region → tabGet none t.own.cache k = none) ∧ (∀ r, r ≠ region → t.ownState r = s.ownState r) ∧
      (tabWf none s.own.cache = true → ∀ k, t.byte k = s.byte k) ∧ t.cells = s.cells

/-- R400, R402: the home of a region, this device for its HBM, and a peer or the pool in service for theirs, grants another device
the token, takes it back from its holder alone, and reports it; a token that this device holds is revoked first. Where a third
device holds a token of this device's HBM, this home revokes it and keeps the acquire waiting; the release of the holder then
passes the token on. Every answer that waits for no other device comes in the step of its request, by the model's choice
(assumption logs 6 and 49). -/
def HomesAnswerRequests : Prop :=
  ∀ (dev : BitVec 6) (region : Nat) (s : State),
    (paClass (region * 0x200000) = 0 ∧ paOk false (region * 0x200000) = true ∧ s.open = true ∧ s.mc.power ≠ .standby) ∨
      s.homeElsewhere (region * 0x200000) = true →
    s.minimal = false → dev ≠ s.podDev → s.touchesRegion region = false →
    let home : Prop := paClass (region * 0x200000) = 0
    let holder := tabGet none s.own.holder region
    let waiting := tabGet [] s.own.waiting region
    (home → ∀ d, holder = some d → d ≠ dev → d ≠ s.podDev → dev ∉ waiting →
      ∃ t, exec (.ownershipRequest dev region .acq) s = .next t ∧ t.reply = s.reply ∧
        tabGet none t.own.holder region = some d ∧ tabGet [] t.own.waiting region = waiting ++ [dev] ∧
        t.own.sent = (if waiting = [] then s.own.sent ++ [.revoke d region] else s.own.sent) ∧ ∀ k, t.byte k = s.byte k) ∧
    (home → holder = some dev → ∀ d rest, waiting = d :: rest →
      ∃ t, exec (.ownershipRequest dev region .rel) s = .next t ∧ t.reply = { ok := true, data := [0#8] } ∧
        tabGet none t.own.holder region = some d ∧ tabGet [] t.own.waiting region = rest ∧
        t.own.sent = s.own.sent ++ .grant d region :: (if rest = [] then [] else [.revoke d region])) ∧
    ((home → ∀ d, holder = some d → d = dev ∨ d = s.podDev) → ∃ t, exec (.ownershipRequest dev region .acq) s = .next t ∧ tabGet none t.own.holder region = some dev ∧
      (s.ownState region = .held → t.ownState region = .revoked) ∧
      t.reply = { ok := true, data := [0#8] } ∧ (tabWf none s.own.cache = true → ∀ k, t.byte k = s.byte k)) ∧
    (tabGet none s.own.holder region = some dev → (home → waiting = []) → ∃ t, exec (.ownershipRequest dev region .rel) s = .next t ∧
      tabGet none t.own.holder region = none ∧ t.reply = { ok := true, data := [0#8] }) ∧
    (tabGet none s.own.holder region ≠ some dev →
      exec (.ownershipRequest dev region .rel) s = .next { s with reply := { ok := true, data := [7#8] } }) ∧
    exec (.ownershipRequest dev region .test) s = .next { s with reply := { ok := true, data :=
      [0#8, (match tabGet none s.own.holder region with | some d => d.setWidth 8 | none => 0xFF#8)] } }

/-- R403, R404: a switch that fails loses every region whose last sound copy lay on it, posts event 0x0501; a repaired one
rebuilds, and is healthy once rebuilt. -/
def SwitchesFailAndReturn : Prop :=
  ∀ (n : BitVec 3) (s : State), let k := n.toNat
    (s.switch k ≠ .failed → s.switch k ≠ .absent →
      ∃ t, exec (.switchFail n) s = .next t ∧ t.switch k = .failed ∧ (∀ m, m ≠ k → t.switch m = s.switch m) ∧
        t.pool.regions.length = s.pool.regions.length ∧
        (∀ r ∈ s.pool.regions, r.lost = false → r.mirror = false → switchOf r.base = k → { r with lost := true } ∈ t.pool.regions) ∧
        (∀ r ∈ s.pool.regions, r.lost = false → r.mirror = true → switchOf r.base = k ∨ switchOf r.base ^^^ 4 = k →
          s.switch (k ^^^ 4) = .healthy → r ∈ t.pool.regions) ∧
        (s.mc.evqSize = 0#64 → s.mc.heldEvents.length < 256 → ∃ v, t.mc.heldEvents = s.mc.heldEvents ++ [v] ∧
          v.code = 0x0501#16 ∧ v.src = 5 ∧ v.d0 = n.setWidth 64)) ∧
    (s.switch k = .failed → ∃ t, exec (.switchRepair n) s = .next t ∧ t.switch k = .rebuilding ∧ t.pool.regions = s.pool.regions ∧
      ∀ j, t.byte j = s.byte j) ∧
    (s.switch k = .rebuilding → ∃ t, exec (.switchRebuildDone n) s = .next t ∧ t.switch k = .healthy ∧
      t.pool.regions = s.pool.regions ∧ ∀ j, t.byte j = s.byte j)

/-- R354, R390: a peer that leaves the pod's service answers nothing, and a record with a grant to it fails with detail 7 and
POOL_LOST; a peer that returns answers again. -/
def PeersComeAndGo : Prop :=
  ∀ (dev : BitVec 6) (s : State),
    (dev ≠ s.podDev → ∃ t, exec (.peerLeavesService dev) s = .next t ∧ tabGet false t.fab.out dev.toNat = true ∧
      (∀ r ∈ s.tgu.recs, (∀ g ∈ r.grants, g.dev ≠ dev) → r ∈ t.tgu.recs) ∧
      (∀ r ∈ s.tgu.recs, (∃ g ∈ r.grants, g.dev = dev) → r.fail = none → r.cancelled = false →
        ∃ q ∈ t.tgu.recs, q.id = r.id ∧ q.fail = some (7, 0x0A) ∧ q.last = r.next ∧ q.phase = .running ∧
          ∀ g ∈ q.grants, g.dev ≠ dev) ∧
      (unqueued s (fun k => (paClass k = 2 ∨ paClass k = 3) ∧ peerOf k = dev.toNat) → ∀ k, t.byte k = s.byte k)) ∧
    ∃ t, exec (.peerReturnsToService dev) s = .next t ∧ tabGet false t.fab.out dev.toNat = false ∧ t.tgu = s.tgu ∧
      ∀ k, t.byte k = s.byte k

/-- R406, R409: with every data byte performed, the flag of a cell's oldest notifying store goes up by one; where its target
refuses it, or it lies in a barrier object made live since (R286), or has an uncorrectable error (R435), W has a deferred fault,
and the flag stays. The address that such a fault names is the model's choice (assumption log 42). -/
def FlagsAreRaised : Prop :=
  ∀ (c : Nat) (s : State) (f : Stf) (rest : List Stf),
    (s.cell c).stfs = f :: rest → f.issuing = false → (∀ q ∈ (s.cell c).engW.queue, f.stamp ≤ q.id) →
    (f.bad = none → (∀ k ∈ f.flag, s.homeCheck f.asid k = none) → s.barriers = [] → (∀ k ∈ f.flag, s.bad k = false) →
      ∃ t, exec (.stfFlagUpdate c) s = .next t ∧ (t.cell c).stfs = rest ∧
        ∀ k, t.byte k = (s.puts (fullPuts f.flag (leBytes 8 ((leNat (f.flag.map s.byte) + 1) % 2 ^ 64)))).byte k) ∧
    (∀ a x, f.bad = some (a, x) →
      ∃ t, exec (.stfFlagUpdate c) s = .next t ∧ (t.cell c).stfs = rest ∧
        (t.cell c).engW.deferred = (s.cell c).engW.deferred ++ [{ cause := x, deferred := true, addr := a }] ∧
        ∀ k, t.byte k = s.byte k) ∧
    (f.bad = none → (∃ k ∈ f.flag, s.homeCheck f.asid k ≠ none) →
      ∃ t x, exec (.stfFlagUpdate c) s = .next t ∧ (t.cell c).stfs = rest ∧ (∃ k ∈ f.flag, s.homeCheck f.asid k = some x) ∧
        (t.cell c).engW.deferred = (s.cell c).engW.deferred ++ [{ cause := x, deferred := true, addr := f.flagVa }] ∧
        ∀ k, t.byte k = s.byte k) ∧
    (f.bad = none → (∀ k ∈ f.flag, s.homeCheck f.asid k = none) →
      (s.meetsBarrier (f.flag.filter fun k => decide (paClass k < 2)) = true →
        ∃ t, exec (.stfFlagUpdate c) s = .next t ∧ (t.cell c).stfs = rest ∧
          (t.cell c).engW.deferred = (s.cell c).engW.deferred ++
            [{ cause := 0x09#8, detail := 1, deferred := true, addr := f.flagVa }] ∧ ∀ k, t.byte k = s.byte k) ∧
      (s.barriers = [] → (∃ k ∈ f.flag, s.bad k = true) →
        ∃ t e, exec (.stfFlagUpdate c) s = .next t ∧ (t.cell c).stfs = rest ∧ e.cause = 0x0D#8 ∧ e.deferred = true ∧
          (t.cell c).engW.deferred = (s.cell c).engW.deferred ++ [e] ∧ ∀ k, t.byte k = s.byte k))

/-- R412: the job of a stack that runs first starts, and when it completes each element of the result is the tree sum of its
inputs, where it has read none ahead, and then fval is in the flag. That it completes in one step is the model's choice
(assumption log 53). -/
def JobsRun : Prop :=
  ∀ (st : BitVec 3) (s : State) (j : Job) (rest : List Job), s.awake = true → s.jobs st.toNat = j :: rest →
    (j.started = false → ∃ t, exec (.sreJobStart st) s = .next t ∧ t.jobs st.toNat = { j with started := true } :: rest ∧
      (∀ i, i ≠ st.toNat → t.jobs i = s.jobs i) ∧ ∀ k, t.byte k = s.byte k) ∧
    (j.started = true → j.ahead = [] → s.ecc = [] → s.barriers = [] →
      ∃ t ps, exec (.sreJobComplete st) s = .next t ∧ t.jobs st.toNat = rest ∧
        ps = (List.range (j.length / 4)).flatMap (fun e => fullPuts (s.jobKeys j j.dest e) (leBytes 4
          ((treeSum (j.bufs.map fun b => BitVec.ofNat 32 (leNat ((s.jobKeys j b e).map s.byte)))).getD nan32).toNat)) ∧
        ∀ k, t.byte k = ((s.puts ps).puts (fullPuts j.flag (leBytes 8 j.fval.toNat))).byte k)

/-- R408, R428: DFREEZE takes its ASID and its enable bit, of a device that is open to the host. -/
def DispatchIsFrozen : Prop :=
  ∀ (v : Word) (s : State),
    (s.open = true → exec (.dfreeze v) s =
      .next { s with fab := { s.fab with asid := v.setWidth 14, en := v.getLsbD 16 } }) ∧
    (s.open = false → exec (.dfreeze v) s = .next s)

/-! ## The host link and the management controller (16 R414–R416; 18 R427–R443) -/

/-- R415, R428: an MMIO access that is not 4 or 8 aligned bytes answers with an error and does nothing; until the start is
done every block but the management block reads all ones and drops writes; others read and write their registers, and the
supervisor memories' window those memories. BAR 2 reads and writes local HBM; a read that meets a release finds what precedes
that performed (R302), and where nothing waits it reads what memory holds. -/
def HostAccessesAreAnswered : Prop :=
  ∀ (s : State) (off : Nat) (bs : List Byte) (len : Nat),
    let aligned (n : Nat) : Prop := (n = 4 ∨ n = 8) ∧ off % n = 0 ∧ off + n ≤ 2 ^ 26
    let inside : Prop := 0x1000000 ≤ off ∧ off < 0x1000000 + 80 * 0x40000
    (aligned len → s.open = true → inside → s.ecc = [] →
      exec (.hostBarRead 0 off len) s = .next { s with reply :=
        { ok := true, data := (asked (8 * 2 ^ 52 + off) len).map s.byte } }) ∧
    (aligned bs.length → s.open = true → inside → (∀ k, tabGet none s.own.cache k = none) → s.held (8 * 2 ^ 52 + off) = false →
      ∃ t, exec (.hostBarWrite 0 off bs) s = .next t ∧ t.reply = { ok := true } ∧ t.cells = s.cells ∧
        (∀ i < bs.length, t.byte (8 * 2 ^ 52 + off + i) = bs.getD i 0#8) ∧
        ∀ k, ¬(8 * 2 ^ 52 + off ≤ k ∧ k < 8 * 2 ^ 52 + off + bs.length) → t.byte k = s.byte k) ∧
    (¬ aligned len → exec (.hostBarRead 0 off len) s = .next { s with reply := { ok := false } }) ∧
    (¬ aligned bs.length → exec (.hostBarWrite 0 off bs) s = .next { s with reply := { ok := false } }) ∧
    (aligned len → s.open = false → off < 0x3000000 →
      exec (.hostBarRead 0 off len) s = .next { s with reply := { ok := true, data := List.replicate len 0xFF#8 } }) ∧
    (aligned bs.length → s.open = false → off < 0x3000000 →
      exec (.hostBarWrite 0 off bs) s = .next { s with reply := { ok := true } }) ∧
    (aligned len → s.open = true ∨ 0x3000000 ≤ off → ¬(0x1000000 ≤ off ∧ off < 0x1000000 + 80 * 0x40000) →
      exec (.hostBarRead 0 off len) s = .next { s with reply := { ok := true, data :=
        ((leBytes 8 (s.regRead (off / 8 * 8)).toNat).drop (off % 8)).take len } }) ∧
    (bs.length = 8 → off % 8 = 0 → off + 8 ≤ 2 ^ 26 → s.open = true ∨ 0x3000000 ≤ off →
      ¬(0x1000000 ≤ off ∧ off < 0x1000000 + 80 * 0x40000) →
      exec (.hostBarWrite 0 off bs) s = .next { s.regWrite off (BitVec.ofNat 64 (leNat bs)) with reply := { ok := true } }) ∧
    (s.open = true → s.minimal = false → off + len ≤ 2 ^ 39 → (∀ i < len, s.foreign (off + i) = false) → s.ecc = [] →
      noDebts s (asked off len) →
      exec (.hostBarRead 2 off len) s = .next { s with reply := { ok := true, data := (asked off len).map s.view } }) ∧
    (s.open = true → s.minimal = false → off + bs.length ≤ 2 ^ 39 → (∀ i < bs.length, s.foreign (off + i) = false) → s.barriers = [] →
      ∃ t, exec (.hostBarWrite 2 off bs) s = .next t ∧ t.reply = { ok := true } ∧ t.cells = s.cells ∧
        ∀ k, t.byte k = (s.puts (fullPuts (asked off bs.length) bs)).byte k)

/-- R338, R360, R408, R427, R437, R442: what a host write leaves in a register with no row of its own, and in EVQ_HEAD and
PWR_LIMIT. -/
def RegistersAreWritten : Prop :=
  ∀ (v : Word) (s : State),
    (s.open = true → exec (.registerWrite 0x200 v) s = .next { s with tgu := { s.tgu with age := v } } ∧
      exec (.registerWrite 0x208 v) s = .next { s with tgu := { s.tgu with steal := v } } ∧
      (v.toNat < 2 ^ 36 → v.toNat % 0x10000 = 0 → exec (.registerWrite 0x10000 v) s = .next { s with ctxBase := v })) ∧
    exec (.registerWrite 0x3000098 v) s = .next { s with mc := { s.mc with recArg := v } } ∧
    (v - s.mc.evqHead ≤ s.mc.evqTail - s.mc.evqHead → exec (.evqHead v) s = .next { s with mc := { s.mc with evqHead := v } }) ∧
    (s.mc.evqTail - s.mc.evqHead < v - s.mc.evqHead → exec (.evqHead v) s = .next s) ∧
    exec (.pwrLimit v) s = .next { s with mc := { s.mc with pwrLimit := BitVec.ofNat 16 (min (v.toNat % 65536) 2400) } }

/-- R428–R431: a start whose steps all pass reaches state 1 with image set A, its fails cleared; a first failing step ends the
start with its cause and detail in the log, and with image set B halts the device. Minimal mode takes the first stack that
trains of the first half that passes, and its first eight cells that pass (R431). A device without power does not start (R442).
A sensor at 105 °C trips it during the start (R442). The model's choices: of several failures the first is reported, and the
detail in state 3 (assumption log 61), and a START without power does nothing (log 143). -/
def StartsSucceedOrFail : Prop :=
  ∀ (f : StartFacts) (s : State), s.mc.state = 0#4 →
    (s.mc.power = .off → exec (.start f) s = .next s) ∧
    (s.mc.power ≠ .off →
    (s.flash.fails.toNat < 3 → s.mc.minimalAsked = false →
      (∀ x, f.rail = some x → ∃ t, exec (.start f) s = .next t ∧ t.mc.state = 0#4 ∧ t.flash.bootLog.toNat % 2 ^ 16 = 0x100 + x.toNat ∧
        t.flash.bootLog.toNat / 2 ^ 16 = s.flash.bootLog.toNat % 2 ^ 32 ∧
        t.flash.fails.toNat = min 255 (s.flash.fails.toNat + 1)) ∧
      (∀ m, checkSet s.flash.rollback s.flash.setA = .ok m → f.rail = none → f.mcSram = false → f.flashSector = none →
        (∀ k < 8, f.hbmStacks.contains k = false) → f.syncSram = none → f.sensor = none → f.failedCells = [] → s.flash.marks = [] →
        ∃ t, exec (.start f) s = .next t ∧ t.mc.state = 1#4 ∧ t.mc.set = false ∧ t.flash.fails = 0#8 ∧ t.mc.spares = 0#64 ∧
          t.mc.rsvSync = 64#64 ∧ t.fab.ports = f.ports ∧ t.flash.setA = s.flash.setA) ∧
      (∀ m x, checkSet s.flash.rollback s.flash.setA = .ok m → f.rail = none → f.mcSram = false → f.flashSector = none →
        (∀ k < 8, f.hbmStacks.contains k = false) → f.syncSram = none → f.sensor = some x → f.failedCells = [] → s.flash.marks = [] →
        ∃ t, exec (.start f) s = .next t ∧ t.mc.state = 0#4 ∧ t.mc.power = .off ∧ t.mc.tripped = true ∧
          t.flash.bootLog.toNat % 2 ^ 16 = 0xA00 + x.toNat)) ∧
    (3 ≤ s.flash.fails.toNat ∨ s.mc.minimalAsked = true →
      (∀ x, f.rail = some x → ∃ t, exec (.start f) s = .next t ∧ t.mc.state = 3#4 ∧
        t.flash.bootLog.toNat % 2 ^ 16 = 0x100 + x.toNat) ∧
      (∀ m, checkSet s.flash.rollback s.flash.setB = .ok m → f.rail = none → f.mcSram = false → f.flashSector = none →
        f.syncSram = none → f.sensor = none → f.failedCells = [] → s.flash.marks = [] →
        (∀ k < 4, f.hbmStacks.contains k = false → (∀ j < k, f.hbmStacks.contains j = true) →
          ∃ t, exec (.start f) s = .next t ∧ t.mc.state = 2#4 ∧ t.mc.set = true ∧ t.mc.rsvSync = 64#64 ∧ t.fab.ports = 0#20 ∧
            t.mc.half = false ∧ t.mc.stack = k ∧ t.mc.cellMap = [0, 1, 2, 3, 4, 5, 6, 7]) ∧
        ((∀ k < 4, f.hbmStacks.contains k = true) →
          ∃ t, exec (.start f) s = .next t ∧ t.mc.state = 3#4 ∧ t.flash.bootLog.toNat % 2 ^ 16 = 0x700))) ∧
    ∀ x, ∃ t, exec (.startTimeout x) s = .next t ∧ t.flash.bootLog.toNat % 2 ^ 16 = 0x0B00 + x.toNat)

/-- The device's own bytes read as at power-on, and those of its peers and the switches as before (R440, log 1). -/
def lost (s t : State) : Prop :=
  (∀ k, paClass k < 2 → tabGet 0#8 t.mem k = 0#8) ∧
  ∀ k, paClass k = 2 ∨ paClass k = 3 ∨ paClass k = 4 → tabGet 0#8 t.mem k = tabGet 0#8 s.mem k

/-- R427, R431, R440, R442: BOOT_CTL restarts the device, which keeps its flash, or asks for minimal mode; after a thermal
trip a restart of a hot package is refused with status 5; the reset pin and a loss of the supply leave the flash alone. -/
def RestartsKeepTheFlash : Prop :=
  ∀ (s : State),
    (s.mc.tripped = true → 8500 ≤ s.mc.packageTemp →
      exec .bootRestart s = .next { s with mc := { s.mc with pwrStatus := 5#8 } }) ∧
    (s.mc.tripped = false ∨ s.mc.packageTemp < 8500 → ∃ t, exec .bootRestart s = .next t ∧ t.mc.state = 0#4 ∧
      t.mc.minimalAsked = false ∧ t.flash = s.flash ∧ t.mc.packageTemp = s.mc.packageTemp ∧ t.mc.pwrLimit = s.mc.code.watts ∧ lost s t ∧ t.cells = [] ∧ t.tgu = {}) ∧
    (∃ t, exec .bootRestartMinimal s = .next t ∧ t.mc.state = 0#4 ∧ t.mc.minimalAsked = true ∧ t.flash = s.flash ∧ t.cells = []) ∧
    exec .bootClearFails s = .next { s with flash := { s.flash with fails := 0#8 } } ∧
    (∃ t, exec .resetPinAsserted s = .next t ∧ t.mc.state = 0#4 ∧ t.flash = s.flash ∧ t.cells = [] ∧ t.own.st = []) ∧
    ∃ t, exec .supplyRemoved s = .next t ∧ t.mc.state = 0#4 ∧ t.flash = s.flash ∧ t.cells = [] ∧ lost s t

/-- R432: REC_CMD in states 2 and 3 makes the management controller busy with the command, and is ignored while it is busy;
a command acts once, as the one that it is busy with. That a written command is first taken and then acted on is the model's
choice (assumption log 63). -/
def RecoveryIsBusy : Prop :=
  ∀ (s : State) (v : Word), let done : State := { s with mc := { s.mc with recBusy := none } }
    (s.mc.recBusy ≠ none → exec (.registerWrite 0x3000090 v) s = .next s) ∧
    (s.mc.recBusy = none → s.mc.state = 2#4 ∨ s.mc.state = 3#4 → 1 ≤ v.toNat → v.toNat ≤ 4 →
      exec (.registerWrite 0x3000090 v) s = .next { s with mc := { s.mc with recBusy := some v.toNat } }) ∧
    (s.mc.recBusy = none → s.mc.state ≠ 2#4 → s.mc.state ≠ 3#4 →
      exec (.registerWrite 0x3000090 v) s = .next { s with mc := { s.mc with recCode := 5#8 } }) ∧
    (s.mc.recBusy = some 1 → exec .recBegin s = exec .recBegin done) ∧ (s.mc.recBusy = some 2 → exec .recPiece s = exec .recPiece done) ∧
    (s.mc.recBusy = some 3 → exec .recCommit s = exec .recCommit done) ∧ (s.mc.recBusy = some 4 → exec .recAbort s = exec .recAbort done) ∧
    ∀ n, s.mc.recBusy = some n →
      (n ≠ 1 → exec .recBegin s = .next s) ∧ (n ≠ 2 → exec .recPiece s = .next s) ∧
      (n ≠ 3 → exec .recCommit s = .next s) ∧ (n ≠ 4 → exec .recAbort s = .next s)

/-- R432: recovery commands outside states 2 and 3 give code 5 and do nothing else; within them they open, fill, install and
discard a staged image. Code 6 says that a write of boot flash failed. That a length above the image set's is code 1 is the
model's choice (assumption log 55). -/
def RecoveryStagesAnImage : Prop :=
  ∀ (s : State), s.mc.recBusy = none → let code (n : Nat) : State := { s with mc := { s.mc with recCode := BitVec.ofNat 8 n } }
    let a := s.mc.recArg.toNat
    let off := a % 2 ^ 32
    let len := a / 2 ^ 32 % 2 ^ 16 + 1
    (s.mc.state ≠ 2#4 → s.mc.state ≠ 3#4 → exec .recBegin s = .next (code 5) ∧ exec .recPiece s = .next (code 5) ∧
      exec .recCommit s = .next (code 5) ∧ exec .recAbort s = .next (code 5)) ∧
    (s.mc.state = 2#4 ∨ s.mc.state = 3#4 →
      (a ≤ Config.imageSetSize → ∃ t, exec .recBegin s = .next t ∧ t.mc.stagedLen = some a ∧ t.mc.staged = [] ∧
        t.mc.recCode = 0#8 ∧ t.flash = s.flash) ∧
      (Config.imageSetSize < a → ∃ t, exec .recBegin s = .next t ∧ t.mc.stagedLen = none ∧ t.mc.staged = [] ∧
        t.mc.recCode = 1#8 ∧ t.flash = s.flash) ∧
      (∃ t, exec .recAbort s = .next t ∧ t.mc.stagedLen = none ∧ t.mc.staged = [] ∧ t.mc.recCode = 0#8 ∧ t.flash = s.flash) ∧
      (s.mc.stagedLen = none → exec .recPiece s = .next (code 1) ∧ exec .recCommit s = .next (code 1)) ∧
      ∀ n, s.mc.stagedLen = some n →
        (n < off + len → exec .recPiece s = .next (code 1)) ∧
        (off + len ≤ n → s.mc.flashBad = true → exec .recPiece s = .next (code 6)) ∧
        (off + len ≤ n → s.mc.flashBad = false → ∃ t, exec .recPiece s = .next t ∧ t.mc.recCode = 0#8 ∧ t.flash = s.flash ∧
          ∀ k, tabGet none t.mc.staged k =
            if off ≤ k ∧ k < off + len then some (tabGet 0#8 s.mc.recBuf (k - off)) else tabGet none s.mc.staged k) ∧
        ((∃ k < n, tabGet none s.mc.staged k = none) → exec .recCommit s = .next (code 2)) ∧
        ∀ set m, set.length = n → (∀ k < n, tabGet none s.mc.staged k = some (set.getD k 0#8)) →
          checkSet s.flash.rollback set = .ok m →
          (s.mc.flashBad = true → exec .recCommit s = .next (code 6)) ∧
          (s.mc.flashBad = false →
            exec .recCommit s = .next { s with mc := { s.mc with recCode := 0#8 }, flash := { s.flash with setA := set, fails := 0#8 } }))

/-- R434: an attestation command with its address in local HBM writes the report, or the certificate behind its length, 64
bytes on, and is done; with any other address it is refused and writes nothing. -/
def ReportsAreWritten : Prop :=
  ∀ (s : State), let a := s.mc.attAddr.toNat
    ((¬ a < 2 ^ 39 ∨ s.mc.attStat = 1#2) →
      exec .attReport s = .next { s with mc := { s.mc with attStat := 3#2 } } ∧
      exec .attCert s = .next { s with mc := { s.mc with attStat := 3#2 } }) ∧
    (a < 2 ^ 36 → s.mc.attStat ≠ 1#2 → s.open = true → s.held (a + 64) = false → (∀ k, tabGet none s.own.cache k = none) →
      (∃ (t : State) (bs : List Byte), exec .attReport s = .next t ∧ t.mc.attStat = 2#2 ∧ bs.length = 96 + s.mc.log.flatten.length + 3309 ∧
        bs.take 8 = [0x44#8, 0x4B#8, 0x41#8, 0x54#8, 1#8, 0#8, 0#8, 0#8] ∧
        (∀ i < 32, bs[16 + i]? = some (s.byte (a + i))) ∧
        (∀ i < bs.length, t.byte (a + 64 + i) = bs.getD i 0#8) ∧
        ∀ k, ¬(a + 64 ≤ k ∧ k < a + 64 + bs.length) → t.byte k = s.byte k) ∧
      ∃ t, exec .attCert s = .next t ∧ t.mc.attStat = 2#2 ∧ t.num (a + 64) 8 = Config.certificate.length % 2 ^ 64 ∧
        ∀ i < Config.certificate.length, t.byte (a + 72 + i) = Config.certificate.getD i 0#8)

/-- What forbids a power state (R441): the status of the refusal. -/
def powerForbidden (s : State) (n : Nat) : Option Nat :=
  if ((List.range 8).any fun q => (s.tgu.q q).enabled) || (List.range 80).any (fun c => !(s.cell c).free) then some 1
  else if n < 2 then none
  else if (List.range 8).any fun k => !(s.jobs k).isEmpty then some 2
  else if s.own.st.any (fun e => e.2 == .held) || s.own.holder.any (fun e => e.2.isSome && paClass (e.1 * 0x200000) == 0) then some 3
  else if s.tgu.parked ≠ 0 then some 4
  else none

/-- R441: a request of a power state is granted only under its conditions, and otherwise leaves the state with its status;
standby keeps HBM and loses the cells, the TGU and the ports; off loses the cells and memory and keeps the flash. The barrier
objects of peers' sync engines stay. That standby keeps the count of uncorrectable errors is the model's choice (assumption
log 112). -/
def PowerStatesChange : Prop :=
  ∀ (s : State), s.mc.exiting = false → s.mc.power = .run →
    (∃ t, exec .pwrRun s = .next t ∧ t.mc.power = .run ∧ t.mc.pwrStatus = 0#8 ∧ t.cells = s.cells) ∧
    (∀ x, (powerForbidden s 1 = some x → ∃ t, exec .pwrIdle s = .next t ∧ t.mc.power = .run ∧ t.mc.pwrStatus = BitVec.ofNat 8 x ∧
      t.cells = s.cells) ∧
      (powerForbidden s 2 = some x → ∃ t, exec .pwrStandby s = .next t ∧ t.mc.power = .run ∧ t.mc.pwrStatus = BitVec.ofNat 8 x ∧
        t.cells = s.cells) ∧
      (powerForbidden s 3 = some x → ∃ t, exec .pwrOff s = .next t ∧ t.mc.power = .run ∧ t.mc.pwrStatus = BitVec.ofNat 8 x ∧
        t.cells = s.cells)) ∧
    (powerForbidden s 1 = none → ∃ t, exec .pwrIdle s = .next t ∧ t.mc.power = .idle ∧ t.mc.pwrStatus = 0#8 ∧ t.cells = s.cells ∧
      t.mem = s.mem) ∧
    (powerForbidden s 2 = none → ∃ t, exec .pwrStandby s = .next t ∧ t.mc.power = .standby ∧ t.mc.pwrStatus = 0#8 ∧
      (∀ e ∈ t.cells, e.2 = { uncorr := e.2.uncorr }) ∧
      (∀ e, e ∈ s.cells ∧ e.2.uncorr ≠ 0 → (e.1, { uncorr := e.2.uncorr }) ∈ t.cells) ∧
      t.tgu = {} ∧ t.tlb = [] ∧ (∀ b ∈ t.barriers, outsideKey b.pa = true) ∧ t.fab.ports = 0#20 ∧
      (s.barriers = [] → ∀ k, paClass k = 0 → tabGet 0#8 t.mem k = tabGet 0#8 s.mem k)) ∧
    (powerForbidden s 3 = none → ∃ t, exec .pwrOff s = .next t ∧ t.mc.power = .off ∧ t.mc.pwrStatus = 0#8 ∧ t.cells = [] ∧
      (s.barriers = [] → lost s t) ∧ t.flash = s.flash)

/-- R441: a write of 0 begins the exit from idle or standby, which ends in run; from standby the ports are trained again. -/
def PowerExitsEnd : Prop :=
  ∀ (s : State),
    (s.mc.exiting = false → s.mc.power = .idle ∨ s.mc.power = .standby →
      ∃ t, exec .pwrRun s = .next t ∧ t.mc.exiting = true ∧ t.mc.power = s.mc.power) ∧
    (s.mc.exiting = true → ∃ t, exec .pwrExitDone s = .next t ∧ t.mc.exiting = false ∧ t.mc.power = .run ∧ t.mem = s.mem ∧
      (s.mc.power = .standby → t.fab.ports = s.mc.trained))

/-- R435, R442, R443: at 105 °C the device enters state 3, and in boot state 0 its start has failed with cause 10 (R430); above its limits the clock falls by 25 MHz,
down to 600, and below both it rises to 1,250 at most; telemetry reads the sensors; the scrubber reads the next unit, and an
uncorrectable one counts, and posts event 0x0602. -/
def ManagementSamples : Prop :=
  ∀ (mw die pkg : Nat) (x : BitVec 8) (sensors : List Word) (st : BitVec 3) (s : State), s.mc.power = .run →
    (10500 ≤ die → ∃ t, exec (.powerSample mw die pkg x) s = .next t ∧ t.mc.power = .off ∧ t.mc.tripped = true ∧ t.cells = [] ∧
      t.mc.packageTemp = pkg ∧ (s.mc.state ≠ 0#4 → t.flash = s.flash) ∧
      (s.mc.state = 0#4 → t.flash.bootLog.toNat % 2 ^ 16 = 0xA00 + x.toNat)) ∧
    (die < 10500 → 1000 * s.mc.pwrLimit.toNat < mw ∨ 9500 < die → ∃ t, exec (.powerSample mw die pkg x) s = .next t ∧
      t.mc.clk = max 600 (s.mc.clk - 25) ∧ t.cells = s.cells ∧ t.mem = s.mem) ∧
    (die < 9500 → mw < 1000 * s.mc.pwrLimit.toNat → ∃ t, exec (.powerSample mw die pkg x) s = .next t ∧
      t.mc.clk = min 1250 (s.mc.clk + 25) ∧ t.cells = s.cells ∧ t.mem = s.mem) ∧
    (∃ t, exec (.telemetryRefresh sensors) s = .next t ∧ (∀ i < 11, tabGet 0#64 t.mc.tel i = sensors.getD i 0#64) ∧
      tabGet 0#64 t.mc.tel 11 = BitVec.ofNat 64 s.mc.slowCycles ∧ tabGet 0#64 t.mc.tel 21 = BitVec.ofNat 64 s.mc.uncorrectable ∧
      (∀ i < 8, tabGet 0#64 t.mc.tel (12 + i) = BitVec.ofNat 64 (tabGet 0 s.mc.correctedHbm i)) ∧
      tabGet 0#64 t.mc.tel 20 = BitVec.ofNat 64 s.mc.correctedSram ∧ tabGet 0#64 t.mc.tel 22 = BitVec.ofNat 64 s.mc.scrubPasses ∧
      (∀ i, 23 ≤ i → tabGet 0#64 t.mc.tel i = 0#64) ∧ t.mem = s.mem ∧ t.cells = s.cells) ∧
    (s.minimal = true → st.toNat ≠ s.mc.stack → exec (.scrubUnit st) s = .next s) ∧
    let pos := tabGet 0 s.mc.scrubPos st.toNat
    let a := if s.minimal = true then pos * 32 else slView (st.toNat * 2 ^ 36 + pos * 32)
    (s.minimal = true → st.toNat = s.mc.stack) →
    ∃ t, exec (.scrubUnit st) s = .next t ∧ (pos + 1 < 2 ^ 31 → tabGet 0 t.mc.scrubPos st.toNat = pos + 1) ∧
      (pos + 1 = 2 ^ 31 → tabGet 0 t.mc.scrubPos st.toNat = 0 ∧ t.mc.scrubPasses = s.mc.scrubPasses + 1) ∧
      t.mc.uncorrectable = s.mc.uncorrectable + (if s.bad a = true then 1 else 0) ∧
      (s.bad a = true → s.mc.evqSize = 0#64 → s.mc.heldEvents.length < 256 →
        ∃ v, t.mc.heldEvents = s.mc.heldEvents ++ [v] ∧ v.code = 0x0602#16 ∧ v.src = 6 ∧ v.unit = st.setWidth 8 ∧
          v.d0 = BitVec.ofNat 64 a)

end Sys2Proof.Claims

/-! ## Events of the fabric and of the management plane -/

/-- R390–R413: requests of peers, switches, tokens, notifying stores and jobs: the events PEER_ACCESS, POOL_ACCESS, OWN_REVOKE,
OWNERSHIP_REQUEST, SWITCH_FAIL, SWITCH_REPAIR, SWITCH_REBUILD_DONE, PEER_LEAVES_SERVICE, PEER_RETURNS_TO_SERVICE, STF_FLAG_UPDATE,
SRE_JOB_START, SRE_JOB_COMPLETE and DFREEZE complete. The model's choices: tokens and replies in the step of their requests
(assumption logs 6 and 49), the address of a deferred flag fault (log 42), a job in one step (log 53), and a third device's
access as a PEER_ACCESS (log 145). -/
def Obligations.FabricEventsComplete : Prop :=
  PeerAccessesAreServed ∧ PoolAccessesAreServed ∧ OthersAllocate ∧ TokensAreRevoked ∧ HomesAnswerRequests ∧ SwitchesFailAndReturn ∧
  PeersComeAndGo ∧ FlagsAreRaised ∧ JobsRun ∧ DispatchIsFrozen

/-- R338, R415, R428, R434, R437, R442: the host's accesses and the registers that they reach: the events HOST_BAR_READ,
HOST_BAR_WRITE, REGISTER_WRITE, EVQ_HEAD, PWR_LIMIT, ATT_REPORT and ATT_CERT complete. -/
def Obligations.HostAccessesComplete : Prop :=
  HostAccessesAreAnswered ∧ RegistersAreWritten ∧ ReportsAreWritten

/-- R427–R432, R435, R440–R443: starting, recovery, power, clock, telemetry and scrubbing: the events START, START_TIMEOUT,
BOOT_RESTART, BOOT_RESTART_MINIMAL, BOOT_CLEAR_FAILS, RESET_PIN_ASSERTED, SUPPLY_REMOVED, REC_BEGIN, REC_PIECE, REC_COMMIT,
REC_ABORT, PWR_RUN, PWR_IDLE, PWR_STANDBY, PWR_OFF, PWR_EXIT_DONE, POWER_SAMPLE, TELEMETRY_REFRESH and SCRUB_UNIT complete. The
model's choices are those of assumption logs 1, 55, 61, 63, 112 and 143. -/
def Obligations.ManagementEventsComplete : Prop :=
  StartsSucceedOrFail ∧ RestartsKeepTheFlash ∧ RecoveryIsBusy ∧ RecoveryStagesAnImage ∧ PowerStatesChange ∧ PowerExitsEnd ∧ ManagementSamples

namespace Sys2Proof.Claims

/-! ## Words and steps -/

/-- R44, R47, R50, R103: some printed words, and what they stand for. -/
def PrintedWords : Prop :=
  let h : Hdr := { rp := false, fp := false, rq := false, fq := false, pred := 15#4, neg := false }
  decode false 0x0010F0000C1080000000000000000000#128 = .ok (.add h 3#6 1#6 (.reg 2#6)) ∧
  decode false 0x0010F4000C1000000000000000000064#128 = .ok (.add h 3#6 1#6 (.imm 100#64)) ∧
  decode false 0xE0000000000000000000000000000000#128 ≠ .ok (.nop h) ∧
  decode false 0xE000F000000000000000000000000000#128 = .ok (.nop h) ∧
  decode false 0xE010F0000000000000000000FFFFFFFE#128 = .error 5 ∧
  decode false 0xE010F00000000000FFFFFFFE00000000#128 = .ok (.br h (.rel 0xFFFFFFFE#32)) ∧
  decode false 0xE050F00024000000FFFFFFFC00000000#128 = .ok (.loop h 9#6 0xFFFFFFFC#32) ∧
  decode false 0xE090F000140000000000000000000002#128 = .ok (.launchNw h 5#6 2#3) ∧
  decode false 0xE0A0F000000000000000000000000003#128 = .ok (.ckpt h 3#16)

/-- R41, R62: the reserved tag, an opcode that no chapter lists, token bits on S, an unused modifier, an unused body bit, a
vector register above v639 and a predicate that is never true on a C word are refused, each with its detail. -/
def ReservedWordsAreRefused : Prop :=
  decode false 0xC000F000000000000000000000000000#128 = .error 1 ∧
  decode false 0x1FF0F000000000000000000000000000#128 = .error 2 ∧
  decode false 0x0018F0000C1080000000000000000000#128 = .error 3 ∧
  decode false 0x0010F0010C1080000000000000000000#128 = .error 4 ∧
  decode false 0x0010F0000C1080010000000000000000#128 = .error 5 ∧
  decode false 0x6000F000A00000000000000000000000#128 = .error 6 ∧
  decode false 0xE000F800000000000000000000000000#128 = .error 7

/-- The state in which an engine of a cell takes its turn t at the head of the schedule, once the turn's cycles have passed. -/
def turned (s : State) (rest : List Turn) (t : Turn) (c : Nat) (e : Eng) (wait : Bool) : State :=
  let u := ({ s with agenda := rest }).advance t.dt
  { u with cur := { cell := c, eng := e, wait, walk := t.walk, old := t.old } }.modEng c e fun st => { st with acted := some u.cycle }

/-- The sixteen bytes at an instruction address translate for a fetch, and their line holds no uncorrectable error: their
keys. -/
def fetches (s : State) (c : Nat) (pc : Word) (ks : List Nat) : Prop :=
  ks.length = 16 ∧ (∀ i < 16, s.resolve c (s.cell c).asid .fetch (pc.toNat + i) = .ok (ks.getD i 0)) ∧
  ∀ i < 16, s.bad (ks.headD 0 / 128 * 128 + 8 * i) = false

/-- The word that an engine fetches: the one that the instruction cache holds, or where its line misses the sixteen bytes at
the keys of its program counter (R40, R53). -/
def fetchedWord (s : State) (c : Nat) (pc : Word) (miss : Bool) (w : InstrWord) : Prop :=
  (miss = false ∧ tabGet none (s.cell c).icache (pc.toNat / 16) = some w) ∨
  ((miss = true ∨ tabGet none (s.cell c).icache (pc.toNat / 16) = none) ∧
    ∃ ks, fetches s c pc ks ∧ w = wordOfBytes (ks.map s.view))

/-- An engine that may act and has no deferred fault to raise. -/
def takesItsTurn (s : State) (u : State) (c : Nat) (e : Eng) : Prop :=
  e ≠ .sup ∧ s.mayAct c e = true ∧ (u.eng c e).deferred = []

/-- R11, R40, R47, R52 (that a turn may take the cached word or fetch past it is the model's choice, assumption log 105): where the word at its program counter decodes to an instruction of the engine's own or of the C block,
the engine's turn is what that instruction does, once the line is in the instruction cache and what the instruction pops is
ordered before it; an engine within a repeating instruction goes on with it and fetches nothing. -/
def TurnsRunTheirWord : Prop :=
  ∀ (s : State) (rest : List Turn) (t : Turn) (c : Nat) (e : Eng) (wait miss : Bool) (w : InstrWord) (i : Instr),
    let u := turned s rest t c e wait
    let pc := (u.eng c e).pc
    s.agenda = t :: rest → t.who = .engine c e wait miss → takesItsTurn (({ s with agenda := rest }).advance t.dt) u c e →
    ((u.eng c e).resumes = false → fetchedWord u c pc miss w → (tagOf w = 7#3 ∨ tagEngine (tagOf w).toNat = e) →
      decode (u.cell c).vup w = .ok i → step s = exec i ((u.keepLine c pc miss).tokenOrder c e (hdrOf w))) ∧
    ∀ p, (u.eng c e).progress = some p → p.pc = pc → p.inst = some i → step s = exec i u

/-- R35, R40, R53: a line that misses comes whole into the instruction cache, where the words that the cache holds stay as they
are (the model's choice, assumption log 105); the miss counts, and no byte of memory changes. -/
def LinesAreKept : Prop :=
  ∀ (s : State) (c : Nat) (pc : Word) (miss : Bool) (ks : List Nat),
    fetches s c pc ks → miss = true ∨ tabGet none (s.cell c).icache (pc.toNat / 16) = none →
    let t := s.keepLine c pc miss
    (∀ i < 8, tabGet none (t.cell c).icache (pc.toNat / 128 * 8 + i) =
      some ((tabGet none (s.cell c).icache (pc.toNat / 128 * 8 + i)).getD
        (wordOfBytes ((List.range 16).map fun j => s.view (ks.headD 0 / 128 * 128 + 16 * i + j))))) ∧
    (∀ k, t.byte k = s.byte k) ∧
    ((s.cell c).pevsel = [] → t = s.modCell c fun x => { x with icache := (t.cell c).icache }) ∧
    ∀ n, tabWf 0#17 (s.cell c).pevsel = true → tabGet 0#17 (s.cell c).pevsel n = 0x10040#17 → tabGet 0#64 (t.cell c).pcnt n = tabGet 0#64 (s.cell c).pcnt n + 1

/-- R11, R62: a word of another engine is stepped over unread, within the slip window; a word of the engine's own that is no
instruction raises ENC_ILLEGAL with its detail, a C word on S alone. The trap waits for the older instructions (R36). -/
def OtherWordsAreSteppedOver : Prop :=
  ∀ (s : State) (rest : List Turn) (t : Turn) (c : Nat) (e : Eng) (wait miss : Bool) (w : InstrWord),
    let u := turned s rest t c e wait
    let v := u.keepLine c (u.eng c e).pc miss
    s.agenda = t :: rest → t.who = .engine c e wait miss → takesItsTurn (({ s with agenda := rest }).advance t.dt) u c e →
    (u.eng c e).resumes = false → fetchedWord u c (u.eng c e).pc miss w →
    (tagOf w ≠ 7#3 → tagEngine (tagOf w).toNat ≠ e →
      ((v.cell c).windowOpen e = true → step s = .next (v.pass c e ((v.eng c e).pc + 16))) ∧
      ((v.cell c).windowOpen e = false → step s = .next (v.stallOn c e .window))) ∧
    (∀ d, decode (u.cell c).vup w = .error d → (tagOf w = 7#3 ∨ tagEngine (tagOf w).toNat = e) →
      (e = .s ∨ tagOf w ≠ 7#3 →
        ((v.cell c).retired e = true → step s = .next (v.takeTrap c e { cause := 0x01#8, detail := d, x := tagOf w == 5#3 })) ∧
        ((v.cell c).retired e = false → step s = .next (v.stallOn c e .fault))) ∧
      (e ≠ .s → tagOf w = 7#3 → step s = .next (v.stallOn c e .other)))

/-- R369: a supervisor core that runs executes the word at its program counter, an offset in its own memory by the model's choice
(assumption log 32); an event's turn is what the event does, or what a soft error strikes (R435), or what an engine or a job
reads ahead (R305), or a line that the instruction cache takes (R53); and with nothing scheduled a cycle passes and the arbiter
chooses (log 3). -/
def OtherTurns : Prop :=
  (∀ (s : State) (rest : List Turn) (t : Turn) (c : Nat) (w : InstrWord) (i : Instr),
    let u : State := { ({ s with agenda := rest }).advance t.dt with
      cur := { cell := c, eng := .sup, wait := false, walk := t.walk, old := t.old } }
    let pc := (u.cell c).sup.pc.toNat
    s.agenda = t :: rest → t.who = .supervisor c → (({ s with agenda := rest }).advance t.dt).supMayAct c = true →
    pc % 16 = 0 → pc + 16 ≤ 0x40000 → (∀ k < 16, u.bad (supPa c (pc + k)) = false) →
    w = wordOfBytes ((List.range 16).map fun k => u.byte (supPa c (pc + k))) →
    (tagOf w = 0#3 ∨ tagOf w = 5#3 ∨ tagOf w = 7#3) → decode (u.cell c).vup w = .ok i → step s = exec i u) ∧
  (∀ (s : State) (rest : List Turn) (t : Turn) (i : Instr), s.agenda = t :: rest → t.who = .event i → encode i = none →
    step s = exec i { ({ s with agenda := rest }).advance t.dt with cur := { old := t.old, walk := t.walk } }) ∧
  (∀ (s : State) (rest : List Turn) (t : Turn) (x : Upset), s.agenda = t :: rest → t.who = .upset x →
    step s = .next ({ ({ s with agenda := rest }).advance t.dt with cur := { old := t.old, walk := t.walk } }.upsetBy x)) ∧
  (∀ (s : State) (rest : List Turn) (t : Turn) (c : Nat) (e : Eng) (k n : Nat), s.agenda = t :: rest → t.who = .ahead c e k n →
    step s = .next ({ ({ s with agenda := rest }).advance t.dt with cur := { old := t.old, walk := t.walk } }.readsAhead c e k n)) ∧
  (∀ (s : State) (rest : List Turn) (t : Turn) (q : BitVec 3) (k n : Nat), s.agenda = t :: rest → t.who = .jobAhead q k n →
    step s = .next ({ ({ s with agenda := rest }).advance t.dt with cur := { old := t.old, walk := t.walk } }.jobReads q k n)) ∧
  (∀ (s : State) (rest : List Turn) (t : Turn) (c : Nat) (pc : Word), s.agenda = t :: rest → t.who = .line c pc →
    step s = .next ({ ({ s with agenda := rest }).advance t.dt with cur := { old := t.old, walk := t.walk } }.takeLine c pc)) ∧
  ∀ s : State, s.agenda = [] → step s = arbiter s

/-! ## Reset -/

/-- What reset leaves of the registers whose reset value the rules give (R30–R35, R338, R379, R408, R427), and that nothing
runs, is queued or is in flight. That every scalar register reads zero is the model's choice (assumption log 2). -/
def ResetRegisters : Prop :=
  let s := State.reset
  s.mc.state = 0#4 ∧ s.mc.set = false ∧ s.mc.evqBase = 0#64 ∧ s.mc.evqSize = 0#64 ∧ s.mc.evqHead = 0#64 ∧ s.mc.evqTail = 0#64 ∧
  s.mc.evqLost = 0#64 ∧ s.mc.pwrCtl = 0#2 ∧ s.mc.power = .run ∧ s.mc.attAddr = 0#64 ∧ s.mc.attStat = 0#2 ∧ s.mc.clk = 1250 ∧
  s.mc.recArg = 0#64 ∧ s.mc.recCode = 0#8 ∧ s.ctxBase = 0#64 ∧ s.fab.asid = 0#14 ∧ s.fab.en = false ∧
  s.tgu.age = 0x10000#64 ∧ s.tgu.steal = 0x1000#64 ∧ s.tgu.cancelAsid = 0#14 ∧ s.tgu.recs = [] ∧
  (∀ q, (s.tgu.q q).enabled = false ∧ (s.tgu.q q).base = 0#64 ∧ (s.tgu.q q).size = 0#64 ∧ (s.tgu.q q).head = 0#64 ∧
    (s.tgu.q q).tail = 0#64) ∧
  (∀ c, (s.cell c).iter = none ∧ (s.cell c).frozen = none ∧ (s.cell c).vup = false ∧ (s.cell c).slipw = 0x400#14 ∧
    (s.cell c).qtimeout = 0x1000000#32 ∧ (s.cell c).ckptlim = 0x100000#32 ∧ (s.cell c).fflags = 0#25 ∧
    (s.cell c).satcnt = 0#64 ∧ (s.cell c).seed = 0#64 ∧ (s.cell c).tok = [] ∧
    ∀ e r, (s.eng c e).getS r = 0#64) ∧
  s.barriers = [] ∧ s.tlb = [] ∧ s.sre = [] ∧ s.own.st = []

/-- The model's choice (log 1): after reset memory lists nothing, is in canonical form, and every byte reads zero. -/
def ResetMemory : Prop :=
  Memory.wf State.reset.mem = true ∧ ∀ k, State.reset.byte k = 0#8

/-- Memory and the ownership cache keep their canonical form. -/
def Canonical (s : State) : Prop := Memory.wf s.mem = true ∧ tabWf none s.own.cache = true

end Sys2Proof.Claims

/-! ## Decoding, stepping, reset and the whole machine -/

/-- Decode and encode agree: the word that encodes a well-formed instruction, with every operand at every value, decodes to it
under either value of ENGCFG.vup under which its token bits are legal (R22). -/
def Obligations.DecodeUndoesEncode : Prop :=
  ∀ (i : Instr) (w : InstrWord) (vup : Bool), wellFormed i = true → encode i = some w →
    (vup = true → tagOf w = 2#3 → (hdrOf w).noTokens = true) → decode vup w = .ok i

/-- R41, R62: printed words decode to their instructions, and malformed ones are refused with their detail. -/
def Obligations.PrintedWordsDecode : Prop :=
  PrintedWords ∧ ReservedWordsAreRefused

/-- A step runs the decoded instruction. The model's choices: the order of the movers (assumption log 3), a supervisor core's program
counter as an offset in its own memory (log 32), and which words a fetched line leaves in the cache (log 105). -/
def Obligations.StepRunsTheDecodedInstruction : Prop :=
  TurnsRunTheirWord ∧ LinesAreKept ∧ OtherWordsAreSteppedOver ∧ OtherTurns

/-- Of an instruction with a word no execution on the five engines stops the machine: it goes on, whatever its operands and
the state (a trap is a next state). A supervisor core is left out: a trap that it meets itself stops the machine by name, by the
model's choice (assumption log 31). -/
def Obligations.InstructionsGoOn : Prop :=
  ∀ (i : Instr) (s : State), (encode i).isSome = true → s.cur.eng ≠ .sup → GoesOn (exec i s)

/-- Every step keeps memory and the ownership cache in canonical form. -/
def Obligations.StepsKeepMemoryCanonical : Prop :=
  ∀ s t : State, Canonical s → step s = .next t → Canonical t

/-- What the machine is right after reset: the values that the rules give, and, by the model's choice, scalar registers that read
zero (assumption log 2) and memory that lists nothing and reads zero (log 1). -/
def Obligations.ResetValues : Prop :=
  ResetRegisters ∧ ResetMemory ∧ Canonical State.reset
end

