-- ==== Sys2Proof/Laws/Issue.lean ====
section
/-! SUPPORT. Laws of the frame in which every program instruction runs: which of its cases a state meets, what each case
answers, and what it leaves unchanged. -/

namespace Sys2Proof.Machine

/-! ## The cases of the frame -/

/-- A token bit of an absent neighbour raises ENC_ILLEGAL. -/
theorem issueAs_absent {x : Bool} {h : Hdr} {uses : List SReg} {s : State} {body : State → Act}
    (ht : tokensExist s.here.vup s.cur.eng h = false) :
    issueAs x h uses s body = raise s s.cur.cell s.cur.eng { cause := cEnc, detail := 3, x } := by
  simp [issueAs, ht]

/-- A closed slip window stalls. -/
theorem issueAs_window {x : Bool} {h : Hdr} {uses : List SReg} {s : State} {body : State → Act}
    (ht : tokensExist s.here.vup s.cur.eng h = true) (hw : s.here.windowOpen s.cur.eng = false) :
    issueAs x h uses s body = .next (s.stallOn s.cur.cell s.cur.eng .window) := by
  simp [issueAs, ht, hw]

/-- Missing tokens stall, each queue on its own. -/
theorem issueAs_tokens {x : Bool} {h : Hdr} {uses : List SReg} {s : State} {body : State → Act}
    (ht : tokensExist s.here.vup s.cur.eng h = true) (hw : s.here.windowOpen s.cur.eng = true)
    (he : s.here.badPred s.cur.eng h.pred = false)
    (hl : uses.any s.me.loading = false) (hb : uses.any (fun r => s.here.badReg (64 * engNum s.cur.eng + r.toNat)) = false)
    (hq : s.here.tokensReady s.cur.eng h s.me.resumes = false) :
    issueAs x h uses s body = .next (s.starve s.cur.cell s.cur.eng (s.here.starving s.cur.eng h)) := by
  simp only [issueAs, ht, hw, he, hl, hb, hq, Bool.and_false, Bool.not_true, Bool.not_false, Bool.false_eq_true, if_false, if_true]

/-- A false predicate passes. -/
theorem issueAs_false {x : Bool} {h : Hdr} {uses : List SReg} {s : State} {body : State → Act}
    (ht : tokensExist s.here.vup s.cur.eng h = true) (hw : s.here.windowOpen s.cur.eng = true)
    (he : s.here.badPred s.cur.eng h.pred = false) (hq : s.here.tokensReady s.cur.eng h s.me.resumes = true)
    (hp : s.me.getP h.pred = h.neg) :
    issueAs x h uses s body = .next (s.finish s.cur.cell s.cur.eng h s.me.resumes (s.me.pc + 16)) := by
  have h1 : (s.me.getP h.pred != h.neg) = false := by simp [hp]
  have h2 : (s.me.getP h.pred == h.neg) = true := by simp [hp]
  simp only [issueAs, ht, hw, he, hq, h1, h2, Bool.false_and, Bool.not_true, Bool.false_eq_true, if_false, if_true]

/-- A ready instruction does what its body decides. -/
theorem issueAs_ready {x : Bool} {h : Hdr} {uses : List SReg} {s : State} {body : State → Act}
    (hr : s.ready h uses = true) : issueAs x h uses s body = conclude h s (if x then (body s).asX else body s) := by
  simp only [State.ready, Bool.and_eq_true, Bool.not_eq_true', bne_iff_ne, ne_eq] at hr
  obtain ⟨⟨⟨⟨⟨⟨h1, h2⟩, h3⟩, h4⟩, h7⟩, h5⟩, h6⟩ := hr
  have h4' : (s.me.getP h.pred == h.neg) = false := beq_false_of_ne h4
  simp only [issueAs, h1, h2, h3, h5, h6, h7, h4', Bool.and_false, Bool.not_true, Bool.false_eq_true, if_false]

/-- A ready instruction whose body is done passes to the next word. -/
theorem issueAs_done {x : Bool} {h : Hdr} {uses : List SReg} {s t : State} {body : State → Act}
    (hr : s.ready h uses = true) (hb : body s = .done t) : issueAs x h uses s body = .next (s.after h t) := by
  rw [issueAs_ready hr, hb]; cases x <;> rfl

/-- A ready instruction whose body goes to a target passes there. -/
theorem issueAs_goto {x : Bool} {h : Hdr} {uses : List SReg} {s t : State} {pc : Word} {body : State → Act}
    (hr : s.ready h uses = true) (hb : body s = .goto t pc) : issueAs x h uses s body = .next (s.afterTo h t pc) := by
  rw [issueAs_ready hr, hb]; cases x <;> rfl

theorem issue_done {h : Hdr} {uses : List SReg} {s t : State} {body : State → Act}
    (hr : s.ready h uses = true) (hb : body s = .done t) : issue h uses s body = .next (s.after h t) :=
  issueAs_done hr hb

/-- A trap of a cell program's engine is taken once every older instruction of the engine has retired. -/
theorem raise_next {s : State} {c : Nat} {e : Eng} {t : TrapRec} (he : e ≠ .sup) (hr : (s.cell c).retired e = true) :
    raise s c e t = .next (s.takeTrap c e t) := by
  unfold raise
  rw [if_neg he, hr]
  rfl

/-- Until then it waits. -/
theorem raise_waits {s : State} {c : Nat} {e : Eng} {t : TrapRec} (he : e ≠ .sup) (hr : (s.cell c).retired e = false) :
    raise s c e t = .next (s.stallOn c e .fault) := by
  unfold raise
  rw [if_neg he, hr]
  rfl

/-! ## Every framed instruction in the frame -/

theorem framed_add (h sd sa b s) : ∃ body, exec (.add h sd sa b) s = issueAs false h (sa :: srcRegs b) s body := by
  apply Exists.intro; show execAdd h sd sa b s = _; unfold execAdd binary issue; exact rfl
theorem framed_sub (h sd sa b s) : ∃ body, exec (.sub h sd sa b) s = issueAs false h (sa :: srcRegs b) s body := by
  apply Exists.intro; show execSub h sd sa b s = _; unfold execSub binary issue; exact rfl
theorem framed_mul (h sd sa b s) : ∃ body, exec (.mul h sd sa b) s = issueAs false h (sa :: srcRegs b) s body := by
  apply Exists.intro; show execMul h sd sa b s = _; unfold execMul binary issue; exact rfl
theorem framed_mulh (h sd sa b u s) : ∃ body, exec (.mulh h sd sa b u) s = issueAs false h (sa :: srcRegs b) s body := by
  apply Exists.intro; show execMulh h sd sa b u s = _; unfold execMulh binary issue; exact rfl
theorem framed_div (h sd sa b u s) : ∃ body, exec (.div h sd sa b u) s = issueAs false h (sa :: srcRegs b) s body := by
  apply Exists.intro; show execDiv h sd sa b u s = _; unfold execDiv binary issue; exact rfl
theorem framed_rem (h sd sa b u s) : ∃ body, exec (.rem h sd sa b u) s = issueAs false h (sa :: srcRegs b) s body := by
  apply Exists.intro; show execRem h sd sa b u s = _; unfold execRem binary issue; exact rfl
theorem framed_and (h sd sa b s) : ∃ body, exec (.and h sd sa b) s = issueAs false h (sa :: srcRegs b) s body := by
  apply Exists.intro; show execAnd h sd sa b s = _; unfold execAnd binary issue; exact rfl
theorem framed_or (h sd sa b s) : ∃ body, exec (.or h sd sa b) s = issueAs false h (sa :: srcRegs b) s body := by
  apply Exists.intro; show execOr h sd sa b s = _; unfold execOr binary issue; exact rfl
theorem framed_xor (h sd sa b s) : ∃ body, exec (.xor h sd sa b) s = issueAs false h (sa :: srcRegs b) s body := by
  apply Exists.intro; show execXor h sd sa b s = _; unfold execXor binary issue; exact rfl
theorem framed_shl (h sd sa b s) : ∃ body, exec (.shl h sd sa b) s = issueAs false h (sa :: srcRegs b) s body := by
  apply Exists.intro; show execShl h sd sa b s = _; unfold execShl binary issue; exact rfl
theorem framed_shr (h sd sa b s) : ∃ body, exec (.shr h sd sa b) s = issueAs false h (sa :: srcRegs b) s body := by
  apply Exists.intro; show execShr h sd sa b s = _; unfold execShr binary issue; exact rfl
theorem framed_sra (h sd sa b s) : ∃ body, exec (.sra h sd sa b) s = issueAs false h (sa :: srcRegs b) s body := by
  apply Exists.intro; show execSra h sd sa b s = _; unfold execSra binary issue; exact rfl
theorem framed_rol (h sd sa b s) : ∃ body, exec (.rol h sd sa b) s = issueAs false h (sa :: srcRegs b) s body := by
  apply Exists.intro; show execRol h sd sa b s = _; unfold execRol binary issue; exact rfl
theorem framed_ror (h sd sa b s) : ∃ body, exec (.ror h sd sa b) s = issueAs false h (sa :: srcRegs b) s body := by
  apply Exists.intro; show execRor h sd sa b s = _; unfold execRor binary issue; exact rfl
theorem framed_min (h sd sa b u s) : ∃ body, exec (.min h sd sa b u) s = issueAs false h (sa :: srcRegs b) s body := by
  apply Exists.intro; show execMin h sd sa b u s = _; unfold execMin binary issue; exact rfl
theorem framed_max (h sd sa b u s) : ∃ body, exec (.max h sd sa b u) s = issueAs false h (sa :: srcRegs b) s body := by
  apply Exists.intro; show execMax h sd sa b u s = _; unfold execMax binary issue; exact rfl
theorem framed_clz (h sd sa s) : ∃ body, exec (.clz h sd sa) s = issueAs false h ([sa]) s body := by
  apply Exists.intro; show execClz h sd sa s = _; unfold execClz unary issue; exact rfl
theorem framed_ctz (h sd sa s) : ∃ body, exec (.ctz h sd sa) s = issueAs false h ([sa]) s body := by
  apply Exists.intro; show execCtz h sd sa s = _; unfold execCtz unary issue; exact rfl
theorem framed_popc (h sd sa s) : ∃ body, exec (.popc h sd sa) s = issueAs false h ([sa]) s body := by
  apply Exists.intro; show execPopc h sd sa s = _; unfold execPopc unary issue; exact rfl
theorem framed_brev (h sd sa s) : ∃ body, exec (.brev h sd sa) s = issueAs false h ([sa]) s body := by
  apply Exists.intro; show execBrev h sd sa s = _; unfold execBrev unary issue; exact rfl
theorem framed_bfx (h sd sa f s) : ∃ body, exec (.bfx h sd sa f) s = issueAs false h (sa :: srcRegs f) s body := by
  apply Exists.intro; show execBfx h sd sa f s = _; unfold execBfx binary issue; exact rfl
theorem framed_bfxs (h sd sa f s) : ∃ body, exec (.bfxs h sd sa f) s = issueAs false h (sa :: srcRegs f) s body := by
  apply Exists.intro; show execBfxs h sd sa f s = _; unfold execBfxs binary issue; exact rfl
theorem framed_bfi (h sd sa f sc s) : ∃ body, exec (.bfi h sd sa f sc) s = issueAs false h (sa :: sc :: srcRegs f) s body := by
  apply Exists.intro; show execBfi h sd sa f sc s = _; unfold execBfi issue; exact rfl
theorem framed_sext (h sd sa sz s) : ∃ body, exec (.sext h sd sa sz) s = issueAs false h ([sa]) s body := by
  apply Exists.intro; show execSext h sd sa sz s = _; unfold execSext unary issue; exact rfl
theorem framed_li (h sd imm s) : ∃ body, exec (.li h sd imm) s = issueAs false h ([]) s body := by
  apply Exists.intro; show execLi h sd imm s = _; unfold execLi issue; exact rfl
theorem framed_addx (h sd sa sb sh imm s) : ∃ body, exec (.addx h sd sa sb sh imm) s = issueAs false h ([sa, sb]) s body := by
  apply Exists.intro; show execAddx h sd sa sb sh imm s = _; unfold execAddx issue; exact rfl
theorem framed_cmp (h pd sa b cc s) : ∃ body, exec (.cmp h pd sa b cc) s = issueAs false h (sa :: srcRegs b) s body := by
  apply Exists.intro; show execCmp h pd sa b cc s = _; unfold execCmp issue; exact rfl
theorem framed_pand (h pd pa pb na nb s) : ∃ body, exec (.pand h pd pa pb na nb) s = issueAs false h ([]) s body := by
  apply Exists.intro; show execPand h pd pa pb na nb s = _; unfold execPand issue; exact rfl
theorem framed_por (h pd pa pb na nb s) : ∃ body, exec (.por h pd pa pb na nb) s = issueAs false h ([]) s body := by
  apply Exists.intro; show execPor h pd pa pb na nb s = _; unfold execPor issue; exact rfl
theorem framed_pxor (h pd pa pb na nb s) : ∃ body, exec (.pxor h pd pa pb na nb) s = issueAs false h ([]) s body := by
  apply Exists.intro; show execPxor h pd pa pb na nb s = _; unfold execPxor issue; exact rfl
theorem framed_pnot (h pd pa s) : ∃ body, exec (.pnot h pd pa) s = issueAs false h ([]) s body := by
  apply Exists.intro; show execPnot h pd pa s = _; unfold execPnot issue; exact rfl
theorem framed_sel (h sd sa b pc s) : ∃ body, exec (.sel h sd sa b pc) s = issueAs false h (sa :: srcRegs b) s body := by
  apply Exists.intro; show execSel h sd sa b pc s = _; unfold execSel issue; exact rfl
theorem framed_sfadd (h sd sa b rnd s) : ∃ body, exec (.sfadd h sd sa b rnd) s = issueAs false h (sa :: srcRegs b) s body := by
  apply Exists.intro; show execSfadd h sd sa b rnd s = _; unfold execSfadd floatOp issue; exact rfl
theorem framed_sfmul (h sd sa b rnd s) : ∃ body, exec (.sfmul h sd sa b rnd) s = issueAs false h (sa :: srcRegs b) s body := by
  apply Exists.intro; show execSfmul h sd sa b rnd s = _; unfold execSfmul floatOp issue; exact rfl
theorem framed_sffma (h sd sa sb sc rnd s) : ∃ body, exec (.sffma h sd sa sb sc rnd) s = issueAs false h ([sa, sb, sc]) s body := by
  apply Exists.intro; show execSffma h sd sa sb sc rnd s = _; unfold execSffma issue; exact rfl
theorem framed_sfdiv (h sd sa b rnd s) : ∃ body, exec (.sfdiv h sd sa b rnd) s = issueAs false h (sa :: srcRegs b) s body := by
  apply Exists.intro; show execSfdiv h sd sa b rnd s = _; unfold execSfdiv floatOp issue; exact rfl
theorem framed_sfcvt (h sd sa op rnd s) : ∃ body, exec (.sfcvt h sd sa op rnd) s = issueAs false h ([sa]) s body := by
  apply Exists.intro; show execSfcvt h sd sa op rnd s = _; unfold execSfcvt issue; exact rfl
theorem framed_ld (h sd sa sb imm sz u s) : ∃ body, exec (.ld h sd sa sb imm sz u) s = issueAs false h ([sa, sb]) s body := by
  apply Exists.intro; show execLd h sd sa sb imm sz u s = _; unfold execLd issue; exact rfl
theorem framed_st (h sa sb sc imm sz s) : ∃ body, exec (.st h sa sb sc imm sz) s = issueAs false h ([sa, sb, sc]) s body := by
  apply Exists.intro; show execSt h sa sb sc imm sz s = _; unfold execSt issue; exact rfl
theorem framed_lda (h sd sa sb imm sz u scope s) : ∃ body, exec (.lda h sd sa sb imm sz u scope) s = issueAs false h ([sa, sb]) s body := by
  apply Exists.intro; show execLda h sd sa sb imm sz u scope s = _; unfold execLda issue; exact rfl
theorem framed_stl (h sa sb sc imm sz scope s) : ∃ body, exec (.stl h sa sb sc imm sz scope) s = issueAs false h ([sa, sb, sc]) s body := by
  apply Exists.intro; show execStl h sa sb sc imm sz scope s = _; unfold execStl issue; exact rfl
theorem framed_amoAdd (h o s) : ∃ body, exec (.amoAdd h o) s = issueAs false h ([o.sa, o.sb]) s body := by
  apply Exists.intro; show execAmoAdd h o s = _; unfold execAmoAdd issue; exact rfl
theorem framed_amoAnd (h o s) : ∃ body, exec (.amoAnd h o) s = issueAs false h ([o.sa, o.sb]) s body := by
  apply Exists.intro; show execAmoAnd h o s = _; unfold execAmoAnd issue; exact rfl
theorem framed_amoOr (h o s) : ∃ body, exec (.amoOr h o) s = issueAs false h ([o.sa, o.sb]) s body := by
  apply Exists.intro; show execAmoOr h o s = _; unfold execAmoOr issue; exact rfl
theorem framed_amoXor (h o s) : ∃ body, exec (.amoXor h o) s = issueAs false h ([o.sa, o.sb]) s body := by
  apply Exists.intro; show execAmoXor h o s = _; unfold execAmoXor issue; exact rfl
theorem framed_amoMin (h o u s) : ∃ body, exec (.amoMin h o u) s = issueAs false h ([o.sa, o.sb]) s body := by
  apply Exists.intro; show execAmoMin h o u s = _; unfold execAmoMin issue; exact rfl
theorem framed_amoMax (h o u s) : ∃ body, exec (.amoMax h o u) s = issueAs false h ([o.sa, o.sb]) s body := by
  apply Exists.intro; show execAmoMax h o u s = _; unfold execAmoMax issue; exact rfl
theorem framed_amoXchg (h o s) : ∃ body, exec (.amoXchg h o) s = issueAs false h ([o.sa, o.sb]) s body := by
  apply Exists.intro; show execAmoXchg h o s = _; unfold execAmoXchg issue; exact rfl
theorem framed_amoCas (h o sc s) : ∃ body, exec (.amoCas h o sc) s = issueAs false h ([o.sa, o.sb, sc]) s body := by
  apply Exists.intro; show execAmoCas h o sc s = _; unfold execAmoCas issue; exact rfl
theorem framed_amoFadd (h o s) : ∃ body, exec (.amoFadd h o) s = issueAs false h ([o.sa, o.sb]) s body := by
  apply Exists.intro; show execAmoFadd h o s = _; unfold execAmoFadd issue; exact rfl
theorem framed_amoFaddTree (h sa sb sc imm rel scope s) : ∃ body, exec (.amoFaddTree h sa sb sc imm rel scope) s = issueAs false h ([sa, sb, sc]) s body := by
  apply Exists.intro; show execAmoFaddTree h sa sb sc imm rel scope s = _; unfold execAmoFaddTree issue; exact rfl
theorem framed_amoFmin (h o s) : ∃ body, exec (.amoFmin h o) s = issueAs false h ([o.sa, o.sb]) s body := by
  apply Exists.intro; show execAmoFmin h o s = _; unfold execAmoFmin issue; exact rfl
theorem framed_amoFmax (h o s) : ∃ body, exec (.amoFmax h o) s = issueAs false h ([o.sa, o.sb]) s body := by
  apply Exists.intro; show execAmoFmax h o s = _; unfold execAmoFmax issue; exact rfl
theorem framed_qpush (h q b s) : ∃ body, exec (.qpush h q b) s = issueAs false h (srcRegs b) s body := by
  apply Exists.intro; show execQpush h q b s = _; unfold execQpush issue; exact rfl
theorem framed_mfs (h sd n s) : ∃ body, exec (.mfs h sd n) s = issueAs false h ([]) s body := by
  apply Exists.intro; show execMfs h sd n s = _; unfold execMfs issue; exact rfl
theorem framed_mts (h n sa s) : ∃ body, exec (.mts h n sa) s = issueAs false h ([sa]) s body := by
  apply Exists.intro; show execMts h n sa s = _; unfold execMts issue; exact rfl
theorem framed_poolAlloc (h sd sa mir pref given s) : ∃ body, exec (.poolAlloc h sd sa mir pref given) s = issueAs true h ([sa]) s body := by
  apply Exists.intro; show execPoolAlloc h sd sa mir pref given s = _; unfold execPoolAlloc issueX; exact rfl
theorem framed_poolFree (h sd sa s) : ∃ body, exec (.poolFree h sd sa) s = issueAs true h ([sa]) s body := by
  apply Exists.intro; show execPoolFree h sd sa s = _; unfold execPoolFree issueX; exact rfl
theorem framed_poolStat (h sd sa sb s) : ∃ body, exec (.poolStat h sd sa sb) s = issueAs true h ([sa, sb]) s body := by
  apply Exists.intro; show execPoolStat h sd sa sb s = _; unfold execPoolStat issueX; exact rfl
theorem framed_ownAcq (h sd sa s) : ∃ body, exec (.ownAcq h sd sa) s = issueAs true h ([sa]) s body := by
  apply Exists.intro; show execOwnAcq h sd sa s = _; unfold execOwnAcq issueX; exact rfl
theorem framed_ownRel (h sd sa s) : ∃ body, exec (.ownRel h sd sa) s = issueAs true h ([sa]) s body := by
  apply Exists.intro; show execOwnRel h sd sa s = _; unfold execOwnRel issueX; exact rfl
theorem framed_ownTest (h sd sa s) : ∃ body, exec (.ownTest h sd sa) s = issueAs true h ([sa]) s body := by
  apply Exists.intro; show execOwnTest h sd sa s = _; unfold execOwnTest issueX; exact rfl
theorem framed_sreRun (h sd sa s) : ∃ body, exec (.sreRun h sd sa) s = issueAs true h ([sa]) s body := by
  apply Exists.intro; show execSreRun h sd sa s = _; unfold execSreRun issueX; exact rfl
theorem framed_watchSet (h n sa size rd wr s) : ∃ body, exec (.watchSet h n sa size rd wr) s = issueAs true h ([sa]) s body := by
  apply Exists.intro; show execWatchSet h n sa size rd wr s = _; unfold execWatchSet issueX; exact rfl
theorem framed_syscall (h sa code s) : ∃ body, exec (.syscall h sa code) s = issueAs true h ([sa]) s body := by
  apply Exists.intro; show execSyscall h sa code s = _; unfold execSyscall issueX; exact rfl
theorem framed_tlbInv (h sa sb kind s) : ∃ body, exec (.tlbInv h sa sb kind) s = issueAs true h ([sa, sb]) s body := by
  apply Exists.intro; show execTlbInv h sa sb kind s = _; unfold execTlbInv issuePriv issueX; exact rfl
theorem framed_ctxSave (h sd sa full rel s) : ∃ body, exec (.ctxSave h sd sa full rel) s = issueAs true h ([sa]) s body := by
  apply Exists.intro; show execCtxSave h sd sa full rel s = _; unfold execCtxSave issuePriv issueX; exact rfl
theorem framed_ctxLoad (h sd sa s) : ∃ body, exec (.ctxLoad h sd sa) s = issueAs true h ([sa]) s body := by
  apply Exists.intro; show execCtxLoad h sd sa s = _; unfold execCtxLoad issuePriv issueX; exact rfl
theorem framed_ctxResume (h fin s) : ∃ body, exec (.ctxResume h fin) s = issueAs true h ([]) s body := by
  apply Exists.intro; show execCtxResume h fin s = _; unfold execCtxResume issuePriv issueX; exact rfl
theorem framed_ctxSwitch (h s) : ∃ body, exec (.ctxSwitch h) s = issueAs true h ([]) s body := by
  apply Exists.intro; show execCtxSwitch h s = _; unfold execCtxSwitch issuePriv issueX; exact rfl
theorem framed_vld (h r fmt mk z idx s) : ∃ body, exec (.vld h r fmt mk z idx) s = issueAs false h ([r.base, r.index]) s body := by
  apply Exists.intro; show execVld h r fmt mk z idx s = _; unfold execVld loadRun issue; exact rfl
theorem framed_vldRaw (h r fmt mk z idx s) : ∃ body, exec (.vldRaw h r fmt mk z idx) s = issueAs false h ([r.base, r.index]) s body := by
  apply Exists.intro; show execVldRaw h r fmt mk z idx s = _; unfold execVldRaw loadRun issue; exact rfl
theorem framed_vldb (h r fmt mk z idx shape s) : ∃ body, exec (.vldb h r fmt mk z idx shape) s = issueAs false h ([r.base, r.index]) s body := by
  apply Exists.intro; show execVldb h r fmt mk z idx shape s = _; unfold execVldb issue; exact rfl
theorem framed_pref (h r x s) : ∃ body, exec (.pref h r x) s = issueAs false h ([]) s body := by
  apply Exists.intro; show execPref h r x s = _; unfold execPref issue; exact rfl
theorem framed_copy (h o s) : ∃ body, exec (.copy h o) s = issueAs false h (copyRegs o) s body := by
  apply Exists.intro; show execCopy h o s = _; unfold execCopy issue; exact rfl
theorem framed_copyEnc (h o s) : ∃ body, exec (.copyEnc h o) s = issueAs false h (copyRegs o) s body := by
  apply Exists.intro; show execCopyEnc h o s = _; unfold execCopyEnc issue; exact rfl
theorem framed_copyDec (h o s) : ∃ body, exec (.copyDec h o) s = issueAs false h (copyRegs o) s body := by
  apply Exists.intro; show execCopyDec h o s = _; unfold execCopyDec issue; exact rfl
theorem framed_copyExport (h o s) : ∃ body, exec (.copyExport h o) s = issueAs false h (copyRegs o) s body := by
  apply Exists.intro; show execCopyExport h o s = _; unfold execCopyExport issue; exact rfl
theorem framed_gather (h o s) : ∃ body, exec (.gather h o) s = issueAs false h (copyRegs o) s body := by
  apply Exists.intro; show execGather h o s = _; unfold execGather issue; exact rfl
theorem framed_scatter (h o s) : ∃ body, exec (.scatter h o) s = issueAs false h (copyRegs o) s body := by
  apply Exists.intro; show execScatter h o s = _; unfold execScatter issue; exact rfl
theorem framed_xchgAll (h o s) : ∃ body, exec (.xchgAll h o) s = issueAs false h (copyRegs o) s body := by
  apply Exists.intro; show execXchgAll h o s = _; unfold execXchgAll issue; exact rfl
theorem framed_dld (h dd sa imm s) : ∃ body, exec (.dld h dd sa imm) s = issueAs false h ([sa]) s body := by
  apply Exists.intro; show execDld h dd sa imm s = _; unfold execDld issue; exact rfl
theorem framed_dst (h ds sb imm s) : ∃ body, exec (.dst h ds sb imm) s = issueAs false h ([sb]) s body := by
  apply Exists.intro; show execDst h ds sb imm s = _; unfold execDst issue; exact rfl
theorem framed_wpwait (h sd ch sa imm s) : ∃ body, exec (.wpwait h sd ch sa imm) s = issueAs false h ([sa]) s body := by
  apply Exists.intro; show execWpwait h sd ch sa imm s = _; unfold execWpwait issue; exact rfl
theorem framed_mma (h t s) : ∃ body, exec (.mma h t) s = issueAs false h ([]) s body := by
  apply Exists.intro; show execMma h t s = _; unfold execMma issue; exact rfl
theorem framed_mmaG (h t gc sa sb s) : ∃ body, exec (.mmaG h t gc sa sb) s = issueAs false h ([sa, sb]) s body := by
  apply Exists.intro; show execMmaG h t gc sa sb s = _; unfold execMmaG issue; exact rfl
theorem framed_msd (h t s) : ∃ body, exec (.msd h t) s = issueAs false h ([]) s body := by
  apply Exists.intro; show execMsd h t s = _; unfold execMsd issue; exact rfl
theorem framed_macc (h ti vr cnt p s) : ∃ body, exec (.macc h ti vr cnt p) s = issueAs false h ([]) s body := by
  apply Exists.intro; show execMacc h ti vr cnt p s = _; unfold execMacc issue; exact rfl
theorem framed_macw (h ti vr cnt p cl s) : ∃ body, exec (.macw h ti vr cnt p cl) s = issueAs false h ([]) s body := by
  apply Exists.intro; show execMacw h ti vr cnt p cl s = _; unfold execMacw issue; exact rfl
theorem framed_mzeroOpen (h cnt s) : ∃ body, exec (.mzeroOpen h cnt) s = issueAs false h ([]) s body := by
  apply Exists.intro; show execMzeroOpen h cnt s = _; unfold execMzeroOpen issue; exact rfl
theorem framed_mzero (h ti cl s) : ∃ body, exec (.mzero h ti cl) s = issueAs false h ([]) s body := by
  apply Exists.intro; show execMzero h ti cl s = _; unfold execMzero issue; exact rfl
theorem framed_mmode (h rnd zlog sa s) : ∃ body, exec (.mmode h rnd zlog sa) s = issueAs false h ([sa]) s body := by
  apply Exists.intro; show execMmode h rnd zlog sa s = _; unfold execMmode issue; exact rfl
theorem framed_mlagset (h n s) : ∃ body, exec (.mlagset h n) s = issueAs false h ([]) s body := by
  apply Exists.intro; show execMlagset h n s = _; unfold execMlagset issue; exact rfl
theorem framed_mmerge (h ti kk np tag topk dao cl s) : ∃ body, exec (.mmerge h ti kk np tag topk dao cl) s = issueAs false h ([]) s body := by
  apply Exists.intro; show execMmerge h ti kk np tag topk dao cl s = _; unfold execMmerge issue; exact rfl
theorem framed_descStep (h o s) : ∃ body, exec (.descStep h o) s = issueAs false h ([o.sb]) s body := by
  apply Exists.intro; show execDescStep h o s = _; unfold execDescStep issue; exact rfl
theorem framed_descWalk (h o s) : ∃ body, exec (.descWalk h o) s = issueAs false h ([o.sb]) s body := by
  apply Exists.intro; show execDescWalk h o s = _; unfold execDescWalk issue; exact rfl
theorem framed_descPath (h vr s) : ∃ body, exec (.descPath h vr) s = issueAs false h ([]) s body := by
  apply Exists.intro; show execDescPath h vr s = _; unfold execDescPath issue; exact rfl
theorem framed_descPathLoad (h vr s) : ∃ body, exec (.descPathLoad h vr) s = issueAs false h ([]) s body := by
  apply Exists.intro; show execDescPathLoad h vr s = _; unfold execDescPathLoad issue; exact rfl
theorem framed_descGroup (h gc sa sb vr keys spill bias g1 cap s) : ∃ body, exec (.descGroup h gc sa sb vr keys spill bias g1 cap) s = issueAs false h ([sa, sb]) s body := by
  apply Exists.intro; show execDescGroup h gc sa sb vr keys spill bias g1 cap s = _; unfold execDescGroup issue; exact rfl
theorem framed_vadd (h o b rnd s) : ∃ body, exec (.vadd h o b rnd) s = issueAs false h (vsrcRegs b) s body := by
  apply Exists.intro; show execVadd h o b rnd s = _; unfold execVadd lanewise issueV issue; exact rfl
theorem framed_vsub (h o b rnd s) : ∃ body, exec (.vsub h o b rnd) s = issueAs false h (vsrcRegs b) s body := by
  apply Exists.intro; show execVsub h o b rnd s = _; unfold execVsub lanewise issueV issue; exact rfl
theorem framed_vmul (h o b rnd s) : ∃ body, exec (.vmul h o b rnd) s = issueAs false h (vsrcRegs b) s body := by
  apply Exists.intro; show execVmul h o b rnd s = _; unfold execVmul lanewise issueV issue; exact rfl
theorem framed_vfma (h o b vc rnd s) : ∃ body, exec (.vfma h o b vc rnd) s = issueAs false h (vsrcRegs b) s body := by
  apply Exists.intro; show execVfma h o b vc rnd s = _; unfold execVfma lanewise issueV issue; exact rfl
theorem framed_vfms (h o b vc rnd s) : ∃ body, exec (.vfms h o b vc rnd) s = issueAs false h (vsrcRegs b) s body := by
  apply Exists.intro; show execVfms h o b vc rnd s = _; unfold execVfms lanewise issueV issue; exact rfl
theorem framed_vmin (h o b s) : ∃ body, exec (.vmin h o b) s = issueAs false h (vsrcRegs b) s body := by
  apply Exists.intro; show execVmin h o b s = _; unfold execVmin lanewise2 lanewise issueV issue; exact rfl
theorem framed_vmax (h o b s) : ∃ body, exec (.vmax h o b) s = issueAs false h (vsrcRegs b) s body := by
  apply Exists.intro; show execVmax h o b s = _; unfold execVmax lanewise2 lanewise issueV issue; exact rfl
theorem framed_vabs (h o s) : ∃ body, exec (.vabs h o) s = issueAs false h ([]) s body := by
  apply Exists.intro; show execVabs h o s = _; unfold execVabs lanewise1 lanewise issueV issue; exact rfl
theorem framed_vneg (h o s) : ∃ body, exec (.vneg h o) s = issueAs false h ([]) s body := by
  apply Exists.intro; show execVneg h o s = _; unfold execVneg lanewise1 lanewise issueV issue; exact rfl
theorem framed_vrcp (h o rnd s) : ∃ body, exec (.vrcp h o rnd) s = issueAs false h ([]) s body := by
  apply Exists.intro; show execVrcp h o rnd s = _; unfold execVrcp lanewiseSpecial lanewise issueV issue; exact rfl
theorem framed_vrsq (h o rnd s) : ∃ body, exec (.vrsq h o rnd) s = issueAs false h ([]) s body := by
  apply Exists.intro; show execVrsq h o rnd s = _; unfold execVrsq lanewiseSpecial lanewise issueV issue; exact rfl
theorem framed_vsqrt (h o rnd s) : ∃ body, exec (.vsqrt h o rnd) s = issueAs false h ([]) s body := by
  apply Exists.intro; show execVsqrt h o rnd s = _; unfold execVsqrt lanewiseSpecial lanewise issueV issue; exact rfl
theorem framed_vdiv (h o b rnd s) : ∃ body, exec (.vdiv h o b rnd) s = issueAs false h (vsrcRegs b) s body := by
  apply Exists.intro; show execVdiv h o b rnd s = _; unfold execVdiv lanewise issueV issue; exact rfl
theorem framed_vexp2 (h o rnd s) : ∃ body, exec (.vexp2 h o rnd) s = issueAs false h ([]) s body := by
  apply Exists.intro; show execVexp2 h o rnd s = _; unfold execVexp2 lanewiseSpecial lanewise issueV issue; exact rfl
theorem framed_vlog2 (h o rnd s) : ∃ body, exec (.vlog2 h o rnd) s = issueAs false h ([]) s body := by
  apply Exists.intro; show execVlog2 h o rnd s = _; unfold execVlog2 lanewiseSpecial lanewise issueV issue; exact rfl
theorem framed_vtanh (h o rnd s) : ∃ body, exec (.vtanh h o rnd) s = issueAs false h ([]) s body := by
  apply Exists.intro; show execVtanh h o rnd s = _; unfold execVtanh lanewiseSpecial lanewise issueV issue; exact rfl
theorem framed_vsigm (h o rnd s) : ∃ body, exec (.vsigm h o rnd) s = issueAs false h ([]) s body := by
  apply Exists.intro; show execVsigm h o rnd s = _; unfold execVsigm lanewiseSpecial lanewise issueV issue; exact rfl
theorem framed_vcmp (h md va b mk z cc s) : ∃ body, exec (.vcmp h md va b mk z cc) s = issueAs false h (vsrcRegs b) s body := by
  apply Exists.intro; show execVcmp h md va b mk z cc s = _; unfold execVcmp issueV issue; exact rfl
theorem framed_vsel (h vd va b mk s) : ∃ body, exec (.vsel h vd va b mk) s = issueAs false h (vsrcRegs b) s body := by
  apply Exists.intro; show execVsel h vd va b mk s = _; unfold execVsel issueV issue; exact rfl
theorem framed_viadd (h o b s) : ∃ body, exec (.viadd h o b) s = issueAs false h (vsrcRegs b) s body := by
  apply Exists.intro; show execViadd h o b s = _; unfold execViadd lanewise2 lanewise issueV issue; exact rfl
theorem framed_visub (h o b s) : ∃ body, exec (.visub h o b) s = issueAs false h (vsrcRegs b) s body := by
  apply Exists.intro; show execVisub h o b s = _; unfold execVisub lanewise2 lanewise issueV issue; exact rfl
theorem framed_vimul (h o b s) : ∃ body, exec (.vimul h o b) s = issueAs false h (vsrcRegs b) s body := by
  apply Exists.intro; show execVimul h o b s = _; unfold execVimul lanewise2 lanewise issueV issue; exact rfl
theorem framed_vimad (h o b vc s) : ∃ body, exec (.vimad h o b vc) s = issueAs false h (vsrcRegs b) s body := by
  apply Exists.intro; show execVimad h o b vc s = _; unfold execVimad lanewise issueV issue; exact rfl
theorem framed_vand (h o b s) : ∃ body, exec (.vand h o b) s = issueAs false h (vsrcRegs b) s body := by
  apply Exists.intro; show execVand h o b s = _; unfold execVand lanewise2 lanewise issueV issue; exact rfl
theorem framed_vor (h o b s) : ∃ body, exec (.vor h o b) s = issueAs false h (vsrcRegs b) s body := by
  apply Exists.intro; show execVor h o b s = _; unfold execVor lanewise2 lanewise issueV issue; exact rfl
theorem framed_vxor (h o b s) : ∃ body, exec (.vxor h o b) s = issueAs false h (vsrcRegs b) s body := by
  apply Exists.intro; show execVxor h o b s = _; unfold execVxor lanewise2 lanewise issueV issue; exact rfl
theorem framed_vnot (h o s) : ∃ body, exec (.vnot h o) s = issueAs false h ([]) s body := by
  apply Exists.intro; show execVnot h o s = _; unfold execVnot lanewise1 lanewise issueV issue; exact rfl
theorem framed_vshl (h o b s) : ∃ body, exec (.vshl h o b) s = issueAs false h (vsrcRegs b) s body := by
  apply Exists.intro; show execVshl h o b s = _; unfold execVshl lanewise2 lanewise issueV issue; exact rfl
theorem framed_vshr (h o b s) : ∃ body, exec (.vshr h o b) s = issueAs false h (vsrcRegs b) s body := by
  apply Exists.intro; show execVshr h o b s = _; unfold execVshr lanewise2 lanewise issueV issue; exact rfl
theorem framed_vsra (h o b s) : ∃ body, exec (.vsra h o b) s = issueAs false h (vsrcRegs b) s body := by
  apply Exists.intro; show execVsra h o b s = _; unfold execVsra lanewise2 lanewise issueV issue; exact rfl
theorem framed_vbfx (h o f sx s) : ∃ body, exec (.vbfx h o f sx) s = issueAs false h (vsrcRegs f) s body := by
  apply Exists.intro; show execVbfx h o f sx s = _; unfold execVbfx lanewise2 lanewise issueV issue; exact rfl
theorem framed_vbfi (h o f vc s) : ∃ body, exec (.vbfi h o f vc) s = issueAs false h (vsrcRegs f) s body := by
  apply Exists.intro; show execVbfi h o f vc s = _; unfold execVbfi lanewise issueV issue; exact rfl
theorem framed_vpopc (h o s) : ∃ body, exec (.vpopc h o) s = issueAs false h ([]) s body := by
  apply Exists.intro; show execVpopc h o s = _; unfold execVpopc lanewise1 lanewise issueV issue; exact rfl
theorem framed_vclz (h o s) : ∃ body, exec (.vclz h o) s = issueAs false h ([]) s body := by
  apply Exists.intro; show execVclz h o s = _; unfold execVclz lanewise1 lanewise issueV issue; exact rfl
theorem framed_vfshl (h o vb n s) : ∃ body, exec (.vfshl h o vb n) s = issueAs false h (vsrcRegs n) s body := by
  apply Exists.intro; show execVfshl h o vb n s = _; unfold execVfshl funnelOp lanewise issueV issue; exact rfl
theorem framed_vfshr (h o vb n s) : ∃ body, exec (.vfshr h o vb n) s = issueAs false h (vsrcRegs n) s body := by
  apply Exists.intro; show execVfshr h o vb n s = _; unfold execVfshr funnelOp lanewise issueV issue; exact rfl
theorem framed_vcvtI2f (h o u rnd s) : ∃ body, exec (.vcvtI2f h o u rnd) s = issueAs false h ([]) s body := by
  apply Exists.intro; show execVcvtI2f h o u rnd s = _; unfold execVcvtI2f lanewise issueV issue; exact rfl
theorem framed_vcvtF2i (h o u rnd s) : ∃ body, exec (.vcvtF2i h o u rnd) s = issueAs false h ([]) s body := by
  apply Exists.intro; show execVcvtF2i h o u rnd s = _; unfold execVcvtF2i lanewise issueV issue; exact rfl
theorem framed_vidot4 (h o b vc ua ub s) : ∃ body, exec (.vidot4 h o b vc ua ub) s = issueAs false h (vsrcRegs b) s body := by
  apply Exists.intro; show execVidot4 h o b vc ua ub s = _; unfold execVidot4 lanewise issueV issue; exact rfl
theorem framed_vidot8 (h o b vc ua ub s) : ∃ body, exec (.vidot8 h o b vc ua ub) s = issueAs false h (vsrcRegs b) s body := by
  apply Exists.intro; show execVidot8 h o b vc ua ub s = _; unfold execVidot8 lanewise issueV issue; exact rfl
theorem framed_vredr (h vd va mk op rnd s) : ∃ body, exec (.vredr h vd va mk op rnd) s = issueAs false h ([]) s body := by
  apply Exists.intro; show execVredr h vd va mk op rnd s = _; unfold execVredr issueV issue; exact rfl
theorem framed_vredc (h vd va mk op rnd s) : ∃ body, exec (.vredc h vd va mk op rnd) s = issueAs false h ([]) s body := by
  apply Exists.intro; show execVredc h vd va mk op rnd s = _; unfold execVredc issueV issue; exact rfl
theorem framed_vrotr (h o ss imm s) : ∃ body, exec (.vrotr h o ss imm) s = issueAs false h ([ss]) s body := by
  apply Exists.intro; show execVrotr h o ss imm s = _; unfold execVrotr moved issueV issue; exact rfl
theorem framed_vrotc (h o ss imm s) : ∃ body, exec (.vrotc h o ss imm) s = issueAs false h ([ss]) s body := by
  apply Exists.intro; show execVrotc h o ss imm s = _; unfold execVrotc moved issueV issue; exact rfl
theorem framed_vbcr (h o ss imm s) : ∃ body, exec (.vbcr h o ss imm) s = issueAs false h ([ss]) s body := by
  apply Exists.intro; show execVbcr h o ss imm s = _; unfold execVbcr moved issueV issue; exact rfl
theorem framed_vbcc (h o ss imm s) : ∃ body, exec (.vbcc h o ss imm) s = issueAs false h ([ss]) s body := by
  apply Exists.intro; show execVbcc h o ss imm s = _; unfold execVbcc moved issueV issue; exact rfl
theorem framed_vscanr (h vd va mk op rnd ex s) : ∃ body, exec (.vscanr h vd va mk op rnd ex) s = issueAs false h ([]) s body := by
  apply Exists.intro; show execVscanr h vd va mk op rnd ex s = _; unfold execVscanr issueV issue; exact rfl
theorem framed_viota (h vd pat imm mk z s) : ∃ body, exec (.viota h vd pat imm mk z) s = issueAs false h ([]) s body := by
  apply Exists.intro; show execViota h vd pat imm mk z s = _; unfold execViota moved issueV issue; exact rfl
theorem framed_vmov (h vd b mk z s) : ∃ body, exec (.vmov h vd b mk z) s = issueAs false h (vsrcRegs b) s body := by
  apply Exists.intro; show execVmov h vd b mk z s = _; unfold execVmov moved issueV issue; exact rfl
theorem framed_vmovs (h vd ss lane s) : ∃ body, exec (.vmovs h vd ss lane) s = issueAs false h ([ss]) s body := by
  apply Exists.intro; show execVmovs h vd ss lane s = _; unfold execVmovs issueV issue; exact rfl
theorem framed_vext (h ss va lane sx s) : ∃ body, exec (.vext h ss va lane sx) s = issueAs false h ([]) s body := by
  apply Exists.intro; show execVext h ss va lane sx s = _; unfold execVext issueV issue; exact rfl
theorem framed_vperm (h o b s) : ∃ body, exec (.vperm h o b) s = issueAs false h (vsrcRegs b) s body := by
  apply Exists.intro; show execVperm h o b s = _; unfold execVperm moved issueV issue; exact rfl
theorem framed_vsortc (h vd va vc n ss mk s) : ∃ body, exec (.vsortc h vd va vc n ss mk) s = issueAs false h ([]) s body := by
  apply Exists.intro; show execVsortc h vd va vc n ss mk s = _; unfold execVsortc issueV issue; exact rfl
theorem framed_vmand (h md ma mb s) : ∃ body, exec (.vmand h md ma mb) s = issueAs false h ([]) s body := by
  apply Exists.intro; show execVmand h md ma mb s = _; unfold execVmand issueV issue; exact rfl
theorem framed_vmor (h md ma mb s) : ∃ body, exec (.vmor h md ma mb) s = issueAs false h ([]) s body := by
  apply Exists.intro; show execVmor h md ma mb s = _; unfold execVmor issueV issue; exact rfl
theorem framed_vmxor (h md ma mb s) : ∃ body, exec (.vmxor h md ma mb) s = issueAs false h ([]) s body := by
  apply Exists.intro; show execVmxor h md ma mb s = _; unfold execVmxor issueV issue; exact rfl
theorem framed_vmnot (h md ma s) : ∃ body, exec (.vmnot h md ma) s = issueAs false h ([]) s body := by
  apply Exists.intro; show execVmnot h md ma s = _; unfold execVmnot issueV issue; exact rfl
theorem framed_vmpopc (h ss ma s) : ∃ body, exec (.vmpopc h ss ma) s = issueAs false h ([]) s body := by
  apply Exists.intro; show execVmpopc h ss ma s = _; unfold execVmpopc issueV issue; exact rfl
theorem framed_vmff (h ss ma s) : ∃ body, exec (.vmff h ss ma) s = issueAs false h ([]) s body := by
  apply Exists.intro; show execVmff h ss ma s = _; unfold execVmff issueV issue; exact rfl
theorem framed_vst (h r fmt cvt mk idx s) : ∃ body, exec (.vst h r fmt cvt mk idx) s = issueAs false h ([r.base, r.index]) s body := by
  apply Exists.intro; show execVst h r fmt cvt mk idx s = _; unfold execVst issue; exact rfl
theorem framed_vstAmx (h r fmt rnd amx idx s) : ∃ body, exec (.vstAmx h r fmt rnd amx idx) s = issueAs false h ([r.base, r.index]) s body := by
  apply Exists.intro; show execVstAmx h r fmt rnd amx idx s = _; unfold execVstAmx issue; exact rfl
theorem framed_vstAmxDrain (h base off amx s) : ∃ body, exec (.vstAmxDrain h base off amx) s = issueAs false h ([base]) s body := by
  apply Exists.intro; show execVstAmxDrain h base off amx s = _; unfold execVstAmxDrain issue; exact rfl
theorem framed_vsct (h va vb ss mk imm fmt cvt s) : ∃ body, exec (.vsct h va vb ss mk imm fmt cvt) s = issueAs false h ([ss]) s body := by
  apply Exists.intro; show execVsct h va vb ss mk imm fmt cvt s = _; unfold execVsct issueV issue; exact rfl
theorem framed_epi (h sa sb vr cnt fmt cvt act cols imm bias scale s) : ∃ body, exec (.epi h sa sb vr cnt fmt cvt act cols imm bias scale) s = issueAs false h ([sa, sb]) s body := by
  apply Exists.intro; show execEpi h sa sb vr cnt fmt cvt act cols imm bias scale s = _; unfold execEpi issue; exact rfl
theorem framed_stf (h r fmt cvt mk s) : ∃ body, exec (.stf h r fmt cvt mk) s = issueAs false h ([r.base, r.index]) s body := by
  apply Exists.intro; show execStf h r fmt cvt mk s = _; unfold execStf issue; exact rfl
theorem framed_fence (e h scope s) : ∃ body, exec (.fence e h scope) s = issueAs false h ([]) s body := by
  apply Exists.intro; show execFence e h scope s = _; unfold execFence issue; exact rfl
theorem framed_mark (e h s) : ∃ body, exec (.mark e h) s = issueAs false h ([]) s body := by
  apply Exists.intro; show execMark e h s = _; unfold execMark issue; exact rfl
theorem framed_barInit (e h sa sb sc imm scope tag wire s) : ∃ body, exec (.barInit e h sa sb sc imm scope tag wire) s = issueAs false h ([sa, sb, sc]) s body := by
  apply Exists.intro; show execBarInit e h sa sb sc imm scope tag wire s = _; unfold execBarInit issue; exact rfl
theorem framed_barInitInv (e h sa imm s) : ∃ body, exec (.barInitInv e h sa imm) s = issueAs false h ([sa]) s body := by
  apply Exists.intro; show execBarInitInv e h sa imm s = _; unfold execBarInitInv issue; exact rfl
theorem framed_barArv (e h sd sa imm s) : ∃ body, exec (.barArv e h sd sa imm) s = issueAs false h ([sd, sa]) s body := by
  apply Exists.intro; show execBarArv e h sd sa imm s = _; unfold execBarArv issue; exact rfl
theorem framed_barArvx (e h sd sa sb imm s) : ∃ body, exec (.barArvx e h sd sa sb imm) s = issueAs false h ([sd, sa, sb]) s body := by
  apply Exists.intro; show execBarArvx e h sd sa sb imm s = _; unfold execBarArvx issue; exact rfl
theorem framed_barWait (e h pd sa sb imm s) : ∃ body, exec (.barWait e h pd sa sb imm) s = issueAs false h ([sa, sb]) s body := by
  apply Exists.intro; show execBarWait e h pd sa sb imm s = _; unfold execBarWait issue; exact rfl
theorem framed_barTest (e h sd sa imm s) : ∃ body, exec (.barTest e h sd sa imm) s = issueAs false h ([sd, sa]) s body := by
  apply Exists.intro; show execBarTest e h sd sa imm s = _; unfold execBarTest issue; exact rfl
theorem framed_ringWf (e h sd g n far s) : ∃ body, exec (.ringWf e h sd g n far) s = issueAs false h (farRegs far) s body := by
  apply Exists.intro; show execRingWf e h sd g n far s = _; unfold execRingWf issue; exact rfl
theorem framed_ringWe (e h sd g n far s) : ∃ body, exec (.ringWe e h sd g n far) s = issueAs false h (farRegs far) s body := by
  apply Exists.intro; show execRingWe e h sd g n far s = _; unfold execRingWe issue; exact rfl
theorem framed_ringWeLoad (e h sd g sb s) : ∃ body, exec (.ringWeLoad e h sd g sb) s = issueAs false h ([sb]) s body := by
  apply Exists.intro; show execRingWeLoad e h sd g sb s = _; unfold execRingWeLoad issue; exact rfl
theorem framed_ringClm (e h sd g n far s) : ∃ body, exec (.ringClm e h sd g n far) s = issueAs false h (farRegs far) s body := by
  apply Exists.intro; show execRingClm e h sd g n far s = _; unfold execRingClm issue; exact rfl
theorem framed_ringPub (e h sd g n far s) : ∃ body, exec (.ringPub e h sd g n far) s = issueAs false h (farRegs far) s body := by
  apply Exists.intro; show execRingPub e h sd g n far s = _; unfold execRingPub issue; exact rfl
theorem framed_ringPop (e h sd g n far s) : ∃ body, exec (.ringPop e h sd g n far) s = issueAs false h (farRegs far) s body := by
  apply Exists.intro; show execRingPop e h sd g n far s = _; unfold execRingPop issue; exact rfl
theorem framed_qpop (e h sd q s) : ∃ body, exec (.qpop e h sd q) s = issueAs false h ([]) s body := by
  apply Exists.intro; show execQpop e h sd q s = _; unfold execQpop issue; exact rfl
theorem framed_qpopP (e h pd q s) : ∃ body, exec (.qpopP e h pd q) s = issueAs false h ([]) s body := by
  apply Exists.intro; show execQpopP e h pd q s = _; unfold execQpopP issue; exact rfl
theorem framed_trap (e h code s) : ∃ body, exec (.trap e h code) s = issueAs false h ([]) s body := by
  apply Exists.intro; show execTrap e h code s = _; unfold execTrap issue; exact rfl
/-- What `framed` says of an instruction is how exec runs it. -/
def FramedSays (i : Instr) : Option (Bool × Hdr × List SReg) → Prop
  | some (x, h, uses) => ∀ s, ∃ body, exec i s = issueAs x h uses s body
  | none => True

theorem framedSays (i : Instr) : FramedSays i (framed i) := by
  cases i with
  | add h sd sa b => exact fun s => framed_add h sd sa b s
  | sub h sd sa b => exact fun s => framed_sub h sd sa b s
  | mul h sd sa b => exact fun s => framed_mul h sd sa b s
  | mulh h sd sa b u => exact fun s => framed_mulh h sd sa b u s
  | div h sd sa b u => exact fun s => framed_div h sd sa b u s
  | rem h sd sa b u => exact fun s => framed_rem h sd sa b u s
  | and h sd sa b => exact fun s => framed_and h sd sa b s
  | or h sd sa b => exact fun s => framed_or h sd sa b s
  | xor h sd sa b => exact fun s => framed_xor h sd sa b s
  | shl h sd sa b => exact fun s => framed_shl h sd sa b s
  | shr h sd sa b => exact fun s => framed_shr h sd sa b s
  | sra h sd sa b => exact fun s => framed_sra h sd sa b s
  | rol h sd sa b => exact fun s => framed_rol h sd sa b s
  | ror h sd sa b => exact fun s => framed_ror h sd sa b s
  | min h sd sa b u => exact fun s => framed_min h sd sa b u s
  | max h sd sa b u => exact fun s => framed_max h sd sa b u s
  | clz h sd sa => exact fun s => framed_clz h sd sa s
  | ctz h sd sa => exact fun s => framed_ctz h sd sa s
  | popc h sd sa => exact fun s => framed_popc h sd sa s
  | brev h sd sa => exact fun s => framed_brev h sd sa s
  | bfx h sd sa f => exact fun s => framed_bfx h sd sa f s
  | bfxs h sd sa f => exact fun s => framed_bfxs h sd sa f s
  | bfi h sd sa f sc => exact fun s => framed_bfi h sd sa f sc s
  | sext h sd sa sz => exact fun s => framed_sext h sd sa sz s
  | li h sd imm => exact fun s => framed_li h sd imm s
  | addx h sd sa sb sh imm => exact fun s => framed_addx h sd sa sb sh imm s
  | cmp h pd sa b cc => exact fun s => framed_cmp h pd sa b cc s
  | pand h pd pa pb na nb => exact fun s => framed_pand h pd pa pb na nb s
  | por h pd pa pb na nb => exact fun s => framed_por h pd pa pb na nb s
  | pxor h pd pa pb na nb => exact fun s => framed_pxor h pd pa pb na nb s
  | pnot h pd pa => exact fun s => framed_pnot h pd pa s
  | sel h sd sa b pc => exact fun s => framed_sel h sd sa b pc s
  | sfadd h sd sa b rnd => exact fun s => framed_sfadd h sd sa b rnd s
  | sfmul h sd sa b rnd => exact fun s => framed_sfmul h sd sa b rnd s
  | sffma h sd sa sb sc rnd => exact fun s => framed_sffma h sd sa sb sc rnd s
  | sfdiv h sd sa b rnd => exact fun s => framed_sfdiv h sd sa b rnd s
  | sfcvt h sd sa op rnd => exact fun s => framed_sfcvt h sd sa op rnd s
  | ld h sd sa sb imm sz u => exact fun s => framed_ld h sd sa sb imm sz u s
  | st h sa sb sc imm sz => exact fun s => framed_st h sa sb sc imm sz s
  | lda h sd sa sb imm sz u scope => exact fun s => framed_lda h sd sa sb imm sz u scope s
  | stl h sa sb sc imm sz scope => exact fun s => framed_stl h sa sb sc imm sz scope s
  | amoAdd h o => exact fun s => framed_amoAdd h o s
  | amoAnd h o => exact fun s => framed_amoAnd h o s
  | amoOr h o => exact fun s => framed_amoOr h o s
  | amoXor h o => exact fun s => framed_amoXor h o s
  | amoMin h o u => exact fun s => framed_amoMin h o u s
  | amoMax h o u => exact fun s => framed_amoMax h o u s
  | amoXchg h o => exact fun s => framed_amoXchg h o s
  | amoCas h o sc => exact fun s => framed_amoCas h o sc s
  | amoFadd h o => exact fun s => framed_amoFadd h o s
  | amoFaddTree h sa sb sc imm rel scope => exact fun s => framed_amoFaddTree h sa sb sc imm rel scope s
  | amoFmin h o => exact fun s => framed_amoFmin h o s
  | amoFmax h o => exact fun s => framed_amoFmax h o s
  | qpush h q b => exact fun s => framed_qpush h q b s
  | mfs h sd n => exact fun s => framed_mfs h sd n s
  | mts h n sa => exact fun s => framed_mts h n sa s
  | poolAlloc h sd sa mir pref given => exact fun s => framed_poolAlloc h sd sa mir pref given s
  | poolFree h sd sa => exact fun s => framed_poolFree h sd sa s
  | poolStat h sd sa sb => exact fun s => framed_poolStat h sd sa sb s
  | ownAcq h sd sa => exact fun s => framed_ownAcq h sd sa s
  | ownRel h sd sa => exact fun s => framed_ownRel h sd sa s
  | ownTest h sd sa => exact fun s => framed_ownTest h sd sa s
  | sreRun h sd sa => exact fun s => framed_sreRun h sd sa s
  | watchSet h n sa size rd wr => exact fun s => framed_watchSet h n sa size rd wr s
  | syscall h sa code => exact fun s => framed_syscall h sa code s
  | tlbInv h sa sb kind => exact fun s => framed_tlbInv h sa sb kind s
  | ctxSave h sd sa full rel => exact fun s => framed_ctxSave h sd sa full rel s
  | ctxLoad h sd sa => exact fun s => framed_ctxLoad h sd sa s
  | ctxResume h fin => exact fun s => framed_ctxResume h fin s
  | ctxSwitch h => exact fun s => framed_ctxSwitch h s
  | vld h r fmt mk z idx => exact fun s => framed_vld h r fmt mk z idx s
  | vldRaw h r fmt mk z idx => exact fun s => framed_vldRaw h r fmt mk z idx s
  | vldb h r fmt mk z idx shape => exact fun s => framed_vldb h r fmt mk z idx shape s
  | pref h r x => exact fun s => framed_pref h r x s
  | copy h o => exact fun s => framed_copy h o s
  | copyEnc h o => exact fun s => framed_copyEnc h o s
  | copyDec h o => exact fun s => framed_copyDec h o s
  | copyExport h o => exact fun s => framed_copyExport h o s
  | gather h o => exact fun s => framed_gather h o s
  | scatter h o => exact fun s => framed_scatter h o s
  | xchgAll h o => exact fun s => framed_xchgAll h o s
  | dld h dd sa imm => exact fun s => framed_dld h dd sa imm s
  | dst h ds sb imm => exact fun s => framed_dst h ds sb imm s
  | wpwait h sd ch sa imm => exact fun s => framed_wpwait h sd ch sa imm s
  | mma h t => exact fun s => framed_mma h t s
  | mmaG h t gc sa sb => exact fun s => framed_mmaG h t gc sa sb s
  | msd h t => exact fun s => framed_msd h t s
  | macc h ti vr cnt p => exact fun s => framed_macc h ti vr cnt p s
  | macw h ti vr cnt p cl => exact fun s => framed_macw h ti vr cnt p cl s
  | mzeroOpen h cnt => exact fun s => framed_mzeroOpen h cnt s
  | mzero h ti cl => exact fun s => framed_mzero h ti cl s
  | mmode h rnd zlog sa => exact fun s => framed_mmode h rnd zlog sa s
  | mlagset h n => exact fun s => framed_mlagset h n s
  | mmerge h ti kk np tag topk dao cl => exact fun s => framed_mmerge h ti kk np tag topk dao cl s
  | descStep h o => exact fun s => framed_descStep h o s
  | descWalk h o => exact fun s => framed_descWalk h o s
  | descPath h vr => exact fun s => framed_descPath h vr s
  | descPathLoad h vr => exact fun s => framed_descPathLoad h vr s
  | descGroup h gc sa sb vr keys spill bias g1 cap => exact fun s => framed_descGroup h gc sa sb vr keys spill bias g1 cap s
  | vadd h o b rnd => exact fun s => framed_vadd h o b rnd s
  | vsub h o b rnd => exact fun s => framed_vsub h o b rnd s
  | vmul h o b rnd => exact fun s => framed_vmul h o b rnd s
  | vfma h o b vc rnd => exact fun s => framed_vfma h o b vc rnd s
  | vfms h o b vc rnd => exact fun s => framed_vfms h o b vc rnd s
  | vmin h o b => exact fun s => framed_vmin h o b s
  | vmax h o b => exact fun s => framed_vmax h o b s
  | vabs h o => exact fun s => framed_vabs h o s
  | vneg h o => exact fun s => framed_vneg h o s
  | vrcp h o rnd => exact fun s => framed_vrcp h o rnd s
  | vrsq h o rnd => exact fun s => framed_vrsq h o rnd s
  | vsqrt h o rnd => exact fun s => framed_vsqrt h o rnd s
  | vdiv h o b rnd => exact fun s => framed_vdiv h o b rnd s
  | vexp2 h o rnd => exact fun s => framed_vexp2 h o rnd s
  | vlog2 h o rnd => exact fun s => framed_vlog2 h o rnd s
  | vtanh h o rnd => exact fun s => framed_vtanh h o rnd s
  | vsigm h o rnd => exact fun s => framed_vsigm h o rnd s
  | vcmp h md va b mk z cc => exact fun s => framed_vcmp h md va b mk z cc s
  | vsel h vd va b mk => exact fun s => framed_vsel h vd va b mk s
  | viadd h o b => exact fun s => framed_viadd h o b s
  | visub h o b => exact fun s => framed_visub h o b s
  | vimul h o b => exact fun s => framed_vimul h o b s
  | vimad h o b vc => exact fun s => framed_vimad h o b vc s
  | vand h o b => exact fun s => framed_vand h o b s
  | vor h o b => exact fun s => framed_vor h o b s
  | vxor h o b => exact fun s => framed_vxor h o b s
  | vnot h o => exact fun s => framed_vnot h o s
  | vshl h o b => exact fun s => framed_vshl h o b s
  | vshr h o b => exact fun s => framed_vshr h o b s
  | vsra h o b => exact fun s => framed_vsra h o b s
  | vbfx h o f sx => exact fun s => framed_vbfx h o f sx s
  | vbfi h o f vc => exact fun s => framed_vbfi h o f vc s
  | vpopc h o => exact fun s => framed_vpopc h o s
  | vclz h o => exact fun s => framed_vclz h o s
  | vfshl h o vb n => exact fun s => framed_vfshl h o vb n s
  | vfshr h o vb n => exact fun s => framed_vfshr h o vb n s
  | vcvtI2f h o u rnd => exact fun s => framed_vcvtI2f h o u rnd s
  | vcvtF2i h o u rnd => exact fun s => framed_vcvtF2i h o u rnd s
  | vidot4 h o b vc ua ub => exact fun s => framed_vidot4 h o b vc ua ub s
  | vidot8 h o b vc ua ub => exact fun s => framed_vidot8 h o b vc ua ub s
  | vredr h vd va mk op rnd => exact fun s => framed_vredr h vd va mk op rnd s
  | vredc h vd va mk op rnd => exact fun s => framed_vredc h vd va mk op rnd s
  | vrotr h o ss imm => exact fun s => framed_vrotr h o ss imm s
  | vrotc h o ss imm => exact fun s => framed_vrotc h o ss imm s
  | vbcr h o ss imm => exact fun s => framed_vbcr h o ss imm s
  | vbcc h o ss imm => exact fun s => framed_vbcc h o ss imm s
  | vscanr h vd va mk op rnd ex => exact fun s => framed_vscanr h vd va mk op rnd ex s
  | viota h vd pat imm mk z => exact fun s => framed_viota h vd pat imm mk z s
  | vmov h vd b mk z => exact fun s => framed_vmov h vd b mk z s
  | vmovs h vd ss lane => exact fun s => framed_vmovs h vd ss lane s
  | vext h ss va lane sx => exact fun s => framed_vext h ss va lane sx s
  | vperm h o b => exact fun s => framed_vperm h o b s
  | vsortc h vd va vc n ss mk => exact fun s => framed_vsortc h vd va vc n ss mk s
  | vmand h md ma mb => exact fun s => framed_vmand h md ma mb s
  | vmor h md ma mb => exact fun s => framed_vmor h md ma mb s
  | vmxor h md ma mb => exact fun s => framed_vmxor h md ma mb s
  | vmnot h md ma => exact fun s => framed_vmnot h md ma s
  | vmpopc h ss ma => exact fun s => framed_vmpopc h ss ma s
  | vmff h ss ma => exact fun s => framed_vmff h ss ma s
  | vst h r fmt cvt mk idx => exact fun s => framed_vst h r fmt cvt mk idx s
  | vstAmx h r fmt rnd amx idx => exact fun s => framed_vstAmx h r fmt rnd amx idx s
  | vstAmxDrain h base off amx => exact fun s => framed_vstAmxDrain h base off amx s
  | vsct h va vb ss mk imm fmt cvt => exact fun s => framed_vsct h va vb ss mk imm fmt cvt s
  | epi h sa sb vr cnt fmt cvt act cols imm bias scale => exact fun s => framed_epi h sa sb vr cnt fmt cvt act cols imm bias scale s
  | stf h r fmt cvt mk => exact fun s => framed_stf h r fmt cvt mk s
  | fence e h scope => exact fun s => framed_fence e h scope s
  | mark e h => exact fun s => framed_mark e h s
  | barInit e h sa sb sc imm scope tag wire => exact fun s => framed_barInit e h sa sb sc imm scope tag wire s
  | barInitInv e h sa imm => exact fun s => framed_barInitInv e h sa imm s
  | barArv e h sd sa imm => exact fun s => framed_barArv e h sd sa imm s
  | barArvx e h sd sa sb imm => exact fun s => framed_barArvx e h sd sa sb imm s
  | barWait e h pd sa sb imm => exact fun s => framed_barWait e h pd sa sb imm s
  | barTest e h sd sa imm => exact fun s => framed_barTest e h sd sa imm s
  | ringWf e h sd g n far => exact fun s => framed_ringWf e h sd g n far s
  | ringWe e h sd g n far => exact fun s => framed_ringWe e h sd g n far s
  | ringWeLoad e h sd g sb => exact fun s => framed_ringWeLoad e h sd g sb s
  | ringClm e h sd g n far => exact fun s => framed_ringClm e h sd g n far s
  | ringPub e h sd g n far => exact fun s => framed_ringPub e h sd g n far s
  | ringPop e h sd g n far => exact fun s => framed_ringPop e h sd g n far s
  | qpop e h sd q => exact fun s => framed_qpop e h sd q s
  | qpopP e h pd q => exact fun s => framed_qpopP e h pd q s
  | trap e h code => exact fun s => framed_trap e h code s
  | nop => exact trivial
  | br => exact trivial
  | brc => exact trivial
  | call => exact trivial
  | ret => exact trivial
  | loop => exact trivial
  | halt => exact trivial
  | launch => exact trivial
  | launchNw => exact trivial
  | ckpt => exact trivial
  | yield => exact trivial
  | queueTimeout => exact trivial
  | ckptTimeout => exact trivial
  | deferredTrap => exact trivial
  | copyLand => exact trivial
  | xchgAccept => exact trivial
  | bWindowLoad => exact trivial
  | tileCommandComplete => exact trivial
  | partialDeliver => exact trivial
  | mergePartials => exact trivial
  | tileRelocate => exact trivial
  | relocatedTileReturn => exact trivial
  | atomicPerform => exact trivial
  | barWaitRelease => exact trivial
  | pageWalk => exact trivial
  | iterationStart => exact trivial
  | iterationEnd => exact trivial
  | recordIssue => exact trivial
  | recordComplete => exact trivial
  | stealProbe => exact trivial
  | stealAnswer => exact trivial
  | stealGrant => exact trivial
  | stealReport => exact trivial
  | lqTail => exact trivial
  | tguCancel => exact trivial
  | preemptReq => exact trivial
  | preemptQuiesce => exact trivial
  | peerAccess => exact trivial
  | poolAccess => exact trivial
  | ownRevoke => exact trivial
  | switchFail => exact trivial
  | switchRebuildDone => exact trivial
  | stfFlagUpdate => exact trivial
  | dfreeze => exact trivial
  | sreJobStart => exact trivial
  | sreJobComplete => exact trivial
  | hostBarWrite => exact trivial
  | hostBarRead => exact trivial
  | registerWrite => exact trivial
  | start => exact trivial
  | startTimeout => exact trivial
  | evqHead => exact trivial
  | pwrLimit => exact trivial
  | powerSample => exact trivial
  | telemetryRefresh => exact trivial
  | scrubUnit => exact trivial
  | accessPerformed => exact trivial
  | tileCommandStart => exact trivial
  | barrierOperation => exact trivial
  | ringFarOperation => exact trivial
  | ownershipRequest => exact trivial
  | switchRepair => exact trivial
  | peerLeavesService => exact trivial
  | peerReturnsToService => exact trivial
  | cellAssign => exact trivial
  | tguTakeEntry => exact trivial
  | walkerGiveBack => exact trivial
  | agingStep => exact trivial
  | stealPauseExpire => exact trivial
  | bootRestart => exact trivial
  | bootClearFails => exact trivial
  | bootRestartMinimal => exact trivial
  | recBegin => exact trivial
  | recPiece => exact trivial
  | recCommit => exact trivial
  | recAbort => exact trivial
  | attReport => exact trivial
  | attCert => exact trivial
  | pwrRun => exact trivial
  | pwrIdle => exact trivial
  | pwrStandby => exact trivial
  | pwrOff => exact trivial
  | pwrExitDone => exact trivial
  | supplyRemoved => exact trivial
  | resetPinAsserted => exact trivial

/-- Every framed instruction runs in the frame. -/
theorem exec_framed {i : Instr} {x : Bool} {h : Hdr} {uses : List SReg} (hi : framed i = some (x, h, uses)) (s : State) :
    ∃ body, exec i s = issueAs x h uses s body := by
  have := framedSays i
  rw [hi] at this
  exact this s

/-! ## What passing and waiting leave unchanged -/

@[simp] theorem State.stallOn_cur (s : State) (c : Nat) (e : Eng) (why : Stall) : (s.stallOn c e why).cur = s.cur := rfl

/-- Counting an event changes performance counters alone. -/
theorem Cell.count_eq (x : Cell) (ev n : Nat) : ∃ p, x.count ev n = { x with pcnt := p } := by
  suffices ∀ (l : List (Nat × BitVec 17)) (y : Cell), ∃ p, l.foldl (fun y e =>
      if e.2.getLsbD 16 && e.2.toNat % 65536 == ev then
        { y with pcnt := tabSet 0#64 y.pcnt e.1 (tabGet 0#64 y.pcnt e.1 + BitVec.ofNat 64 n) }
      else y) y = { y with pcnt := p } from this x.pevsel x
  intro l
  induction l with
  | nil => exact fun y => ⟨y.pcnt, rfl⟩
  | cons a r ih =>
    intro y
    rw [List.foldl_cons]
    split
    · obtain ⟨p, hp⟩ := ih { y with pcnt := tabSet 0#64 y.pcnt a.1 (tabGet 0#64 y.pcnt a.1 + BitVec.ofNat 64 n) }
      exact ⟨p, hp⟩
    · exact ih y

/-- Showing pushes changes token counters alone. -/
theorem Cell.showPushes_eq (x : Cell) (e : Eng) (r : Retire) :
    ∃ t u, x.showPushes e r = { x with tok := t, tokReserved := u } := ⟨_, _, rfl⟩

theorem Cell.showAll_eq (x : Cell) (e : Eng) (rs : List Retire) :
    ∃ t u, rs.foldl (fun x r => x.showPushes e r) x = { x with tok := t, tokReserved := u } := by
  induction rs generalizing x with
  | nil => exact ⟨_, _, rfl⟩
  | cons r rest ih =>
    obtain ⟨t, u, h⟩ := ih (x.showPushes e r)
    exact ⟨t, u, h⟩

/-- Retiring changes token counters and the retirement list alone. -/
theorem Cell.flush_eq (x : Cell) (e : Eng) :
    ∃ t u r, x.flush e = { (x.setEng e { x.eng e with retire := r }) with tok := t, tokReserved := u } := by
  unfold Cell.flush
  extract_lets ready now rest
  by_cases hn : now.isEmpty
  · exact ⟨x.tok, x.tokReserved, (x.eng e).retire, by rw [if_pos hn]; cases x; cases e <;> rfl⟩
  · obtain ⟨t, u, h⟩ := Cell.showAll_eq x e now
    refine ⟨t, u, rest, ?_⟩
    rw [if_neg hn, h]
    cases e <;> rfl

/-- Pushing tokens changes the same. -/
theorem Cell.pushTokens_eq (x : Cell) (e : Eng) (h : Hdr) :
    ∃ t u r, x.pushTokens e h = { (x.setEng e { x.eng e with retire := r }) with tok := t, tokReserved := u } := by
  unfold Cell.pushTokens
  split
  · obtain ⟨t, u, r, hf⟩ := Cell.flush_eq
      (x.setEng e { x.eng e with retire := (x.eng e).retire ++ [{ stamp := (x.eng e).nextId, rq := h.rq, fq := h.fq }] }) e
    exact ⟨t, u, r, by rw [hf]; cases e <;> rfl⟩
  · exact ⟨x.tok, x.tokReserved, (x.eng e).retire, by cases x; cases e <;> rfl⟩

/-- An engine that has passed: its program counter, step count and marks, the cell's token counters; nothing else. -/
theorem State.finish_eq (s : State) (c : Nat) (e : Eng) (h : Hdr) (popped : Bool) (target : Word) :
    ∃ t u r, s.finish c e h popped target = s.modCell c fun x =>
      { (x.setEng e { x.eng e with
          retire := r, pc := target, step := (x.eng e).step + 1, stall := .none, stalled := [], progress := none
          flight := none, arrived := false, resolved := false, watchPass := false }) with tok := t, tokReserved := u } := by
  unfold State.finish State.pass State.modEng
  obtain ⟨t, u, r, hp⟩ := Cell.pushTokens_eq (if popped then s.cell c else (s.cell c).takeTokens e h) e h
  refine ⟨t, u, r, ?_⟩
  simp only [State.modCell, State.cell_setCell, if_true, State.setCell_setCell, hp]
  congr 1
  cases popped <;> cases e <;> rfl

/-- A change of the executing cell that f and the frame do not see is kept. -/
theorem keeps_modHere {f : Eng → Cell → Cell} {s : State} {g : Cell → Cell}
    (h : (f s.cur.eng (g s.here)).frame s.cur.eng = (f s.cur.eng s.here).frame s.cur.eng) : Keeps f s (s.modHere g) := by
  refine ⟨?_, fun k => rfl⟩
  simp only [State.modHere, State.modCell_modCell, State.modCell_cur]
  simp only [State.modCell]
  congr 1

theorem Keeps.trans {f : Eng → Cell → Cell} {s t u : State} (h1 : Keeps f s t) (h2 : Keeps f t u) : Keeps f s u := by
  have hc : t.cur = s.cur := by simpa only [State.modHere_cur] using congrArg State.cur h1.1
  refine ⟨?_, fun k => (h2.2 k).trans (h1.2 k)⟩
  have h3 := h2.1
  rw [hc] at h3
  exact h3.trans h1.1

theorem Keeps.refl (f : Eng → Cell → Cell) (s : State) : Keeps f s s := ⟨rfl, fun _ => rfl⟩

/-- What an instruction puts out of sight is blind to the frame: the marks of passing do not show through it. -/
def Blind (f : Eng → Cell → Cell) : Prop :=
  ∀ (e : Eng) (x y : Cell), x.frame e = y.frame e → (f e x).frame e = (f e y).frame e

theorem blind_nothing : Blind nothing := fun _ _ _ h => h

theorem keeps_stallOn {f : Eng → Cell → Cell} (hf : Blind f) (s : State) (why : Stall) :
    Keeps f s (s.stallOn s.cur.cell s.cur.eng why) := by
  refine keeps_modHere (g := fun x => x.setEng s.cur.eng { x.eng s.cur.eng with stall := why, stalled := [] }) ?_
  refine hf _ _ _ ?_
  unfold Cell.frame
  cases s.cur.eng <;> rfl

theorem keeps_starve {f : Eng → Cell → Cell} (hf : Blind f) (s : State) (ks : List Nat) :
    Keeps f s (s.starve s.cur.cell s.cur.eng ks) := by
  refine keeps_modHere (g := fun x => x.setEng s.cur.eng { x.eng s.cur.eng with
    stall := .queue
    stalled := ks.map fun k =>
      (k, (((x.eng s.cur.eng).stalled.find? fun w => w.1 == k).map (·.2)).getD s.cycle) }) ?_
  refine hf _ _ _ ?_
  unfold Cell.frame
  cases s.cur.eng <;> rfl

theorem keeps_finish {f : Eng → Cell → Cell} (hf : Blind f) (s : State) (h : Hdr) (popped : Bool) (target : Word) :
    Keeps f s (s.finish s.cur.cell s.cur.eng h popped target) := by
  obtain ⟨t, u, r, he⟩ := State.finish_eq s s.cur.cell s.cur.eng h popped target
  rw [he]
  refine keeps_modHere (hf _ _ _ ?_)
  unfold Cell.frame
  cases s.cur.eng <;> rfl

theorem keeps_count {f : Eng → Cell → Cell} (hf : Blind f) (s : State) (ev n : Nat) :
    Keeps f s (s.count s.cur.cell ev n) := by
  unfold State.count
  split
  · exact Keeps.refl f s
  · obtain ⟨p, hp⟩ := Cell.count_eq s.here ev n
    refine keeps_modHere (g := fun x => x.count ev n) (hf _ _ _ ?_)
    show Cell.frame _ (s.here.count ev n) = _
    rw [hp]
    unfold Cell.frame
    cases s.cur.eng <;> rfl

@[simp] theorem State.finish_cur (s : State) (c : Nat) (e : Eng) (h : Hdr) (popped : Bool) (target : Word) :
    (s.finish c e h popped target).cur = s.cur := rfl

@[simp] theorem State.count_cur (s : State) (c ev n : Nat) : (s.count c ev n).cur = s.cur := by
  unfold State.count; split <;> rfl

/-- Passing keeps everything but the frame. -/
theorem keeps_afterTo {f : Eng → Cell → Cell} (hf : Blind f) (s t : State) (h : Hdr) (target : Word) (hc : t.cur = s.cur) :
    Keeps f t (s.afterTo h t target) := by
  unfold State.afterTo
  have h1 := keeps_count hf t (0x10 + engNum s.cur.eng) 1
  have h2 := keeps_finish hf (t.count t.cur.cell (0x10 + engNum s.cur.eng) 1) h s.me.resumes target
  rw [State.count_cur] at h2
  rw [hc] at h1 h2
  exact h1.trans h2

/-- Where an engine stands once it has passed. -/
theorem passes_finish (s : State) (h : Hdr) (popped : Bool) (target : Word) :
    Passes s (s.finish s.cur.cell s.cur.eng h popped target) target := by
  obtain ⟨t, u, r, he⟩ := State.finish_eq s s.cur.cell s.cur.eng h popped target
  refine ⟨rfl, ?_⟩
  rw [he]
  simp only [State.me, State.eng, State.cell_modCell, State.modCell_cur, if_true]
  cases s.cur.eng <;> exact ⟨rfl, rfl, rfl⟩

end Sys2Proof.Machine
end

