-- ==== Sys2Proof/Laws/After.lean ====
section
/-! SUPPORT. What is read of a state in which an instruction has passed: everything but the engine's marks, the token
counters and the performance counters is what the instruction's own effect left. -/

namespace Sys2Proof.Machine

/-- The cell of an engine that has passed. -/
theorem State.afterTo_eq (s t : State) (h : Hdr) (target : Word) (hc : t.cur = s.cur) :
    ∃ p k u r, s.afterTo h t target = t.modHere fun x =>
      { (x.setEng s.cur.eng { x.eng s.cur.eng with
          retire := r, pc := target, step := (x.eng s.cur.eng).step + 1, stall := .none, stalled := [], progress := none
          flight := none, arrived := false, resolved := false, watchPass := false }) with tok := k, tokReserved := u, pcnt := p } := by
  unfold State.afterTo
  obtain ⟨k, u, r, he⟩ := State.finish_eq (t.count s.cur.cell (0x10 + engNum s.cur.eng) 1) s.cur.cell s.cur.eng h s.me.resumes target
  have h1 : ∃ p, t.count s.cur.cell (0x10 + engNum s.cur.eng) 1 = t.modCell s.cur.cell fun x => { x with pcnt := p } := by
    unfold State.count
    rw [if_neg (by cases s.cur.eng <;> decide)]
    obtain ⟨p, hp⟩ := Cell.count_eq (t.cell s.cur.cell) (0x10 + engNum s.cur.eng) 1
    exact ⟨p, by simp only [State.modCell, hp]⟩
  obtain ⟨p, hp⟩ := h1
  refine ⟨p, k, u, r, ?_⟩
  rw [he, hp, State.modCell_modCell]
  unfold State.modHere
  rw [hc]
  congr 1
  funext x
  cases s.cur.eng <;> rfl

@[simp] theorem State.afterTo_cur (s t : State) (h : Hdr) (target : Word) : (s.afterTo h t target).cur = t.cur := by
  simp [State.afterTo]

/-- The engine stands at the target, one step further, where the effect left its step count alone. -/
theorem passes_afterTo {s t : State} (h : Hdr) (target : Word) (hc : t.cur = s.cur) (hs : t.me.step = s.me.step) :
    Passes s (s.afterTo h t target) target := by
  obtain ⟨p, k, u, r, he⟩ := State.afterTo_eq s t h target hc
  refine ⟨by rw [State.afterTo_cur, hc], ?_⟩
  rw [he, State.me_modHere, hc, ← hs]
  cases hv : s.cur.eng <;>
    · refine ⟨rfl, ?_, rfl⟩
      simp only [State.me_eq, hc, hv]; rfl

/-- A register of any engine reads as the effect left it. -/
theorem State.afterTo_here {s t : State} (h : Hdr) (target : Word) (hc : t.cur = s.cur) {α : Type} (f : Cell → α)
    (hf : ∀ (x : Cell) p k u (e : Eng) (m : EngState → EngState),
      (∀ st, (m st).sreg = st.sreg ∧ (m st).preg = st.preg ∧ (m st).ras = st.ras ∧ (m st).queue = st.queue ∧
        (m st).nextId = st.nextId ∧ (m st).halted = st.halted ∧ (m st).trap = st.trap ∧ (m st).condPopped = st.condPopped ∧
        (m st).stopped = st.stopped ∧ (m st).deferred = st.deferred ∧ (m st).synced = st.synced) →
      f { (x.setEng e (m (x.eng e))) with tok := k, tokReserved := u, pcnt := p } = f x) :
    f (s.afterTo h t target).here = f t.here := by
  obtain ⟨p, k, u, r, he⟩ := State.afterTo_eq s t h target hc
  rw [he, State.here_modHere]
  exact hf t.here p k u s.cur.eng (fun st => { st with
          retire := r, pc := target, step := st.step + 1, stall := .none, stalled := [], progress := none
          flight := none, arrived := false, resolved := false, watchPass := false })
    (fun st => ⟨rfl, rfl, rfl, rfl, rfl, rfl, rfl, rfl, rfl, rfl, rfl⟩)

theorem State.afterTo_getS {s t : State} (h : Hdr) (target : Word) (hc : t.cur = s.cur) (r : SReg) :
    (s.afterTo h t target).getS r = t.getS r := by
  simp only [State.getS, State.me_eq, State.afterTo_cur]
  refine State.afterTo_here h target hc (fun x => (x.eng t.cur.eng).getS r) fun x p k u e m hm => ?_
  have := (hm (x.eng e)).1
  cases t.cur.eng <;> cases e <;> simp [Cell.eng, Cell.setEng, EngState.getS] at this ⊢ <;> simp [this]

theorem State.afterTo_getP {s t : State} (h : Hdr) (target : Word) (hc : t.cur = s.cur) (r : PReg) :
    (s.afterTo h t target).getP r = t.getP r := by
  simp only [State.getP, State.me_eq, State.afterTo_cur]
  refine State.afterTo_here h target hc (fun x => (x.eng t.cur.eng).getP r) fun x p k u e m hm => ?_
  have := (hm (x.eng e)).2.1
  cases t.cur.eng <;> cases e <;> simp [Cell.eng, Cell.setEng, EngState.getP] at this ⊢ <;> simp [this]

theorem State.afterTo_vr {s t : State} (h : Hdr) (target : Word) (hc : t.cur = s.cur) (v : VNum) :
    (s.afterTo h t target).vr v = t.vr v := by
  simp only [State.vr, State.vrAt, State.afterTo_cur]
  refine State.afterTo_here h target hc (fun x => x.readV t.cur.eng t.cur.old v.toNat) fun x p k u e m hm => ?_
  have hs := (hm (x.eng e)).2.2.2.2.2.2.2.2.2.2
  have hr : Cell.racing { (x.setEng e (m (x.eng e))) with tok := k, tokReserved := u, pcnt := p } t.cur.eng v.toNat =
      x.racing t.cur.eng v.toNat := by
    unfold Cell.racing
    have h1 : (Cell.eng { (x.setEng e (m (x.eng e))) with tok := k, tokReserved := u, pcnt := p } t.cur.eng).synced =
        (x.eng t.cur.eng).synced := by
      cases t.cur.eng <;> cases e <;> first | rfl | exact hs
    rw [h1]
    cases e <;> rfl
  unfold Cell.readV
  rw [hr]
  cases e <;> rfl

theorem State.afterTo_getM {s t : State} (h : Hdr) (target : Word) (hc : t.cur = s.cur) (m : MNum) :
    (s.afterTo h t target).here.getM m = t.here.getM m :=
  State.afterTo_here h target hc (fun x => x.getM m) fun _ _ _ _ e _ _ => by cases e <;> rfl

theorem State.afterTo_fflags {s t : State} (h : Hdr) (target : Word) (hc : t.cur = s.cur) :
    (s.afterTo h t target).here.fflags = t.here.fflags :=
  State.afterTo_here h target hc (fun x => x.fflags) fun _ _ _ _ e _ _ => by cases e <;> rfl

theorem State.afterTo_satcnt {s t : State} (h : Hdr) (target : Word) (hc : t.cur = s.cur) :
    (s.afterTo h t target).here.satcnt = t.here.satcnt :=
  State.afterTo_here h target hc (fun x => x.satcnt) fun _ _ _ _ e _ _ => by cases e <;> rfl

@[simp] theorem State.afterTo_byte (s t : State) (h : Hdr) (target : Word) (k : Nat) :
    (s.afterTo h t target).byte k = t.byte k := by
  unfold State.afterTo State.count State.finish State.pass
  split <;> rfl

/-- Every other cell is as the effect left it. -/
theorem State.afterTo_cell {s t : State} (h : Hdr) (target : Word) (hc : t.cur = s.cur) (c : Nat) (hn : c ≠ s.cur.cell) :
    (s.afterTo h t target).cell c = t.cell c := by
  obtain ⟨p, k, u, r, he⟩ := State.afterTo_eq s t h target hc
  rw [he, State.modHere, State.cell_modCell, hc, if_neg hn]

end Sys2Proof.Machine
end

