-- ==== Sys2Proof/Laws/Memory.lean ====
section
/-! SUPPORT. Every operation that stores to memory keeps memory and the ownership cache in canonical form; whatever
else a step does leaves both as they are. -/

namespace Sys2Proof.Machine

/-- Memory and the ownership cache are in canonical form. -/
abbrev State.canonical (s : State) : Prop := Memory.wf s.mem = true ∧ tabWf none s.own.cache = true

/-- States with the same memory and ownership cache are canonical together. -/
theorem State.canonical_of_eq {s t : State} (hm : t.mem = s.mem) (ho : t.own.cache = s.own.cache) (h : s.canonical) :
    t.canonical := by
  unfold State.canonical; rw [hm, ho]; exact h

/-- A fold keeps what each of its steps keeps. -/
theorem foldl_keeps {α β : Type} (P : β → Prop) (f : β → α → β) (hf : ∀ b a, P b → P (f b a)) (l : List α) (b : β) (h : P b) :
    P (l.foldl f b) := by
  induction l generalizing b with
  | nil => exact h
  | cons a r ih => exact ih _ (hf _ _ h)

theorem State.canonical_setBytes {s : State} (pa : Nat) (bs : List Byte) (h : s.canonical) : (s.setBytes pa bs).canonical := by
  unfold State.setBytes
  split
  · exact ⟨h.1, tabWf_splice _ _ _ _ h.2⟩
  · exact ⟨tabWf_splice _ _ _ _ h.1, h.2⟩

theorem State.canonical_put {s : State} (p : Put) (h : s.canonical) : (s.put p).canonical := State.canonical_setBytes _ _ h

theorem State.canonical_scrubbed {s : State} (ps : List Put) (h : s.canonical) : (s.scrubbed ps).canonical := by
  unfold State.scrubbed; split <;> exact h

theorem State.canonical_untagged {s : State} (ks : List Nat) (h : s.canonical) : (s.untagged ks).canonical := by
  unfold State.untagged; split <;> exact h

theorem State.canonical_puts {s : State} (ps : List Put) (h : s.canonical) : (s.puts ps).canonical :=
  State.canonical_untagged _
    (State.canonical_scrubbed _ (foldl_keeps State.canonical State.put (fun _ p => State.canonical_put p) ps s h))

theorem State.canonical_storeRun {s : State} (pa : Nat) (bs : List Byte) (h : s.canonical) : (s.storeRun pa bs).canonical := by
  have hb := State.canonical_setBytes pa bs h
  unfold State.storeRun
  dsimp only
  generalize s.setBytes pa bs = u at hb ⊢
  split
  · exact hb
  · exact ⟨hb.1, hb.2⟩

theorem State.canonical_enqueue {s : State} (e : Event) (h : s.canonical) : (s.enqueue e).canonical := by
  unfold State.enqueue
  dsimp only
  split
  · split <;> exact h
  · split
    · exact h
    · exact State.canonical_of_eq rfl rfl (State.canonical_storeRun _ _ h)

theorem State.canonical_post {s : State} (code : BitVec 16) (src unit d0 d1 : Nat) (h : s.canonical) :
    (s.post code src unit d0 d1).canonical := State.canonical_enqueue _ h

theorem State.canonical_drainEvents {s : State} (h : s.canonical) : s.drainEvents.canonical := by
  unfold State.drainEvents
  split
  · exact h
  · exact foldl_keeps State.canonical _ (fun _ e => State.canonical_enqueue e) _ _ h

@[simp] theorem State.canonical_modCell {s : State} (c : Nat) (f : Cell → Cell) : (s.modCell c f).canonical ↔ s.canonical := Iff.rfl
@[simp] theorem State.canonical_setCell {s : State} (c : Nat) (x : Cell) : (s.setCell c x).canonical ↔ s.canonical := Iff.rfl
@[simp] theorem State.canonical_modEng {s : State} (c : Nat) (e : Eng) (f : EngState → EngState) :
    (s.modEng c e f).canonical ↔ s.canonical := Iff.rfl
@[simp] theorem State.canonical_modTgu {s : State} (f : Tgu → Tgu) : (s.modTgu f).canonical ↔ s.canonical := Iff.rfl
@[simp] theorem State.canonical_modMc {s : State} (f : Mc → Mc) : (s.modMc f).canonical ↔ s.canonical := Iff.rfl
@[simp] theorem State.canonical_modFlash {s : State} (f : Flash → Flash) : (s.modFlash f).canonical ↔ s.canonical := Iff.rfl
@[simp] theorem State.canonical_setBarrier {s : State} (b : Barrier) : (s.setBarrier b).canonical ↔ s.canonical := Iff.rfl
@[simp] theorem State.canonical_finish {s : State} (c : Nat) (e : Eng) (h : Hdr) (popped : Bool) (target : Word) :
    (s.finish c e h popped target).canonical ↔ s.canonical := Iff.rfl

theorem State.canonical_count {s : State} (c ev n : Nat) (h : s.canonical) : (s.count c ev n).canonical := by
  unfold State.count; split <;> exact h

theorem State.canonical_setS {s : State} (r : SReg) (v : Word) (h : s.canonical) : (s.setS r v).canonical := by
  unfold State.setS; dsimp only; split <;> exact h

theorem State.canonical_setP {s : State} (p : PReg) (v : Bool) (h : s.canonical) : (s.setP p v).canonical := by
  unfold State.setP; dsimp only; split <;> exact h

theorem State.canonical_tagged {s : State} (a : Agent) (sc : Option Scope) (ks : List Nat) (n : Nat) (h : s.canonical) :
    (s.tagged a sc ks n).canonical := by
  unfold State.tagged; split <;> exact h

theorem State.canonical_putsAfter {s : State} (ps : List Put) (h : s.canonical) : (s.putsAfter ps).canonical :=
  State.canonical_of_eq rfl rfl (State.canonical_puts ps h)

theorem State.canonical_countEcc {s : State} (c : Nat) (phys : Option Nat) (cached : Bool) (h : s.canonical) :
    (s.countEcc c phys cached).canonical := by
  have h1 : s.countUncorrectable.canonical := h
  unfold State.countEcc
  dsimp only
  generalize s.countUncorrectable = u at h1 ⊢
  split
  · exact State.canonical_post _ _ _ _ _ h1
  · split
    · exact State.canonical_post _ _ _ _ _ h1
    · split
      · refine State.canonical_of_eq rfl rfl (State.canonical_post _ _ _ _ _ ?_)
        exact State.canonical_post _ _ _ _ _ h1
      · exact State.canonical_post _ _ _ _ _ h1

theorem State.canonical_dropFaulted {s : State} (c : Nat) (t : TrapRec) (h : s.canonical) : (s.dropFaulted c t).canonical := by
  unfold State.dropFaulted; split <;> exact h

@[simp] theorem State.canonical_withdraw {s : State} (c : Nat) (e : Eng) : (s.withdraw c e).canonical ↔ s.canonical := Iff.rfl

theorem State.canonical_freeze {s : State} (c : Nat) (entry : Word) (h : s.canonical) : (s.freeze c entry).canonical := by
  unfold State.freeze
  simp only [State.canonical_modCell]
  split <;> exact h

/-- Taking a trap stores its record alone. -/
theorem State.canonical_takeTrapAt {s : State} (c : Nat) (e : Eng) (pc : Word) (t : TrapRec) (h : s.canonical) :
    (s.takeTrapAt c e pc t).canonical := by
  unfold State.takeTrapAt
  extract_lets r u1 u2 u3 u4 u5 u6
  have h1 : u1.canonical := by
    unfold u1; split
    · exact State.canonical_countEcc _ _ _ h
    · exact h
  have h3 : u3.canonical := State.canonical_storeRun _ _ (State.canonical_dropFaulted _ _ h1)
  have h4 : u4.canonical := by unfold u4; split <;> exact h3
  have h6 : u6.canonical := by unfold u6; split <;> exact h4
  exact State.canonical_freeze _ _ h6

theorem State.canonical_takeTrap {s : State} (c : Nat) (e : Eng) (t : TrapRec) (h : s.canonical) : (s.takeTrap c e t).canonical :=
  State.canonical_takeTrapAt _ _ _ _ h

/-- A trap that is raised, or that waits, keeps the canonical form. -/
theorem raise_canonical {s t : State} {c : Nat} {e : Eng} {r : TrapRec} (h : s.canonical) (hr : raise s c e r = .next t) :
    t.canonical := by
  unfold raise at hr
  split at hr
  · cases hr
  · split at hr <;> cases hr
    · exact h
    · exact State.canonical_takeTrap _ _ _ h

/-- What a body of an instruction leaves is canonical in each of its outcomes. -/
def Act.canonical : Act → Prop
  | .done s | .goto s _ | .wait s _ | .starve s _ | .hold s | .trapIn s _ | .trapAt s _ _ _ _ => s.canonical
  | .trap _ => True

/-- An instruction keeps the canonical form when its body does. -/
theorem issueAs_canonical {x : Bool} {h : Hdr} {uses : List SReg} {s t : State} {body : State → Act} (hs : s.canonical)
    (hb : (body s).canonical) (hr : issueAs x h uses s body = .next t) : t.canonical := by
  have hx : (if x then (body s).asX else body s).canonical := by
    cases x
    · exact hb
    · simp only [if_true]; revert hb; cases body s <;> exact id
  unfold issueAs at hr
  dsimp only at hr
  generalize (if x then (body s).asX else body s) = a at hx hr
  split at hr
  · exact raise_canonical hs hr
  split at hr
  · cases hr; exact hs
  split at hr
  · exact raise_canonical hs hr
  split at hr
  · cases hr; exact hs
  split at hr
  · exact raise_canonical hs hr
  split at hr
  · cases hr; exact hs
  split at hr
  · cases hr; exact hs
  cases a with
  | done s' => cases hr; exact State.canonical_count _ _ _ hx
  | goto s' pc => cases hr; exact State.canonical_count _ _ _ hx
  | wait s' why => cases hr; exact hx
  | starve s' q => cases hr; exact hx
  | hold s' => cases hr; exact hx
  | trap r => exact raise_canonical hs hr
  | trapIn s' r => exact raise_canonical hx hr
  | trapAt s' inst i seed r =>
    unfold conclude at hr
    dsimp only at hr
    split at hr
    · exact raise_canonical hs hr
    · refine raise_canonical ?_ hr
      simp only [State.canonical_modEng, State.canonical_modCell]
      exact hx

/-! ## The operations of the units that store -/

theorem State.canonical_bury {s : State} (b : Barrier) (h : s.canonical) : (s.bury b).canonical :=
  State.canonical_storeRun _ _ h

theorem State.canonical_outsideWrite {s : State} (who : Nat) (ps : List Put) (h : s.canonical) : (s.outsideWrite who ps).canonical := by
  unfold State.outsideWrite
  dsimp only
  refine State.canonical_puts _ ?_
  exact foldl_keeps State.canonical (fun (s : State) (b : Barrier) => s.post 0x0201#16 (2 + s.halfAt b.pa) (s.halfAt b.pa) b.pa who)
    (fun _ _ hb => State.canonical_post _ _ _ _ _ hb) _ _ h

/-- Clearing a slice takes bytes away alone. -/
theorem State.canonical_clearSlice {s : State} (c : Nat) (h : s.canonical) : (s.clearSlice c).canonical := by
  have h1 : ∀ bs : List Barrier, (bs.foldl (fun s b => s.release b.pa false b.waiters) s).canonical := fun bs =>
    foldl_keeps State.canonical (fun (s : State) (b : Barrier) => s.release b.pa false b.waiters) (fun _ _ hb => hb) bs s h
  exact ⟨tabWf_clear _ _ _ _ (h1 _).1, (h1 _).2⟩

theorem State.canonical_writeBack {s : State} (base n : Nat) (h : s.canonical) : (s.writeBack base n).canonical := by
  refine ⟨?_, tabWf_clear _ _ _ _ h.2⟩
  exact foldl_keeps (fun m => Memory.wf m = true) _ (fun m e hm => by
    split
    · exact tabWf_set _ _ _ _ hm
    · exact hm) _ _ h.1

theorem State.canonical_offLoss {s : State} (h : s.canonical) : s.offLoss.canonical := ⟨tabWf_filter _ _ _ h.1, rfl⟩

theorem State.canonical_buryAll {s : State} (h : s.canonical) : s.buryAll.canonical :=
  foldl_keeps State.canonical _ (fun _ _ hb => State.canonical_bury _ hb) _ _ h

theorem State.canonical_standbyLoss {s : State} (h : s.canonical) : s.standbyLoss.canonical :=
  ⟨tabWf_filter _ _ _ (State.canonical_buryAll h).1, (State.canonical_buryAll h).2⟩

theorem State.canonical_reboot {s : State} (h : s.canonical) : s.reboot.canonical := ⟨tabWf_filter _ _ _ h.1, rfl⟩

/-- A placed word keeps memory canonical. -/
theorem State.canonical_placeWord {s : State} (w : InstrWord) (h : s.canonical) : (s.placeWord w).canonical :=
  ⟨tabWf_splice _ _ _ _ h.1, h.2⟩

/-- Passing cycles stores nothing. -/
theorem State.canonical_advance {s : State} (n : Nat) (h : s.canonical) : (s.advance n).canonical := by
  unfold State.advance
  split
  · exact h
  · dsimp only
    split
    · exact h
    · refine foldl_keeps State.canonical _ (fun u e hu => ?_) _ _ h
      unfold State.countCycles
      dsimp only
      split
      · exact hu
      · exact foldl_keeps State.canonical _ (fun _ _ hb => State.canonical_count _ _ _ hb) _ _ (State.canonical_count _ _ _ hu)

end Sys2Proof.Machine
end

