-- ==== Sys2Proof/Laws/Drain.lean ====
section
/-! SUPPORT. What performing queued accesses can change: cells, memory and the tags of releases, and no unit outside the
cells; and that performing none changes nothing. -/

namespace Sys2Proof.Machine

/-- The units outside the cells that no access changes. -/
abbrev State.unitsOf (s : State) : Mc × Tgu × Pool × Fab × Flash × List Barrier :=
  (s.mc, s.tgu, s.pool, s.fab, s.flash, s.barriers)

/-- A fold leaves what each of its steps leaves. -/
theorem foldl_same {α β γ : Type} (g : α → γ) (f : α → β → α) (h : ∀ a b, g (f a b) = g a) (l : List β) (a : α) :
    g (l.foldl f a) = g a := by
  induction l generalizing a with
  | nil => rfl
  | cons b l ih => rw [List.foldl_cons, ih, h]

theorem State.unitsOf_put (s : State) (p : Put) : (s.put p).unitsOf = s.unitsOf := by
  unfold State.put State.setBytes; split <;> rfl

theorem State.unitsOf_puts (s : State) (ps : List Put) : (s.puts ps).unitsOf = s.unitsOf := by
  have hu : ∀ t : State, (t.untagged (ps.map (·.1))).unitsOf = t.unitsOf := by
    intro t; unfold State.untagged; split <;> rfl
  have hs : ∀ t : State, (t.scrubbed ps).unitsOf = t.unitsOf := by
    intro t; unfold State.scrubbed; split <;> rfl
  rw [State.puts, hu, hs, foldl_same State.unitsOf _ State.unitsOf_put]

theorem State.unitsOf_tagged (s : State) (a : Agent) (sc : Option Scope) (ks : List Nat) (n : Nat) :
    (s.tagged a sc ks n).unitsOf = s.unitsOf := by unfold State.tagged; split <;> rfl

theorem State.unitsOf_returnS (s : State) (c : Nat) (e : Eng) (r : SReg) (v : Word) : (s.returnS c e r v).unitsOf = s.unitsOf := by
  unfold State.returnS; dsimp only; split <;> rfl

theorem State.unitsOf_spent (s : State) (c : Nat) (e : Eng) (ks : List Nat) : (s.spent c e ks).unitsOf = s.unitsOf := by
  unfold State.spent; split <;> rfl

theorem State.unitsOf_loaded (s : State) (c : Nat) (e : Eng) (bs : List Byte) (d : Dest) : (s.loaded c e bs d).unitsOf = s.unitsOf := by
  cases d
  · exact State.unitsOf_returnS ..
  · rfl
  · rfl

theorem State.unitsOf_performPlain (s : State) (c : Nat) (e : Eng) (a : Access) (id : Nat) :
    (s.performPlain c e a id).unitsOf = s.unitsOf := by
  cases a <;> simp only [State.performPlain]
  · exact (State.unitsOf_loaded ..).trans (State.unitsOf_spent ..)
  · exact (State.unitsOf_tagged ..).trans (State.unitsOf_puts ..)
  · rfl
  · exact State.unitsOf_puts ..

/-- An acquire performs what precedes its releases, and changes no unit outside the cells. -/
theorem State.unitsOf_settleDebts (s : State) (b : Agent) (sb : Scope) (ks : List Nat) : (s.settleDebts b sb ks).unitsOf = s.unitsOf := by
  unfold State.settleDebts
  split
  · rfl
  · refine foldl_same State.unitsOf _ (fun u t => ?_) _ _
    split
    case h_1 c _ =>
      split
      · unfold State.performBelow
        exact foldl_same State.unitsOf (fun (v : State) (q : Queued) => (v.performPlain c t.1.eng q.acc q.id).dequeue c t.1.eng q.id)
          (fun v q => State.unitsOf_performPlain v c t.1.eng q.acc q.id) _ _
      · rfl
    · rfl

theorem State.unitsOf_atomicAt (s : State) (op : AmoOp) (dbl : Bool) (ks : List Nat) (b c : Word) :
    (s.atomicAt op dbl ks b c).1.unitsOf = s.unitsOf := by
  unfold State.atomicAt State.atomic
  dsimp only
  split
  · rfl
  · first | exact State.unitsOf_puts .. | (split <;> first | rfl | exact State.unitsOf_puts ..)

theorem State.unitsOf_perform (s : State) (c : Nat) (e : Eng) (a : Access) (id : Nat) : (s.perform c e a id).unitsOf = s.unitsOf := by
  cases a with
  | acquire ks d sc =>
    simp only [State.perform]
    rw [State.unitsOf_loaded]
    unfold State.acquireAt
    split <;> exact State.unitsOf_settleDebts ..
  | atomic op dbl ks b c' rd o =>
    simp only [State.perform]
    rw [State.unitsOf_returnS]
    have h : ∀ (u : State) (a : Agent), u.unitsOf = s.unitsOf →
        ((u.atomicAt op dbl ks b c').1.tagged a o.rel ks).unitsOf = s.unitsOf := by
      intro u a hu; rw [State.unitsOf_tagged, State.unitsOf_atomicAt, hu]
    cases o.acq with
    | some sc => dsimp only; split <;> exact h _ _ (State.unitsOf_settleDebts ..)
    | none => dsimp only; rw [State.unitsOf_spent]; exact h _ _ rfl
  | load ks d => exact State.unitsOf_performPlain ..
  | store ps r => exact State.unitsOf_performPlain ..
  | mark => rfl
  | notify ps => exact State.unitsOf_performPlain ..

theorem State.unitsOf_land (s : State) (c : Nat) (e : Eng) (q : Queued) : (s.land c e q).unitsOf = s.unitsOf := by
  unfold State.land
  split
  · split <;> exact State.unitsOf_puts ..
  · exact State.unitsOf_perform ..
  · split
    · rfl
    · exact State.unitsOf_perform ..
  · exact State.unitsOf_perform ..

/-- Performing queued accesses changes no unit outside the cells. -/
theorem State.unitsOf_drainQueues (s : State) (p : Queued → Bool) : (s.drainQueues p).unitsOf = s.unitsOf := by
  unfold State.drainQueues
  refine foldl_same State.unitsOf _ (fun u x => foldl_same State.unitsOf _ (fun v e => ?_) _ _) _ _
  unfold State.drainEng
  exact foldl_same State.unitsOf (fun (w : State) (q : Queued) => (w.land x.1 e q).dequeue x.1 e q.id) (fun w q => State.unitsOf_land w x.1 e q) _ _

@[simp] theorem State.drainQueues_mc (s : State) (p : Queued → Bool) : (s.drainQueues p).mc = s.mc :=
  congrArg (·.1) (State.unitsOf_drainQueues s p)
@[simp] theorem State.drainQueues_tgu (s : State) (p : Queued → Bool) : (s.drainQueues p).tgu = s.tgu :=
  congrArg (·.2.1) (State.unitsOf_drainQueues s p)
@[simp] theorem State.drainQueues_pool (s : State) (p : Queued → Bool) : (s.drainQueues p).pool = s.pool :=
  congrArg (·.2.2.1) (State.unitsOf_drainQueues s p)
@[simp] theorem State.drainQueues_fab (s : State) (p : Queued → Bool) : (s.drainQueues p).fab = s.fab :=
  congrArg (·.2.2.2.1) (State.unitsOf_drainQueues s p)
@[simp] theorem State.settleDebts_mc (s : State) (b : Agent) (sb : Scope) (ks : List Nat) : (s.settleDebts b sb ks).mc = s.mc :=
  congrArg (·.1) (State.unitsOf_settleDebts s b sb ks)
@[simp] theorem State.settleDebts_tgu (s : State) (b : Agent) (sb : Scope) (ks : List Nat) : (s.settleDebts b sb ks).tgu = s.tgu :=
  congrArg (·.2.1) (State.unitsOf_settleDebts s b sb ks)

/-- Where no engine has an access queued that the condition names, performing those changes nothing. -/
theorem State.drainQueues_none (s : State) (p : Queued → Bool) (h : ∀ c e, ∀ q ∈ (s.eng c e).queue, p q = false) :
    s.drainQueues p = s := by
  have key : ∀ (l : List Queued), (∀ q ∈ l, p q = false) →
      l.foldr (fun a acc => if p a || acc.any (fun b => mustFollow a.acc b.acc) then a :: acc else acc) [] = [] := by
    intro l hl
    induction l with
    | nil => rfl
    | cons a l ih =>
      rw [List.foldr_cons, ih fun q hq => hl q (List.mem_cons_of_mem _ hq)]
      simp [hl a (by simp)]
  have hd : ∀ c e, s.drainEng p c e = s := by
    intro c e; unfold State.drainEng; rw [key _ (h c e)]; rfl
  have he : ∀ (l : List Eng) c, l.foldl (fun s e => s.drainEng p c e) s = s := by
    intro l c; induction l with
    | nil => rfl
    | cons e l ih => rw [List.foldl_cons, hd, ih]
  unfold State.drainQueues
  generalize s.cells = l
  induction l with
  | nil => rfl
  | cons x l ih => rw [List.foldl_cons, he, ih]

end Sys2Proof.Machine
end

