-- ==== Sys2Proof/Laws/Vector.lean ====
section
/-! SUPPORT. Laws of the vector frames: what one operation over the lanes of a register leaves, lane by lane, and what
an instruction in the V frame answers when it is ready. -/

namespace Sys2Proof.Machine

theorem lanesGo_length (mk : BitVec 1024) (z : Bool) (f : Nat → Lane → Lane → Lane → Res Lane) (l : Nat)
    (os as bs cs : List Lane) (ha : as.length = os.length) (hb : bs.length = os.length) (hc : cs.length = os.length) :
    (lanesGo mk z f l os as bs cs).1.length = os.length := by
  induction os generalizing l as bs cs with
  | nil => unfold lanesGo; rfl
  | cons o os ih =>
    match as, bs, cs, ha, hb, hc with
    | a :: as, b :: bs, c :: cs, ha, hb, hc =>
      have := ih (l + 1) as bs cs (by simpa using ha) (by simpa using hb) (by simpa using hc)
      unfold lanesGo
      by_cases hm : mk.getLsbD l = true <;> simp [hm, this]

/-- Each lane of an operation under mask use d (R132). -/
theorem lanesGo_lane (mk : BitVec 1024) (z : Bool) (f : Nat → Lane → Lane → Lane → Res Lane) (l : Nat)
    (os as bs cs : List Lane) (ha : as.length = os.length) (hb : bs.length = os.length) (hc : cs.length = os.length)
    (j : Nat) (hj : j < os.length) :
    lane (lanesGo mk z f l os as bs cs).1 j =
      if mk.getLsbD (l + j) = true then (f (l + j) (lane as j) (lane bs j) (lane cs j)).val
      else if z then 0#32 else lane os j := by
  induction os generalizing l as bs cs j with
  | nil => simp at hj
  | cons o os ih =>
    match as, bs, cs, ha, hb, hc with
    | a :: as, b :: bs, c :: cs, ha, hb, hc =>
      unfold lanesGo
      cases j with
      | zero => by_cases hm : mk.getLsbD l = true <;> simp [hm, lane]
      | succ j =>
        have := ih (l + 1) as bs cs (by simpa using ha) (by simpa using hb) (by simpa using hc) j (by simpa using hj)
        have e : l + 1 + j = l + (j + 1) := by omega
        rw [e] at this
        by_cases hm : mk.getLsbD l = true <;> simpa [hm, lane] using this

/-- The flags of an operation are the union of those of its active lanes (R132, R136). -/
theorem lanesGo_flags (mk : BitVec 1024) (z : Bool) (f : Nat → Lane → Lane → Lane → Res Lane) (l : Nat)
    (os as bs cs : List Lane) (ha : as.length = os.length) (hb : bs.length = os.length) (hc : cs.length = os.length) (i : Nat) :
    (lanesGo mk z f l os as bs cs).2.getLsbD i = true ↔
      ∃ j, j < os.length ∧ mk.getLsbD (l + j) = true ∧
        (f (l + j) (lane as j) (lane bs j) (lane cs j)).fl.getLsbD i = true := by
  induction os generalizing l as bs cs with
  | nil => unfold lanesGo; simp
  | cons o os ih =>
    match as, bs, cs, ha, hb, hc with
    | a :: as, b :: bs, c :: cs, ha, hb, hc =>
      have := ih (l + 1) as bs cs (by simpa using ha) (by simpa using hb) (by simpa using hc)
      unfold lanesGo
      constructor
      · intro h
        by_cases hm : mk.getLsbD l = true
        · simp only [hm, if_true, BitVec.getLsbD_or, Bool.or_eq_true] at h
          rcases h with h | h
          · exact ⟨0, by simp, by simpa using hm, by simpa [lane] using h⟩
          · obtain ⟨j, h1, h2, h3⟩ := this.1 h
            have e : l + 1 + j = l + (j + 1) := by omega
            rw [e] at h2 h3
            exact ⟨j + 1, by simpa using h1, h2, by simpa [lane] using h3⟩
        · simp only [hm, if_false, Bool.false_eq_true] at h
          obtain ⟨j, h1, h2, h3⟩ := this.1 h
          have e : l + 1 + j = l + (j + 1) := by omega
          rw [e] at h2 h3
          exact ⟨j + 1, by simpa using h1, h2, by simpa [lane] using h3⟩
      · rintro ⟨j, h1, h2, h3⟩
        cases j with
        | zero =>
          have hm : mk.getLsbD l = true := by simpa using h2
          simp only [hm, if_true, BitVec.getLsbD_or, Bool.or_eq_true]
          exact .inl (by simpa [lane] using h3)
        | succ j =>
          have e : l + 1 + j = l + (j + 1) := by omega
          have h4 := this.2 ⟨j, by simpa using h1, by rw [e]; exact h2, by rw [e]; simpa [lane] using h3⟩
          by_cases hm : mk.getLsbD l = true
          · simp only [hm, if_true, BitVec.getLsbD_or, Bool.or_eq_true]; exact .inr h4
          · simp only [hm, if_false, Bool.false_eq_true]; exact h4

/-! ## Writing a vector register -/

/-- The lanes that mask use d writes: the active ones, and all of them where it clears the others (R132). -/
theorem written_bit (mk : BitVec 1024) (z : Bool) (l : Nat) (hl : l < 1024) :
    (written mk z).getLsbD l = (z || mk.getLsbD l) := by
  cases z
  · rfl
  · exact (BitVec.getLsbD_allOnes ..).trans (by rw [decide_eq_true hl]; rfl)

@[simp] theorem State.vr_length (s : State) (v : VNum) : (s.vr v).length = 1024 := by
  unfold State.vr State.vrAt Cell.readV
  split
  · exact Cell.getV_length _ _
  · exact mixLanes_length _ _ _ (fitLanes_length _) (Cell.getV_length _ _)

@[simp] theorem State.vsrcList_length (s : State) (b : VSrc) : (s.vsrcList b).length = 1024 := by
  cases b with
  | vec v => exact State.vr_length s v
  | sc r => exact List.length_replicate
  | imm w => exact List.length_replicate

theorem lane_replicate (w : Lane) (l : Nat) (hl : l < 1024) : lane (List.replicate 1024 w) l = w := by
  rw [lane, List.getD_eq_getElem?_getD, List.getElem?_replicate_of_lt hl]; rfl

theorem lane_vsrcList (s : State) (b : VSrc) (l : Nat) (hl : l < 1024) : lane (s.vsrcList b) l = s.vsrc b l := by
  cases b with
  | vec v => rfl
  | sc r => exact lane_replicate _ l hl
  | imm w => exact lane_replicate _ l hl

@[simp] theorem State.writeV_cur (s : State) (v : VNum) (x : List Lane) (mk : BitVec 1024) : (s.writeV v x mk).cur = s.cur := by
  unfold State.writeV State.setVr; extract_lets t; split <;> rfl

/-- A vector register after lanes of one are written. -/
theorem State.vr_writeV (s : State) (v u : VNum) (x : List Lane) (mk : BitVec 1024) (hx : x.length = 1024) :
    (s.writeV v x mk).vr u = if u = v then mixLanes (mk &&& ~~~s.lost v) x (s.here.getV v.toNat) else s.vr u := by
  have key : (s.setVr v mk x).vr u = if u = v then mixLanes (mk &&& ~~~s.lost v) x (s.here.getV v.toNat) else s.vr u := by
    show ((s.modHere fun y => y.putV s.cur.eng s.cur.old v.toNat mk x).here).readV s.cur.eng s.cur.old u.toNat = _
    rw [State.here_modHere, Cell.readV_putV _ _ _ _ _ _ _ hx]
    by_cases h : u = v
    · simp [h, State.lost]
    · have : u.toNat ≠ v.toNat := fun e => h (BitVec.eq_of_toNat_eq e)
      simp [h, this, State.vr, State.vrAt]
  unfold State.writeV
  extract_lets t
  split
  · rw [← key, State.vr, State.vrAt, State.here_modHere, State.modHere_cur]
    unfold State.vr State.vrAt Cell.readV Cell.racing
    cases t.cur.eng <;> rfl
  · exact key

theorem State.me_writeV (s : State) (v : VNum) (x : List Lane) (mk : BitVec 1024) : (s.writeV v x mk).me = s.me := by
  unfold State.writeV State.setVr
  extract_lets t
  have ht : t.me = s.me := by simp only [t, State.me_modHere]; cases h : s.cur.eng <;> simp [State.me_eq, h, Cell.putV_eq, Cell.setV, Cell.eng]
  split
  · rw [State.me_modHere, ← ht, State.me_eq]; rfl
  · exact ht

theorem State.here_writeV (s : State) (v : VNum) (x : List Lane) (mk : BitVec 1024) :
    ∃ r, (s.writeV v x mk).here = { s.here.putV s.cur.eng s.cur.old v.toNat mk x with regErr := r } := by
  unfold State.writeV State.setVr
  extract_lets t
  split
  · exact ⟨tabSet false t.here.regErr (1000 + v.toNat) false, by
      rw [State.here_modHere, show t.here = _ from State.here_modHere s _]⟩
  · exact ⟨t.here.regErr, by rw [show t.here = _ from State.here_modHere s _]⟩

/-! ## Flags -/

@[simp] theorem State.effects_cur (s : State) (c : Nat) (e : Eng) (fl : Flags) (n : Nat) : (s.effects c e fl n).cur = s.cur := by
  unfold State.effects; split <;> rfl

/-- What a V instruction's flags leave of its cell. -/
theorem State.here_flagsV (s : State) (fl : Flags) :
    ∃ y, (s.flagsV fl).here = { s.here with fflags := s.here.fflags ||| (fl.setWidth 25 <<< 15), tally := y } := by
  unfold State.flagsV State.effects
  split
  · rename_i h
    have hf : fl = 0#5 := by simpa using h
    subst hf
    exact ⟨s.here.tally, by simp⟩
  · have : (s.modCell s.cur.cell fun x => ((x.raiseFlags .v fl).addSat 0).note s.cycle .v fl 0).here =
        ((s.here.raiseFlags .v fl).addSat 0).note s.cycle .v fl 0 := by
      simp [State.here]
    rw [this]
    exact ⟨_, rfl⟩

/-! ## The V frame -/

/-- A ready V instruction whose vector sources have no error does what its body does. -/
theorem issueV_done {h : Hdr} {uses : List SReg} {srcs : List VNum} {s t : State} {body : State → Act}
    (hr : s.ready h uses = true) (hv : ∀ v ∈ srcs, s.here.badReg (1000 + v.toNat) = false) (hb : body s = .done t)
    {ms : List MNum} (hm : ∀ m ∈ ms, s.here.badMask m = false) : issueV h uses srcs s body ms = .next (s.after h t) := by
  have h1 : (srcs.any fun v => s.here.badReg (1000 + v.toNat)) = false := by
    rw [List.any_eq_false]; exact fun v hm => by simp [hv v hm]
  have h2 : ms.any s.here.badMask = false := by
    rw [List.any_eq_false]; exact fun m hn => by simp [hm m hn]
  exact issue_done hr (by simp [h1, h2, hb])

/-- A ready elementwise instruction: every lane, the flags, and where the engine stands (R132, R136). -/
theorem lanewise_next {h : Hdr} {o : VOps} {b : Option VSrc} {vc : Option VNum} {rnd : Rnd}
    {f : Rm → Lane → Lane → Lane → Res Lane} {s : State}
    (hr : s.ready h ((b.map vsrcRegs).getD []) = true)
    (hv : ∀ v ∈ o.va :: (b.map vsrcVecs).getD [] ++ vc.toList, s.here.badReg (1000 + v.toNat) = false)
    (hm : s.here.badMask o.msk = false) :
    let B (l : Nat) := (b.map fun b => s.vsrc b l).getD (lane (s.vr o.vd) l)
    let C (l : Nat) := (vc.map fun v => lane (s.vr v) l).getD (lane (s.vr o.vd) l)
    let r (l : Nat) := f (s.rmReg rnd o.vd.toNat l) (lane (s.vr o.va) l) (B l) (C l)
    ∃ (t : State) (fl : Flags), lanewise h o b vc rnd f s = .next t ∧ Passes s t (s.me.pc + 16) ∧
      (∀ l < 1024, lane (t.vr o.vd) l =
        if (s.lost o.vd).getLsbD l = true then lane (s.here.getV o.vd.toNat) l
        else if (s.mr o.msk).getLsbD l = true then (r l).val else if o.z then 0#32 else lane (s.here.getV o.vd.toNat) l) ∧
      (∀ i, fl.getLsbD i = true ↔ ∃ l, l < 1024 ∧ (s.mr o.msk).getLsbD l = true ∧ (r l).fl.getLsbD i = true) ∧
      t.here.fflags = (s.here.fflags ||| (fl.setWidth 25 <<< 15)) ∧ t.here.satcnt = s.here.satcnt := by
  intro B C r
  have hbl : ((b.map s.vsrcList).getD (s.vr o.vd)).length = (s.vr o.vd).length := by cases b <;> simp
  have hcl : ((vc.map s.vr).getD (s.vr o.vd)).length = (s.vr o.vd).length := by cases vc <;> simp
  have hB : ∀ l < 1024, lane ((b.map s.vsrcList).getD (s.vr o.vd)) l = B l := by
    intro l hl; cases b
    · rfl
    · exact lane_vsrcList s _ l hl
  have hC : ∀ l, lane ((vc.map s.vr).getD (s.vr o.vd)) l = C l := by intro l; cases vc <;> rfl
  let g (l : Nat) (a b c : Lane) := f (s.rmReg rnd o.vd.toNat l) a b c
  let q := lanesGo (s.mr o.msk) o.z g 0 (s.vr o.vd) (s.vr o.va) ((b.map s.vsrcList).getD (s.vr o.vd))
    ((vc.map s.vr).getD (s.vr o.vd))
  let u := s.writeV o.vd q.1 (written (s.mr o.msk) o.z)
  have hq : q.1.length = 1024 := by rw [lanesGo_length _ _ _ _ _ _ _ _ (by simp) hbl hcl]; simp
  have hcur : (u.flagsV q.2).cur = s.cur := by simp [State.flagsV, u]
  have hhere : ∃ e y, (u.flagsV q.2).here =
      { s.here.putV s.cur.eng s.cur.old o.vd.toNat (written (s.mr o.msk) o.z) q.1 with regErr := e, fflags := s.here.fflags ||| (q.2.setWidth 25 <<< 15), tally := y } := by
    obtain ⟨e, he⟩ := State.here_writeV s o.vd q.1 (written (s.mr o.msk) o.z)
    obtain ⟨y, hy⟩ := State.here_flagsV u q.2
    refine ⟨e, y, ?_⟩
    rw [hy]; simp only [u, he, Cell.putV_eq]; rfl
  obtain ⟨e, y, he⟩ := hhere
  refine ⟨s.after h (u.flagsV q.2), q.2, by unfold lanewise; refine issueV_done (ms := [o.msk]) hr hv ?_ (by simpa using hm); rfl, ?_, ?_, ?_, ?_, ?_⟩
  · refine passes_afterTo h _ hcur ?_
    rw [State.me_eq, he, hcur, State.me_eq]
    rw [Cell.putV_eq]; cases s.cur.eng <;> rfl
  · intro l hl
    have hv2 : (u.flagsV q.2).vr o.vd = u.vr o.vd := by
      obtain ⟨y, hy⟩ := State.here_flagsV u q.2
      rw [State.vr, State.vrAt, State.vr, State.vrAt, hy, hcur, show u.cur = s.cur by simp [u]]
      unfold Cell.readV Cell.racing
      cases s.cur.eng <;> rfl
    rw [State.after, State.afterTo_vr h _ hcur, hv2, State.vr_writeV _ _ _ _ _ hq, if_pos rfl, lane_mixLanes _ _ _ _ hl]
    rw [lanesGo_lane _ _ _ _ _ _ _ _ (by simp) hbl hcl l (by simpa using hl), Nat.zero_add, hB l hl, hC l]
    rw [BitVec.getLsbD_and, written_bit _ _ _ hl, BitVec.getLsbD_not, decide_eq_true hl, Bool.true_and]
    cases o.z <;> cases (s.lost o.vd).getLsbD l <;> cases (s.mr o.msk).getLsbD l <;> simp [g, r]
  · intro i
    rw [lanesGo_flags _ _ _ _ _ _ _ _ (by simp) hbl hcl]
    simp only [State.vr_length, Nat.zero_add]
    constructor
    · rintro ⟨j, h1, h2, h3⟩; exact ⟨j, h1, h2, by rw [hB j h1, hC j] at h3; exact h3⟩
    · rintro ⟨j, h1, h2, h3⟩; exact ⟨j, h1, h2, by rw [hB j h1, hC j]; exact h3⟩
  · rw [State.after, State.afterTo_fflags h _ hcur, he]
  · rw [State.after, State.afterTo_satcnt h _ hcur, he]; rfl

end Sys2Proof.Machine
end

