-- ==== Sys2Proof/Tests/Slice0.lean ====
section
/-! SUPPORT. Tests of the model: terms that the well-formedness check refuses, words written out from the encodings of the
specification, small steps with results computed by hand, and for every statement a state and operands that meet its
hypotheses. -/

open Sys2Proof Sys2Proof.Machine Sys2Proof.Claims

namespace Sys2Proof.Tests

set_option Elab.async false

/-! ## Terms that are no instruction -/

/-- A header without tokens under p15. -/
def hd : Hdr := { rp := false, fp := false, rq := false, fq := false, pred := 15#4, neg := false }

/-- An address run of v3 without scalars. -/
def run3 : RunOps := { reg := 3#10, base := 0#6, index := 0#6, rep := 0#16, step := 0#24, off := 0#32 }

/-- A copy of channel 2 between d3 and d4. -/
def cp : CopyOps :=
  { ds := 3#5, dd := 4#5, sa := 0#6, sb := 0#6, sc := 0#6, ch := 2#2, sx := 0#6, grp := .clu, lo1 := 0#8, lo0 := 0#8,
    padskip := false, scl := .none, tr := false, rnd := .rne, imm := 0#32 }

/-- A tile command on rings 0 and 1. -/
def tc : TileOps :=
  { ga := 0#5, gb := 1#5, ti := 0#4, cnt := 0#7, kk := 0#4, np := 0#4, q := 0#4, home := 0#2, tag := 0#8,
    colbase := 0#16, topk := false, dao := false, cl := false, rel := false }

/-- A descent of depth 4 on rings 0 and 1. -/
def dc : DescOps :=
  { ga := 0#5, gc := 1#5, ti := 0#4, sb := 0#6, depth := 4#5, split := 0#5, init := true, keep := false, cl := false }

/-- An atomic on 4 bytes. -/
def am : AmoOps :=
  { sd := 1#6, sa := 2#6, sb := 3#6, imm := 0#64, dbl := false, acq := false, rel := false, scope := .eng }

/-- An elementwise vector instruction on v1 and v2 under m15. -/
def vo : VOps := { vd := 1#10, va := 2#10, msk := 15#4, z := false }

theorem test_wf_accepts : wellFormed (.add hd 1#6 2#6 (.reg 3#6)) ∧ wellFormed (.vld hd run3 .bf16 0#4 false .pitch) ∧
    wellFormed (.copy hd cp) ∧ wellFormed (.mma hd tc) ∧ wellFormed (.descStep hd dc) ∧ wellFormed (.amoAdd hd am) ∧
    wellFormed (.vadd hd vo (.vec 639#10) .rne) ∧ wellFormed (.copyLand 79 0 0 1) := by decide

theorem test_wf_refuses_tokens : ¬wellFormed (.add { hd with rp := true } 1#6 2#6 (.reg 3#6)) ∧
    ¬wellFormed (.vld { hd with rp := true } run3 .bf16 0#4 false .none) ∧
    ¬wellFormed (.vst { hd with fp := true } run3 .bf16 (.mode .rne) 0#4 .none) ∧
    ¬wellFormed (.nop { hd with fq := true }) ∧ ¬wellFormed (.nop { hd with neg := true }) ∧
    ¬wellFormed (.mark .l { hd with fq := true }) ∧ ¬wellFormed (.mark .sup hd) := by decide

theorem test_wf_refuses_registers : ¬wellFormed (.vadd hd { vo with vd := 640#10 } (.vec 0#10) .rne) ∧
    ¬wellFormed (.vadd hd { vo with va := 640#10 } (.vec 0#10) .rne) ∧ ¬wellFormed (.vadd hd vo (.vec 640#10) .rne) ∧
    ¬wellFormed (.vfma hd vo (.vec 0#10) 640#10 .rne) ∧
    ¬wellFormed (.vld hd { run3 with reg := 600#10, rep := 40#16 } .bf16 0#4 false .none) ∧
    ¬wellFormed (.pref hd run3 .x4k) ∧ ¬wellFormed (.vsortc hd 1#10 2#10 1#10 4#14 0#6 15#4) ∧
    ¬wellFormed (.vsortc hd 1#10 2#10 3#10 0#14 0#6 15#4) ∧ ¬wellFormed (.vsortc hd 1#10 2#10 3#10 1025#14 0#6 15#4) ∧
    ¬wellFormed (.vmovs hd 1#10 2#6 1024#14) ∧ ¬wellFormed (.vext hd 2#6 1#10 1024#14 false) := by decide

theorem test_wf_refuses_immediates : ¬wellFormed (.bfx hd 1#6 2#6 (.imm 0x10000#64)) ∧
    ¬wellFormed (.sfadd hd 1#6 2#6 (.imm 0x100000000#64) .rne) ∧ ¬wellFormed (.trap .s hd 0xFFFF#16) ∧
    ¬wellFormed (.mfs hd 1#6 0x003#12) ∧ ¬wellFormed (.mts hd 0x060#12 1#6) ∧
    ¬wellFormed (.watchSet hd 0#2 1#6 5#6 true false) ∧ ¬wellFormed (.watchSet hd 0#2 1#6 31#6 true false) ∧
    ¬wellFormed (.tlbInv hd 1#6 2#6 .asid) ∧ ¬wellFormed (.ld hd 1#6 2#6 3#6 0#64 .d true) := by decide

theorem test_wf_refuses_atomics : ¬wellFormed (.amoAdd hd { am with scope := .dev }) ∧
    ¬wellFormed (.amoFadd hd { am with dbl := true }) ∧ ¬wellFormed (.amoFaddTree hd 1#6 2#6 3#6 0#64 false .dev) := by
  decide

theorem test_wf_refuses_formats : ¬wellFormed (.vld hd run3 .cb4 0#4 false .none) ∧
    ¬wellFormed (.vld hd run3 .bf16 0#4 false .scale) ∧ ¬wellFormed (.vst hd run3 .cb4 (.mode .rne) 0#4 .none) ∧
    ¬wellFormed (.vst hd run3 .bf16 .i32 0#4 .none) ∧ ¬wellFormed (.vst hd run3 .int8 .i32 0#4 .scale) ∧
    ¬wellFormed (.vstAmx hd run3 .int8 .rne 0#3 .none) ∧ ¬wellFormed (.vsct hd 1#10 2#10 3#6 15#4 0#32 .int4 .i32) ∧
    ¬wellFormed (.epi hd 1#6 2#6 0#10 0#7 .int8 .i32 .relu 0#7 0#32 false false) ∧
    ¬wellFormed (.epi hd 1#6 2#6 5#10 0#7 .fp32 (.mode .rne) .none 0#7 0#32 false false) ∧
    ¬wellFormed (.epi hd 1#6 2#6 0#10 0#7 .fp32 (.mode .rne) .none 0#7 1#32 false false) ∧
    ¬wellFormed (.vredr hd 1#10 2#10 15#4 .iadd .rtz) := by decide

theorem test_wf_refuses_copies : ¬wellFormed (.copy hd { cp with imm := 1#32 }) ∧
    ¬wellFormed (.copy hd { cp with grp := .half }) ∧ ¬wellFormed (.copyEnc hd { cp with tr := true }) ∧
    ¬wellFormed (.copyDec hd { cp with padskip := true }) ∧ ¬wellFormed (.copyEnc hd { cp with lo0 := 1#8 }) ∧
    ¬wellFormed (.gather hd { cp with scl := .block }) ∧ ¬wellFormed (.copyExport hd { cp with rnd := .rtz }) ∧
    ¬wellFormed (.copyExport hd cp) ∧ ¬wellFormed (.xchgAll hd { cp with scl := .tile }) := by decide

theorem test_wf_refuses_commands : ¬wellFormed (.mma hd { tc with gb := 0#5 }) ∧
    ¬wellFormed (.mma hd { tc with q := 1#4 }) ∧ ¬wellFormed (.mma hd { tc with kk := 1#4 }) ∧
    ¬wellFormed (.mma hd { tc with topk := true, colbase := 64#16 }) ∧ ¬wellFormed (.mma hd { tc with tag := 1#8 }) ∧
    ¬wellFormed (.mma hd { tc with cl := true, np := 1#4 }) ∧ ¬wellFormed (.mmaG hd tc 2#5 0#6 1#6) ∧
    ¬wellFormed (.macc hd 0#4 0#10 1#7 15#4) ∧ ¬wellFormed (.macw hd 0#4 639#10 1#7 0#4 false) ∧
    ¬wellFormed (.mzeroOpen hd 16#7) ∧ ¬wellFormed (.mmode hd .rne false 1#6) ∧ ¬wellFormed (.mlagset hd 0#2) ∧
    ¬wellFormed (.mmerge hd 0#4 1#4 1#4 0#8 false false false) ∧ ¬wellFormed (.descStep hd { dc with depth := 0#5 }) ∧
    ¬wellFormed (.descStep hd { dc with depth := 17#5 }) ∧ ¬wellFormed (.descWalk hd { dc with split := 5#5 }) ∧
    ¬wellFormed (.descGroup hd 1#5 1#6 0#6 0#10 false false false 0#16 0#16) := by decide

theorem test_wf_refuses_common : ¬wellFormed (.ringWf .l hd 1#6 0#5 0#13 none) ∧
    ¬wellFormed (.ringWf .l hd 1#6 0#5 4097#13 none) ∧ ¬wellFormed (.qpop .s hd 1#6 0#3) ∧
    ¬wellFormed (.barInit .s hd 1#6 2#6 3#6 0#64 .eng 0#3 true) ∧
    ¬wellFormed (.barInit .s hd 1#6 2#6 3#6 0#64 .half 1#3 false) ∧ ¬wellFormed (.ckptTimeout 80) ∧
    ¬wellFormed (.stealProbe 8) ∧ ¬wellFormed (.tileRelocate 0 80) := by decide

/-! ## Words that the specification prints decode to their instructions -/

set_option maxRecDepth 20000

theorem test_decode_scalar :
    decode false 0x0010F0000C1080000000000000000000#128 = .ok (.add hd 3#6 1#6 (.reg 2#6)) ∧
    decode false 0x0420F003654000050000000000000000#128 = .ok (.lda hd 25#6 20#6 0#6 0#64 .d false .pod) := ⟨rfl, rfl⟩

theorem test_decode_vector_compute :
    decode false 0x60393000030040140C03C00000000000#128 =
      .ok (.vfma { hd with rp := true, fq := true, pred := 3#4 } { vd := 12#10, va := 4#10, msk := 15#4, z := false } (.vec 5#10)
        12#10 .rne) ∧
    decode false 0x6020F10401C060000003C0003F000000#128 =
      .ok (.vmul hd { vd := 7#10, va := 6#10, msk := 15#4, z := false } (.imm 0x3F000000#32) .rtz) ∧
    decode false 0x6480F000050030000000800000000000#128 = .ok (.vredr hd 20#10 3#10 2#4 .fadd .rne) ∧
    decode false 0x65D0F000078080001F15800400000000#128 = .ok (.vsortc hd 30#10 8#10 31#10 4#14 5#6 6#4) ∧
    decode false 0x6310F0000300B0000803C00000000000#128 =
      .ok (.vfshr hd { vd := 12#10, va := 11#10, msk := 15#4, z := false } 0#10 (.vec 8#10)) := ⟨rfl, rfl, rfl, rfl, rfl⟩

theorem test_decode_vector_stores :
    decode false 0x8020F7700001503C0028C00000000001#128 = .ok (.vsct hd 21#10 15#10 10#6 3#4 1#32 .uint8 .i32) ∧
    decode false 0x8108F01F034A2C000000000000000800#128 =
      .ok (.stf { hd with rp := true } { reg := 13#10, base := 10#6, index := 11#6, rep := 0#16, step := 0#24, off := 0x800#32 }
        .bf16 (.mode .rne) 15#4) := ⟨rfl, rfl⟩

theorem test_decode_rings_and_copies :
    decode false 0x5D00F000100000050000000000000001#128 = .ok (.ringWf .m hd 4#6 5#5 1#13 none) ∧
    decode false 0x2280F000189000020000000000001000#128 = .ok (.wpwait hd 6#6 2#2 9#6 0x1000#64) ∧
    decode false 0x2100F000004B28C4000000183E800000#128 =
      .ok (.copy hd { cp with
        ds := 0#5, dd := 1#5, sa := 11#6, sb := 10#6, sc := 12#6, ch := 1#2, tr := true
        scl := .tile, imm := 0x3E800000#32 }) := ⟨rfl, rfl, rfl⟩

theorem test_decode_matrix :
    decode false 0x4000F006088000000000000000000000#128 = .ok (.mma hd { tc with ga := 1#5, gb := 2#5, dao := true, cl := true }) ∧
    decode false 0x4000F008190000000001031800000005#128 =
      .ok (.mma hd { tc with ga := 3#5, gb := 4#5, cnt := 1#7, np := 3#4, q := 1#4, home := 2#2, tag := 5#8, rel := true }) ∧
    decode false 0x4120F006000040000000010000000001#128 = .ok (.mmerge hd 2#4 0#4 1#4 1#8 false true true) ∧
    decode false 0x4190F001080C00120000002200000000#128 =
      .ok (.descWalk hd { dc with ga := 1#5, gc := 6#5, sb := 9#6, depth := 2#5, split := 1#5 }) ∧
    decode false 0x41A0F000000000001400000000000000#128 = .ok (.descPath hd 40#10) ∧
    decode false 0x41B1F001000A00000280000300000002#128 =
      .ok (.descGroup { hd with fq := true } 5#5 0#6 0#6 5#10 true false false 3#16 2#16) ∧
    decode false 0x4010F006088800800000000000000000#128 =
      .ok (.mmaG hd { tc with ga := 1#5, gb := 2#5, dao := true, cl := true } 4#5 1#6 0#6) := ⟨rfl, rfl, rfl, rfl, rfl, rfl, rfl⟩

theorem test_decode_barriers :
    decode false 0x1C80F00100A2CC1B0000000000000040#128 = .ok (.barInit .s hd 10#6 11#6 12#6 0x40#64 .half 3#3 true) ∧
    decode false 0x1C90F00014A000000000000000000040#128 = .ok (.barArv .s hd 5#6 10#6 0x40#64) ∧
    decode false 0x9CB0F00008A140000000000000000040#128 = .ok (.barWait .w hd 2#4 10#6 5#6 0x40#64) := ⟨rfl, rfl, rfl⟩

theorem test_decode_system :
    decode false 0xA180F00000900002000000000000020C#128 = .ok (.watchSet hd 2#2 9#6 12#6 false true) ∧
    decode false 0xA000F00110A000000000000000000000#128 = .ok (.poolAlloc hd 4#6 10#6 true 0#3 false) ∧
    decode false 0xA1001800147000000000000000000000#128 = .ok (.sreRun { hd with pred := 1#4, neg := true } 5#6 7#6) ∧
    decode false 0xA080F00069B000000000000000000000#128 = .ok (.ownAcq hd 26#6 27#6) := ⟨rfl, rfl, rfl, rfl⟩

theorem test_decode_control :
    decode false 0xE010F00000000000FFFFFFFE00000000#128 = .ok (.br hd (.rel 0xFFFFFFFE#32)) ∧
    decode false 0xE050F00024000000FFFFFFFC00000000#128 = .ok (.loop hd 9#6 0xFFFFFFFC#32) ∧
    decode false 0xE090F000140000000000000000000002#128 = .ok (.launchNw hd 5#6 2#3) ∧
    decode false 0xE0A0F000000000000000000000000003#128 = .ok (.ckpt hd 3#16) := ⟨rfl, rfl, rfl, rfl⟩

/-- R44: the bytes of the printed VFMA in memory, lowest address first. -/
theorem test_word_bytes :
    wordOfBytes ([0x00, 0x00, 0x00, 0x00, 0x00, 0xC0, 0x03, 0x0C, 0x14, 0x40, 0x00, 0x03, 0x00, 0x30, 0x39, 0x60].map (BitVec.ofNat 8)) =
      0x60393000030040140C03C00000000000#128 := by decide

/-! ## States that meet the hypotheses of the statements

Every state below is the reset state with the executing engine chosen and a few fields filled in: cell 0 belongs to context 0,
its slice begins at the window address `win`, and nothing else is there. -/

/-- An engine of cell 0, whose slice belongs to context 0, with s1 an address in it. -/
def at0 (e : Eng) (f : Cell → Cell := id) : State :=
  ({ State.reset with cur := { cell := 0, eng := e } }).modHere fun x => f { x with owner := some 0#14 }

/-- The state with scalars of the executing engine written. -/
def withS (s : State) (r : SReg) (v : Word) : State := s.modMe fun st => { st with sreg := tabSet 0#64 st.sreg r.toNat v }

/-- The first address of cell 0's slice. -/
def win : Word := BitVec.ofNat 64 windowBase

/-- An answer is the given one. -/
def okIs {α β : Type} [DecidableEq β] (x : Except α β) (v : β) : Bool :=
  match x with
  | .ok w => decide (w = v)
  | .error _ => false

theorem ok_of {α β : Type} [DecidableEq β] {x : Except α β} {v : β} (h : okIs x v = true) : x = .ok v := by
  cases x with
  | ok w => simp only [okIs, decide_eq_true_eq] at h; rw [h]
  | error e => simp [okIs] at h

/-- The keys of bytes of cell 0's slice. -/
def sl (a n : Nat) : List Nat := (List.range n).map fun i => 2 ^ 52 + a + i

/-- An answer is there and meets a test. -/
def okAny {α β : Type} (x : Except α β) (p : β → Bool) : Bool :=
  match x with
  | .ok w => p w
  | .error _ => false

theorem ok_any {α β : Type} {x : Except α β} {p : β → Bool} (h : okAny x p = true) : ∃ v, x = .ok v ∧ p v = true := by
  cases x with
  | ok w => exact ⟨w, rfl, h⟩
  | error e => simp [okAny] at h

theorem some_any {β : Type} {x : Option β} {p : β → Bool} (h : x.any p = true) : ∃ v, x = some v ∧ p v = true := by
  cases x with
  | some w => exact ⟨w, rfl, h⟩
  | none => simp at h

/-- The next state of an instruction, or the state itself. -/
def run1 (i : Instr) (s : State) : State :=
  match exec i s with
  | .next t => t
  | _ => s


/-- A mask register without an error. -/
theorem sound_mask {s : State} {m : MNum} (h : s.here.badMask m = false) : soundMasks s [m] := by simpa [soundMasks] using h

/-- Two mask registers without an error. -/
theorem sound_masks {s : State} {m n : MNum} (h : s.here.badMask m = false ∧ s.here.badMask n = false) : soundMasks s [m, n] := by
  simpa [soundMasks] using h
/-! ### Tokens and the slip window -/

theorem witness_token_bit_of_absent_neighbour :
    framed (.mark .l { hd with rp := true }) = some (false, { hd with rp := true }, []) ∧
    tokensExist (at0 .l).here.vup .l { hd with rp := true } = false ∧ (at0 .l).here.retired .l = true ∧ Eng.l ≠ .sup := by
  decide +kernel

/-- R36: the trap waits for an older load. -/
theorem witness_token_bit_behind_a_load :
    let s := (at0 .l).modMe fun st => { st with queue := [{ id := 0, acc := .load (sl 0 8) (.scalar 9#6 true) }] }
    tokensExist s.here.vup .l { hd with rp := true } = false ∧ s.here.retired .l = false := by decide +kernel

theorem witness_token_bits_of_m_under_vup :
    framed (.mark .m { hd with fq := true }) = some (false, { hd with fq := true }, []) ∧
    tokensExist (at0 .m fun x => { x with vup := true }).here.vup .m { hd with fq := true } = false ∧
    (at0 .m fun x => { x with vup := true }).here.retired .m = true := by decide +kernel

/-- S at the last step that a window of 64 lets it take past L, which stands at step 0. -/
theorem witness_slip_window_stalls :
    let s := at0 .s fun x => { x with slipw := 64#14, engS := { x.engS with step := 64, halted := false }
                                      engL := { x.engL with halted := false } }
    s.here.trailing = some 0 ∧ s.me.step + 1 > 0 + s.here.slipw.toNat ∧ tokensExist s.here.vup .s hd = true := by decide +kernel

/-- One step earlier the window is open. -/
theorem witness_slip_window_open :
    let s := at0 .s fun x => { x with slipw := 64#14, engS := { x.engS with step := 63, halted := false }
                                      engL := { x.engL with halted := false } }
    s.here.windowOpen .s = true := by decide +kernel

theorem witness_missing_token_stalls :
    let h := { hd with rp := true, fp := true }
    let s := at0 .m
    framed (.mark .m h) = some (false, h, []) ∧ tokensExist s.here.vup .m h = true ∧ s.here.windowOpen .m = true ∧
    s.here.badPred .m h.pred = false ∧ s.me.resumes = false ∧ 0 ∈ popsOf s.here.vup .m h ∧ tabGet 0 s.here.tok 0 = 0 := by decide +kernel

/-- R25: a stall on L-M that began in cycle 7 keeps its cycle. -/
theorem witness_stall_keeps_its_cycle :
    let s := ({ at0 .m with cycle := 9 } : State).modMe fun st => { st with stall := .queue, stalled := [(0, 7)] }
    let t := run1 (.mark .m { hd with rp := true }) s
    (t.eng 0 .m).stall = .queue ∧ (t.eng 0 .m).stalled = [(0, 7)] := by decide +kernel

theorem witness_full_queue_stalls :
    let h := { hd with rq := true }
    let s := at0 .m fun x => { x with tok := [(1, 31)], tokReserved := [(1, 1)] }
    tokensExist s.here.vup .m h = true ∧ s.here.windowOpen .m = true ∧ 1 ∈ pushesOf s.here.vup .m h.rq h.fq ∧
    32 ≤ tabGet 0 s.here.tok 1 + tabGet 0 s.here.tokReserved 1 := by decide +kernel

theorem witness_false_predicate :
    let h := { hd with rp := true, rq := true, pred := 3#4 }
    let s := at0 .v fun x => { x with tok := [(1, 1)] }
    framed (.mark .v h) = some (false, h, []) ∧ tokensExist s.here.vup .v h = true ∧ s.here.windowOpen .v = true ∧
    s.here.tokensReady .v h s.me.resumes = true ∧ s.me.getP h.pred = h.neg ∧
    s.here.badPred .v h.pred = false := by decide +kernel

/-- R20: one token popped from M-V, one pushed to V-W. -/
theorem witness_mark_moves_tokens :
    let h := { hd with rp := true, rq := true }
    let s := at0 .v fun x => { x with tok := [(1, 32), (2, 31)] }
    s.ready h [] = true ∧ s.me.resumes = false ∧ s.me.queue = [] ∧ s.me.retire = [] ∧
    popsOf s.here.vup .v h = [1] ∧ pushesOf s.here.vup .v h.rq h.fq = [2] := by decide +kernel

/-! ### Scalar results -/

theorem witness_integer_result :
    let s := withS (withS (at0 .s) 1#6 5#64) 2#6 7#64
    (∃ is, integerResult s (.add hd 3#6 1#6 (.reg 2#6)) = some (hd, [1#6, 2#6], 3#6, is) ∧ is 12#64) ∧
    s.ready hd [1#6, 2#6] = true := ⟨⟨_, rfl, by decide⟩, by decide +kernel⟩

/-- R99: s0 as a destination. -/
theorem witness_integer_result_to_s0 :
    (∃ is, integerResult (at0 .s) (.li hd 0#6 9#64) = some (hd, [], 0#6, is) ∧ is 9#64) ∧ (at0 .s).ready hd [] = true :=
  ⟨⟨_, rfl, rfl⟩, by decide +kernel⟩

theorem witness_predicate_result :
    let s := withS (at0 .s) 1#6 5#64
    predicateResult s (.cmp hd 1#4 1#6 (.imm 6#64) .lt) = some (hd, [1#6], 1#4, true) ∧ s.ready hd [1#6] = true ∧
    (∀ p ∈ predicatesRead (.cmp hd 1#4 1#6 (.imm 6#64) .lt), s.here.badPred s.cur.eng p = false) := by decide +kernel

/-- R435: a predicate register that an instruction reads without an error, and with one. -/
theorem witness_predicates_sound :
    let i := Instr.pand hd 1#4 2#4 3#4 false true
    predicatesSound (at0 .s) i ∧ ¬ predicatesSound (at0 .s fun x => { x with regErr := [(4000 + 16 * engNum .s + 3, true)] }) i := by
  unfold predicatesSound
  decide +kernel

/-- R109: 1.0 + 0.5 = 1.5, with nothing lost. -/
theorem witness_float_result :
    let s := withS (at0 .s) 1#6 0x3F800000#64
    floatResult s (.sfadd hd 2#6 1#6 (.imm 0x3F000000#64) .rne) = some (hd, [1#6], 2#6, 0x3FC00000#64, 0#5) ∧
    s.ready hd [1#6] = true := by decide +kernel

theorem witness_scalar_frame :
    scalarDest (.add hd 3#6 1#6 (.reg 2#6)) = some (3#6, false) ∧
    (match exec (.add hd 3#6 1#6 (.reg 2#6)) (at0 .s) with
      | .next t => decide ((t.eng 0 .s).trap = none)
      | _ => false) = true := by decide +kernel

/-! ### Loads, stores and atomics -/

theorem witness_written_bytes_are_read_back :
    (sl 0 4).Nodup ∧ ([1#8, 2#8, 3#8, 4#8] : List Byte).length = (sl 0 4).length ∧
    ∀ k, State.reset.held k = false → tabGet none State.reset.own.cache k = none :=
  ⟨by decide +kernel, by decide, fun _ _ => rfl⟩

theorem witness_misaligned_access :
    let s := withS (at0 .s) 1#6 (win + 4)
    s.here.retired .s = true ∧ s.ready hd [1#6, 0#6] = true ∧ (s.getS 1#6 + s.getS 0#6 + 0#64).toNat % sizeBytes .d ≠ 0 := by decide +kernel

theorem witness_scalar_load :
    let s := withS (at0 .s) 1#6 win
    s.ready hd [1#6, 0#6] = true ∧ s.scalarKeys false (s.getS 1#6 + s.getS 0#6 + 8#64) (sizeBytes .d) = .ok (sl 8 8) ∧
    mmioOf ((sl 8 8).headD 0) = none ∧ goesFirst s (.load (sl 8 8) (.scalar 2#6 true)) ∧
    goesFirst s (.acquire (sl 8 8) (.scalar 2#6 true) .dev) ∧ s.cur.wait = false ∧ s.me.ahead = [] ∧ noDebts s (sl 8 8) :=
  ⟨by decide +kernel, ok_of (by decide +kernel), by decide +kernel, rfl, rfl, rfl, rfl, fun _ _ _ hg => nomatch hg⟩

/-- R302, R305: an acquire of cell 0 finds a release of cell 1 with an older store of it still queued, which is performed first. -/
theorem witness_acquire_settles :
    let q : Queued := { id := 0, acc := .store (fullPuts (sl 64 4) [1#8, 2#8, 3#8, 4#8]) none }
    let s : State := { ((withS (at0 .s) 1#6 win).modEng 1 .s fun st => { st with queue := [q], nextId := 2 }) with
      relTags := (sl 8 8).map fun k => (k, [(State.reset.agentOf 1 .s, Scope.sys, 1)]) }
    let t := run1 (.lda hd 2#6 1#6 0#6 8#64 .d false .sys) s
    goesFirst s (.acquire (sl 8 8) (.scalar 2#6 true) .sys) ∧ (t.eng 1 .s).queue = [] ∧ t.byte (2 ^ 52 + 67) = 4#8 ∧
    t.me.ahead = [] := by
  unfold goesFirst
  decide +kernel

/-- R300, R305: L has read 8 bytes ahead, and its load of them returns those. -/
theorem witness_load_read_ahead :
    let s := (withS (at0 .l) 1#6 win).modMe fun st => { st with ahead := [(2 ^ 52 + 8, List.replicate 8 1#8)] }
    let t := run1 (.ld hd 2#6 1#6 0#6 8#64 .d false) s
    s.readFor 0 .l 8 (sl 8 8) = List.replicate 8 1#8 ∧ t.getS 2#6 = 0x0101010101010101#64 := by decide +kernel

/-- R304: a release of cell 1 at system scope has written the bytes that an acquire of cell 0 at that scope reads. -/
theorem witness_acquire_synchronises :
    let s : State := { (at0 .s fun x => { x with vstamp := 3 }) with
      relTags := (sl 8 8).map fun k => (k, [(State.reset.agentOf 1 .s, Scope.sys, 0)]) }
    s.syncsWith (s.agentOf 0 .s) .sys (sl 8 8) = true ∧ s.here.vstamp = 3 := by decide +kernel

/-- R111: a load of the last bytes of the slice. -/
theorem witness_scalar_load_at_end :
    let s := withS (at0 .s) 1#6 (win + 0x7FFFF8)
    s.scalarKeys false (s.getS 1#6 + s.getS 0#6 + 0#64) (sizeBytes .d) = .ok (sl 0x7FFFF8 8) := ok_of (by decide +kernel)

theorem witness_waiting_access :
    let s := { withS (at0 .s) 1#6 win with cur := { cell := 0, eng := .s, wait := true } }
    s.ready hd [1#6, 0#6, 0#6] = true ∧ s.ready hd [1#6, 0#6] = true ∧ s.barriers = [] ∧
    s.scalarKeys false (s.getS 1#6 + s.getS 0#6 + 8#64) (sizeBytes .d) = .ok (sl 8 8) ∧
    s.scalarKeys true (s.getS 1#6 + s.getS 0#6 + 8#64) (sizeBytes .d) = .ok (sl 8 8) ∧
    mmioOf ((sl 8 8).headD 0) = none ∧ s.cur.wait = true :=
  ⟨by decide +kernel, by decide +kernel, rfl, ok_of (by decide +kernel), ok_of (by decide +kernel), by decide +kernel, rfl⟩

/-- R301: a load must follow an older load of one of its bytes. -/
theorem witness_load_behind_load :
    let s := (withS (at0 .s) 1#6 win).modMe fun st => { st with queue := [{ id := 0, acc := .load [2 ^ 52 + 15] (.scalar 9#6 true) }] }
    ¬ goesFirst s (.load (sl 8 8) (.scalar 2#6 true)) := by
  unfold goesFirst
  decide +kernel

theorem witness_scalar_store :
    let s := withS (at0 .s) 1#6 win
    s.ready hd [1#6, 0#6, 1#6] = true ∧ s.scalarKeys true (s.getS 1#6 + s.getS 0#6 + 8#64) (sizeBytes .w) = .ok (sl 8 4) ∧
    mmioOf ((sl 8 4).headD 0) = none ∧ s.cur.wait = false ∧ s.barriers = [] ∧
    goesFirst s (.store (fullPuts (sl 8 4) (leBytes (sizeBytes .w) (s.getS 1#6).toNat)) none) ∧ s.me.queue = [] :=
  ⟨by decide +kernel, ok_of (by decide +kernel), by decide +kernel, rfl, rfl, rfl, rfl⟩

/-- R415: a supervisor core's store to a register of the MMIO map. -/
theorem witness_mmio_store :
    let s := withS (at0 .sup) 1#6 0x0080000000000200#64
    s.ready hd [1#6, 0#6, 0#6] = true ∧
    (∃ ks, s.scalarKeys true (s.getS 1#6 + s.getS 0#6 + 0#64) (sizeBytes .d) = .ok ks ∧ mmioOf (ks.headD 0) = some 0x200) ∧
    mmioOk 0x200 8 = true ∧ mmioOk 0x200 2 = false :=
  ⟨by decide +kernel, ⟨(List.range 8).map (fun i => 8 * 2 ^ 52 + 0x200 + i), ok_of (by decide +kernel), by decide +kernel⟩,
    by decide, by decide⟩

theorem witness_scalar_store_frame :
    let s := withS (at0 .s) 1#6 win
    s.cur.eng ≠ .sup ∧ (match exec (.st hd 1#6 0#6 1#6 8#64 .d) s with
      | .next t => decide ((t.eng 0 .s).trap = none)
      | _ => false) = true := by decide +kernel

theorem witness_atomic :
    let s := withS (at0 .s) 2#6 win
    let i := Instr.amoAdd hd am
    atomicOf i = some (hd, .add, am, 0#6) ∧ framed i = some (false, hd, [2#6, 3#6]) ∧ s.ready hd [2#6, 3#6] = true ∧
    s.atomicKeys true (s.getS 2#6 + 0#64) 4 = .ok (sl 0 4) ∧ s.me.queue = [] ∧ s.cur.wait = false ∧
    s.meetsBarrier (sl 0 4) = false ∧ noDebts s (sl 0 4) :=
  ⟨by decide +kernel, by decide +kernel, by decide +kernel, ok_of (by decide +kernel), rfl, rfl, by decide +kernel,
    fun _ _ _ hg => nomatch hg⟩

theorem witness_atomic_request :
    let s := { withS (at0 .s) 2#6 win with cur := { cell := 0, eng := .s, wait := true } }
    let i := Instr.amoCas hd { am with dbl := true } 4#6
    atomicOf i = some (hd, .cas, { am with dbl := true }, 4#6) ∧ framed i = some (false, hd, [2#6, 3#6, 4#6]) ∧
    s.ready hd [2#6, 3#6, 4#6] = true ∧ s.atomicKeys true (s.getS 2#6 + 0#64) 8 = .ok (sl 0 8) ∧
    s.cur.wait = true :=
  ⟨by decide +kernel, by decide +kernel, by decide +kernel, ok_of (by decide +kernel), rfl⟩

theorem witness_atomic_reply :
    let q : Queued := { id := 0, acc := .atomic (.min true) true (sl 0 8) 5#64 0#64 1#6 {}, places := [(2 ^ 52, win)] }
    let s := (at0 .s).modMe fun st => { st with queue := [q] }
    (s.eng 0 .s).queue = q :: [] ∧ (sl 0 8).length = 8 ∧ s.meetsBarrier (sl 0 8) = false ∧ (sl 0 8).find? s.lostKey = none := by
  decide +kernel

/-- R403: an atomic on its way to a region whose switch has failed since it issued. -/
theorem witness_atomic_reply_lost :
    let ks := (List.range 8).map fun i => 0x0040000000000000 + i
    let s : State := { at0 .s with pool := { State.reset.pool with health := [(0, .failed)] } }
    (ks.find? s.lostKey).isSome = true := by decide +kernel

/-- A queue of W with a store at its head and a load of other bytes, which may go first. -/
theorem witness_queued_accesses :
    let st0 : Queued := { id := 0, acc := .store [(2 ^ 52, 0xFF#8, 1#8)] none, places := [(2 ^ 52, win)] }
    let ld1 : Queued := { id := 1, acc := .load (sl 8 8) (.scalar 2#6 true), places := [(2 ^ 52 + 8, win + 8)] }
    let s := (at0 .w).modMe fun st => { st with queue := [st0, ld1] }
    (s.eng 0 .w).queue[0]? = some st0 ∧ (s.eng 0 .w).queue[1]? = some ld1 ∧ mustFollow st0.acc ld1.acc = false := by decide +kernel

/-- R301: L's load of two FP32 lanes into v3, and one of a descriptor, performed from its queue. -/
theorem witness_queued_lanes_and_descriptor :
    let q : Queued := { id := 0, acc := .load (sl 0 8) (.lanes 3#10 .fp32 false false [(0, 0), (1, 8)]), places := [(2 ^ 52, win)] }
    let d : Queued := { id := 1, acc := .load (sl 64 64) (.desc 2#5 7#512), places := [(2 ^ 52 + 64, win + 64)] }
    let s := (at0 .l).modMe fun st => { st with queue := [q, d] }
    mustFollow q.acc d.acc = false ∧
    ([(0, 0), (1, 8)] : List (Nat × Nat)).Pairwise (fun a b => a.1 < b.1) ∧
    ((s.cell 0).lost .l s.cur.old 3).getLsbD 1 = false ∧
    (match exec (.accessPerformed 0 .l 1) s with
      | .next t => decide ((t.cell 0).getD 2#5 = 7#512) && decide ((t.eng 0 .l).queue.length = 1)
      | _ => false) = true := by decide +kernel
/-! ### Barriers -/

/-- A live object at the first line of the slice with two arrivals expected and one counted, in phase 4. -/
def obj : Barrier :=
  { pa := 2 ^ 52, phase := 4#32, pending := 8#40, early := 0, arrivals := 1, expected := 2, wire := false, tag := 0#3, scope := 3#3,
    waiters := [], contribs := [] }

/-- An engine with s1 at the object's line and s2 the number 4. -/
def atObj (e : Eng) (bs : List Barrier) : State := { withS (withS (at0 e) 1#6 win) 2#6 4#64 with barriers := bs }

theorem witness_arrivals_count :
    (atObj .s []).barrierAt (2 ^ 52) = none ∧ (atObj .s [obj]).barrierAt (2 ^ 52) = some obj ∧
    (∃ b ph, arrivalAt obj (-8) = .ok (b, ph) ∧ ph = 4#32 ∧ b.arrivals = 2 ∧ b.pending = 0#40) ∧
    (∃ b ph, arrivalAt { obj with arrivals := 2, early := 1 } 0 = .ok (b, ph) ∧ ph = 5#32 ∧ b.early = 2) ∧
    arrivalAt obj (2 ^ 39) = .error 2 ∧ arrivalAt { obj with arrivals := 2, early := 2 } 0 = .error 3 :=
  ⟨rfl, by decide +kernel, ⟨_, _, rfl, by decide, by decide, by decide⟩, ⟨_, _, rfl, by decide, by decide⟩, rfl, rfl⟩

theorem witness_arrivals_complete :
    let s := atObj .s [{ obj with expected := 4 }]
    s.barrierKey (s.getS 1#6 + 0#64) = .ok (2 ^ 52) ∧ (∃ x, s.arrive (self s) (2 ^ 52) 0 none = .ok x) ∧
    (∃ x, s.arrive (self s) (2 ^ 52) (s.getS 2#6).toInt none = .ok x) ∧ s.lineTrap (s.getS 1#6 + 0#64) (2 ^ 52) = none ∧
    s.settled = true ∧ s.cur.wait = false ∧
    s.ready hd [0#6, 1#6] = true ∧ s.ready hd [0#6, 1#6, 2#6] = true :=
  ⟨ok_of (by decide +kernel), ⟨_, rfl⟩, ⟨_, rfl⟩, by decide +kernel⟩

/-- AMO.FADD.tree of a word in the second line of the slice, at the object. -/
theorem witness_tree_arrival :
    let s := withS (atObj .s [{ obj with expected := 4 }]) 3#6 (win + 64)
    s.ready hd [3#6, 2#6, 1#6] = true ∧ s.atomicKeys false (s.getS 3#6 + 0#64) 4 = .ok (sl 64 4) ∧
    s.barrierKey (s.getS 1#6) = .ok (2 ^ 52) ∧ s.linesFree (s.halfAt (2 ^ 52)) 1 = true ∧
    s.lineTrap (s.getS 1#6) (2 ^ 52) = none ∧ s.settled = true ∧ s.cur.wait = false ∧
    ∃ x, s.arrive (self s) (2 ^ 52) 0 (some
      { target := (sl 64 4).headD 0, ea := win + 64, dev := s.podDev, cell := s.cur.cell, ordinal := 0, early := false
        val := (s.getS 2#6).setWidth 32, rel := some (self s, .dev, 0) }) = .ok x :=
  ⟨by decide +kernel, ok_of (by decide +kernel), ok_of (by decide +kernel), by decide +kernel, by decide +kernel, by decide +kernel, rfl,
    ⟨_, rfl⟩⟩

/-- W at an object that is live, or dead: the operands of BAR.INIT, BAR.WAIT and BAR.TEST read. -/
theorem witness_barrier_instructions :
    (∀ bs ∈ [[obj], []], let s := atObj .w bs
      okIs (s.barrierKey (s.getS 1#6 + 0#64)) (2 ^ 52) = true ∧ s.lineTrap (s.getS 1#6 + 0#64) (2 ^ 52) = none ∧ s.settled = true ∧ s.cur.wait = false ∧
      ∀ uses ∈ [[1#6], [1#6, 2#6], [0#6, 1#6], [1#6, 2#6, 2#6]], s.ready hd uses = true) ∧
    (atObj .w []).linesFree ((atObj .w []).halfAt (2 ^ 52)) 1 = true ∧ ((atObj .w []).getS 2#6).toNat = 4 := by decide +kernel

/-- R291: nothing left to complete, one phase, and two phases where the early arrivals fill the second: the waiter of the phase
that ended is released, and under a second phase a waiter of that one too. -/
theorem witness_phases_complete :
    let w (ph : BitVec 32) : Waiter := { cell := 3, eng := .v, phase := ph, peer := none }
    let full : Barrier := { obj with arrivals := 2, pending := 0#40, waiters := [w 4#32, w 5#32] }
    let done (b : Barrier) := ((atObj .s [b]).complete (2 ^ 52) 3).released.map (·.waiter.phase)
    (∀ b ∈ [{ full with pending := 1#40 }, full, { full with early := 2 }], (atObj .s [b]).barrierAt (2 ^ 52) = some b ∧ b.pa = 2 ^ 52 ∧
      1 ≤ b.expected) ∧
    done { full with pending := 1#40 } = [] ∧ done full = [4#32] ∧ done { full with early := 2 } = [4#32, 5#32] ∧
    (((atObj .s [{ full with early := 1 }]).complete (2 ^ 52) 3).barrierAt (2 ^ 52)).map (fun b => (b.phase, b.arrivals, b.early)) =
      some (5#32, 1, 0) := by decide +kernel

/-- R287: no queue holds an access of the line at which BAR.INIT makes a new object, or one that waits there does. -/
theorem witness_idle_line :
    lineIdle (atObj .s []) (2 ^ 52) ∧
    ¬ lineIdle ((atObj .s []).modMe fun st => { st with queue := [{ id := 0, acc := .store [(2 ^ 52, 0xFF#8, 7#8)] none }] }) (2 ^ 52) := by
  constructor
  · intro c e q hq
    have : ((atObj .s []).eng c e).queue = [] := by
      rcases c with _ | c <;> cases e <;> rfl
    simp [this] at hq
  · intro h
    exact h 0 .s _ (List.mem_singleton.mpr rfl) (2 ^ 52) (by decide) (by decide)

/-- R292: the object in the phase that W waits for, in another, and dead. -/
theorem witness_phases :
    (atObj .w [obj]).barrierAt (2 ^ 52) = some obj ∧ obj.phase = ((atObj .w [obj]).getS 2#6).setWidth 32 ∧
    ({ obj with phase := 5#32 } : Barrier).phase ≠ ((atObj .w [obj]).getS 2#6).setWidth 32 ∧
    (atObj .w []).barrierAt (2 ^ 52) = none := by decide +kernel

/-- R289: a live object with a waiter is initialised again: the waiter is released with false. -/
theorem witness_barrier_initialised_again :
    let w : Waiter := { cell := 3, eng := .v, phase := 4#32, peer := none }
    let t := run1 (.barInit .s hd 1#6 2#6 2#6 0#64 .dev 1#3 false) (atObj .s [{ obj with waiters := [w] }])
    t.released = [{ waiter := w, pa := 2 ^ 52, ok := false, sync := true }] ∧ (t.barrierAt (2 ^ 52)).map (·.expected) = some 4 := by
  decide +kernel

/-- R289: a second wire object, its tag not in use in its half. -/
theorem witness_wire_object :
    let s := atObj .s [{ obj with wire := true, tag := 2#3 }]
    ∀ b ∈ s.barriers, ¬(b.wire = true ∧ b.tag = 3#3 ∧ b.pa ≠ 2 ^ 52 + 64 ∧ s.halfAt b.pa = s.halfAt (2 ^ 52 + 64)) := by
  decide +kernel

/-- R294: any of the seven requests on its way to the object. -/
theorem witness_barrier_request :
    ∀ i ∈ [Instr.barTest .s hd 3#6 1#6 0#64, .barInit .s hd 1#6 2#6 2#6 0#64 .dev 0#3 false, .barInitInv .s hd 1#6 0#64,
        .barArv .s hd 3#6 1#6 0#64, .barArvx .s hd 3#6 1#6 2#6 0#64, .barWait .s hd 2#4 1#6 2#6 0#64,
        .amoFaddTree hd 1#6 2#6 1#6 64#64 false .dev],
      let s := ((atObj .s [{ obj with expected := 4 }]).modMe fun st => { st with flight := some i })
      let s₀ := (s.acts 0 .s).asEngine 0 .s
      s.unfrozen 0 .s = true ∧ (s.eng 0 .s).deferred = [] ∧ s₀.me.flight = some i ∧ s₀.settled = true ∧
      s₀.me.stall ≠ .barrier ∧
      (barrierRequest s₀ i).any (fun r => okIs (s₀.barrierKey r.2.2) (2 ^ 52) && (s₀.lineTrap r.2.2 (2 ^ 52)).isNone) = true := by
  decide +kernel

theorem witness_release :
    let i := Instr.barWait .w hd 2#4 1#6 2#6 0#64
    let w : Waiter := { cell := 0, eng := .w, phase := 4#32, peer := none }
    let s := { (atObj .w []).modMe fun st => { st with flight := some i } with released := [{ waiter := w, pa := 2 ^ 52, ok := false }] }
    ((s.acts 0 .w).asEngine 0 .w).me.flight = some i ∧ s.released = { waiter := w, pa := 2 ^ 52, ok := false } :: [] ∧ w.peer = none ∧
    s.unfrozen 0 .w = true ∧ (s.eng 0 .w).deferred = [] := by decide +kernel

/-! ### Rings and write pointers -/

/-- A ring of four slots of 64 bytes from the start of the slice: slot 0 retired, slot 1 claimed, slots 2 and 3 published. -/
def ring4 : Ring :=
  { smode := 0, kext := 1, slotSize := 64, nslots := 4, offset := 0, h := 1#32, k := 2#32, t := 4#32 }

/-- An engine of a cell with that ring in g1. -/
def atRing (e : Eng) : State := at0 e fun x => { x with ring := [(1, ring4)] }

/-- R179–R183: two slots waited for and claimed; one slot of the four published, to the limit; one retired. -/
theorem witness_ring_operation :
    let s := atRing .m
    let done (n : Nat) (i : Instr) := ringDone (fun j => (s.cell 0).holdOf 1 j != 0) ((s.cell 0).getR 1) n i
    (s.ready hd [] = true ∧ ((s.cell 0).getR 1).nslots ≠ 0 ∧ (s.cell 0).badReg 5001 = false ∧ s.slotsWritten ((s.cell 0).getR 1) 1 = true ∧ s.me.queue = [] ∧
      ringOf (.ringWf .m hd 3#6 1#5 2#13 none) = some (hd, 3#6, 1#5, 2#13, none) ∧
      done 2 (.ringWf .m hd 3#6 1#5 2#13 none) = some (2#64, ring4) ∧
      done 1 (.ringWe .m hd 3#6 1#5 1#13 none) = some (win, ring4) ∧
      done 2 (.ringClm .m hd 3#6 1#5 2#13 none) = some (win + 128, { ring4 with k := 4#32 }) ∧
      done 1 (.ringPub .m hd 3#6 1#5 1#13 none) = some (5#64, { ring4 with t := 5#32 }) ∧
      done 1 (.ringPop .m hd 3#6 1#5 1#13 none) = some (2#64, { ring4 with h := 2#32 })) ∧
    s.ringHome none = .ok 0 ∧ s.ringOrder 0 1 (ringRank false .m) = true ∧ s.me.releasing = false :=
  ⟨by decide +kernel, rfl, by decide +kernel⟩

/-- R180: a .far operation on the ring of cell 3, which is of the same context. -/
theorem witness_far_ring :
    let s := (withS (at0 .m) 4#6 3#64).modCell 3 fun x => { x with owner := some 0#14, ring := [(1, ring4)] }
    s.ready hd [4#6] = true ∧ s.ringHome (some 4#6) = .ok 3 ∧ s.cur.wait = false ∧
    (((s.cell 3).getR 1).nslots ≠ 0 ∧ (s.cell 3).badReg 5001 = false ∧ s.ringOrder 3 1 (ringRank true .m) = true) ∧
    ringDone (fun j => (s.cell 3).holdOf 1 j != 0) ((s.cell 3).getR 1) 2 (.ringWf .m hd 3#6 1#5 2#13 (some 4#6)) =
      some (2#64, ring4) := ⟨by decide +kernel, ok_of (by decide +kernel), rfl, by decide +kernel, by decide +kernel⟩

/-- R182: each of the five operations on the ring of cell 3, on its way with one slot. -/
theorem witness_far_ring_request :
    ∀ i ∈ [Instr.ringWf .m hd 3#6 1#5 1#13 (some 4#6), .ringWe .m hd 3#6 1#5 1#13 (some 4#6), .ringClm .m hd 3#6 1#5 1#13 (some 4#6),
        .ringPub .m hd 3#6 1#5 1#13 (some 4#6), .ringPop .m hd 3#6 1#5 1#13 (some 4#6)],
      let s := ((withS (at0 .m) 4#6 3#64).modCell 3 fun x => { x with owner := some 0#14, ring := [(1, ring4)] }).modMe
        fun st => { st with flight := some i }
      let s₀ := (s.acts 0 .m).asEngine 0 .m
      s₀.me.flight = some i ∧ s.unfrozen 0 .m = true ∧ (s.eng 0 .m).deferred = [] ∧ okIs (s₀.ringHome (some 4#6)) 3 = true ∧
      s₀.ringOrder 3 1 6 = true ∧ (s.cell 3).badReg 5001 = false ∧ ((s.cell 3).getR 1).nslots ≠ 0 ∧ s.slotsWritten ((s.cell 3).getR 1) 1 = true ∧ s.me.queue = [] ∧
      s.me.releasing = false ∧
      (ringDone (fun j => (s.cell 3).holdOf 1 j != 0) ((s.cell 3).getR 1) 1 i).isSome = true := by decide +kernel

/-- R176: kext 1, slots of 64 bytes, four slots, the loading cell. -/
theorem witness_ring_load :
    let img := 2 ^ 144 + 64 * 2 ^ 96 + 4 * 2 ^ 64 + 0x7F * 2 ^ 23
    let s := (withS (at0 .m) 4#6 win).setBytes (2 ^ 52) (leBytes 64 img)
    s.ready hd [4#6] = true ∧ (s.getS 4#6).toNat % 64 = 0 ∧ (s.here.getR 1).nslots = 0 ∧
    (ringReader s).scalarKeys false (s.getS 4#6) 64 = .ok (sl 0 64) ∧ s.me.loadBlocked (sl 0 64) = false ∧
    leNat (s.readFor s.cur.cell s.cur.eng 8 (sl 0 64)) = img ∧ s.ringOrder s.cur.cell 1 (ringRank false s.cur.eng) = true ∧ ringImageOk img = true :=
  ⟨by decide +kernel, by decide +kernel, by decide +kernel, ok_of (by unfold ringReader; decide +kernel), by decide +kernel⟩

theorem witness_wpwait :
    let s := withS (at0 .l fun x => { x with issued := [(2, 0x2000)], wp := [(2, 0x1C00#64)] }) 9#6 0xC00#64
    s.ready hd [9#6] = true ∧ (s.getS 9#6 + 0x1000#64).toNat ≤ tabGet 0 s.here.issued 2 ∧
    (s.getS 9#6 + 0x1000#64).toNat ≤ (tabGet 0#64 s.here.wp 2).toNat ∧ s.here.badReg 7002 = false := by decide +kernel

/-! ### Queues, special registers, fences and traps -/

theorem witness_queues :
    let s := at0 .v fun x => { x with q := [(4, [7#64, 8#64])] }
    s.ready hd (srcRegs (.imm 1#64)) = true ∧ (tabGet [] s.here.q 4).length < 16 ∧ s.ready hd [] = true ∧
    tabGet [] s.here.q 4 = 7#64 :: [8#64] := by decide +kernel

/-- R118: a queue with room for one entry. -/
theorem witness_nearly_full_queue :
    (tabGet [] (at0 .s fun x => { x with q := [(7, List.replicate 15 1#64)] }).here.q 7).length < 16 := by decide +kernel

theorem witness_special_registers :
    let s := withS (at0 .s fun x => { x with fflags := 0x1FFFFFF#25 }) 1#6 0x8421#64
    s.ready hd [] = true ∧ specialValue s 0x018 = some 0x1FFFFFF#64 ∧ s.ready hd [1#6] = true ∧
    (specialWritten s.here 7 0x018 (s.getS 1#6)).fflags = 0x1FF7BDE#25 ∧ (specialWritten s.here 7 0x009 0x3F#64).slipw = 64#14 ∧
    (specialWritten s.here 7 0x009 0x2001#64).slipw = 8192#14 ∧ (at0 .sup).ready hd [1#6] = true ∧ (at0 .sup).cur.eng = .sup := by
  decide +kernel

/-- R34, R93: MTS in the cycle in which another engine has set NV of L and counted 5 saturations: the flag stays, and the
count adds to the value written. -/
theorem witness_special_registers_same_cycle :
    let x : Cell := { fflags := 0x1FFFFFF#25, satcnt := 9#64, tally := { cycle := 7, flags := 1#25 <<< 5, sat := 5 } }
    (specialWritten x 7 0x018 0xFFFFFFFF#64).fflags = 1#25 <<< 5 ∧ (specialWritten x 7 0x019 100#64).satcnt = 105#64 ∧
    (specialWritten x 8 0x019 100#64).satcnt = 100#64 := by decide +kernel

/-- R237: MFS of MLAG and MMODE with a command of M outstanding, of ASID without. -/
theorem witness_unit_registers :
    let s := at0 .s fun x => { x with lag := 3 }
    specialValue s 0x002 = some 0#64 ∧ specialValue s 0x010 = some 3#64 ∧ (specialValue s 0x011).isSome = true := by
  decide +kernel

theorem witness_privileged_instruction :
    let s := at0 .s
    s.here.retired .s = true ∧ framed (.ctxSwitch hd) = some (true, hd, []) ∧ s.ready hd [] = true ∧ s.cur.eng ≠ .sup ∧
    framed (.mts hd 0x00B#12 1#6) = some (false, hd, [1#6]) ∧ s.ready hd [1#6] = true := by decide +kernel

theorem witness_fence_and_mark :
    let s := at0 .l
    let t := s.modMe fun st => { st with queue := [{ id := 0, acc := .load [2 ^ 52] (.scalar 1#6 false) }] }
    s.ready hd [] = true ∧ s.me.queue = [] ∧ s.here.copies = [] ∧ s.here.xchg = none ∧ (at0 .w).here.stfs = [] ∧
    t.ready hd [] = true ∧ t.me.queue ≠ [] := by decide +kernel

theorem witness_software_traps :
    let s := withS (at0 .s) 1#6 0x1234#64
    s.cur.eng ≠ .sup ∧ s.ready hd [] = true ∧ s.ready hd [1#6] = true ∧ s.here.retired .s = true ∧ (at0 .m).here.retired .m = true ∧
    (at0 .m).ready hd [] = true := by decide +kernel

theorem witness_trap_entry :
    let s := at0 .w
    let t : TrapRec := { cause := 0x04#8, detail := 2, deferred := true, addr := win, idx := some 3 }
    (Eng.w ≠ .sup ∧ t.cause ≠ 0x0D#8 ∧ t.detail < 256 ∧ (s.cell 0).frozen = none ∧ s.held (supPa 0 (64 * engNum .w)) = false) ∧
    ∀ k, s.held k = false → tabGet none s.own.cache k = none := ⟨by decide +kernel, fun _ _ => rfl⟩

/-! ### Vectors -/

/-- V or another engine with v2 = 1.0 in every lane and v3 = the lane numbers. -/
def atV (e : Eng) : State :=
  at0 e fun x => { x with vreg := [(2, List.replicate 1024 0x3F800000#32), (3, (List.range 1024).map (BitVec.ofNat 32))] }

theorem witness_lane_result :
    let s := atV .v
    (∃ r, laneResult s (.viadd hd vo (.vec 3#10)) = some r ∧ s.ready r.h r.uses = true ∧ soundRegs s r.srcs ∧
      soundMasks s [r.o.msk] ∧ r.is 7 0x3F800007#32) := ⟨_, rfl, by decide +kernel, fun _ _ => rfl, sound_mask (by decide +kernel), by
    change (_ : Nat) = _
    decide +kernel⟩

/-- R137: 1.0 × 0.5 in a lane. -/
theorem witness_float_lane_result :
    let s := atV .v
    (∃ r, laneResult s (.vmul hd vo (.imm 0x3F000000#32) .rtz) = some r ∧ s.ready r.h r.uses = true ∧ soundRegs s r.srcs ∧
      soundMasks s [r.o.msk] ∧ r.is 1023 0x3F000000#32 ∧ r.fl 1023 = 0#5) :=
    ⟨_, rfl, by decide +kernel, fun _ _ => rfl, sound_mask (by decide +kernel), by
    change (_ : Lane) = _
    decide +kernel, by decide +kernel⟩

/-- R148: a rotation by one moves column 63 to column 0 of its row. -/
theorem witness_lane_move :
    let s := atV .v
    (∃ f, laneMove s (.vrotr hd { vo with va := 3#10 } 0#6 1#32) = some (hd, 1#10, 15#4, false, [0#6], [3#10], f) ∧
      f 64 = 127#32) ∧ s.ready hd [0#6] = true ∧ soundRegs s [3#10] ∧ soundMasks s [15#4] :=
  ⟨⟨_, rfl, by decide +kernel⟩, by decide +kernel, fun _ _ => rfl, sound_mask (by decide +kernel)⟩

theorem witness_lane_write : (at0 .v).ready hd [5#6] = true ∧ (1023#14).toNat < 1024 := by decide +kernel

theorem witness_mask_operations :
    let s := atV .v
    s.ready hd (vsrcRegs (.sc 5#6)) = true ∧ s.ready hd [] = true ∧ soundRegs s (2#10 :: vsrcVecs (.sc 5#6)) ∧ soundRegs s [3#10] ∧
    soundMasks s [2#4, 3#4] :=
  ⟨by decide +kernel, by decide +kernel, fun _ _ => rfl, fun _ _ => rfl, sound_masks (by decide +kernel)⟩

theorem witness_reductions : (atV .v).ready hd [] = true ∧ soundRegs (atV .v) [2#10] ∧ soundMasks (atV .v) [2#4] :=
  ⟨by decide +kernel, fun _ _ => rfl, sound_mask (by decide +kernel)⟩

theorem witness_sort_and_count :
    (atV .v).ready hd [] = true ∧ soundRegs (atV .v) [3#10, 4#10] ∧ soundMasks (atV .v) [6#4] ∧ (1#10 : VNum) ≠ 4#10 ∧
    1 ≤ (1024#14).toNat ∧ (1024#14).toNat ≤ 1024 := ⟨by decide +kernel, fun _ _ => rfl, sound_mask (by decide +kernel), by decide⟩

theorem witness_vector_frame :
    (vectorHides (.vmov hd 1#10 (.vec 2#10) 15#4 false)).isSome = true ∧
    (match exec (.vmov hd 1#10 (.vec 2#10) 15#4 false) (at0 .v) with
      | .next t => decide ((t.eng 0 .v).trap = none)
      | _ => false) = true := by decide +kernel

/-! ### Vector loads and stores -/

/-- Lanes 0 and 64 alone are active in m1. -/
def twoLanes (e : Eng) : State := withS (at0 e fun x => { x with mreg := [(1, 1#1024 <<< 64 ||| 1#1024)] }) 1#6 win

/-- A run of v3 at s1. -/
def runAt : RunOps := { reg := 3#10, base := 1#6, index := 0#6, rep := 0#16, step := 0#24, off := 0#32 }

theorem witness_vector_load :
    let s := twoLanes .l
    let q : VLoad := { h := hd, r := runAt, f := .bf16, raw := false, mask := 1#4, z := false, idx := .none, shape := none }
    vectorLoad (.vld hd runAt .bf16 1#4 false .none) = some q ∧ s.ready hd [1#6, 0#6] = true ∧ s.me.resumes = false ∧
    runAt.reg.toNat + runAt.rep.toNat < 640 ∧ soundMasks s [1#4] ∧ s.me.ahead = [] ∧ s.cur.wait = false ∧ s.me.queue = [] ∧ s.here.watch = [] ∧
    (∀ n ≤ runAt.rep.toNat, ∀ j, q.reads s j →
      s.span .load (q.place s n j).1 (elemBytes q.f) = .ok (sl (2 * j) 2) ∧ ∀ k ∈ sl (2 * j) 2, s.bad k = false) := by
  refine ⟨rfl, by decide +kernel, by decide +kernel, by decide, sound_mask (by decide +kernel), rfl, rfl, rfl, rfl, ?_⟩
  intro n hn j hj
  obtain rfl : n = 0 := Nat.le_zero.mp hn
  have hj' : j = 0 ∨ j = 64 := by
    have all : ∀ j < 1024, ((twoLanes .l).here.getM 1#4).getLsbD j = true → j = 0 ∨ j = 64 := by decide +kernel
    exact all j hj.1 hj.2
  obtain rfl | rfl := hj'
  · exact ⟨ok_of (by decide +kernel), by decide +kernel⟩
  · exact ⟨ok_of (by decide +kernel), by decide +kernel⟩

/-- R29: V's write of v3 races with L's load of it, and the turn gives lane 0 to the older one. -/
theorem witness_racing_load :
    let s := { twoLanes .l with cur := { cell := 0, eng := .l, old := [(3, 1#1024)] } }
    let s := s.modHere fun x => { x with vstamp := 1, vhist := [(3, some { by' := .v, old := [], lanes := BitVec.allOnes 1024, stamp := 1 })] }
    (s.here.lost .l s.cur.old 3).getLsbD 0 = true ∧ (s.here.lost .l s.cur.old 3).getLsbD 1 = false := by decide +kernel

/-- R160: an error in the base scalar stops no PREF. -/
theorem witness_prefetch :
    let s := at0 .l fun x => { x with regErr := [(65, true)] }
    s.ready hd [] = true ∧ s.me.resumes = false ∧ s.me.loading 1#6 = false ∧ s.me.loading 0#6 = false ∧
    s.here.badReg (64 * engNum .l + 1) = true := by decide +kernel

theorem witness_vector_store :
    let s := twoLanes .w
    let i := Instr.vst hd runAt .bf16 (.mode .rne) 1#4 .none
    ∃ q u ks, vectorStore i = some q ∧ s.ready q.h q.uses = true ∧ s.me.resumes = false ∧ storeAble s i ∧ s.here.watch = [] ∧
      s.barriers = [] ∧ s.me.watchPass = false ∧ q.run q.reps 0 s = some (u, ks) ∧ ks = sl 0 2 ++ sl 128 2 := by
  refine ⟨_, _, _, rfl, by decide +kernel, by decide +kernel, ?_, rfl, rfl, by decide +kernel, rfl, ?_⟩
  · exact ⟨fun _ _ => rfl, sound_mask (by decide +kernel)⟩
  · decide +kernel

theorem witness_vector_store_frame :
    let s := twoLanes .w
    (vectorStore (.vst hd runAt .bf16 (.mode .rne) 1#4 .none)).isSome = true ∧ s.cur.eng = .w ∧
    (match exec (.vst hd runAt .bf16 (.mode .rne) 1#4 .none) s with
      | .next t => decide ((t.eng 0 .w).trap = none)
      | _ => false) = true := by decide +kernel

/-! ### Descriptors and copies -/

/-- R191: rank 1, BF16, two elements. -/
def desc2 : Nat := 1 + 16 * 1 + 2 * 2 ^ 32

/-- L with that descriptor in d3 and d4, s1 the start of the slice and s2 its second line. -/
def atCopy : State :=
  withS (withS (at0 .l fun x => { x with desc := [(3, BitVec.ofNat 512 desc2), (4, BitVec.ofNat 512 desc2)] }) 1#6 win) 2#6 (win + 64)

/-- A copy of two elements from the first line to the second, on channel 2. -/
def cp2 : CopyOps := { cp with sa := 1#6, sb := 2#6 }

theorem witness_descriptor_load :
    let s := (withS (at0 .l) 1#6 win).setBytes (2 ^ 52) (leBytes 64 desc2)
    s.ready hd [1#6] = true ∧ (s.getS 1#6 + (0#32 : Lane).signExtend 64).toNat % 64 = 0 ∧ s.here.watch = [] ∧
    s.cur.wait = false ∧ s.me.queue = [] ∧ s.span .load (s.getS 1#6 + (0#32 : Lane).signExtend 64) 64 = .ok (sl 0 64) ∧
    s.span .store (s.getS 1#6 + (0#32 : Lane).signExtend 64) 64 = .ok (sl 0 64) ∧
    (∀ k ∈ sl 0 64, s.bad k = false) ∧ leNat (s.readFor s.cur.cell .l 8 (sl 0 64)) = desc2 ∧ descOk desc2 = true ∧ s.barriers = [] ∧
    s.here.badReg 6003 = false :=
  ⟨by decide +kernel, by decide +kernel, rfl, rfl, rfl, ok_of (by decide +kernel), ok_of (by decide +kernel), by decide +kernel⟩

/-- R191, R192: rank 0 is no descriptor. -/
theorem witness_bad_descriptor : descOk 0 = false ∧ (at0 .l).here.retired .l = true := by decide +kernel

theorem witness_copy_command :
    let s := atCopy
    copyOps (.copy hd cp2) = some (hd, cp2) ∧ Instr.copy hd cp2 ≠ .xchgAll hd cp2 ∧ s.ready hd (copyRegs cp2) = true ∧
    unsettled s.here ∧ copyReadable s (.copy hd cp2) cp2 ∧
    s.me.marked = false ∧ s.here.copies.length < Config.copyDepth ∧
    ∃ k, s.prepare (.copy hd cp2) = .ok k ∧ (k.units == 2 && k.total == 4) = true := by
  refine ⟨by decide +kernel, by decide +kernel, by decide +kernel, fun _ h => (List.not_mem_nil h).elim,
    ⟨by decide +kernel, by decide +kernel, by decide +kernel, by decide +kernel, by decide +kernel⟩, ?_⟩
  exact ⟨rfl, by decide +kernel, ok_any (by decide +kernel)⟩

/-- R306: COPY.DEC of a tensor whose header an earlier copy is writing. -/
theorem witness_header_pending :
    let s := run1 (.copy hd cp2) atCopy
    s.me.marked = false ∧ s.here.copies.length < Config.copyDepth ∧ unsettled s.here ∧
    s.headerPending (.copyDec hd { cp2 with sa := 2#6 }) { cp2 with sa := 2#6 } = true := by
  refine ⟨by decide +kernel, by decide +kernel, by unfold unsettled; decide +kernel, by decide +kernel⟩

/-- R122: a COPY behind a MARK that L has not reached. -/
theorem witness_marked_copy :
    (atCopy.modMe fun st => { st with queue := [{ id := 0, acc := .load (sl 8 8) (.scalar 9#6 true) }, { id := 1, acc := .mark }] }).me.marked =
      true := by decide +kernel

/-- R203: a source descriptor that was never loaded. -/
theorem witness_refused_copy :
    atCopy.here.retired .l = true ∧ (match atCopy.prepare (.copy hd { cp2 with ds := 5#5 }) with | .error t => t.cause == 0x06#8 | .ok _ => false) = true := by
  decide +kernel

/-- R203: as many commands as L holds. -/
theorem witness_full_channel :
    let s := (run1 (.copy hd cp2) atCopy).modHere fun x => { x with copies := x.copies.flatMap (List.replicate Config.copyDepth) }
    Config.copyDepth ≤ s.here.copies.length ∧ s.ready hd (copyRegs cp2) = true ∧ s.me.marked = false ∧
    copyReadable s (.copy hd cp2) cp2 := by unfold copyReadable; decide +kernel

/-- R191: two rows of two BF16 elements, four bytes apart. -/
def desc22 : Nat := 2 + 16 * 1 + 2 * 2 ^ 32 + 2 * 2 ^ 64 + 4 * 2 ^ 192

/-- R210, R219: a transposing copy onto the second element of its own source. -/
theorem witness_overlapping_copy :
    let s := (withS atCopy 2#6 (win + 2)).modHere fun x =>
      { x with desc := [(3, BitVec.ofNat 512 desc22), (4, BitVec.ofNat 512 desc22)] }
    let w := ((win + 2).toNat, 8)
    let cp2 := { cp2 with tr := true }
    copyOps (.copy hd cp2) = some (hd, cp2) ∧ s.ready hd (copyRegs cp2) = true ∧ s.here.xchg = none ∧
    (s.here.copies.length < Config.copyDepth ∧ s.me.marked = false ∧ s.here.retired .l = true ∧
      copyReadable s (.copy hd cp2) cp2) ∧ cp2.sc = 0#6 ∧
    (∃ p, s.planOf (.copy hd cp2) = .ok p ∧ (p.aligned.all (fun a => a.1.toNat % a.2 == 0) && decide (p.write = w) &&
      p.reads.any (meets p.write) && !p.serial && okAny (s.pagesOf s.here.asid false p.reads) (fun _ => true)) = true) ∧
    ∃ wp, s.pagesOf s.here.asid true [w] = .ok wp ∧ (s.liveIn wp w).isNone = true :=
  ⟨by decide +kernel, by decide +kernel, rfl, by unfold copyReadable; decide +kernel, rfl, ok_any (by decide +kernel),
    ok_any (by decide +kernel)⟩

theorem witness_copy_lands :
    let s := run1 (.copy hd cp2) atCopy
    ∃ k, (s.cell 0).copies[0]? = some k ∧
      (decide (k.srcs = []) && decide (k.extra = []) && decide (k.bar = none) && k.barVa == 0#64 && s.mayLand 0 0 (k.group k.lead).1 &&
        decide (k.group 0 = (0, 2)) && okAny (s.unitOf 0 k k.lead) (fun x => okAny (s.landKeys k x.writes) fun _ => true) &&
        (landAll 0 0 2 0 s).any (fun u => (u.cell 0).copies[0]?.any fun k' =>
          k'.bar.isNone && k'.barVa == 0#64 && k'.watched.isNone && decide (k'.lead = k'.units))) = true :=
  some_any (by decide +kernel)

/-- R206, R435: a source element with an uncorrectable error. -/
theorem witness_copy_fault :
    let s := { run1 (.copy hd cp2) atCopy with ecc := [(2 ^ 52, true)] }
    ∃ k, (s.cell 0).copies[0]? = some k ∧ (decide (k.bar = none) && k.barVa == 0#64 && decide (k.lead ∉ k.extra) && s.mayLand 0 0 (k.group k.lead).1 &&
      (match s.unitOf 0 k k.lead with | .error t => t.cause == 0x0D#8 | .ok _ => false)) = true := some_any (by decide +kernel)

/-- R209: the second element, and with an origin of 1 a position outside the source. -/
theorem witness_plain_copy :
    let s := run1 (.copy hd cp2) atCopy
    (Desc.of desc2).kind = 0 ∧ (Desc.of desc2).index 1 = [1, 0, 0, 0, 0] ∧ (Desc.of desc2).sz 0 = 2 ∧
    ∃ k, (s.cell 0).copies[0]? = some k ∧
      (decide (k.inst = .copy hd cp2) && okAny (s.readElem k k.pages .bf16 ((Desc.of desc2).place k.sa [1, 0, 0, 0, 0]))
        (fun b => b == 0)) = true :=
  ⟨by decide +kernel, by decide +kernel, by decide +kernel, some_any (by decide +kernel)⟩

/-- R217: four rows of two INT32 elements, one for each cell of a cluster. -/
def descX : Nat := 2 + 16 * 9 + 2 * 2 ^ 32 + 4 * 2 ^ 64 + 8 * 2 ^ 192

/-- L of each cell of cluster 0 before an exchange of its cluster, from the first line of its slice to its second; L of cell 0
executes. -/
def atExchange (waiting : List Nat) : State :=
  (List.range 4).foldl (fun s c => s.modCell c fun x =>
      { x with
        owner := some 0#14, desc := [(3, BitVec.ofNat 512 descX), (4, BitVec.ofNat 512 descX)]
        engL := { x.engL with sreg := [(1, win + BitVec.ofNat 64 (0x800000 * c)), (2, win + BitVec.ofNat 64 (0x800000 * c + 64))] }
        xchg := if waiting.contains c then some { half := false, inst := .xchgAll hd cp2 } else none })
    { State.reset with cur := { cell := 0, eng := .l } }

theorem witness_exchange_joins :
    let s := atExchange [1, 2, 3]
    s.ready hd (copyRegs cp2) = true ∧ s.here.xchg = none ∧ s.here.copies.length < Config.copyDepth ∧
    copyReadable s (.xchgAll hd cp2) cp2 ∧ s.me.marked = false ∧
    ∃ k, s.prepare (.xchgAll hd cp2) = .ok k ∧ (k.units == 8) = true :=
  ⟨by decide +kernel, by decide +kernel, by decide +kernel, by unfold copyReadable; decide +kernel, by decide +kernel,
    ok_any (by decide +kernel)⟩

theorem witness_exchange_accepted :
    let s := atExchange [0, 1, 2, 3]
    groupCells false 0 = [0, 1, 2, 3] ∧ (∀ d ∈ [0, 1, 2, 3], unsettled (s.cell d)) ∧
    ∀ d ∈ [0, 1, 2, 3], (s.cell d).xchg = some { half := false, inst := .xchgAll hd cp2 } ∧ (s.cell d).frozen = none ∧
      (s.eng d .l).deferred = [] ∧ okAny ((s.asEngine d .l).prepare (.xchgAll hd cp2)) (fun k => k.units != 0 && k.units * k.ubits == 256) = true := by
  unfold unsettled
  decide +kernel

/-! ### Tile commands -/

/-- Rings of BF16 slots of one row and one k position: g1 and g2 with one slot of two published, g4 an area for a table, and
g6 a tree of two nodes. -/
def atTiles (f : Cell → Cell := id) : State :=
  let r : Ring := { efmt := 1, kext := 1, slotSize := 64, nslots := 2, t := 1#32 }
  withS (at0 .m fun x => f
    { x with
      tF := 1#32
      ring := [(1, r), (2, { r with offset := 128 }), (4, { r with efmt := 0, slotSize := 4096, nslots := 1, offset := 0x10000, t := 0#32 }),
        (6, { r with offset := 256, t := 0#32 })] }) 1#6 (win + 0x10000)

/-- One step of rings 1 and 2 into the open tile. -/
def tc12 : TileOps := { tc with ga := 1#5, gb := 2#5 }

/-- The state that claims of n slots leave, and the command that has taken them. -/
def claimedBy (s : State) (i : Instr) (o : TileOps) (n : Nat) : State × MCmd :=
  (s.modHere fun x => (x.claim s.cycle o.ga n).claim s.cycle o.gb n,
    { s.newCommand i o.ti 0#64 0#64 with ra := s.here.getR o.ga.toNat, rb := s.here.getR o.gb.toNat, claimed := true })

theorem witness_tile_product :
    let s := atTiles
    let p := claimedBy s (.mma hd tc12) tc12 1
    s.ringTurnM 1#5 = true ∧ s.ringTurnM 2#5 = true ∧ (p.1.prepass p.2).isEmpty = true ∧
    pairCommand (.mma hd tc12) = some (hd, tc12, false) ∧ s.ready hd [] = true ∧ s.here.queued < Config.arrayQueue ∧
    (∀ m ∈ s.here.mcmds, m.claimed = true ∧ m.closes = false) ∧
    (0#4 : BitVec 4).toNat < s.here.openTiles ∧ s.here.isClosed (s.here.tileNo 0#4) = false ∧
    s.here.badReg (2000 + tileSlot (s.here.tileNo 0#4)) = false ∧ (s.ringChecks false 1#5 2#5 1).isNone ∧ (s.homeTrap tc12).isNone ∧
    1 ≤ (s.here.getR 1).ready ∧ 1 ≤ (s.here.getR 2).ready ∧ (s.slotTrap (s.here.getR 1) ((s.here.getR 1).claimSlots 1)).isNone ∧
    (s.slotTrap (s.here.getR 2) ((s.here.getR 2).claimSlots 1)).isNone := by decide +kernel

/-- R228, R252: a bitmap over one k position whose bits lie beyond it is no metadata: the command traps as it issues, and joins
where faults are logged. -/
theorem witness_tile_product_content :
    let s := { atTiles fun x => { x with ring := x.ring.map fun e => if e.1 = 1 then (1, { e.2 with gfmt := 1 }) else e } with
      mem := [(2 ^ 52 + 7, 0xFF#8)] }
    let p := claimedBy s (.mma hd tc12) tc12 1
    (s.ringChecks false 1#5 2#5 1).isNone ∧ s.ringTurnM 1#5 = true ∧ s.ringTurnM 2#5 = true ∧ 1 ≤ (s.here.getR 1).ready ∧
    1 ≤ (s.here.getR 2).ready ∧ (s.slotTrap (s.here.getR 1) ((s.here.getR 1).claimSlots 1)).isNone ∧ s.here.mode.zlog.isNone ∧
    (p.1.prepass p.2).isEmpty = false ∧ s.here.retired .m = true ∧ s.cur.eng ≠ .sup ∧
    ((run1 (.mma hd tc12) s).cell 0).engM.trap.isSome = true ∧ ((run1 (.mma hd tc12) s).cell 0).mcmds = [] := by decide +kernel

/-- Two steps want two slots of each ring. -/
theorem witness_tile_product_waits :
    let s := atTiles fun x => { x with ring := x.ring.map fun e => (e.1, { e.2 with kext := 64, slotSize := 128 }) }
    (s.ringChecks false 1#5 2#5 2).isNone ∧ (s.here.getR 1).ready < 2 := by decide +kernel

/-- A finished row 0 of the trace, at leaf 0 of depth 1. -/
def done0 : Word := BitVec.ofNat 64 (2 ^ 16 + 2 ^ 48 + 2 ^ 49)

/-- R271: the table of one group with one token, in the area of g4. -/
def atTable : State :=
  { atTiles with mem := ((buildTable [[0]] 0 0 true false).1.zipIdx.filter fun p => p.1 != 0#8).map fun p => (2 ^ 52 + 0x10000 + p.2, p.1) }

theorem witness_group_table :
    let s := atTiles fun x => { x with path := [(0, done0)] }
    let main := buildTable (s.offers false 0#10 1) 0 0 true false
    s.ready hd [0#6, 0#6] = true ∧ s.here.mcmds = [] ∧ tableMax 1 128 ≤ (s.here.getR 4).nslots * (s.here.getR 4).slotSize ∧
    s.here.watch = [] ∧ s.offers false 0#10 1 = [[0]] ∧ okAny (s.tableKeys (s.here.getR 4) main.1.length) (fun _ => true) = true ∧
    s.here.badReg 5004 = false ∧ s.here.badPath = false := by
  decide +kernel

/-- R268–R271: one group of which a cap of one keeps one token of two, in the main table and in the overflow list; 129 tokens
of two groups need two tiles and three blocks. -/
theorem witness_table_fields :
    (let t := buildTable [[3, 5]] 1 0 true false
     t.2 = [(0, 5)] ∧ leNat ((t.1.drop 24).take 4) = 1 ∧ leNat ((t.1.drop 48).take 4) = 64 + 16 + 16 + 16 + 512 ∧
     leNat ((t.1.drop 624).take 2) = 5 ∧ ([[3, 5]].map List.length).sum ≤ 1024 ∧ ∀ l ∈ [[3, 5]], ∀ x ∈ l, x < 1024) ∧
    (let t := buildTable [List.range 120, List.range 9] 0 0 true false
     t.2 = [] ∧ leNat (t.1.take 8) = 2 ∧ leNat ((t.1.drop 8).take 8) = 3 ∧ leNat ((t.1.drop 20).take 4) = 129) := by decide +kernel

/-- R270: a key register that offers lane 0 to group 0 and lane 1 to group 2, and no lane to group 1. -/
theorem witness_offers :
    ((at0 .m fun x => { x with vreg := [(5, [0#32, 2#32] ++ List.replicate 1022 9#32)] }).offers true 5#10 3) = [[0], [], [1]] := by
  decide +kernel

/-- Under .spill the second table stands in the slice's second 64 KiB, and under .bias the biases behind it. -/
theorem witness_group_table_spill_bias :
    let s := withS (withS (atTiles fun x => { x with path := [(0, done0)] }) 2#6 (win + 0x20000)) 3#6 (win + 0x30000)
    s.ready hd [2#6, 3#6] = true ∧ okAny (s.spillKeys (s.getS 2#6) (tableMax 1 128)) (fun _ => true) = true ∧
    okAny (s.biasStep (s.getS 3#6) 4) (fun step => okAny (s.biasWrites (s.getS 3#6) step (s.offers false 0#10 1)) fun _ => true) = true := by
  decide +kernel

/-- R274: tile 0 of that table, and the weight ring with one slot for its one group. -/
theorem witness_grouped_product :
    let s := withS (withS atTable 1#6 0#64) 2#6 0#64
    s.ready hd [1#6, 2#6] = true ∧ s.here.queued < Config.arrayQueue ∧ s.here.mcmds = [] ∧ s.here.holding.isNone ∧
    okAny (s.planGrouped tc12 4#5 2#6 (s.here.tileTrap 0#4 true true) (s.newCommand (.mmaG hd tc12 4#5 1#6 2#6) 0#4 (s.getS 1#6) (s.getS 2#6)))
      (fun m => s.here.canHold tc12 m && s.ringTurnM 1#5 &&
        (((s.groupedRead tc12 4#5 2#6 m).modHere fun x => x.takeHolds m).modHere fun x => x.claim s.cycle 1#5 1 : State).prepass
          { m with ra := s.here.getR 1, claimed := true } == [] && (s.slotTrap m.rb (m.holds.map (· % 4096))).isNone && m.blocks.length == 1) = true ∧
    1 ≤ (s.here.getR 1).ready ∧ (s.slotTrap (s.here.getR 1) ((s.here.getR 1).claimSlots 1)).isNone := by decide +kernel

/-- The weight slot is not published yet. -/
theorem witness_grouped_product_waits :
    let s := (withS (withS atTable 1#6 0#64) 2#6 0#64).modHere fun x =>
      { x with ring := x.ring.map fun e => if e.1 = 2 then (2, { e.2 with t := 0#32 }) else e }
    okAny (s.planGrouped tc12 4#5 2#6 (s.here.tileTrap 0#4 true true) (s.newCommand (.mmaG hd tc12 4#5 1#6 2#6) 0#4 (s.getS 1#6) (s.getS 2#6)))
      (fun m => !s.here.canHold tc12 m) = true := by decide +kernel

/-- R85, R238: an MMA.G that waited with what it read when SEED was 0 finds its weight slot published and SEED 9: the command
joins with 9. -/
theorem witness_grouped_product_held :
    let s := withS (withS atTable 1#6 0#64) 2#6 0#64
    let plan := s.planGrouped tc12 4#5 2#6 (s.here.tileTrap 0#4 true true) (s.newCommand (.mmaG hd tc12 4#5 1#6 2#6) 0#4 (s.getS 1#6) (s.getS 2#6))
    okAny plan (fun m =>
      let u := s.modHere fun x => { x with holding := some (m, false), seed := 9#64 }
      u.here.canHold tc12 m && u.ringTurnM 1#5 &&
        ((u.modHere fun x => x.takeHolds m).modHere fun x => x.claim u.cycle 1#5 1 : State).prepass
          { m with ra := u.here.getR 1, claimed := true } == [] && decide (1 ≤ (u.here.getR 1).ready) && (u.slotTrap m.rb (m.holds.map (· % 4096))).isNone &&
        (u.slotTrap (u.here.getR 1) ((u.here.getR 1).claimSlots 1)).isNone && u.ready hd [1#6, 2#6] &&
        decide (((run1 (.mmaG hd tc12 4#5 1#6 2#6) u).here.mcmds.map (·.seed)) = [9#64])) = true := by decide +kernel

/-- A descent of depth 1 with its root near. -/
def dc16 : DescOps := { dc with ga := 1#5, gc := 6#5, depth := 1#5, split := 1#5 }

theorem witness_descent :
    let s := atTiles
    descentCommand (.descStep hd dc16) = some (hd, dc16) ∧ s.ready hd [0#6] = true ∧ s.here.queued < Config.arrayQueue ∧
    (s.treeTrap dc16).isNone ∧ s.ringTurnM 1#5 = true ∧ s.here.badPath = false ∧
    ((s.modHere fun x => x.claim s.cycle 1#5 1).prepass
      { s.newCommand (.descStep hd dc16) 0#4 0#64 0#64 with ra := s.here.getR 1, rb := s.here.getR 6, claimed := true }).isEmpty = true ∧
    s.here.mcmds = [] ∧ 1 ≤ (s.here.getR 1).ready ∧
    (s.slotTrap (s.here.getR 1) ((s.here.getR 1).claimSlots 1)).isNone ∧ tracesOk 1 (s.here.getR 1).rows (startTraces (s.here.getR 1).rows) = true := by
  decide +kernel

theorem witness_matrix_registers :
    let s := atTiles
    s.ready hd [] = true ∧ s.ready hd [1#6] = true ∧ s.here.openTiles + 15 ≤ 16 ∧ 16 < s.here.openTiles + 16 ∧ s.here.mcmds = [] ∧
    (0#4 : BitVec 4).toNat < s.here.openTiles ∧ s.here.isClosed (s.here.tileNo 0#4) = false ∧
    s.here.badReg (2000 + tileSlot (s.here.tileNo 0#4)) = false ∧ (15#4 : BitVec 4).toNat + (0#7 : BitVec 7).toNat < 16 ∧
    (639#10 : VNum).toNat + (0#7 : BitVec 7).toNat < 640 ∧ (∀ i ≤ 0, s.here.badReg (1000 + 639 + i) = false) ∧ traceOk 0#64 = true := by
  decide +kernel

theorem witness_log_base :
    ((withS (at0 .m) 2#6 (win + 0x40000)).logTrap ((withS (at0 .m) 2#6 (win + 0x40000)).getS 2#6)).isNone := by decide +kernel

theorem witness_trace_registers :
    let s := at0 .m
    let w (i : Nat) : Word := lane (s.vr 5#10) (2 * i + 1) ++ lane (s.vr 5#10) (2 * i)
    let u := at0 .m fun x => { x with vreg := [(5, 0#32 :: 0x20000#32 :: List.replicate 1022 0#32)] }
    (s.ready hd [] = true ∧ s.here.mcmds = [] ∧ s.here.retired .m = true ∧ s.cur.eng ≠ .sup) ∧ (∀ i < 128, traceOk (w i) = true) ∧
    ∃ i < 128, traceOk (lane (u.vr 5#10) (2 * i + 1) ++ lane (u.vr 5#10) (2 * i)) = false :=
  ⟨by decide +kernel, by decide +kernel, 0, by decide, by decide +kernel⟩

/-! ### The array at work -/

/-- A command of a cell meets a test. -/
def anyCmd (s : State) (c i : Nat) (p : MCmd → Bool) : Bool := (s.cell c).mcmds[i]?.any p

/-- The tile product of rings 1 and 2, accepted; started; with its window loaded. -/
def atCommand : State := run1 (.mma hd tc12) atTiles
def atStarted : State := run1 (.tileCommandStart 0) atCommand
def atLoaded : State := run1 (.bWindowLoad 0) atStarted

theorem witness_command_starts :
    (∃ m, (atCommand.cell 0).mcmds[0]? = some m ∧
      (!m.started && m.claimed && ((atCommand.asEngine 0 .m).prepass m).isEmpty) = true) ∧
    atCommand.unfrozen 0 .m = true ∧ (atCommand.cell 0).preempt = none ∧ (atCommand.cell 0).engM.queue = [] :=
  ⟨some_any (by decide +kernel), by decide +kernel⟩

/-- R228, R238: a command that gave its claims back, and whose slot holds a bitmap with bits beyond its one k position, is the
oldest: it traps at its own address, 16 bytes before M's. -/
theorem witness_command_faults :
    let s := { atCommand.modCell 0 fun x =>
      { x with mcmds := x.mcmds.map (fun m => { m with claimed := false })
               ring := x.ring.map fun e => if e.1 = 1 then (1, { e.2 with gfmt := 1, k := 0#32 }) else (e.1, { e.2 with k := 0#32 }) } with
      mem := [(2 ^ 52 + 7, 0xFF#8)] }
    (∃ m, (s.cell 0).mcmds[0]? = some m ∧
      (!m.started && !m.claimed && (match (s.asEngine 0 .m).reissue m with | .trap r => r.cause == 0x06#8 | _ => false)) = true) ∧
    s.unfrozen 0 .m = true ∧ (s.cell 0).preempt = none ∧ (s.cell 0).engM.queue = [] ∧
    ((run1 (.tileCommandStart 0) s).eng 0 .m).trap.any (fun r => r.pc + 16#64 == (s.eng 0 .m).pc) = true :=
  ⟨some_any (by decide +kernel), by decide +kernel⟩

/-- R231: five k blocks, of which four stand in the window. -/
theorem witness_window_loads :
    let s := atStarted.modCell 0 fun x => { x with mcmds := x.mcmds.map fun m => { m with ra := { m.ra with kext := 320 } } }
    ∃ m, (s.cell 0).mcmds[0]? = some m ∧ (m.started && m.sibling.isNone && !m.windowDone) = true := some_any (by decide +kernel)

theorem witness_product_completes :
    ∃ m, (atLoaded.cell 0).mcmds[0]? = some m ∧
      (m.started && m.sibling.isNone && m.windowDone && m.mode.zlog.isNone && m.parts == 1 &&
        ((atLoaded.asEngine 0 .m).compute m tc12 false (!(atLoaded.cell 0).pevsel.isEmpty) ((atLoaded.cell 0).getT m.tile)).bad.isNone &&
        (atLoaded.asEngine 0 .m).mayPop m && decide (((m.claims.filter fun p => p.1.toNat == 1).map (·.2)).sum ≤ ((atLoaded.cell 0).getR 1).claimed)) = true :=
  some_any (by decide +kernel)

/-- R94–R97, R239: 1.0 of row 0 of A against 0.5 of row 0 of B, in BF16: the accumulator of (0, 0) is 0.5. -/
theorem witness_product_values :
    let s := { atLoaded with mem := [(2 ^ 52, 0x80#8), (2 ^ 52 + 1, 0x3F#8), (2 ^ 52 + 129, 0x3F#8)] }
    s.ecc = [] ∧ (s.cell 0).mcmds[0]?.any (fun m => decide (m.ra.rows ≤ 128) && decide (m.rb.rows ≤ 128) && m.blocks.isEmpty &&
      (rowSlots m tc12 0 == some [0]) && ((accumulated s m tc12 false 0#32 [0] 0 0).1 == 0x3F000000#32)) = true ∧
    (((run1 (.tileCommandComplete 0) s).cell 0).getT 0#32).at 0 0 = 0x3F000000#32 := by decide +kernel

/-- A descent that has run its window. -/
def atWalk : State := run1 (.bWindowLoad 0) (run1 (.tileCommandStart 0) (run1 (.descStep hd dc16) atTiles))

theorem witness_descent_completes :
    ∃ m, (atWalk.cell 0).mcmds[0]? = some m ∧
      (m.started && m.sibling.isNone && m.windowDone && m.mode.zlog.isNone && m.descent == some (dc16, false) &&
        ((atWalk.asEngine 0 .m).spoilt m.ra (m.ra.claimSlots 1)).first.isNone && decide (m.ra.rows ≤ 128) &&
        tracesOk 1 m.ra.rows (startTraces m.ra.rows) && (atWalk.asEngine 0 .m).mayPop m) = true := some_any (by decide +kernel)

/-- R264: row 0 takes part at the root, whose node can be read; with the node's ring out of reach it meets a fault. -/
theorem witness_descent_levels :
    takesPart ((startTraces 1).getD 0 0#64) = true ∧ levelAndNode ((startTraces 1).getD 0 0#64) = (0, 0) ∧
    (atWalk.cell 0).mcmds[0]?.any (fun m => okAny ((atWalk.asEngine 0 .m).node dc16 m 0 0) (fun _ => true) &&
      !okAny (({ atWalk with ecc := [(2 ^ 52 + 256, true)] } : State).asEngine 0 .m |>.node dc16 m 0 0) fun _ => true) = true := by
  decide +kernel

/-- A command of cell 0 that may move to cell 1 of its cluster. -/
def atTwo : State := (run1 (.mma hd { tc12 with rel := true }) atTiles).modCell 1 fun x =>
  { x with owner := some 0#14, iter := some { va := 0x2000#64, asid := 0#14, pos := 3, dev := 0#6, recId := none, ckpt := 0#64 } }

theorem witness_relocation :
    (atTwo.cell 0).owner.isSome ∧ (atTwo.cell 1).owner = (atTwo.cell 0).owner ∧ (atTwo.cell 1).iter.isSome ∧ (atTwo.cell 1).mcmds = [] ∧
    (atTwo.cell 1).frozen = none ∧ (atTwo.cell 0).frozen = none ∧ atTwo.runsFor 1 = false ∧
    (∃ p, (atTwo.cell 0).relocatable = some p ∧ ((atTwo.asEngine 0 .m).prepass p.1).isEmpty = true) ∧
    ∀ d < 80, d / 4 = 0 / 4 → d ≠ 1 → d ≠ 0 → (atTwo.cell d).owner ≠ (atTwo.cell 0).owner :=
  ⟨by decide +kernel, by decide +kernel, by decide +kernel, by decide +kernel, by decide +kernel, by decide +kernel,
    by decide +kernel, some_any (by decide +kernel), by decide +kernel⟩

/-- The one command of cell 0, given to cell 1. -/
def atSibling : State := atStarted.modCell 0 fun x => { x with mcmds := x.mcmds.map fun m => { m with sibling := some 1 } }

theorem witness_relocated_return :
    ∃ m, (atSibling.cell 0).mcmds[0]? = some m ∧
      (m.sibling == some 1 && (atSibling.asEngine 0 .m).mayPop m && m.mode.zlog.isNone && m.parts == 1 && m.product == some (tc12, false) &&
        ((atSibling.asEngine 0 .m).compute m tc12 false (!(atSibling.cell 1).pevsel.isEmpty) ((atSibling.cell 0).getT m.tile)).bad.isNone) = true :=
  some_any (by decide +kernel)

/-- Partial 0 of two, for tag 1 at cell 0. -/
def tcPart : TileOps := { tc12 with np := 1#4, tag := 1#8 }
def atPartial : State := run1 (.bWindowLoad 0) (run1 (.tileCommandStart 0) (run1 (.mma hd tcPart) atTiles))

theorem witness_partial :
    ∃ m, (atPartial.cell 0).mcmds[0]? = some m ∧
      (m.started && m.sibling.isNone && m.windowDone && m.product == some (tcPart, false) && decide (1 < m.parts) && !m.delivered &&
        m.computed.isNone && decide (atPartial.buffered 0 < Config.mergeDepth)) = true := some_any (by decide +kernel)

/-- R242: a partial that has been delivered. -/
theorem witness_partial_delivered :
    let s := run1 (.partialDeliver 0) atPartial
    s.mergeBuf.length = 1 ∧ (s.cell 0).mcmds[0]?.any (fun m =>
      m.started && m.sibling.isNone && m.windowDone && m.mode.zlog.isNone && m.delivered && m.computed.isSome &&
        decide (1 < m.parts) && (s.asEngine 0 .m).mayPop m) = true := by decide +kernel

theorem witness_merge_binds :
    let s := atTiles
    let u := atTiles fun x => { x with merges := [{ tag := 1#8, tile := 9#32 }] }
    s.ready hd [] = true ∧ (0#4 : BitVec 4).toNat < s.here.openTiles ∧ s.here.isClosed (s.here.tileNo 0#4) = false ∧
    s.here.badReg (2000 + tileSlot (s.here.tileNo 0#4)) = false ∧ (∀ b ∈ s.here.merges, b.tag ≠ 1#8) ∧
    (∃ b ∈ u.here.merges, b.tag = 1#8) ∧ s.here.mcmds = [] ∧ u.here.retired .m = true := by decide +kernel

/-- Both partials of a tag, in the order 1, 0. -/
theorem witness_merge_completes :
    let i := Instr.mmerge hd 0#4 0#4 1#4 1#8 false true false
    let p (q : Nat) : Partial := { asid := 0#14, home := 0, tag := 1#8, q, p := 2, topk := false, tile := zeroTile, lists := [] }
    let s := { (atTiles fun x => { x with merges := [{ tag := 1#8, tile := 0#32 }], engM := { x.engM with flight := some i } }) with
      mergeBuf := [p 1, p 0] }
    (s.eng 0 .m).flight = some i ∧ s.unfrozen 0 .m = true ∧ (s.eng 0 .m).deferred = [] ∧
    (s.cell 0).merges.find? (fun b => b.tag == 1#8) = some { tag := 1#8, tile := 0#32 } ∧ (∀ m ∈ (s.cell 0).mcmds, m.tile ≠ 0#32) ∧
    (∀ x ∈ s.arrived 0 1#8, x.p = 1 + 1 ∧ x.topk = false) ∧ (s.arrived 0 1#8).map (·.q) = [1, 0] := by decide +kernel

/-- R241, R244: the best of two lists of a row, of which the larger value comes first. -/
theorem witness_merge_lists :
    let i := Instr.mmerge hd 0#4 0#4 1#4 1#8 true false false
    let p (q : Nat) (v : Lane) : Partial :=
      { asid := 0#14, home := 0, tag := 1#8, q, p := 2, topk := true, tile := zeroTile, lists := [some [(v, BitVec.ofNat 32 q)]] }
    let s := { (atTiles fun x => { x with merges := [{ tag := 1#8, tile := 0#32 }], engM := { x.engM with flight := some i } }) with
      mergeBuf := [p 0 0x3F800000#32, p 1 0x40000000#32] }
    (∀ x ∈ s.arrived 0 1#8, x.p = 1 + 1 ∧ x.topk = true) ∧ (s.arrived 0 1#8).map (·.q) = [0, 1] ∧
    (let t := ((run1 (.mergePartials 0) s).cell 0).getT 0#32
     t.at 0 0 = 0x40000000#32 ∧ t.at 0 16 = 1#32 ∧ t.at 0 1 = 0xFF800000#32 ∧ t.at 1 0 = 0#32) := by decide +kernel

/-! ### Control flow and meetings -/

theorem witness_unqueued_control :
    let s := at0 .v fun x => { x with engV := { x.engV with pc := 0x1000#64, ras := [0x40#64] } }
    let full := at0 .v fun x => { x with engV := { x.engV with ras := List.replicate 64 0#64 } }
    controlOf (.br hd (.rel 0xFFFFFFFE#32)) = some (hd, [], false) ∧ s.ready hd [] = true ∧
    followed s (resolved s (.br hd (.rel 0xFFFFFFFE#32))) (.br hd (.rel 0xFFFFFFFE#32)) = some (0xFE0#64, [0x40#64]) ∧
    followed s (resolved s (.ret hd)) (.ret hd) = some (0x40#64, []) ∧
    followed full (resolved full (.call hd (.rel 1#32))) (.call hd (.rel 1#32)) = none ∧
    followed (at0 .v) (resolved (at0 .v) (.ret hd)) (.ret hd) = none ∧ full.here.retired .v = true := by decide +kernel

/-- R127: LOOP with one iteration left falls through; with none it wraps and is taken. -/
theorem witness_queued_control :
    let s := withS (at0 .s) 9#6 1#64
    let i := Instr.loop hd 9#6 0xFFFFFFFC#32
    controlOf i = some (hd, [9#6], true) ∧ s.cur.eng = .s ∧ s.here.badPred .s hd.pred = false ∧ s.ready { hd with pred := 15#4, neg := false } [9#6] = true ∧
    s.here.condq.length < 128 ∧ s.getP hd.pred ≠ hd.neg ∧ followed s (entryOf s hd i) i = some (16#64, []) ∧
    followed (at0 .s) (entryOf (at0 .s) hd i) i = some (BitVec.ofInt 64 (-64), []) ∧ s.here.retired .s = true := by decide +kernel

/-- R21: under a false predicate S reads no scalar: an error in s9 does not matter. -/
theorem witness_queued_control_false :
    let h := { hd with pred := 3#4 }
    let s := at0 .s fun x => { x with regErr := [(9, true)] }
    s.getP h.pred = h.neg ∧ s.here.badPred .s h.pred = false ∧ s.ready { h with pred := 15#4, neg := false } [] = true ∧
    followed s (entryOf s h (.loop h 9#6 0xFFFFFFFC#32)) (.loop h 9#6 0xFFFFFFFC#32) = some (16#64, []) := by decide +kernel

theorem witness_queued_control_full :
    128 ≤ (at0 .s fun x => { x with condq := List.replicate 128 { taken := true, target := 0#64 } }).here.condq.length := by
  decide +kernel

theorem witness_target_off_its_grid :
    let s := withS (at0 .s) 5#6 8#64
    s.ready { hd with pred := 15#4, neg := false } [5#6] = true ∧ (resolved s (.br hd (.ind 5#6 0#32))).target.toNat % 16 ≠ 0 := by
  decide +kernel

theorem witness_target_on_its_grid : targetSound (withS (at0 .s) 5#6 32#64) (.br hd (.ind 5#6 0#32)) := by
  unfold targetSound
  decide +kernel

theorem witness_control_followed :
    let o : Cond := { taken := true, target := 0x200#64 }
    let s := at0 .l fun x => { x with condq := [o], engL := { x.engL with condPopped := 0 } }
    let i := Instr.call hd (.ind 5#6 0#32)
    controlOf i = some (hd, [5#6], true) ∧ s.cur.eng ∈ consumers ∧ s.ready { hd with pred := 15#4, neg := false } [] = true ∧
    s.here.condq[s.me.condPopped]? = some o ∧ followed s o i = some (0x200#64, [16#64]) ∧
    (at0 .l).here.condq[(at0 .l).me.condPopped]? = none := by decide +kernel

/-- R369: a supervisor core at a loop, at its HALT, at a CALL with a full return stack, and at a target off its grid. -/
theorem witness_supervisor_control :
    let s := withS (at0 .sup fun x => { x with supRun := true }) 9#6 2#64
    let full := s.modMe fun st => { st with ras := List.replicate 64 0#64 }
    s.cur.eng = .sup ∧ s.here.badPred .sup hd.pred = false ∧ s.ready { hd with pred := 15#4, neg := false } [9#6] = true ∧
    followed s (entryOf s hd (.loop hd 9#6 0xFFFFFFFC#32)) (.loop hd 9#6 0xFFFFFFFC#32) = some (BitVec.ofInt 64 (-64), []) ∧
    followed s (entryOf s hd (.halt hd)) (.halt hd) = some (0#64, []) ∧
    followed full (entryOf full hd (.call hd (.rel 1#32))) (.call hd (.rel 1#32)) = none ∧
    (resolved s (.br hd (.ind 9#6 0#32))).target.toNat % 16 ≠ 0 := by decide +kernel

/-- R380: a request without a target, with the engine at its limit and beyond it. -/
theorem witness_checkpoint :
    let p : Preempt := { limit := 7, since := 0 }
    let s (n : Nat) := at0 .w fun x => { x with preempt := some p, engW := { x.engW with step := n } }
    (s 7).ready hd [] = true ∧ (s 7).here.preempt = some p ∧ p.target = none ∧ (s 7).me.step ≤ p.limit ∧ p.limit < (s 8).me.step ∧
    (match exec (.ckpt hd 3#16) (s 8) with | .next t => t.me.stopped | _ => false) = true := by decide +kernel

/-- All five engines at a launch of the record at win, into queue 2. -/
def atMeeting : State :=
  let s := at0 .s fun x =>
    { x with
      engS := { x.engS with sreg := [(5, 0x2000#64)] }, engL := { x.engL with arrived := true }, engM := { x.engM with arrived := true }
      engV := { x.engV with arrived := true }, engW := { x.engW with arrived := true }, preempt := some { limit := 0, since := 0 } }
  { s with tgu := { s.tgu with lq := [(2, { base := 0x4000#64, size := 16#64, ctl := 0x30000#18 })] } }

theorem witness_meeting :
    let s := atMeeting
    meetingOf (.launch hd 5#6 2#3) = some (hd, [.s, .l, .m, .v, .w], [5#6]) ∧
    meetingOf (.launchNw hd 5#6 2#3) = some (hd, [.s, .v, .w], [5#6]) ∧ s.cur.eng = .s ∧
    s.ready { hd with pred := 15#4, neg := false } [5#6] = true ∧ s.getP hd.pred ≠ hd.neg ∧ s.settled = true ∧
    (∀ e ∈ [Eng.s, .l, .m, .v, .w], e ≠ .s → (s.eng s.cur.cell e).arrived = true ∧ (s.eng s.cur.cell e).deferred = []) ∧ s.here.condq.length < 128 ∧
    (s.getS 5#6).toNat % 128 = 0 ∧ (s.tgu.q 2).enabled = true ∧ (s.tgu.q 2).cellsLaunch = true ∧ (s.tgu.q 2).size ≠ 0#64 ∧
    (s.tgu.q 2).asid = s.here.asid ∧ s.here.owner.isSome = true ∧
    ((s.tgu.q 2).tail - (s.tgu.q 2).head).toNat < (s.tgu.q 2).size.toNat ∧ s.tgu.parked < Config.parkedMax ∧
    s.here.preempt = some { limit := 0, since := 0 } := by decide +kernel

theorem witness_arrival_at_meeting :
    let s := at0 .l
    meetingOf (.yield hd 1#16) = some (hd, [.s, .l, .m, .v, .w], []) ∧ s.cur.eng ∈ consumers ∧ s.ready hd [] = true ∧
    s.settled = true ∧ s.cur.eng ∉ [Eng.s, .v, .w] := by decide +kernel


/-- R17, R356: S at a predicated launch: true with its checks passed, and with a record that is not aligned; false; and with the
condition queue full. -/
theorem witness_predicated_meeting :
    let h := { hd with pred := 3#4 }
    let yes (f : Cell → Cell := id) : State :=
      { atMeeting.modHere fun x => f { x with engS := { x.engS with preg := 8#16 } } with tgu := atMeeting.tgu }
    goesThroughQueue h ∧ (yes.me.resolved = false ∧ yes.getP h.pred ≠ h.neg ∧ atMeeting.getP h.pred = h.neg ∧
      yes.ready { h with pred := 15#4, neg := false } [5#6] = true ∧ yes.here.badPred .s h.pred = false ∧
      atMeeting.here.badPred .s h.pred = false ∧ launchTrap yes (.launch h 5#6 2#3) = none ∧
      (launchTrap (withS yes 5#6 8#64) (.launch h 5#6 2#3)).isSome = true ∧ yes.here.retired .s = true ∧
      (yes fun x => { x with condq := List.replicate 128 { taken := true, target := 0#64 } }).here.condq.length = 128) :=
  ⟨Or.inl (by decide), by decide +kernel⟩

/-- R18, R357: S has resolved its predicate, and every other engine has arrived with its entry. -/
theorem witness_predicated_meeting_passes :
    let h := { hd with pred := 3#4 }
    let s := atMeeting.modHere fun x =>
      { x with condq := [{ taken := true, target := 0#64 }], engS := { x.engS with preg := 8#16, resolved := true } }
    let t := run1 (.launch h 5#6 2#3) s
    s.me.resolved = true ∧ s.settled = true ∧ s.getP h.pred ≠ h.neg ∧ t.here.condq = [] ∧ (t.eng 0 .l).pc = 16#64 ∧
    (t.tgu.q 2).tail = 1#64 := by decide +kernel

/-- L at a predicated launch of all: with no entry, with a true and with a false one; at LAUNCH.NW, which is none of its own. -/
theorem witness_predicated_meeting_read :
    let s (o : List Cond) := at0 .l fun x => { x with condq := o }
    (s []).here.condq[(s []).me.condPopped]? = none ∧ (s []).ready { hd with pred := 15#4, neg := false } [] = true ∧
    (s [{ taken := true, target := 0#64 }]).settled = true ∧
    (s [{ taken := true, target := 0#64 }]).here.condq[0]? = some { taken := true, target := 0#64 } ∧
    (s [{ taken := false, target := 0#64 }]).here.condq[0]? = some { taken := false, target := 0#64 } ∧
    Eng.l ∉ [Eng.s, .v, .w] := by decide +kernel

/-- R369: a supervisor core submits a record, and meets a queue that is not enabled. -/
theorem witness_supervisor_launch :
    let s : State := { withS (at0 .sup) 5#6 0x2000#64 with tgu := atMeeting.tgu }
    s.cur.eng = .sup ∧ s.here.badPred .sup hd.pred = false ∧ s.ready { hd with pred := 15#4, neg := false } [5#6] = true ∧ launchTrap s (.launch hd 5#6 2#3) = none ∧
    ((s.tgu.q 2).tail - (s.tgu.q 2).head).toNat < (s.tgu.q 2).size.toNat ∧ s.tgu.parked < Config.parkedMax ∧
    (launchTrap s (.launchNw hd 5#6 3#3)).isSome = true := by decide +kernel
/-! ### Pool memory, tokens, watches, jobs -/

/-- S of a tenant with a quota of 1 TiB, s1 the size of one granule and s2 the base of a region of one granule. -/
def atPool (rs : List Region) (own : List (Nat × Own) := []) : State :=
  let s := withS (withS (at0 .s) 1#6 0x200000#64) 2#6 0x01FFF00000000000#64
  { s with pool := { s.pool with quota := [(0, 2 ^ 40)], regions := rs }, own := { s.own with st := own } }

/-- The region that s2 names. -/
def region0 : Region := { base := 4 * 2 ^ 52, size := 0x200000, tenant := 0#12, mirror := false }

theorem witness_allocation :
    let s := atPool []
    s.ready hd [1#6] = true ∧ ¬((s.getS 1#6).toNat = 0 ∨ (s.getS 1#6).toNat % 0x200000 ≠ 0 ∨ 2 ^ 39 < (s.getS 1#6).toNat) ∧
    ¬ tabGet 0 s.pool.quota s.tenant.toNat < s.pool.usedBy s.tenant + 0x200000 * 2 ∧
    (∃ sw < 8, serves s sw ∧ serves s (sw ^^^ 4)) ∧ offers s true 1 0 0 ∧ cacheAllocated s :=
  ⟨by decide +kernel, by decide +kernel, by decide +kernel, by unfold serves; decide +kernel,
    by unfold offers serves; decide +kernel,
    fun _ h => absurd rfl h⟩

theorem witness_allocation_refused :
    (withS (atPool []) 1#6 0#64).ready hd [1#6] = true ∧
    (let s := { atPool [] with pool := {} }
     tabGet 0 s.pool.quota s.tenant.toNat < s.pool.usedBy s.tenant + 0x200000) ∧
    (let s := { atPool [] with pool := { quota := [(0, 2 ^ 40)], health := (List.range 8).map fun i => (i, .failed) } }
     (¬ ∃ sw < 8, serves s sw ∧ serves s (sw ^^^ 4)) ∧ ¬ ∃ sw g, offers s false 1 sw g) := by
  refine ⟨by decide +kernel, by decide +kernel, by unfold serves; decide +kernel, ?_⟩
  rintro ⟨sw, g, h8, hh, -⟩
  revert hh
  unfold serves
  revert sw
  decide +kernel

/-- No engine of that state has an access queued. -/
theorem unqueued_pool (rs : List Region) (p : Nat → Prop) : unqueued (atPool rs) p := by
  intro c e q hq
  have : ((atPool rs).eng c e).queue = [] := by rcases c with _ | c <;> cases e <;> rfl
  simp [this] at hq

theorem witness_free :
    let s := atPool [region0]
    s.ready hd [2#6] = true ∧ s.regionKey s.here.asid (s.getS 2#6).toNat = .ok (4 * 2 ^ 52) ∧ s.me.queue = [] ∧
    region0 ∈ s.pool.regions ∧ region0.base = 4 * 2 ^ 52 ∧ region0.tenant = s.tenant ∧ region0.lost = false ∧
    s.revokeWaits region0 = false ∧ unqueued s (region0.has · = true) ∧ unqueued s (regionOf · = regionOf (4 * 2 ^ 52)) ∧ ∀ r ∈ (atPool []).pool.regions, ¬(r.base = 4 * 2 ^ 52 ∧ r.tenant = s.tenant) :=
  ⟨by decide +kernel, ok_of (by decide +kernel), rfl, by decide +kernel, rfl, by decide +kernel, rfl, by decide +kernel,
    unqueued_pool _ _, unqueued_pool _ _, by decide +kernel⟩

theorem witness_report :
    let s := withS (withS (atPool [region0]) 1#6 2#64) 3#6 win
    s.ready hd [1#6, 3#6] = true ∧ (s.getS 3#6).toNat % 64 = 0 ∧ s.span .store (s.getS 3#6) 64 = .ok (sl 0 64) ∧
    (∀ k ∈ sl 0 64, paClass k = 0 ∨ (paClass k = 1 ∧ k / 0x800000 % 128 = s.cur.cell)) ∧ (s.getS 1#6).toNat % 256 ≤ 2 ∧
    (s.getS 1#6).toNat / 2 ^ 40 = 0 ∧ s.barriers = [] ∧ s.here.watch = [] ∧ s.me.queue = [] ∧
    (withS s 1#6 3#64).ready hd [1#6, 3#6] = true ∧ 2 < ((withS s 1#6 3#64).getS 1#6).toNat % 256 ∧
    ((withS s 1#6 0#64).getS 1#6).toNat % 256 = 0 ∧ ((withS s 1#6 1#64).getS 1#6).toNat % 256 = 1 ∧
    (s.getS 1#6).toNat % 256 = 2 :=
  ⟨by decide +kernel, by decide +kernel, ok_of (by decide +kernel), by decide +kernel, by decide +kernel, by decide +kernel, rfl,
    rfl, rfl, by decide +kernel⟩

/-- R398: of two lost regions the report of kind 2 from index 1 gives the count and the higher address. -/
theorem test_lost_regions :
    let lost (g : Nat) : Region := { base := 4 * 2 ^ 52 + g * 0x200000, size := 0x200000, tenant := 0#12, mirror := false, lost := true }
    let s := withS (withS (atPool [lost 5, lost 3, region0]) 1#6 0x102#64) 3#6 win
    let t := run1 (.poolStat hd 4#6 1#6 3#6) s
    t.me.pc = s.me.pc + 16 ∧ t.num (slicePa 0 0) 8 = 2 ∧ t.num (slicePa 0 8) 8 = 0x01FFF00000A00000 ∧
    t.num (slicePa 0 16) 8 = 0 := by decide +kernel

theorem witness_tokens :
    let s := atPool [region0]
    let t := atPool [region0] [(regionOf (4 * 2 ^ 52), .held)]
    let u := atPool [region0] ((List.range 64).map fun i => (i, .held))
    s.ready hd [2#6] = true ∧ (s.areaOf (s.getS 2#6) matches .region _) = true ∧ s.ownState (regionOf (4 * 2 ^ 52)) = .none ∧
    s.tokensHeld < 64 ∧ s.me.queue = [] ∧ s.me.releasing = false ∧ t.ownState (regionOf (4 * 2 ^ 52)) = .held ∧ t.me.queue = [] ∧
    u.ownState (regionOf (4 * 2 ^ 52)) ≠ .held ∧ 64 ≤ u.tokensHeld ∧ (s.areaOf win matches .code 8) = true ∧
    (run1 (.stl hd 2#6 0#6 3#6 0#64 .d .pod) { withS s 2#6 win with cur := { s.cur with wait := true } }).me.releasing = true := by decide +kernel

theorem witness_watchpoint : (at0 .s).ready hd [1#6] = true := by decide +kernel

/-- A store of two lanes to the slice, with its flag in the same slice; and with the flag in pool memory. -/
theorem witness_notifying_store :
    let s := withS (twoLanes .w) 2#6 (win + 0x1000)
    let r := { runAt with index := 2#6 }
    let u := { withS s 2#6 0x01FFF00000000000#64 with pool := { s.pool with regions := [region0] } }
    (vectorStore (.stf hd r .bf16 (.mode .rne) 1#4)).isSome ∧ s.ready hd [1#6, 2#6] = true ∧ s.me.resumes = false ∧ s.cur.eng = .w ∧
    ¬(s.fab.en = true ∧ s.fab.asid = s.here.asid) ∧ (∀ n ∈ s.here.stfs, n.issuing = false) ∧ (s.here.retired .w = true ∧ s.here.watch = [] ∧ s.barriers = [] ∧ s.me.watchPass = false) ∧
    okAny (s.stfReps r .bf16 1#4 1 0) (fun data => okAny (s.stfFlag r) fun flag =>
      !data.isEmpty && data.all fun d => targetOfKey d == targetOfKey (flag.headD 0)) = true ∧
    okAny (u.stfReps r .bf16 1#4 1 0) (fun data => okAny (u.stfFlag r) fun flag =>
      data.any fun d => targetOfKey d != targetOfKey (flag.headD 0)) = true :=
  ⟨by decide +kernel, by decide +kernel, by decide +kernel, by decide +kernel, by decide +kernel, by decide +kernel,
    by decide +kernel, by decide +kernel, by decide +kernel⟩

/-- Two buffers of 256 bytes in a stack-local page at 1 MiB, the result in the first, the flag in the slice. -/
def atJob : State :=
  let s := withS (at0 .s) 1#6 win
  { s with
    tlb := [{ asid := 0#14, va := 0x100000, size := 0x10000, pa := 0, r := true, w := true, x := false, sl := true }]
    mem := [(2 ^ 52, 2#8), (2 ^ 52 + 9, 1#8), (2 ^ 52 + 18, 16#8), (2 ^ 52 + 25, 16#8), (2 ^ 52 + 29, 0xFE#8), (2 ^ 52 + 30, 0xFF#8),
      (2 ^ 52 + 31, 1#8), (2 ^ 52 + 66, 16#8), (2 ^ 52 + 73, 1#8), (2 ^ 52 + 74, 16#8)] }

theorem witness_job :
    let s := atJob
    s.ready hd [1#6] = true ∧ s.me.queue = [] ∧
    okAny (s.sreRead (s.getS 1#6)) (fun b => b.misaligned.isNone && b.sound && b.length == 256 && decide (b.used = [0x100000#64, 0x100100#64]) &&
      okAny (s.sreMap b) (fun ps => ps.all fun p => p.2.isNone) &&
      okAny (s.span .store b.flag 8) (fun ks => ks.all fun k => decide (paClass k < 2))) = true ∧ (s.jobs 0).length < 8 := by decide +kernel

theorem witness_unsound_job :
    okAny ({ atJob with mem := [(2 ^ 52, 1#8)] }.sreRead win) (fun b => b.misaligned.isNone && !b.sound) = true := by decide +kernel

/-! ### Contexts -/

/-- The supervisor core of cell 0, whose cell holds an iteration, with s1 = 1 MiB. -/
def atSup (f : Cell → Cell := id) : State :=
  withS (at0 .sup fun x => f { x with iter := some { va := 0x2000#64, asid := 0#14, pos := 3, dev := 0#6, recId := none, ckpt := 0#64 } }) 1#6 0x100000#64

theorem witness_translation_drop :
    let s := { atSup with tlb := [{ asid := 0#14, va := 0x10000, size := 0x10000, pa := 0, r := true, w := true, x := true, sl := false }] }
    s.ready hd [1#6, 2#6] = true ∧ s.cur.eng = .sup ∧ (∀ e ∈ s.cells, e.2.translating false 0#14 = false) ∧ s.sre = [] := by
  decide +kernel

theorem length_leBytes (n x : Nat) : (leBytes n x).length = n := by
  induction n generalizing x with
  | zero => rfl
  | succ n ih => simp [leBytes, ih]

theorem length_quads (ws : List Nat) : (quads ws).length = 8 * ws.length := by
  induction ws with
  | nil => rfl
  | cons w ws ih => simp only [quads, List.flatMap_cons, List.length_append, length_leBytes] at *; simp only [ih, List.length_cons]; omega

theorem length_fitBytes (n : Nat) (bs : List Byte) : (fitBytes n bs).length = n := by simp [fitBytes]

theorem length_flatMap {α : Type} (f : α → List Byte) (l : List α) (k : Nat) (h : ∀ a ∈ l, (f a).length = k) :
    (l.flatMap f).length = l.length * k := by
  induction l with
  | nil => simp
  | cons a l ih =>
    rw [List.flatMap_cons, List.length_append, h a List.mem_cons_self, ih fun b hb => h b (List.mem_cons_of_mem _ hb),
      List.length_cons, Nat.succ_mul, Nat.add_comm]

theorem length_block (st : EngState) : st.block.length = 1088 := by
  simp [EngState.block, length_quads, length_fitBytes, length_leBytes, zeros]

theorem length_queueBytes (x : Cell) : x.queueBytes.length = 2112 := by
  rw [Cell.queueBytes]
  simp only [List.length_append, length_fitBytes, length_leBytes]
  rw [length_flatMap _ _ 1 fun _ _ => length_leBytes .., length_flatMap _ _ 1 fun _ _ => length_leBytes ..,
    length_flatMap _ _ 128 fun _ _ => length_fitBytes ..]
  simp

theorem length_bankBytes (x : Cell) : x.bankBytes.length = 7232 := by
  rw [Cell.bankBytes]
  simp only [List.length_append, length_quads, zeros, List.length_replicate]
  rw [length_flatMap _ _ 64 fun _ _ => length_leBytes .., length_flatMap _ _ 64 fun _ _ => length_leBytes ..,
    length_flatMap _ _ 4 fun _ _ => length_leBytes .., length_flatMap _ _ 128 fun _ _ => length_leBytes ..]
  simp [Cell.traces]

theorem length_body (s : State) (c : Nat) (rs : List Live) (h : (s.cell c).copies.find? (·.halted) = none) :
    (s.imageBody c rs).length =
      0x4000 - 64 + (s.cell c).tileBytes.length + (s.cell c).carve + (rs.flatMap (s.rangeBytes c)).length := by
  rw [State.imageBody, h]
  simp only [List.length_append, length_fitBytes, length_queueBytes, length_bankBytes, Cell.specialBytes, Cell.arrayBytes, zeros,
    List.length_replicate, State.bytes, List.length_map, List.length_range]
  rw [length_flatMap _ _ 1088 fun _ _ => length_block _]
  rfl

theorem length_whole (s : State) (c : Nat) (it : Iter) (rs : List Live) :
    (s.image c it 0xFFFF#16 true false rs).length = 64 + (s.imageBody c rs).length := by
  simp [State.image, length_leBytes, length_quads, zeros]
  omega

theorem length_full (s : State) (c : Nat) (h : ∀ v, ((s.cell c).getV v).length = 1024) :
    ((fullRanges 0).flatMap (s.rangeBytes c)).length = 640 * 4096 + Config.sliceBytes := by
  have regs : (s.rangeBytes c (.regs 0 639)).length = 640 * 4096 := by
    rw [State.rangeBytes, length_flatMap _ _ 4096 fun _ _ => ?_, List.length_range]
    rw [laneBytes, length_flatMap _ _ 4 fun _ _ => length_leBytes .., h]
  rw [fullRanges, List.flatMap_cons, List.flatMap_cons, List.flatMap_nil, List.append_nil, List.length_append, regs, State.rangeBytes,
    State.bytes, List.length_map, List.length_range, Nat.sub_zero]

/-- R386: a full image of a cell without tiles, commands and copies is 16 KiB of state, 640 registers and the slice. -/
theorem length_image (it : Iter) : (atSup.image 0 it 0xFFFF#16 true false (fullRanges 0)).length = 0x4000 + 640 * 4096 + 0x800000 := by
  have tiles : (atSup.cell 0).tileBytes = [] := rfl
  have carve : (atSup.cell 0).carve = 0 := rfl
  rw [length_whole, length_body _ _ _ rfl, length_full _ _ fun _ => (by rw [show (atSup.cell 0).getV _ = zeroLanes from rfl]; rfl), tiles,
    carve]
  rfl

theorem witness_save :
    let s := atSup
    let it : Iter := { va := 0x2000#64, asid := 0#14, pos := 3, dev := 0#6, recId := none, ckpt := 0#64 }
    s.ready hd [1#6] = true ∧ s.cur.eng = .sup ∧ s.here.iter = some it ∧ s.here.saveReady = true ∧ s.here.copies.length ≤ 1 ∧
    s.here.regErr = [] ∧ s.here.carve = 0 ∧ (s.recall 0).handled 0 = s ∧
    s.areaOk (s.getS 1#6).toNat (0x4000 + 640 * 4096 + 0x800000) = true ∧ s.ecc = [] ∧
    (∀ j, s.held ((s.getS 1#6).toNat + j) = false ∧ tabGet none s.own.cache ((s.getS 1#6).toNat + j) = none) ∧
    (s.image 0 it 0xFFFF#16 true false (fullRanges 0)).length = 0x4000 + 640 * 4096 + 0x800000 :=
  ⟨by decide +kernel, rfl, by decide +kernel, by decide +kernel, by decide +kernel, rfl, by decide +kernel, by decide +kernel,
    by decide +kernel, rfl,
    fun _ => ⟨rfl, rfl⟩, length_image _⟩

theorem witness_save_refused : ((withS atSup 1#6 0x20#64).getS 1#6).toNat % 64 ≠ 0 ∧ (at0 .sup).here.iter = none := by decide +kernel

/-- R386: an image at 64 KiB of position 0 of the record at 1 MiB in context 0, saved at checkpoint 0 with an empty table. -/
def atLoad : State :=
  let s := withS (at0 .sup) 1#6 0x10000#64
  { s with
    tlb := [{ asid := 0#14, va := 0, size := 0x200000, pa := 0, r := true, w := true, x := true, sl := false }]
    mem := [(8, 1#8), (0x10000, 0x44#8), (0x10001, 0x43#8), (0x10002, 0x54#8), (0x10003, 0x58#8), (0x10004, 1#8), (0x10011, 0x40#8),
      (0x1001A, 0x10#8)] }

theorem witness_load : atLoad.ready hd [1#6] = true ∧ atLoad.cur.eng = .sup ∧
    ¬(atLoad.here.iter.isSome = true ∨ atLoad.here.starting.isSome = true ∨ atLoad.here.reserved = true) ∧
    atLoad.ecc = [] ∧ (∃ x, atLoad.readImage 0x10000 = some x ∧ !(atLoad.slotsHeld 0 x.1.asid) = true) ∧
    -- a tile command of cell 1 has claimed slots of another context in the slice
    (atLoad.modCell 1 fun x => { x with owner := some 5#14, mcmds :=
      (atCommand.cell 0).mcmds }).slotsHeld 0 0#14 = true :=
  ⟨by decide +kernel, rfl, by decide +kernel, rfl, some_any (by decide +kernel), by decide +kernel⟩

theorem witness_load_refused : ((at0 .sup).readImage 0).isNone ∧ atSup.here.iter.isSome = true := by decide +kernel

theorem witness_resume :
    let s := atSup fun x => { x with frozen := some 5, engM := { x.engM with trap := some { cause := 0x11#8, hdr := some hd } } }
    s.ready hd [] = true ∧ s.cur.eng = .sup ∧ s.here.iter ≠ none ∧ s.here.frozen ≠ none ∧ atSup.here.preempt = none ∧
    (at0 .sup).here.iter = none := by decide +kernel

/-! ### Events of a cell -/

theorem witness_queue_timeout :
    let s := { (at0 .l fun x => { x with engL := { x.engL with stall := .queue, stalled := [(0, 0)], halted := false } }) with cycle := 0x1000001 }
    (s.eng 0 .l).stall = .queue ∧ (s.cell 0).qtimeout ≠ 0#32 ∧ (∃ w ∈ (s.eng 0 .l).stalled, (s.cell 0).qtimeout.toNat < s.cycle - w.2) ∧ (s.cell 0).retired .l = true ∧
    s.unfrozen 0 .l = true ∧ (s.eng 0 .l).deferred = [] ∧ (s.eng 0 .l).trap = none ∧ (s.eng 0 .l).halted = false ∧ (s.eng 0 .l).stopped = false ∧
    (at0 .l).me.stall ≠ .queue ∧
    ∀ w ∈ [(0, 5), (1, 9)], ({ s with cycle := 9 }).cycle - w.2 ≤ (s.cell 0).qtimeout.toNat := by decide +kernel

theorem witness_deferred_fault :
    let r : TrapRec := { cause := 0x04#8, deferred := true, addr := win }
    let s := at0 .w fun x => { x with engW := { x.engW with deferred := [r] } }
    (s.eng 0 .w).deferred = r :: [] ∧ (s.cell 0).retired .w = true ∧ s.unfrozen 0 .w = true ∧ Eng.w ≠ .sup := by decide +kernel

theorem witness_checkpoint_timeout :
    let p : Preempt := { limit := 0, since := 0 }
    let s := { (at0 .s fun x => { x with preempt := some p, ckptlim := 7#32 }) with cycle := 8 }
    let u := at0 .s fun x => { x with preempt := some { p with timedOut := true }, engV := { x.engV with halted := false, stopped := true, step := 3 } }
    (s.cell 0).preempt = some p ∧ (s.cell 0).frozen = none ∧ p.timedOut = false ∧ (s.cell 0).ckptlim ≠ 0#32 ∧
    (s.cell 0).ckptlim.toNat < s.cycle - p.since ∧ (u.cell 0).atStoppingPoints = true ∧ Eng.v ∈ engines ∧ (u.eng 0 .v).halted = false ∧
    ∀ o ∈ engines, (u.eng 0 o).halted = false → (u.eng 0 .v).step < (u.eng 0 o).step ∨
      ((u.eng 0 .v).step = (u.eng 0 o).step ∧ engNum .v ≤ engNum o) := by decide +kernel

theorem witness_quiescent_cell :
    let p : Preempt := { limit := 0, since := 0, target := some 5, idx := some 2#16 }
    let s := [Eng.s, .l, .m, .v, .w].foldl (fun s e => s.modEng 0 e fun st => { st with stopped := true, step := 5 })
      (at0 .s fun x => { x with preempt := some p })
    let late := { (s.modCell 0 fun x => { x with ckptlim := 7#32 }) with cycle := 8 }
    ((s.cell 0).preempt = some p ∧ p.target ≠ none ∧ p.timedOut = false ∧ s.cycle - p.since ≤ (s.cell 0).ckptlim.toNat ∧ (s.cell 0).frozen = none ∧
      (s.cell 0).acknowledged = true) ∧
    (late.cell 0).ckptlim ≠ 0#32 ∧ (late.cell 0).ckptlim.toNat < late.cycle - p.since ∧ (late.cell 0).acknowledged = true := by
  decide +kernel

/-- R360, R362: context 0, pod-wide, with its tables at 4 KiB to 20 KiB, whose entries lead va 64 KiB to a page at 1 MiB that may be
read and written. -/
def tables : List Host.Cell :=
  [(1, 0x10#8), (8, 3#8), (0x1000, 0x01#8), (0x1001, 0x20#8), (0x2000, 0x01#8), (0x2001, 0x30#8), (0x3000, 0x01#8), (0x3001, 0x40#8),
    (0x4000, 0x01#8), (0x4001, 0x50#8), (0x5008, 0x1B#8), (0x500A, 0x10#8)]

theorem witness_walk :
    let s := { State.reset with mem := tables }
    (0x10000#64 : Word).toNat < 2 ^ 57 ∧ s.tlb = [] ∧
    s.walk 0#14 0x10000 = .ok { pa := 0x100000, size := 0x10000, r := true, w := true, x := false, sl := false } :=
  ⟨by decide, rfl, ok_of (by decide +kernel)⟩

theorem witness_walk_faults :
    (match State.reset.walk 0#14 0x10000 with | .error _ => true | .ok _ => false) = true := by decide +kernel

/-! ### Records, walkers and iterations -/

/-- A device that has started, with those tables and some records. -/
def atTgu (rs : List Rec) : State :=
  let s := { State.reset with mem := tables }
  { s with mc := { s.mc with state := 1#4 }, tgu := { s.tgu with recs := rs, nextId := 100 } }

/-- Fields of a record of context 0 with one dimension of three positions. -/
def fields3 : RecFields :=
  { entry := 0x20000#64, params := 7#64, ckpt := 0#64, spill := 0, asid := 0#14, ndim := 1, place := 0, prio := 1, stealable := true,
    order := false, gang := 0, bmode := 0#8, succ := [], bound := [3#64] }

/-- A record with a number, at va 64 KiB + 128 × its number. -/
def rec3 (id : Nat) (p : Phase) : Rec :=
  { id, va := BitVec.ofNat 64 (0x10000 + 128 * id), f := fields3, phase := p, issued := p != .ready && p != .parked, bounds := [3],
    next := 0, last := 3 }

theorem witness_tail :
    let s := atTgu []
    let l : Lq := { base := 0x6000#64, size := 4#64, ctl := 0x10000#18 }
    let t := { s with tgu := { s.tgu with lq := [(0, l)] } }
    (t.tgu.q 0).cellsLaunch = false ∧ (4#64 : Word) - (t.tgu.q 0).head ≤ (t.tgu.q 0).size ∧
    (t.tgu.q 0).tail - (t.tgu.q 0).head ≤ 4#64 - (t.tgu.q 0).head ∧ (t.tgu.q 0).size < 5#64 - (t.tgu.q 0).head ∧
    ({ l with ctl := 0x30000#18 } : Lq).cellsLaunch = true ∧ t.open = true ∧ State.reset.open = false := by decide +kernel

/-- R340: one entry of queue 0, naming the record at va 64 KiB, which is all zero but for its one dimension. -/
theorem witness_entry :
    let s := atTgu []
    let l : Lq := { base := 0x6000#64, size := 4#64, tail := 1#64, ctl := 0x10000#18 }
    let t := { s with
                    mem := s.mem ++ [(0x6002, 1#8), (0x10001E, 1#8), (0x100050, 3#8)]
                    tlb := [{ asid := 0#14, va := 0x10000, size := 0x10000, pa := 0x100000, r := true, w := true, x := false, sl := false }]
                    tgu := { s.tgu with lq := [(0, l)] } }
    let ks := (List.range 128).map (0x100000 + ·)
    t.awake = true ∧ t.tgu.parked < 4096 ∧ t.tgu.nextQueue = some 0 ∧ (∀ i < 16, t.bad (0x6000 + i) = false) ∧
    t.num 0x6008 8 = 0 ∧ t.num 0x6000 8 = 0x10000 ∧ (∀ k ∈ ks, paClass k = 0) ∧ t.tgu.recs = [] ∧
    field (ks.map t.view) 0x28 4 % 16 = 0 ∧ (t.ctx 0#14).isSome = true ∧ t.tgu.doomed = [] ∧ t.barriers = [] ∧
    t.tguSpan 0#14 .load 0x10000 128 = .ok ks ∧ (∃ f, parseRecord 0#14 (ks.map t.view) = .ok f ∧ (f.bound == [3#64]) = true) ∧
    t.tguSpan 0#14 .atomic 0x10028 4 = .ok ((List.range 4).map (0x100028 + ·)) :=
  ⟨by decide +kernel, by decide +kernel, by decide +kernel, by decide +kernel, by decide +kernel, by decide +kernel, by decide +kernel,
    rfl, by decide +kernel, by decide +kernel, rfl, rfl, ok_of (by decide +kernel), ok_any (by decide +kernel), ok_of (by decide +kernel)⟩

theorem witness_numbered : numbered (atTgu [rec3 1 .ready, rec3 2 (.held 0)]) := by
  unfold numbered
  decide +kernel

theorem witness_record_issues :
    let s := atTgu [{ rec3 1 .ready with issued := false }]
    let r := { rec3 1 .ready with issued := false }
    s.awake = true ∧ (∀ q ∈ s.tgu.recs, q.phase ≠ .held 7) ∧ r ∈ s.tgu.recs ∧ r.phase = .ready ∧ r.issued = false ∧
    (∀ q ∈ s.tgu.recs, q.phase = .ready → q = r) ∧ s.readBounds r.f = .ok [3] ∧ r.f.place ≠ 2 ∧ [3].foldl (· * ·) 1 ≠ 0 :=
  ⟨by decide +kernel, by decide +kernel, by decide +kernel, rfl, rfl, by decide +kernel, ok_of (by decide +kernel), by decide, by decide⟩

theorem witness_position_placed :
    let s := atTgu [rec3 1 (.held 0)]
    s.awake = true ∧ s.tgu.gang = none ∧ (∀ k < 80, (s.cell k).reserved = false) ∧ s.ranked = [rec3 1 (.held 0)] ∧
    (rec3 1 (.held 0)).f.place = 0 ∧ 0 < s.cellCount ∧ (s.cell 0).free = true := by decide +kernel

theorem witness_iteration_starts :
    let it : Iter := { va := 0x10080#64, asid := 0#14, pos := 2, dev := 0#6, recId := some 1, ckpt := 0#64 }
    let s := (atTgu [rec3 1 .running]).modCell 79 fun x => { x with starting := some it }
    (s.cell 79).starting = some it ∧ (∀ e ∈ s.cells, ∀ o, e.2.starting = some o → o.recId = it.recId → it.pos ≤ o.pos) ∧ it.recId.bind s.rec? = some (rec3 1 .running) ∧ (s.cell 79).owner ≠ some 0#14 ∧
    s.slotsHeld 79 0#14 = false ∧ (∀ k, tabGet none s.own.cache k = none) ∧
    unqueued s (fun k => slicePa 79 0 ≤ k ∧ k < slicePa 79 0 + 0x800000) := by
  refine ⟨by decide +kernel, ?_, by decide +kernel, by decide +kernel, by decide +kernel, fun _ => rfl, ?_⟩
  rotate_left
  · intro c e q hq
    by_cases hc : c = 79
    · subst hc; cases e <;> exact absurd hq (List.not_mem_nil)
    · rw [State.eng, State.cell_modCell, if_neg hc] at hq
      cases e <;> exact absurd hq (List.not_mem_nil)
  intro e he o ho _
  rw [show e = _ from List.mem_singleton.mp he] at ho
  cases ho
  exact Nat.le_refl _

/-- R344: the last position of 2 × 3 positions. -/
theorem witness_position : 5 < [2, 3].foldl (· * ·) 1 := by decide

theorem witness_iteration_ends :
    let it : Iter := { va := 0x10080#64, asid := 0#14, pos := 2, dev := 0#6, recId := some 1, ckpt := 0#64 }
    let s := (atTgu [{ rec3 1 .running with running := 1 }]).modCell 0 fun x => { x with iter := some it }
    (s.cell 0).iter = some it ∧ (∀ e ∈ engines, (s.eng 0 e).halted = true) ∧ (s.cell 0).drained = true ∧ (s.cell 0).frozen = none := by
  decide +kernel

theorem witness_record_completes :
    let r := { rec3 1 .running with next := 3 }
    let s := atTgu [r]
    s.awake = true ∧ r ∈ s.tgu.recs ∧ r.issued = true ∧ r.next = r.last ∧ r.running = 0 ∧ r.grants = [] ∧ r.origin = none ∧
    r.fail = none ∧ r.cancelled = false ∧ r.f.succ = [] ∧ s.barriers = [] ∧
    (atTgu [{ r with fail := some (7, 4) }]).awake = true ∧ (atTgu [{ r with cancelled := true }]).awake = true ∧
    (atTgu [{ r with origin := some (1#6, 0x10000#64) }]).awake = true := by decide +kernel

/-- A successor at va 64 KiB with two predecessors left, and with one. -/
theorem witness_successor :
    let p := { rec3 0 .parked with issued := false }
    let s (n : Byte) := { atTgu [p] with mem := tables ++ [(0x100024, n)] }
    let ks := (List.range 4).map (0x100024 + ·)
    (s 2#8).barriers = [] ∧ (0x10000#64 : Word).toNat % 128 = 0 ∧ (s 2#8).tguSpan 0#14 .atomic 0x10024 4 = .ok ks ∧
    (∀ k ∈ ks, paClass k = 0) ∧ leNat (ks.map (s 2#8).byte) = 2 ∧ leNat (ks.map (s 1#8).byte) = 1 ∧ p ∈ (s 1#8).tgu.recs ∧
    p.f.asid = 0#14 ∧ p.va = 0x10000#64 ∧ p.phase = .parked ∧
    -- none left; off its grid; a key of another class; no translation; an error in the word
    (leNat (ks.map (s 0#8).byte) = 0 ∧ (0x10040#64 : Word).toNat % 128 ≠ 0 ∧
      (match (s 1#8).tguSpan 0#14 .atomic 0x90024 4 with | .error c => c == 4 | .ok _ => false) = true ∧
      (match ({ s 1#8 with ecc := [(0x100020, true)] } : State).tguSpan 0#14 .atomic 0x10024 4 with | .error c => c == 13 | .ok _ => false) = true ∧
      okAny (((s 1#8).modCell 0 fun x => { x with owner := some 0#14 }).tguSpan 0#14 .atomic (windowBase + 0x24) 4) (fun ks => ks.any fun k => paClass k != 0) = true) :=
  ⟨rfl, by decide, ok_of (by decide +kernel), by decide +kernel, by decide +kernel, by decide +kernel, by decide +kernel, rfl, rfl, rfl, by decide +kernel⟩

/-- Eight walkers busy at level 1, and a ready record at level 2. -/
theorem witness_give_back :
    let r := { rec3 9 .ready with f := { fields3 with prio := 2 } }
    let qs := (List.range 8).map fun w => rec3 w (.held w)
    let s := atTgu (qs ++ [r])
    s.awake = true ∧ (∀ q ∈ s.tgu.recs, q.f.prio ≤ 3) ∧ qs.length = 8 ∧ qs.Nodup ∧ (∀ q ∈ qs, q ∈ s.tgu.recs) ∧
    s.topReady = some r ∧ s.level (rec3 0 (.held 0)) < s.level r ∧ s.tgu.gang ≠ some 0 := by decide +kernel

theorem witness_aging :
    let s := atTgu [rec3 1 .ready]
    s.awake = true ∧ s.tgu.age ≠ 0#64 ∧ (rec3 1 .ready) ∈ s.tgu.recs ∧ (rec3 1 .ready).phase = .ready ∧ s.level (rec3 1 .ready) < 3 := by
  decide +kernel

theorem witness_cancel :
    let r := { rec3 1 .parked with issued := false }
    let s := atTgu [r]
    let t := atTgu [rec3 1 (.held 0)]
    s.open = true ∧ r ∈ s.tgu.recs ∧ r.f.asid = s.tgu.cancelAsid ∧ r.va = 0x10080#64 ∧ r.issued = false ∧ r.f.succ = [] ∧ s.barriers = [] ∧
    rec3 1 (.held 0) ∈ t.tgu.recs ∧ (rec3 1 (.held 0)).issued = true ∧
    s.tguSpan 0#14 .atomic (0x10080 + 0x28) 4 = .ok ((List.range 4).map (0x1000A8 + ·)) :=
  ⟨by decide +kernel, by decide +kernel, by decide +kernel, rfl, rfl, rfl, rfl, by decide +kernel, rfl, ok_of (by decide +kernel)⟩

/-- R379: bit 15 of the upper word is cell 79. -/
theorem witness_preempt_request :
    (0x8000#64 : Word).getLsbD (79 - 64) = true ∧ 64 ≤ 79 ∧ 79 < 80 ∧
    let s := (atTgu []).modCell 79 fun x => { x with iter := some { va := 0#64, asid := 0#14, pos := 0, dev := 0#6, recId := none, ckpt := 0#64 } }
    s.open = true ∧ (s.cell 79).iter ≠ none ∧ (s.cell 79).preempt = none := by decide +kernel

theorem witness_probe :
    let s := atTgu []
    s.awake = true ∧ s.minimal = false ∧ s.tgu.steal ≠ 0#64 ∧ s.freeCells ≠ [] ∧ (s.tgu.probe 7).pauseEnd = none ∧ (s.tgu.probe 7).out = none ∧
    let u := { s with tgu := { s.tgu with probes := [(2, { out := some 5 }), (7, { out := some 4 })] } }
    (u.tgu.probe 7).out = some 4 ∧ (u.tgu.probe 2).out = some 5 := by
  decide +kernel

theorem witness_pause :
    let s := atTgu []
    let t := { s with tgu := { s.tgu with probes := [(1, { pauseEnd := some 9 }), (4, { pauseEnd := some 10 })] }, cycle := 9 }
    tabWf ({ } : Probe) t.tgu.probes = true ∧ (t.tgu.probe 1).pauseEnd = some 9 ∧ 9 ≤ t.cycle ∧ (t.tgu.probe 4).pauseEnd = some 10 := by decide +kernel

theorem witness_probe_answered :
    let s := atTgu [rec3 1 (.held 0)]
    s.awake = true ∧ s.minimal = false ∧ 1#6 ∈ neighbours s.podDev ∧ rec3 1 (.held 0) ∈ s.tgu.recs ∧ s.stealableRec (rec3 1 (.held 0)) = true ∧
    (∀ q ∈ (atTgu [rec3 1 .ready]).tgu.recs, (atTgu [rec3 1 .ready]).stealableRec q = false) := by decide +kernel

theorem witness_grant :
    let g : Grant := { dev := 1#6, record := 0x10000#64, asid := 0#14, fields := List.replicate 128 0#8, bounds := [], first := 1, count := 1 }
    let s := atTgu []
    let t := { s with tgu := { s.tgu with probes := [(3, { out := some 0 })] } }
    let r := { rec3 1 .running with grants := [{ dev := 1#6, first := 2, count := 1 }] }
    t.awake = true ∧ t.probing g.dev = some 3 ∧ okAny (parseRecord g.asid g.fields) (fun _ => true) = true ∧ t.tgu.recs = [] ∧
    r ∈ (atTgu [r]).tgu.recs ∧ r.va = 0x10080#64 ∧ r.origin = none ∧ ∃ g ∈ r.grants, g.dev = 1#6 ∧ g.first = 2 := by decide +kernel


/-! ### Requests from other devices -/

/-- A device that has started, with context 0 pod-wide of tenant 5 (R360). -/
def atOpen : State := { State.reset with mem := [(8, 3#8), (10, 5#8)], mc := { State.reset.mc with state := 1#4 } }

/-- Peer 1 of tenant t asks for something at an address, for context 0. -/
def ask (t : BitVec 12) (pa : Nat) (k : ReqKind) : PeerReq := { dev := 1#6, asid := 0#14, tenant := t, pa, kind := k }

theorem witness_peer_unserved : State.reset.open = false ∧ ({ atOpen with mc := { atOpen.mc with state := 2#4 } } : State).minimal = true ∧
    ({ atOpen with mc := { atOpen.mc with power := .standby } } : State).mc.power = .standby := by
  decide +kernel

theorem witness_peer_served :
    let ks := asked 0x4000 8
    let s := { atOpen with own := { holder := [(0, some 1#6)] } }
    s.minimal = false ∧ s.open = true ∧ s.mc.power ≠ .standby ∧ plainRequest (.atomic .add true 1#64 0#64) ∧ requestLength (.atomic .add true 1#64 0#64) = 8 ∧
    (∃ x, s.ctx 0#14 = some x ∧ (x.podWide && x.tenant == 5#12) = true) ∧ s.ctx 1#14 = none ∧
    (∀ k ∈ ks, paOk false k = true ∧ ((paClass k = 0 ∧ s.tokenElsewhere 1#6 k = false) ∨
      (paClass k = 1 ∧ s.homeCheck 0#14 k = none))) ∧ s.barriers = [] ∧ s.ecc = [] ∧
    servedAlone s (.atomic .add true 1#64 0#64) ks :=
  ⟨by decide +kernel, by decide +kernel, by decide +kernel, trivial, rfl, some_any (by decide +kernel), by decide +kernel, by decide +kernel, rfl, rfl,
    fun _ _ _ h => (List.not_mem_nil h).elim⟩

/-- Peer 1 asks for bytes of peer 2's memory (R392). -/
theorem witness_third_device :
    let pa := 2 * 2 ^ 52 + 2 * 2 ^ 40 + 64
    paClass pa = 2 ∧ plainRequest (.write [7#8]) ∧ ¬ poolRequest (.write [7#8]) ∧ poolRequest .poolFree ∧
    (∀ k ∈ asked pa 1, paClass k = paClass pa ∧ paOk false k = true ∧ k / 2 ^ 40 % 64 ≠ atOpen.podDev.toNat ∧
      tabGet false atOpen.fab.out (k / 2 ^ 40 % 64) = false ∧ atOpen.tokenElsewhere 1#6 k = false) ∧ atOpen.barriers = [] ∧ atOpen.ecc = [] :=
  ⟨by decide, trivial, fun h => h, trivial, by decide +kernel, rfl, rfl⟩

theorem witness_peer_refused :
    let s := { atOpen with own := { holder := [(0, some 2#6)] } }
    (∃ k ∈ asked 0x4000 8, s.tokenElsewhere 1#6 k = true) ∧
    ∃ k ∈ asked (2 ^ 52) 8, paClass k = 1 ∧ (s.cell (k / 0x800000 % 128)).owner ≠ some 0#14 := by decide +kernel

/-- Tenant 5 has 2 MiB of switch 0, and the pair's other switch has the mirror if asked (R396). -/
def atRegion (lost mirror : Bool) : State :=
  { atOpen with pool := { regions := [{ base := 4 * 2 ^ 52, size := 0x200000, tenant := 5#12, mirror, lost }] } }

theorem witness_pool_access :
    let pa := 4 * 2 ^ 52 + 64
    let s := { atRegion false false with own := { holder := [(2 ^ 33, some 2#6)] } }
    plainRequest .flag ∧ requestLength .flag ≠ 0 ∧ (∀ k ∈ asked ((atRegion false false).mirrorKey pa) 8, paClass k = 4 ∧ paOk false k = true) ∧
    (∀ k ∈ asked (atOpen.mirrorKey pa) 8, atOpen.regionAt k = none) ∧ (∀ k ∈ asked (atOpen.mirrorKey pa) 8, atOpen.switch (switchOf k) ≠ .failed) ∧
    (∀ k ∈ asked ((atRegion false false).mirrorKey pa) 8,
      (atRegion false false).regionAt k = some { base := 4 * 2 ^ 52, size := 0x200000, tenant := 5#12, mirror := false, lost := false } ∧
      (atRegion false false).tokenElsewhere 1#6 k = false) ∧
    (∀ k ∈ asked ((atRegion true false).mirrorKey pa) 8,
      (atRegion true false).regionAt k = some { base := 4 * 2 ^ 52, size := 0x200000, tenant := 5#12, mirror := false, lost := true }) ∧
    (∃ k ∈ asked (s.mirrorKey pa) 8, s.tokenElsewhere 1#6 k = true) :=
  ⟨trivial, by decide, by decide +kernel, by decide +kernel, by decide +kernel, by decide +kernel, by decide +kernel, by decide +kernel⟩

/-- Tenant 5 may have 4 MiB, of which it has two; the allocation of two more fits on switch 0. -/
theorem witness_others_allocate :
    let s := { atRegion false false with pool := { (atRegion false false).pool with quota := [(5, 0x400000)] } }
    ¬(0x200000 = 0 ∨ 0x200000 % 0x200000 ≠ 0 ∨ 2 ^ 39 < 0x200000) ∧ ¬ tabGet 0 s.pool.quota 5 < s.pool.usedBy 5#12 + 0x200000 * 1 ∧
    tabGet 0 s.pool.quota 5 < s.pool.usedBy 5#12 + 0x400000 ∧ s.switch 0 = .healthy ∧ 1 + 1 ≤ mereGranules ∧ s.pool.rangeFree 0 1 1 = true ∧
    (∃ r ∈ s.pool.regions, r.base = 4 * 2 ^ 52 ∧ r.tenant = 5#12 ∧ r.lost = false ∧ s.revokeWaits r = false) ∧
    ∀ r ∈ s.pool.regions, ¬(r.base = 4 * 2 ^ 52 + 0x200000 ∧ r.tenant = 5#12) := by decide +kernel

theorem witness_revocation :
    let s := { atOpen with own := { st := [(2 ^ 33, .held)], cache := [(4 * 2 ^ 52, some 7#8)], holder := [(2 ^ 33, some 0#6)] } }
    s.ownState (2 ^ 33) = .held ∧ s.touchesRegion (2 ^ 33) = false ∧ tabWf none s.own.cache = true := by decide +kernel

/-- R402: device 2 holds the token of a region of this device's HBM, device 1 asks for it and waits behind no one, and then is
first in the line; device 2's release passes it on. -/
theorem witness_home_waits :
    let s := { atOpen with own := { holder := [(1, some 2#6)] } }
    let t := run1 (.ownershipRequest 1#6 1 .acq) s
    tabGet none s.own.holder 1 = some 2#6 ∧ 2#6 ≠ s.podDev ∧ 1#6 ∉ tabGet [] s.own.waiting 1 ∧
    tabGet [] t.own.waiting 1 = [1#6] ∧ t.own.sent = [.revoke 2#6 1] ∧
    tabGet none (run1 (.ownershipRequest 2#6 1 .rel) t).own.holder 1 = some 1#6 := by decide +kernel

theorem witness_home :
    paClass (1 * 0x200000) = 0 ∧ paOk false (1 * 0x200000) = true ∧ atOpen.minimal = false ∧ atOpen.open = true ∧ atOpen.mc.power ≠ .standby ∧
    atOpen.touchesRegion 1 = false ∧ 1#6 ≠ atOpen.podDev ∧ (atRegion false false).homeElsewhere (2 ^ 33 * 0x200000) = true ∧
    (atRegion false false).touchesRegion (2 ^ 33) = false ∧
    tabGet none ({ holder := [(1, some 1#6)] } : Ownership).holder 1 = some 1#6 ∧ tabGet none atOpen.own.holder 1 ≠ some 1#6 := by
  decide +kernel

theorem witness_switch :
    let s := atRegion false true
    s.switch 0 ≠ .failed ∧ s.switch 0 ≠ .absent ∧ s.switch (0 ^^^ 4) = .healthy ∧ s.mc.evqSize = 0#64 ∧ s.mc.heldEvents.length < 256 ∧
    (∃ r ∈ s.pool.regions, r.lost = false ∧ r.mirror = true ∧ switchOf r.base = 0) ∧
    (∃ r ∈ (atRegion false false).pool.regions, r.lost = false ∧ r.mirror = false ∧ switchOf r.base = 0) ∧
    (s.setHealth 0 .failed).switch 0 = .failed ∧ (s.setHealth 0 .rebuilding).switch 0 = .rebuilding := by decide +kernel

theorem witness_peer_leaves :
    let r := { rec3 1 .running with grants := [{ dev := 1#6, first := 2, count := 1 }] }
    let s := atTgu [r, rec3 2 .ready]
    (1#6 : BitVec 6) ≠ s.podDev ∧ r ∈ s.tgu.recs ∧ (∃ g ∈ r.grants, g.dev = 1#6) ∧ r.fail = none ∧ r.cancelled = false ∧
    rec3 2 .ready ∈ s.tgu.recs ∧ ∀ g ∈ (rec3 2 .ready).grants, g.dev ≠ 1#6 := by decide +kernel

/-- R406: an STF of W whose flag is the first 8 bytes of the slice. -/
theorem witness_flag :
    let f : Stf := { asid := 0#14, flagVa := win, flag := sl 0 8, stamp := 3 }
    let b : Stf := { f with bad := some (win + 64, 0x0A#8) }
    let s := at0 .w fun x => { x with stfs := [f, b] }
    (s.cell 0).stfs = f :: [b] ∧ f.issuing = false ∧ b.issuing = false ∧ (∀ q ∈ (s.cell 0).engW.queue, f.stamp ≤ q.id) ∧ f.bad = none ∧
    (∀ k ∈ f.flag, s.homeCheck f.asid k = none) ∧ s.barriers = [] ∧ b.bad = some (win + 64, 0x0A#8) ∧
    ((s.modHere fun x => { x with stfs := [b] }).cell 0).stfs = b :: [] ∧
    (∀ k ∈ f.flag, s.bad k = false) ∧ (∃ k ∈ f.flag, (s.modHere fun x => { x with owner := some 1#14 }).homeCheck f.asid k ≠ none) ∧
    (∃ k ∈ f.flag, ({ s with ecc := [(2 ^ 52, true)] } : State).bad k = true) ∧
    ({ s with barriers := [obj] } : State).meetsBarrier (f.flag.filter fun k => decide (paClass k < 2)) = true := by decide +kernel

/-- A job of two buffers of eight bytes. -/
def job (started : Bool) : Job :=
  { asid := 0#14, n := 2, length := 8, dest := 0x10000#64, bufs := [0x10000#64, 0x10040#64], pages := [(1, 0x100000, false)],
    flag := sl 0 8, flagVa := win, fval := 9#64, started }

theorem witness_reduction :
    let s (b : Bool) := { atOpen with sre := [(0, [job b])] }
    (s false).awake = true ∧ (s false).jobs 0 = job false :: [] ∧ (job false).started = false ∧ (s true).jobs 0 = job true :: [] ∧
    (job true).started = true ∧ (job true).ahead = [] ∧ (s true).ecc = [] ∧ (s true).barriers = [] := by decide +kernel

/-! ### The host and the management controller -/

theorem witness_host :
    ¬((4 = 4 ∨ 4 = 8) ∧ 2 % 4 = 0 ∧ 2 + 4 ≤ 2 ^ 26) ∧ ((8 = 4 ∨ 8 = 8) ∧ 0x200 % 8 = 0 ∧ 0x200 + 8 ≤ 2 ^ 26) ∧ State.reset.open = false ∧
    atOpen.open = true ∧ atOpen.minimal = false ∧ 0x1000 + 16 ≤ 2 ^ 39 ∧ (∀ i < 16, atOpen.foreign (0x1000 + i) = false) ∧
    atOpen.ecc = [] ∧ atOpen.barriers = [] ∧ (0x1000000 ≤ 0x1000008 ∧ 0x1000008 < 0x1000000 + 80 * 0x40000) ∧
    atOpen.held (8 * 2 ^ 52 + 0x1000008) = false ∧ atOpen.own.cache = [] := by decide +kernel

/-- R302: BAR 2 reads bytes that no release has written. -/
theorem witness_host_read_alone : noDebts atOpen (asked 0x1000 16) := fun _ _ _ h => (List.not_mem_nil h).elim

/-- R437: five entries posted of which two are read; all five may be, a sixth not. -/
theorem witness_evq_head :
    let s := { atOpen with mc := { atOpen.mc with evqHead := 2#64, evqTail := 5#64 } }
    5#64 - s.mc.evqHead ≤ s.mc.evqTail - s.mc.evqHead ∧ s.mc.evqTail - s.mc.evqHead < 6#64 - s.mc.evqHead ∧
    (0x10000#64 : Word).toNat < 2 ^ 36 ∧ (0x10000#64 : Word).toNat % 0x10000 = 0 := by decide +kernel

theorem witness_attestation :
    let s := { atOpen with mc := { atOpen.mc with attAddr := 0x1000#64 } }
    let t := { atOpen with mc := { atOpen.mc with attAddr := 0x8000000000#64 } }
    s.mc.attAddr.toNat < 2 ^ 36 ∧ s.mc.attStat ≠ 1#2 ∧ s.open = true ∧ s.held (s.mc.attAddr.toNat + 64) = false ∧
    (∀ k, tabGet none s.own.cache k = none) ∧ ¬ t.mc.attAddr.toNat < 2 ^ 39 :=
  ⟨by decide, by decide, by decide +kernel, by decide +kernel, fun _ => rfl, by decide⟩

/-- A start whose power rail x fails, and one in which everything passes. -/
def facts (x : Option (BitVec 8)) : StartFacts :=
  { rail := x, mcSram := false, flashSector := none, hbmStacks := [], failedCells := [], syncSram := none, sensor := none, ports := 0xFFFFF#20 }

theorem witness_start :
    ({ facts none with sensor := some 9#8 } : StartFacts).sensor = some 9#8 ∧ ({ facts none with sensor := some 9#8 } : StartFacts).rail = none ∧
    State.reset.mc.state = 0#4 ∧ State.reset.mc.power ≠ .off ∧ State.reset.flash.fails.toNat < 3 ∧ State.reset.mc.minimalAsked = false ∧
    (facts (some 2#8)).rail = some 2#8 ∧ 3 ≤ ({ fails := 3#8 } : Flash).fails.toNat ∧
    ({ State.reset with mc := { State.reset.mc with power := .off } } : State).mc.state = 0#4 := by decide

/-- The vendor's check has no value here (log 10), so a start that succeeds is shown from any image set that passes it. -/
theorem witness_start_succeeds (set : List Byte) (m : Config.Manifest) (h : checkSet 0#32 set = .ok m) :
    let s := { State.reset with flash := { setA := set, setB := set } }
    let t := { s with mc := { s.mc with minimalAsked := true } }
    let f := facts none
    s.mc.state = 0#4 ∧ s.mc.power ≠ .off ∧ s.flash.fails.toNat < 3 ∧ s.mc.minimalAsked = false ∧ checkSet s.flash.rollback s.flash.setA = .ok m ∧
    checkSet t.flash.rollback t.flash.setB = .ok m ∧ t.mc.minimalAsked = true ∧ f.rail = none ∧ f.mcSram = false ∧
    f.flashSector = none ∧ (∀ k < 8, f.hbmStacks.contains k = false) ∧ f.syncSram = none ∧ f.sensor = none ∧ f.failedCells = [] ∧
    s.flash.marks = [] ∧ ({ f with hbmStacks := [0, 1] }).hbmStacks.contains 2 = false ∧
    (∀ j < 2, ({ f with hbmStacks := [0, 1] }).hbmStacks.contains j = true) ∧ ∀ k < 4, ({ f with hbmStacks := [0, 1, 2, 3] }).hbmStacks.contains k = true :=
  ⟨rfl, (fun h => Power.noConfusion h), Nat.zero_lt_succ _, rfl, h, h, rfl, rfl, rfl, rfl, by decide, rfl, rfl, rfl, rfl, by decide, by decide, by decide⟩

theorem witness_restart :
    let s := { State.reset with mc := { State.reset.mc with tripped := true, packageTemp := 9000 } }
    s.mc.tripped = true ∧ 8500 ≤ s.mc.packageTemp ∧ State.reset.mc.tripped = false := by decide

/-- In state 3 the controller is free and busy with REC_PIECE; in state 1 the command is refused. -/
theorem witness_recovery_command :
    let s (n : BitVec 4) (b : Option Nat) := { State.reset with mc := { State.reset.mc with state := n, recBusy := b } }
    (s 3#4 none).mc.recBusy = none ∧ (s 3#4 none).mc.state = 3#4 ∧ (s 3#4 (some 2)).mc.recBusy = some 2 ∧ (s 1#4 none).mc.recBusy = none ∧
    (s 1#4 none).mc.state ≠ 2#4 ∧ 1 ≤ (4#64 : Word).toNat ∧ (4#64 : Word).toNat ≤ 4 := by decide

theorem witness_recovery :
    let s := { State.reset with mc := { State.reset.mc with state := 2#4, stagedLen := some 4, recArg := 0x300000000#64 } }
    State.reset.mc.state ≠ 2#4 ∧ State.reset.mc.state ≠ 3#4 ∧ s.mc.recBusy = none ∧ s.mc.flashBad = false ∧
    ({ s with mc := { s.mc with flashBad := true } } : State).mc.flashBad = true ∧ s.mc.state = 2#4 ∧ (0#64 : Word).toNat ≤ Config.imageSetSize ∧
    s.mc.stagedLen = some 4 ∧ s.mc.recArg.toNat % 2 ^ 32 + (s.mc.recArg.toNat / 2 ^ 32 % 2 ^ 16 + 1) ≤ 4 ∧
    4 < (0x400000000#64 : Word).toNat % 2 ^ 32 + ((0x400000000#64 : Word).toNat / 2 ^ 32 % 2 ^ 16 + 1) ∧
    ∃ k < 4, tabGet none s.mc.staged k = none :=
  ⟨by decide, by decide, rfl, rfl, rfl, rfl, Nat.zero_le _, rfl, by decide, by decide, 0, by decide, rfl⟩

/-- The same for a staged image: from any image set that passes the vendor's check, all of it staged. -/
theorem witness_commit (set : List Byte) (m : Config.Manifest) (h : checkSet 0#32 set = .ok m) :
    let s := { State.reset with
                        mc := { State.reset.mc with
                                  state := 2#4
                                  stagedLen := some set.length
                                  staged := tabSplice none [] 0 (set.map some) } }
    s.mc.state = 2#4 ∧ s.mc.recBusy = none ∧ s.mc.flashBad = false ∧ s.mc.stagedLen = some set.length ∧ checkSet s.flash.rollback set = .ok m ∧
    ∀ k < set.length, tabGet none s.mc.staged k = some (set.getD k 0#8) := by
  refine ⟨rfl, rfl, rfl, rfl, h, fun k hk => ?_⟩
  rw [tabGet_splice]
  simp [hk]

theorem witness_power :
    let s (p : Power) (x : Bool) := { atOpen with mc := { atOpen.mc with power := p, exiting := x } }
    let j := { atOpen with sre := [(0, [job false])] }
    atOpen.mc.exiting = false ∧ atOpen.mc.power = .run ∧ powerForbidden atOpen 1 = none ∧ powerForbidden atOpen 2 = none ∧
    powerForbidden atOpen 3 = none ∧ powerForbidden j 2 = some 2 ∧ powerForbidden j 3 = some 2 ∧
    powerForbidden (atOpen.modCell 79 fun x => { x with reserved := true }) 1 = some 1 ∧ atOpen.barriers = [] ∧
    (let u := atOpen.modCell 3 fun x => { x with uncorr := 2 }; powerForbidden u 2 = none ∧ (u.cell 3).uncorr ≠ 0) ∧
    (s .standby false).mc.exiting = false ∧ (s .standby false).mc.power = .standby ∧ (s .standby true).mc.exiting = true := by
  decide +kernel

/-- R442: 95 °C at 2.4 kW stand at neither limit; 95.01 °C, and 94.99 °C below the limit of power, do. R435: the last unit. -/
theorem witness_sample :
    atOpen.mc.state ≠ 0#4 ∧ State.reset.mc.state = 0#4 ∧ State.reset.mc.power = .run ∧ atOpen.mc.power = .run ∧ 10500 ≤ 10500 ∧ 9500 < 9501 ∧ 9499 < 9500 ∧ 2399999 < 1000 * atOpen.mc.pwrLimit.toNat ∧
    1000 * atOpen.mc.pwrLimit.toNat < 2400001 ∧ tabGet 0 ({ scrubPos := [(0, 2 ^ 31 - 1)] } : Mc).scrubPos 0 + 1 = 2 ^ 31 ∧
    ({ atOpen with ecc := [(0, true)] }).bad (slView (0 * 2 ^ 36 + 0 * 32)) = true ∧
    (let m : State := { atOpen with mc := { atOpen.mc with state := 2#4, stack := 2 } }
     m.minimal = true ∧ m.mc.power = .run ∧ (2#3 : BitVec 3).toNat = m.mc.stack ∧ (0#3 : BitVec 3).toNat ≠ m.mc.stack) := by decide +kernel

/-! ### Decoding, stepping and the invariant -/

theorem witness_encoding :
    let i : Instr := .add hd 1#6 2#6 (.imm 0x123456789ABCDEF0#64)
    let v : Instr := .vabs hd vo
    wellFormed i = true ∧ (encode i).isSome = true ∧ wellFormed v = true ∧ (encode v).map tagOf = some 3#3 ∧
    (encode i).map tagOf ≠ some 2#3 := by decide +kernel

/-- Sixteen bytes at an address can be fetched. -/
def fetchable (s : State) (c : Nat) (pc : Word) (ks : List Nat) : Bool :=
  decide (ks.length = 16) && (List.range 16).all fun i =>
    okIs (s.resolve c (s.cell c).asid .fetch (pc.toNat + i)) (ks.getD i 0) && !s.bad (ks.headD 0 / 128 * 128 + 8 * i)

theorem fetches_of {s : State} {c : Nat} {pc : Word} {ks : List Nat} (h : fetchable s c pc ks = true) : fetches s c pc ks := by
  simp only [fetchable, Bool.and_eq_true, decide_eq_true_eq, List.all_eq_true, List.mem_range, Bool.not_eq_true'] at h
  exact ⟨h.1, fun i hi => ok_of (h.2 i hi).1, fun i hi => (h.2 i hi).2⟩

/-- A device with a word at the first address of cell 0's slice, where an engine stands whose turn is next. -/
def atWord (w : InstrWord) (e : Eng) : State :=
  let s := State.reset.placeWord w
  { s.modEng 0 e EngState.placed with agenda := [{ dt := 0, who := .engine 0 e false false }] }

/-- Everything that the statements about a turn ask of such a state and of the word that it fetches. -/
def turnsAt (w : InstrWord) (e : Eng) (p : State → Bool) : Bool :=
  let s := atWord w e
  let a := ({ s with agenda := [] } : State).advance 0
  let u := turned s [] { dt := 0, who := .engine 0 e false false } 0 e false
  decide (s.agenda = { dt := 0, who := .engine 0 e false false } :: []) && decide (e ≠ .sup) && a.mayAct 0 e && (u.eng 0 e).deferred.isEmpty && !(u.eng 0 e).resumes &&
    (tabGet none (u.cell 0).icache ((u.eng 0 e).pc.toNat / 16)).isNone && fetchable u 0 (u.eng 0 e).pc (sl 0 16) &&
    decide (w = wordOfBytes ((sl 0 16).map u.view)) && p u

/-- R11: ADD s3, s1, 100 on S, and NOP on M. -/
theorem witness_turn :
    turnsAt 0x0010F4000C1000000000000000000064#128 .s (fun u => okAny (decode (u.cell 0).vup 0x0010F4000C1000000000000000000064#128) fun _ => true) = true ∧
    turnsAt 0xE000F000000000000000000000000000#128 .m (fun u => okAny (decode (u.cell 0).vup 0xE000F000000000000000000000000000#128) fun _ => true) = true := by
  decide +kernel

/-- R11: the same ADD before W, within its window. -/
theorem witness_passed_word :
    turnsAt 0x0010F4000C1000000000000000000064#128 .w (fun u =>
      ((u.keepLine 0 (u.eng 0 .w).pc false).cell 0).windowOpen .w) = true ∧
    tagEngine (tagOf 0x0010F4000C1000000000000000000064#128).toNat ≠ .w := by decide +kernel

/-- R62: a word of M with an opcode that no chapter lists, before M; a C word whose predicate is never true, before S and V. -/
theorem witness_malformed_word :
    turnsAt 0x5FF0F000000000000000000000000000#128 .m (fun u => ((u.keepLine 0 (u.eng 0 .m).pc false).cell 0).retired .m && (decode (u.cell 0).vup 0x5FF0F000000000000000000000000000#128).toBool == false &&
      (u.cell 0).mcmds.isEmpty) = true ∧
    turnsAt 0xE000F800000000000000000000000000#128 .s (fun u => ((u.keepLine 0 (u.eng 0 .s).pc false).cell 0).retired .s && (decode (u.cell 0).vup 0xE000F800000000000000000000000000#128).toBool == false) = true ∧
    turnsAt 0xE000F800000000000000000000000000#128 .v (fun u => (decode (u.cell 0).vup 0xE000F800000000000000000000000000#128).toBool == false) = true := by
  decide +kernel

/-- R369: the supervisor core of a free cell at a NOP in the first bytes of its memory. -/
theorem witness_supervisor_turn :
    let s : State := { (atOpen.modCell 0 fun x => { x with supRun := true, sup := { x.sup with halted := false } }) with
                          mem := [(supPa 0 13, 0xF0#8), (supPa 0 15, 0xE0#8)] }
    let w : InstrWord := 0xE000F000000000000000000000000000#128
    (s.advance 0).supMayAct 0 = true ∧ (s.cell 0).sup.pc.toNat = 0 ∧ (∀ k < 16, s.bad (supPa 0 (0 + k)) = false) ∧
    w = wordOfBytes ((List.range 16).map fun k => s.byte (supPa 0 (0 + k))) ∧ tagOf w = 7#3 ∧
    (0 + 16 ≤ 0x40000) ∧ okIs (decode (s.cell 0).vup w) (.nop hd) = true ∧ encode .pwrRun = none ∧ State.reset.agenda = [] := by
  decide +kernel

/-- R47: L within repetition 3 of a repeating instruction, which its state holds. -/
theorem witness_resumed_turn :
    let p : Progress := { idx := 3, seed := 0#64, pc := win, inst := some (.vldRaw hd runAt .bf16 15#4 false .none) }
    let s := (atWord 0#128 .l).modEng 0 .l fun st => { st with progress := some p }
    (turned s [] { dt := 0, who := .engine 0 .l false false } 0 .l false).me.progress = some p ∧ p.pc = s.me.pc := by decide +kernel

/-- R35, R53: the line of the slice's first bytes, in a cell whose counter 0 counts line misses. -/
theorem witness_line :
    let s := (atWord 0#128 .s).modCell 0 fun x => { x with pevsel := [(0, 0x10040#17)] }
    fetchable s 0 win (sl 0 16) = true ∧ tabGet none (s.cell 0).icache (win.toNat / 16) = none ∧
    tabWf 0#17 (s.cell 0).pevsel = true ∧ tabGet 0#17 (s.cell 0).pevsel 0 = 0x10040#17 ∧ (atWord 0#128 .s).here.pevsel = [] := by decide +kernel

theorem witness_outside_turns :
    let s (w : Actor) : State := { atOpen with agenda := [{ dt := 1, who := w }] }
    (s (.upset (.unit 0))).agenda = { dt := 1, who := .upset (.unit 0) } :: [] ∧
    (s (.ahead 0 .l 0x2000 8)).agenda = { dt := 1, who := .ahead 0 .l 0x2000 8 } :: [] ∧
    (s (.jobAhead 0#3 (2 ^ 52) 8)).agenda = { dt := 1, who := .jobAhead 0#3 (2 ^ 52) 8 } :: [] ∧
    (s (.line 0 win)).agenda = { dt := 1, who := .line 0 win } :: [] ∧
    ((s (.event .pwrRun)).agenda.map (·.who)) = [.event .pwrRun] := by decide

theorem witness_goes_on : (encode (.nop hd)).isSome = true ∧ State.reset.cur.eng ≠ .sup := by decide +kernel

/-- A canonical state whose step goes on: a store of one byte lands in the slice. -/
theorem witness_canonical :
    let s := { (at0 .w fun x => { x with engW := { x.engW with queue := [{ id := 0, acc := .store [(2 ^ 52, 0xFF#8, 7#8)] none }] } }) with
                  agenda := [{ dt := 0, who := .event (.accessPerformed 0 .w 0) }] }
    Memory.wf s.mem = true ∧ tabWf none s.own.cache = true ∧
    (match step s with | .next t => t.mem == [(2 ^ 52, 7#8)] | _ => false) = true := by decide +kernel

/-! ## Results that the specification prints, and some computed by hand -/

/-- S of cell 0 with s1, s2 and s3 given: what one instruction leaves in s3 and in S's flags. -/
def gives (i : Instr) (a b c : Word) : Word × BitVec 25 :=
  let t := run1 i (withS (withS (withS (at0 .s) 1#6 a) 2#6 b) 3#6 c)
  (t.getS 3#6, t.here.fflags)

/-- R102: the printed rows. -/
theorem test_division :
    gives (.div hd 3#6 1#6 (.reg 2#6) false) 7#64 0#64 9#64 = (0xFFFFFFFFFFFFFFFF#64, 0#25) ∧
    gives (.rem hd 3#6 1#6 (.reg 2#6) false) 7#64 0#64 9#64 = (7#64, 0#25) ∧
    (gives (.div hd 3#6 1#6 (.reg 2#6) false) 0x8000000000000000#64 (-1) 9#64).1 = 0x8000000000000000#64 ∧
    (gives (.div hd 3#6 1#6 (.reg 2#6) false) (-7) 2#64 9#64).1 = -3 ∧
    (gives (.rem hd 3#6 1#6 (.reg 2#6) false) (-7) 2#64 9#64).1 = -1 := by decide +kernel

/-- R102: the printed rows. -/
theorem test_products_and_shifts :
    (gives (.mulh hd 3#6 1#6 (.reg 2#6) false) (-1) (-1) 9#64).1 = 0#64 ∧
    (gives (.mulh hd 3#6 1#6 (.reg 2#6) true) (-1) (-1) 9#64).1 = 0xFFFFFFFFFFFFFFFE#64 ∧
    (gives (.sra hd 3#6 1#6 (.reg 2#6)) (-8) 70#64 9#64).1 = -1 ∧
    (gives (.rol hd 3#6 1#6 (.reg 2#6)) 0x8000000000000001#64 65#64 9#64).1 = 3#64 := by decide +kernel

/-- R104: the printed rows; position in bits 7:0 and width in bits 15:8. -/
theorem test_bit_fields :
    (gives (.bfx hd 3#6 1#6 (.imm 0x83C#64)) 0xF000000000000000#64 0#64 0#64).1 = 15#64 ∧
    (gives (.bfxs hd 3#6 1#6 (.imm 0x83C#64)) 0xF000000000000000#64 0#64 0#64).1 = -1 ∧
    (gives (.bfx hd 3#6 1#6 (.imm 0x4#64)) (-1) 0#64 9#64).1 = 0#64 ∧
    (gives (.bfi hd 3#6 1#6 (.imm 0x83C#64) 2#6) 0xFF#64 0#64 9#64).1 = 0xF000000000000000#64 ∧
    (gives (.bfi hd 3#6 1#6 (.imm 0x440#64) 2#6) 0xFF#64 0x1234#64 9#64).1 = 0x1234#64 := by decide +kernel

/-- R92, R109, R110: 1 ÷ 0 gives infinity and DZ, ∞ − ∞ a NaN and NV, and 2.5 to an integer 2 and NX. -/
theorem test_scalar_floats :
    gives (.sfdiv hd 3#6 1#6 (.reg 2#6) .rne) 0x3F800000#64 0#64 9#64 = (0x7F800000#64, 8#25) ∧
    gives (.sfadd hd 3#6 1#6 (.reg 2#6) .rne) 0x7F800000#64 0xFF800000#64 9#64 = (0x7FC00000#64, 16#25) ∧
    gives (.sfcvt hd 3#6 1#6 .f2i .rne) 0x40200000#64 0#64 9#64 = (2#64, 1#25) := by decide +kernel

/-- Narrowing under RNE: the element, flags (NV, DZ, OF, UF, NX from bit 4 down) and count. -/
def narrows (x s : Lane) (f : Fmt) (cb : List (BitVec 16) := []) : Nat × Flags × Nat :=
  let r := narrow (value32 x) (value32 s) f cb rmRne
  (r.val, r.fl, r.sat)

/-- The printed narrowings to E4M3. -/
theorem test_narrow_e4m3 :
    let one : Lane := 0x3F800000#32
    narrows 0x3F800000#32 one .e4m3 = (0x38, 0#5, 0) ∧ narrows 0xBF400000#32 one .e4m3 = (0xB4, 0#5, 0) ∧
    narrows 0x43960000#32 one .e4m3 = (0x79, 1#5, 0) ∧ narrows 0x43E60000#32 one .e4m3 = (0x7E, 1#5, 0) ∧
    narrows 0x43FA0000#32 one .e4m3 = (0x7E, 5#5, 1) ∧ narrows 0x3A800000#32 one .e4m3 = (0, 3#5, 0) ∧
    narrows 0xFF800000#32 one .e4m3 = (0xFE, 5#5, 1) ∧ narrows 0x7FC00000#32 one .e4m3 = (0x7F, 0#5, 0) ∧
    narrows 0x42C80000#32 0x3E800000#32 .e4m3 = (0x7C, 1#5, 0) ∧ narrows 0x40E00000#32 0x40400000#32 .e4m3 = (0x41, 1#5, 0) ∧
    narrows 0x3F800000#32 0#32 .e4m3 = (0x7E, 13#5, 1) := by decide +kernel

/-- The printed narrowings to other targets; 0x40200000 is 2.5, 0x42FF3333 the FP32 nearest 127.6, 0x4039999A that of 2.9, and
the table that of E2M1 (0, 0.5, 1, 1.5, 2, 3, 4, 6 and their negatives) in BF16. -/
theorem test_narrow_others :
    let one : Lane := 0x3F800000#32
    let e2m1 : List (BitVec 16) := [0, 0x3F00#16, 0x3F80#16, 0x3FC0#16, 0x4000#16, 0x4040#16, 0x4080#16, 0x40C0#16,
      0x8000#16, 0xBF00#16, 0xBF80#16, 0xBFC0#16, 0xC000#16, 0xC040#16, 0xC080#16, 0xC0C0#16]
    narrows 0x3F808000#32 one .bf16 = (0x3F80, 1#5, 0) ∧ narrows 0x3F818000#32 one .bf16 = (0x3F82, 1#5, 0) ∧
    narrows 0x3F808001#32 one .bf16 = (0x3F81, 1#5, 0) ∧ narrows 0x477FEF00#32 one .fp16 = (0x7BFF, 1#5, 0) ∧
    narrows 0x477FF000#32 one .fp16 = (0x7BFF, 5#5, 1) ∧ narrows 0x47723000#32 one .e5m2 = (0x7B, 5#5, 1) ∧
    narrows 0x7F800000#32 one .e5m2 = (0x7C, 0#5, 0) ∧ narrows 0x40200000#32 one .int8 = (2, 1#5, 0) ∧
    narrows 0xC0200000#32 one .int8 = (0xFE, 1#5, 0) ∧ narrows 0x42FF3333#32 one .int8 = (0x7F, 17#5, 1) ∧
    ((narrowI32 9#32 .int4).val, (narrowI32 9#32 .int4).fl, (narrowI32 9#32 .int4).sat) = (7, 0#5, 1) ∧
    narrows 0x4039999A#32 one .cb4 e2m1 = (5, 1#5, 0) := by decide +kernel

end Sys2Proof.Tests
end

section
/-! The tokens of an engine as instructions pass, and as a trap is taken (01 R20–R22). -/

namespace Sys2Proof.Machine

open Sys2Proof.Claims

/-! ## The two token tables after an instruction's pops and pushes (R20) -/

/-- A counter after one token has been taken from each queue of a list. -/
theorem tabGet_foldl_takeOne (ks : List Nat) (t : List (Nat × Nat)) (k : Nat) :
    tabGet 0 (ks.foldl (fun t k => tabSet 0 t k (tabGet 0 t k - 1)) t) k = tabGet 0 t k - ks.count k := by
  induction ks generalizing t with
  | nil => simp
  | cons j ks ih =>
    rw [List.foldl_cons, ih, tabGet_set, List.count_cons]
    by_cases hk : k = j
    · subst hk; simp; omega
    · simp [hk, Ne.symm hk]

/-- A counter after one token has been added to each queue of a list. -/
theorem tabGet_foldl_addOne (ks : List Nat) (t : List (Nat × Nat)) (k : Nat) :
    tabGet 0 (ks.foldl (fun t k => tabSet 0 t k (tabGet 0 t k + 1)) t) k = tabGet 0 t k + ks.count k := by
  induction ks generalizing t with
  | nil => simp
  | cons j ks ih =>
    rw [List.foldl_cons, ih, tabGet_set, List.count_cons]
    by_cases hk : k = j
    · subst hk; simp; omega
    · simp [hk, Ne.symm hk]

theorem Cell.tok_takeTokens (x : Cell) (e : Eng) (h : Hdr) (k : Nat) :
    tabGet 0 (x.takeTokens e h).tok k = tabGet 0 x.tok k - (popsOf x.vup e h).count k :=
  tabGet_foldl_takeOne _ _ _

theorem Cell.tokReserved_takeTokens (x : Cell) (e : Eng) (h : Hdr) (k : Nat) :
    tabGet 0 (x.takeTokens e h).tokReserved k = tabGet 0 x.tokReserved k + (pushesOf x.vup e h.rq h.fq).count k :=
  tabGet_foldl_addOne _ _ _

theorem Cell.tok_showPushes (x : Cell) (e : Eng) (r : Retire) (k : Nat) :
    tabGet 0 (x.showPushes e r).tok k = tabGet 0 x.tok k + (pushesOf x.vup e r.rq r.fq).count k :=
  tabGet_foldl_addOne _ _ _

theorem Cell.tokReserved_showPushes (x : Cell) (e : Eng) (r : Retire) (k : Nat) :
    tabGet 0 (x.showPushes e r).tokReserved k = tabGet 0 x.tokReserved k - (pushesOf x.vup e r.rq r.fq).count k :=
  tabGet_foldl_takeOne _ _ _

/-- An engine with an empty queue, and M with no command, has nothing that its retirement list waits for. -/
theorem Cell.oldest_eq_none {x : Cell} {e : Eng} (hq : (x.eng e).queue = []) (hm : e = .m → x.mcmds = []) :
    x.oldest e = none := by
  unfold Cell.oldest
  rw [hq]
  by_cases he : e = .m
  · simp [he, hm he]
  · simp [he]

/-- An instruction that retires alone, with nothing older outstanding, shows its pushes at once. -/
theorem Cell.flush_of_retire_one {x : Cell} {e : Eng} {r : Retire} (ho : x.oldest e = none) (hr : (x.eng e).retire = [r]) :
    x.flush e = (x.showPushes e r).setEng e { x.eng e with retire := [] } := by
  simp [Cell.flush, ho, hr]

/-- Putting an instruction on the retirement list leaves what is outstanding. -/
theorem Cell.oldest_setEng_retire (x : Cell) (e : Eng) (rs : List Retire) :
    (x.setEng e { x.eng e with retire := rs }).oldest e = x.oldest e := by
  simp [Cell.oldest]

/-- With nothing outstanding the pushes of an instruction become visible as it passes. -/
theorem Cell.pushTokens_visible {x : Cell} {e : Eng} {h : Hdr} (ho : x.oldest e = none) (hr : (x.eng e).retire = []) (k : Nat) :
    tabGet 0 (x.pushTokens e h).tok k = tabGet 0 x.tok k + (pushesOf x.vup e h.rq h.fq).count k ∧
    tabGet 0 (x.pushTokens e h).tokReserved k = tabGet 0 x.tokReserved k - (pushesOf x.vup e h.rq h.fq).count k := by
  unfold Cell.pushTokens
  by_cases hp : (h.rq || h.fq) = true
  · rw [if_pos hp, Cell.flush_of_retire_one (r := { stamp := (x.eng e).nextId, rq := h.rq, fq := h.fq })
      ((Cell.oldest_setEng_retire ..).trans ho) (by simp [hr])]
    simp [Cell.tok_showPushes, Cell.tokReserved_showPushes]
  · have hno : pushesOf x.vup e h.rq h.fq = [] := by
      rw [Bool.not_eq_true, Bool.or_eq_false_iff] at hp
      simp [pushesOf, hp]
    simp [hp, hno]

/-- With nothing outstanding an instruction that takes its pops and pushes its tokens leaves no push reserved. -/
theorem Cell.pushTokens_takeTokens {x : Cell} {e : Eng} {h : Hdr} (ho : x.oldest e = none) (hr : (x.eng e).retire = []) (k : Nat) :
    tabGet 0 ((x.takeTokens e h).pushTokens e h).tok k =
      tabGet 0 x.tok k - (popsOf x.vup e h).count k + (pushesOf x.vup e h.rq h.fq).count k ∧
    tabGet 0 ((x.takeTokens e h).pushTokens e h).tokReserved k = tabGet 0 x.tokReserved k := by
  obtain ⟨htok, hres⟩ := Cell.pushTokens_visible (x := x.takeTokens e h) (e := e) (h := h)
    (by cases e <;> exact ho) (by cases e <;> exact hr) k
  rw [htok, hres, Cell.tok_takeTokens, Cell.tokReserved_takeTokens]
  exact ⟨rfl, Nat.add_sub_cancel ..⟩

/-- The two token tables of the cell once its engine has passed are those that moving the tokens leaves. -/
theorem State.tokens_finish (s : State) (h : Hdr) (popped : Bool) (target : Word) :
    let y := (if popped then s.here else s.here.takeTokens s.cur.eng h).pushTokens s.cur.eng h
    let t := s.finish s.cur.cell s.cur.eng h popped target
    t.here.tok = y.tok ∧ t.here.tokReserved = y.tokReserved := by
  simp [State.finish, State.pass, State.here]

/-- Counting an event changes the performance counters of the executing cell alone. -/
theorem State.here_count (s : State) (ev n : Nat) : ∃ p, (s.count s.cur.cell ev n).here = { s.here with pcnt := p } := by
  unfold State.count
  split
  · exact ⟨_, rfl⟩
  · obtain ⟨p, hp⟩ := Cell.count_eq s.here ev n
    exact ⟨p, (State.here_modHere s _).trans hp⟩

/-- The tokens of an instruction that passes an engine with nothing outstanding, once its effect stands (R20). -/
theorem State.tokens_after {s t : State} (h : Hdr) (hc : t.cur = s.cur) (hp : s.me.resumes = false)
    (hq : t.me.queue = []) (hr : t.me.retire = []) (hm : s.cur.eng = .m → t.here.mcmds = []) (k : Nat) :
    tabGet 0 (s.after h t).here.tok k = tabGet 0 t.here.tok k - (popsOf t.here.vup s.cur.eng h).count k +
      (pushesOf t.here.vup s.cur.eng h.rq h.fq).count k ∧
    tabGet 0 (s.after h t).here.tokReserved k = tabGet 0 t.here.tokReserved k := by
  obtain ⟨p, hcount⟩ := State.here_count t (0x10 + engNum s.cur.eng) 1
  obtain ⟨htok, hres⟩ := State.tokens_finish (t.count t.cur.cell (0x10 + engNum s.cur.eng) 1) h false (s.me.pc + 16)
  rw [State.count_cur, hcount, hc] at htok hres
  rw [State.me_eq, hc] at hq hr
  rw [State.after, State.afterTo, hp, htok, hres]
  exact Cell.pushTokens_takeTokens (x := { t.here with pcnt := p }) (Cell.oldest_eq_none hq hm) hr k

/-- What the engine has read ahead is as the effect left it. -/
theorem State.afterTo_ahead {s t : State} (h : Hdr) (target : Word) (hc : t.cur = s.cur) :
    (s.afterTo h t target).me.ahead = t.me.ahead := by
  obtain ⟨p, k, u, r, he⟩ := State.afterTo_eq s t h target hc
  rw [he, State.me_modHere, State.me_eq, hc]
  cases s.cur.eng <;> rfl

/-! ## MARK (R122) -/

/-- Hiding what an engine has read ahead lets no mark of passing show through. -/
theorem blind_hideAhead : Blind hideAhead := by
  have hcomm : ∀ (e : Eng) (x : Cell), (hideAhead e x).frame e = hideAhead e (x.frame e) := by
    intro e x; cases e <;> rfl
  intro e x y hxy
  rw [hcomm, hcomm, hxy]

/-- On an engine whose queue is empty a mark only forgets what has been read ahead. -/
theorem State.marked_of_quiet {s : State} (hq : s.me.queue = []) :
    s.marked = s.modMe fun st => { st with ahead := [] } := by
  have hquiet : s.quiet = true := by simp [State.quiet, hq]
  rw [State.marked, if_pos hquiet]
  rfl

/-- A mark on such an engine changes only what has been read ahead. -/
theorem keeps_marked {s : State} (hq : s.me.queue = []) : Keeps hideAhead s s.marked := by
  rw [State.marked_of_quiet hq]
  refine keeps_modHere (g := fun x => x.setEng s.cur.eng { x.eng s.cur.eng with ahead := [] }) ?_
  cases s.cur.eng <;> rfl

/-- MARK that is ready does its mark and passes. -/
theorem exec_mark_of_ready {e : Eng} {h : Hdr} {s : State} (hready : s.ready h [] = true) :
    exec (.mark e h) s = .next (s.after h s.marked) :=
  issue_done (body := fun s => .done s.marked) hready rfl

/-! ## The tokens when a trap is taken (R22, R37) -/

/-- Two states have one turn, and in every cell the same tokens. -/
def SameTokens (s t : State) : Prop := t.cur = s.cur ∧ ∀ d, (t.cell d).tok = (s.cell d).tok

theorem SameTokens.refl (s : State) : SameTokens s s := ⟨rfl, fun _ => rfl⟩

theorem SameTokens.trans {s t u : State} (h1 : SameTokens s t) (h2 : SameTokens t u) : SameTokens s u :=
  ⟨h2.1.trans h1.1, fun d => (h2.2 d).trans (h1.2 d)⟩

theorem SameTokens.here_tok {s t : State} (h : SameTokens s t) : t.here.tok = s.here.tok := by
  rw [State.here, h.1]; exact h.2 _

/-- A change outside the cells keeps the tokens. -/
theorem SameTokens.of_cells {s t : State} (hcur : t.cur = s.cur) (hcells : t.cells = s.cells) : SameTokens s t :=
  ⟨hcur, fun d => by rw [State.cell, hcells]; rfl⟩

/-- A change of a cell that leaves its tokens keeps all tokens. -/
theorem SameTokens.modCell (s : State) (c : Nat) {f : Cell → Cell} (hf : (f (s.cell c)).tok = (s.cell c).tok) :
    SameTokens s (s.modCell c f) := by
  refine ⟨rfl, fun d => ?_⟩
  rw [State.cell_modCell]
  split
  · next hd => rw [hd, hf]
  · rfl

theorem SameTokens.modEng (s : State) (c : Nat) (e : Eng) (f : EngState → EngState) : SameTokens s (s.modEng c e f) :=
  SameTokens.modCell s c (Cell.setEng_tok ..)

theorem SameTokens.ite {s t u : State} {p : Prop} [Decidable p] (ht : SameTokens s t) (hu : SameTokens s u) :
    SameTokens s (if p then t else u) := by
  split
  · exact ht
  · exact hu

theorem sameTokens_storeRun (s : State) (pa : Nat) (bs : List Byte) : SameTokens s (s.storeRun pa bs) := by
  unfold State.storeRun State.setBytes
  dsimp only
  split <;> split <;> exact SameTokens.of_cells rfl rfl

theorem sameTokens_post (s : State) (code : BitVec 16) (src unit d0 d1 : Nat) : SameTokens s (s.post code src unit d0 d1) := by
  unfold State.post State.enqueue
  dsimp only
  split
  · split <;> exact SameTokens.of_cells rfl rfl
  · split
    · exact SameTokens.of_cells rfl rfl
    · exact sameTokens_storeRun ..

theorem sameTokens_dropFaulted (s : State) (c : Nat) (t : TrapRec) : SameTokens s (s.dropFaulted c t) :=
  SameTokens.ite (SameTokens.of_cells rfl rfl) (SameTokens.refl s)

theorem sameTokens_withdraw (s : State) (c : Nat) (e : Eng) : SameTokens s (s.withdraw c e) := SameTokens.of_cells rfl rfl

theorem sameTokens_freeze (s : State) (c : Nat) (entry : Word) : SameTokens s (s.freeze c entry) :=
  (SameTokens.ite (sameTokens_withdraw s c .sup) (SameTokens.refl s)).trans (SameTokens.modCell _ c rfl)

theorem sameTokens_countEcc (s : State) (c : Nat) (phys : Option Nat) (cached : Bool) :
    SameTokens s (s.countEcc c phys cached) := by
  have hcount : SameTokens s s.countUncorrectable := SameTokens.of_cells rfl rfl
  refine hcount.trans ?_
  cases phys with
  | some k => exact sameTokens_post ..
  | none =>
    refine (sameTokens_post _ 0x0601#16 6 0xFF 0 (13 + 256 * c)).trans (SameTokens.ite (SameTokens.refl _) ?_)
    refine (SameTokens.modCell _ c rfl).trans (SameTokens.ite ?_ (SameTokens.refl _))
    exact (sameTokens_post ..).trans (SameTokens.of_cells rfl rfl)

/-- Taking a trap moves no token: its record, its event, the freeze and the supervisor's start touch none. -/
theorem sameTokens_takeTrap (s : State) (c : Nat) (e : Eng) (t : TrapRec) : SameTokens s (s.takeTrap c e t) := by
  unfold State.takeTrap State.takeTrapAt
  extract_lets r u1 u2 u3 u4 u5 u6
  have h1 : SameTokens s u1 := SameTokens.ite (sameTokens_countEcc ..) (SameTokens.refl s)
  have h3 : SameTokens s u3 := (h1.trans (sameTokens_dropFaulted ..)).trans (sameTokens_storeRun ..)
  have h4 : SameTokens u3 u4 := SameTokens.ite (sameTokens_withdraw ..) (SameTokens.refl _)
  have h5 : SameTokens u4 u5 := SameTokens.modEng ..
  have h6 : SameTokens u5 u6 := SameTokens.ite (SameTokens.modCell _ c rfl) (SameTokens.refl _)
  exact (((h3.trans h4).trans h5).trans h6).trans (sameTokens_freeze ..)

/-- An engine that stalls notes why, and forgets the queues that it stalled on. -/
theorem State.me_stallOn (s : State) (why : Stall) :
    (s.stallOn s.cur.cell s.cur.eng why).me = { s.me with stall := why, stalled := [] } :=
  State.me_modMe s _

/-! ## The statements -/

/-- A false predicate lets the instruction pass with its tokens moved, and the frame alone has changed (R21). -/
theorem falsePredicateOnlyMovesTokens : FalsePredicateOnlyMovesTokens := by
  intro i x h uses s hi ht hw hpred hq hp
  obtain ⟨body, hbody⟩ := exec_framed hi s
  exact ⟨_, hbody.trans (issueAs_false ht hw hpred hq hp), rfl, passes_finish .., keeps_finish blind_nothing ..⟩

/-- MARK on an engine with nothing outstanding moves its tokens and forgets what the engine has read ahead (R20, R122). -/
theorem markMovesItsTokens : MarkMovesItsTokens := by
  intro e h s hready hp hq hr hm
  have hmark := State.marked_of_quiet hq
  have hc : s.marked.cur = s.cur := by rw [hmark]; rfl
  have hme : s.marked.me = { s.me with ahead := [] } := by rw [hmark, State.me_modMe]
  have hhere : s.marked.here = s.here.setEng s.cur.eng { s.me with ahead := [] } := by rw [hmark, State.here_modMe]
  have htok := State.tokens_after h hc hp (by rw [hme]; exact hq) (by rw [hme]; exact hr) (by rw [hhere]; simpa using hm)
  simp only [hhere, Cell.setEng_tok, Cell.setEng_tokReserved, Cell.setEng_vup] at htok
  refine ⟨_, exec_mark_of_ready hready, passes_afterTo h _ hc (by rw [hme]), ?_, ?_, fun k => (htok k).1, fun k => (htok k).2⟩
  · exact (keeps_marked hq).trans (keeps_afterTo blind_hideAhead s s.marked h _ hc)
  · exact (State.afterTo_ahead h _ hc).trans (by rw [hme])

/-- Settles O3: a false predicate takes the frame's passing case, and MARK with nothing outstanding shows its pushes at
once. -/
theorem tokensMoveAsInstructionsPass : Obligations.TokensMoveAsInstructionsPass :=
  ⟨falsePredicateOnlyMovesTokens, markMovesItsTokens⟩

/-- Settles O1: the frame raises ENC_ILLEGAL before anything else, and neither taking the trap nor waiting for it moves a
token. -/
theorem tokenBitOfAbsentNeighbourTraps : Obligations.TokenBitOfAbsentNeighbourTraps := by
  intro i x h uses s hi ht he
  obtain ⟨body, hbody⟩ := exec_framed hi s
  rw [hbody, issueAs_absent ht]
  refine ⟨fun hretired => ⟨raise_next he hretired, (sameTokens_takeTrap ..).here_tok⟩, fun hwaits => ?_⟩
  have hme := State.me_stallOn s .fault
  exact ⟨_, raise_waits he hwaits, by rw [hme], by rw [hme], by rw [hme], keeps_stallOn blind_nothing s .fault⟩

end Sys2Proof.Machine
end

section
/-! The word operations of S in the words of the rules (04 R101–R106). -/

namespace Sys2Proof.Machine

open Sys2Proof.Claims

/-! ## Products, quotients and remainders (R101, R102) -/

/-- An integer in the signed range of a word is the signed value of its word. -/
theorem toInt_ofInt_of_bounds {n : Int} (hlo : -2 ^ 63 ≤ n) (hhi : n < 2 ^ 63) : (BitVec.ofInt 64 n).toInt = n := by
  rw [BitVec.toInt_ofInt]
  exact Int.bmod_eq_of_le (by omega) (by omega)

/-- MULH gives the upper half of the exact product, which fits because the product fits in 128 bits. -/
theorem mulHigh_isHigh (u : Bool) (a b : Word) :
    if u then (mulHigh u a b).toNat = a.toNat * b.toNat / 2 ^ 64 else (mulHigh u a b).toInt = a.toInt * b.toInt / 2 ^ 64 := by
  cases u
  · have hlo : -2 ^ 126 ≤ a.toInt * b.toInt := BitVec.le_toInt_mul_toInt
    have hhi : a.toInt * b.toInt ≤ 2 ^ 126 := BitVec.toInt_mul_toInt_le
    exact toInt_ofInt_of_bounds (by omega) (by omega)
  · have hlt : a.toNat * b.toNat < 2 ^ 64 * 2 ^ 64 := Nat.mul_lt_mul'' a.isLt b.isLt
    exact (BitVec.toNat_ofNat ..).trans (Nat.mod_eq_of_lt (Nat.div_lt_of_lt_mul hlt))

/-- Outside the one overflow the truncated quotient is in range; the overflow wraps to the dividend. -/
theorem quotient_isQuotient (u : Bool) (a b : Word) : isQuotient u a b (quotient u a b) := by
  unfold isQuotient quotient
  split
  · rfl
  · cases u
    · rw [if_neg Bool.false_ne_true, if_neg Bool.false_ne_true]
      split
      · next hmin => obtain ⟨rfl, rfl⟩ := hmin; rfl
      · next hmin =>
        have hne : a ≠ BitVec.intMin 64 ∨ b ≠ -1#64 := Decidable.not_and_iff_not_or_not.mp hmin
        rw [BitVec.toInt_ofInt, ← BitVec.toInt_sdiv, BitVec.toInt_sdiv_of_ne_or_ne a b hne]
    · rfl

/-- The truncated remainder is always in range. -/
theorem remainder_isRemainder (u : Bool) (a b : Word) : isRemainder u a b (remainder u a b) := by
  unfold isRemainder remainder
  split
  · rfl
  · cases u
    · rw [if_neg Bool.false_ne_true, if_neg Bool.false_ne_true, BitVec.toInt_ofInt, ← BitVec.toInt_srem,
        BitVec.toInt_bmod_cancel]
    · rfl

/-! ## Shifts and rotations (R101) -/

/-- A left shift by 64 or more gives zero, as multiplication by the power of two does. -/
theorem toNat_shiftLeft (a b : Word) : (shiftLeft a b).toNat = a.toNat * 2 ^ b.toNat % 2 ^ 64 := by
  have hshift : shiftLeft a b = a <<< b.toNat := ite_eq_right_iff.mpr fun h => (BitVec.shiftLeft_eq_zero h).symm
  rw [hshift, BitVec.toNat_shiftLeft, Nat.shiftLeft_eq]

/-- A right shift by 64 or more gives zero, as division by the power of two does. -/
theorem toNat_shiftRight (a b : Word) : (shiftRight a b).toNat = a.toNat / 2 ^ b.toNat := by
  have hshift : shiftRight a b = a >>> b.toNat := ite_eq_right_iff.mpr fun h => (BitVec.ushiftRight_eq_zero h).symm
  rw [hshift, BitVec.toNat_ushiftRight, Nat.shiftRight_eq_div_pow]

/-- From 63 on every amount fills the word with its sign. -/
theorem sshiftRight_min_63 (a : Word) (n : Nat) : a.sshiftRight (min n 63) = a.sshiftRight n := by
  rcases Nat.le_total n 63 with hn | hn
  · rw [Nat.min_eq_left hn]
  · rw [Nat.min_eq_right hn]
    refine BitVec.eq_of_getLsbD_eq fun i hi => ?_
    rw [BitVec.getLsbD_sshiftRight, BitVec.getLsbD_sshiftRight, BitVec.msb_eq_getLsbD_last]
    grind

theorem toInt_shiftArith (a b : Word) : (shiftArith a b).toInt = a.toInt / 2 ^ b.toNat := by
  rw [shiftArith, sshiftRight_min_63, BitVec.toInt_sshiftRight, Int.shiftRight_eq_div_pow]
  exact congrArg (a.toInt / ·) (Int.natCast_pow 2 b.toNat)

/-- The place of a bit after a rotation: it wraps once at most. -/
theorem add_mod_64 {i : Nat} (n : Nat) (hi : i < 64) :
    (i + n) % 64 = if i + n % 64 < 64 then i + n % 64 else i + n % 64 - 64 := by
  split <;> omega

theorem getLsbD_rotateLeft_add (a : Word) (n : Nat) {i : Nat} (hi : i < 64) :
    (a.rotateLeft (n % 64)).getLsbD ((i + n) % 64) = a.getLsbD i := by
  rw [BitVec.getLsbD_rotateLeft, add_mod_64 n hi]
  grind

theorem getLsbD_rotateRight_eq (a : Word) (n : Nat) {i : Nat} (hi : i < 64) :
    (a.rotateRight (n % 64)).getLsbD i = a.getLsbD ((i + n) % 64) := by
  rw [BitVec.getLsbD_rotateRight, add_mod_64 n hi]
  grind

/-! ## The lesser and the greater (R101) -/

theorem less_eq (u : Bool) (a b : Word) :
    less u a b = if u then decide (a.toNat < b.toNat) else decide (a.toInt < b.toInt) := by
  rw [less, BitVec.ult_eq_decide, BitVec.slt_eq_decide]

theorem lesser_isMin (u : Bool) (a b : Word) :
    if u then (if less u b a then b else a).toNat = min a.toNat b.toNat
    else (if less u b a then b else a).toInt = min a.toInt b.toInt := by
  rw [less_eq]
  cases u <;> grind

theorem greater_isMax (u : Bool) (a b : Word) :
    if u then (if less u a b then b else a).toNat = max a.toNat b.toNat
    else (if less u a b then b else a).toInt = max a.toInt b.toInt := by
  rw [less_eq]
  cases u <;> grind

/-! ## Bit counts (R103) -/

/-- A count of at most 64 fits in a word. -/
theorem toNat_ofNat_of_le_64 {k : Nat} (hk : k ≤ 64) : (BitVec.ofNat 64 k).toNat = k := by
  rw [BitVec.toNat_ofNat]; omega

/-- The count of the places from 0 up at which q is false: q is false before it, and true at it unless it is 64. -/
theorem places_before_first (q : Nat → Bool) :
    let v := BitVec.ofNat 64 ((List.range 64).takeWhile fun i => !q i).length
    v.toNat ≤ 64 ∧ (∀ i < v.toNat, q i = false) ∧ (v.toNat < 64 → q v.toNat = true) := by
  have hle := List.findIdx_le_length (p := fun i => !!q i) (xs := List.range 64)
  rw [List.takeWhile_eq_take_findIdx_not, List.length_take_of_le hle]
  rw [List.length_range] at hle
  dsimp only
  rw [toNat_ofNat_of_le_64 hle]
  refine ⟨hle, fun i hi => ?_, fun hlt => ?_⟩
  · have hbefore := List.not_of_lt_findIdx hi
    simpa using hbefore
  · have hat := List.findIdx_getElem (p := fun i => !!q i) (xs := List.range 64) (w := by rwa [List.length_range])
    simpa using hat

theorem leadingZeros_counts (a : Word) :
    let v := BitVec.ofNat 64 (leadingZeros a)
    v.toNat ≤ 64 ∧ (∀ i < v.toNat, a.getLsbD (63 - i) = false) ∧ (v.toNat < 64 → a.getLsbD (63 - v.toNat) = true) :=
  places_before_first fun i => a.getLsbD (63 - i)

theorem trailingZeros_counts (a : Word) :
    let v := BitVec.ofNat 64 (trailingZeros a)
    v.toNat ≤ 64 ∧ (∀ i < v.toNat, a.getLsbD i = false) ∧ (v.toNat < 64 → a.getLsbD v.toNat = true) :=
  places_before_first a.getLsbD

theorem oneBits_counts (a : Word) :
    (BitVec.ofNat 64 (oneBits a)).toNat = (List.range 64).countP fun i => a.getLsbD i := by
  have hcount : oneBits a = (List.range 64).countP fun i => a.getLsbD i := List.countP_eq_length_filter.symm
  rw [hcount]
  have hle := List.countP_le_length (p := fun i => a.getLsbD i) (l := List.range 64)
  rw [List.length_range] at hle
  exact toNat_ofNat_of_le_64 hle

theorem getLsbD_reverse_of_lt (a : Word) {i : Nat} (hi : i < 64) : a.reverse.getLsbD (63 - i) = a.getLsbD i := by
  rw [BitVec.getLsbD_reverse, BitVec.getMsbD_eq_getLsbD]
  have hback : 64 - 1 - (63 - i) = i := by omega
  rw [hback, decide_eq_true (by omega), Bool.true_and]

/-! ## Bit fields and sign extension (R104, R105) -/

/-- The model's field length is that of the statement. -/
theorem fieldLen_eq (pos w : Nat) : fieldLen 64 pos w = fieldBits pos w := rfl

theorem testBit_field (x pos k i : Nat) : (x / 2 ^ pos % 2 ^ k).testBit i = (decide (i < k) && x.testBit (pos + i)) := by
  rw [Nat.testBit_mod_two_pow, Nat.testBit_div_two_pow, Nat.add_comm]

theorem getLsbD_extractField_zero (a : Word) (pos w : Nat) {i : Nat} (hi : i < 64) :
    (extractField false a pos w).getLsbD i = (decide (i < fieldBits pos w) && a.getLsbD (pos + i)) := by
  unfold extractField
  rw [fieldLen_eq]
  dsimp only
  generalize fieldBits pos w = k
  split
  · next hk => simp [hk]
  · rw [if_neg Bool.false_ne_true, BitVec.getLsbD_ofNat, testBit_field, decide_eq_true hi]; rfl

/-- The two's complement reading of k bits is the signed value of a k-bit vector. -/
theorem sextNat_eq_toInt {k : Nat} (hk : 0 < k) (v : Nat) : sextNat k v = (BitVec.ofNat k v).toInt := by
  have hpow : 2 ^ k = 2 * 2 ^ (k - 1) := by rw [← Nat.pow_succ', Nat.succ_eq_add_one, Nat.sub_add_cancel hk]
  rw [sextNat, BitVec.toInt_eq_toNat_cond, BitVec.toNat_ofNat, Int.natCast_pow]
  exact ite_congr (propext (by omega)) (fun _ => rfl) (fun _ => rfl)

theorem getLsbD_extractField_sign (a : Word) (pos w : Nat) {i : Nat} (hi : i < 64) :
    (extractField true a pos w).getLsbD i =
      (decide (0 < fieldBits pos w) && a.getLsbD (pos + min i (fieldBits pos w - 1))) := by
  unfold extractField
  rw [fieldLen_eq]
  dsimp only
  generalize fieldBits pos w = k
  split
  · next hk => simp [hk]
  · next hk =>
    rw [if_pos rfl, sextNat_eq_toInt (Nat.pos_of_ne_zero hk), ← BitVec.signExtend, BitVec.getLsbD_signExtend,
      BitVec.msb_eq_getLsbD_last, BitVec.getLsbD_ofNat, BitVec.getLsbD_ofNat, testBit_field, testBit_field]
    grind [BitVec.getLsbD]

theorem getLsbD_insertField (c a : Word) (pos w : Nat) {i : Nat} (hi : i < 64) :
    (insertField c a pos w).getLsbD i =
      if pos ≤ i ∧ i < pos + fieldBits pos w then a.getLsbD (i - pos) else c.getLsbD i := by
  unfold insertField
  rw [fieldLen_eq]
  dsimp only
  generalize fieldBits pos w = k
  split
  · next hk => rw [if_neg (by omega)]
  · have hmask : (BitVec.ofNat 64 ((2 ^ k - 1) * 2 ^ pos)).getLsbD i = decide (pos ≤ i ∧ i < pos + k) := by
      rw [BitVec.getLsbD_ofNat, Nat.testBit_mul_two_pow, Nat.testBit_two_pow_sub_one]
      grind
    rw [BitVec.getLsbD_or, BitVec.getLsbD_and, BitVec.getLsbD_not, BitVec.getLsbD_and, BitVec.getLsbD_shiftLeft, hmask]
    grind

/-- Sign extension of the low k + 1 bits repeats bit k above them. -/
theorem getLsbD_signExtend_min (a : Word) (k : Nat) {i : Nat} (hi : i < 64) :
    ((a.setWidth (k + 1)).signExtend 64).getLsbD i = a.getLsbD (min i k) := by
  rw [BitVec.getLsbD_signExtend, BitVec.msb_eq_getLsbD_last, BitVec.getLsbD_setWidth, BitVec.getLsbD_setWidth]
  grind

/-- ADDX is the exact sum with the shifted index, modulo 2^64. -/
theorem toNat_add_shifted (a b : Word) (n : Nat) (c : Word) :
    (a + (b <<< n) + c).toNat = (a.toNat + b.toNat * 2 ^ n + c.toNat) % 2 ^ 64 := by
  rw [BitVec.toNat_add, BitVec.toNat_add, BitVec.toNat_shiftLeft, Nat.shiftLeft_eq]
  omega

/-! ## Condition codes (R106) -/

/-- A condition code refused is the opposite comparison. -/
theorem not_decide_eq {p q : Prop} [Decidable p] [Decidable q] (h : ¬p ↔ q) : (!decide p) = decide q := by
  rw [← decide_not, decide_eq_decide]
  exact h

/-- The model's condition on 64-bit operands is the truth that R106 gives. -/
theorem cc64_eq_isTrue (cc : CC) (a b : Word) : cc64 cc a b = Claims.isTrue cc a b := by
  unfold cc64 ccHolds Claims.isTrue
  rw [BitVec.slt_eq_decide, BitVec.slt_eq_decide, BitVec.ult_eq_decide, BitVec.ult_eq_decide]
  cases cc
  case ne => exact not_decide_eq Iff.rfl
  case ge | le => exact not_decide_eq Int.not_lt
  case geu | leu => exact not_decide_eq Nat.not_lt
  case eq | lt | ltu | gt | gtu | feq | fne | flt | fle | funord => rfl

end Sys2Proof.Machine
end

section
/-! A scalar register or a predicate written: what it leaves unchanged, and the instructions that do no more. -/

namespace Sys2Proof.Machine

open Sys2Proof.Claims

/-! ## Engines -/

theorem EngState.supersede_supersede (st : EngState) (r : SReg) : (st.supersede r).supersede r = st.supersede r := by
  unfold EngState.supersede
  rw [List.map_map]
  congr 2
  funext ⟨id, acc, places⟩
  cases acc with
  | load ks dest | acquire ks dest =>
    cases dest with
    | scalar d sx => by_cases hd : d = r <;> simp [hd]
    | lanes | desc => rfl
  | atomic op dbl ks b c d o => by_cases hd : d = r <;> simp [hd]
  | store | mark | notify => rfl

theorem EngState.supersede_setS (st : EngState) (r : SReg) (v : Word) :
    (st.setS r v).supersede r = (st.supersede r).setS r v := by
  unfold EngState.setS; split <;> rfl

@[simp] theorem EngState.setS_setS (st : EngState) (r : SReg) (v w : Word) : (st.setS r v).setS r w = st.setS r w := by
  unfold EngState.setS; split <;> simp

@[simp] theorem EngState.setS_step (st : EngState) (r : SReg) (v : Word) : (st.setS r v).step = st.step := by
  unfold EngState.setS; split <;> rfl

@[simp] theorem EngState.setP_setP (st : EngState) (p : PReg) (v w : Bool) : (st.setP p v).setP p w = st.setP p w := by
  unfold EngState.setP
  split
  · rfl
  · dsimp only
    congr 1
    refine BitVec.eq_of_getLsbD_eq fun i hi => ?_
    cases v <;> cases w <;>
      simp only [Bool.false_eq_true, if_true, if_false, BitVec.getLsbD_or, BitVec.getLsbD_and, BitVec.getLsbD_not] <;> grind

@[simp] theorem EngState.setP_step (st : EngState) (p : PReg) (v : Bool) : (st.setP p v).step = st.step := by
  unfold EngState.setP; split <;> rfl

/-! ## What is hidden does not show a write -/

theorem hideS_write (r : SReg) (e : Eng) (x : Cell) (v : Word) :
    hideS r e (x.setEng e (((x.eng e).supersede r).setS r v)) = hideS r e x := by
  simp [hideS, EngState.supersede_setS, EngState.supersede_supersede]

theorem hideS_heal (r : SReg) (e : Eng) (x : Cell) :
    hideS r e { x with regErr := tabSet false x.regErr (64 * engNum e + r.toNat) false } = hideS r e x := by
  unfold hideS
  cases e <;> simp [Cell.eng, Cell.setEng]

theorem hideP_write (p : PReg) (e : Eng) (x : Cell) (v : Bool) :
    hideP p e (x.setEng e ((x.eng e).setP p v)) = hideP p e x := by
  simp [hideP]

theorem hideP_heal (p : PReg) (e : Eng) (x : Cell) :
    hideP p e { x with regErr := tabSet false x.regErr (4000 + 16 * engNum e + p.toNat) false } = hideP p e x := by
  unfold hideP
  cases e <;> simp [Cell.eng, Cell.setEng]

/-- A write of a scalar register changes that register alone: no other register, no flag, no byte. -/
theorem keeps_setS (s : State) (r : SReg) (v : Word) : Keeps (hideS r) s (s.setS r v) := by
  unfold State.setS
  extract_lets t
  have hwrite : Keeps (hideS r) s t := keeps_modHere (congrArg (Cell.frame _) (hideS_write r s.cur.eng s.here v))
  split
  · exact hwrite
  · exact hwrite.trans (keeps_modHere (congrArg (Cell.frame _) (hideS_heal r t.cur.eng t.here)))

/-- A write of a predicate changes that predicate alone. -/
theorem keeps_setP (s : State) (p : PReg) (v : Bool) : Keeps (hideP p) s (s.setP p v) := by
  unfold State.setP
  extract_lets t
  have hwrite : Keeps (hideP p) s t := keeps_modHere (congrArg (Cell.frame _) (hideP_write p s.cur.eng s.here v))
  split
  · exact hwrite
  · exact hwrite.trans (keeps_modHere (congrArg (Cell.frame _) (hideP_heal p t.cur.eng t.here)))

/-- What commutes with the frame is blind to it. -/
theorem Blind.of_comm {f : Eng → Cell → Cell} (hcomm : ∀ e x, (f e x).frame e = f e (x.frame e)) : Blind f := by
  intro e x y hxy
  rw [hcomm, hcomm, hxy]

theorem blind_hideS (r : SReg) : Blind (hideS r) := by
  refine .of_comm fun e x => ?_
  unfold hideS Cell.frame EngState.setS
  split <;> cases e <;> rfl

theorem blind_hideP (p : PReg) : Blind (hideP p) := by
  refine .of_comm fun e x => ?_
  unfold hideP Cell.frame EngState.setP
  split <;> cases e <;> rfl

/-! ## A ready instruction that writes one register -/

section

variable {i : Instr} {h : Hdr} {uses : List SReg} {s : State} {body : State → Act}

/-- An instruction whose whole effect is one scalar result passes with it. -/
theorem passes_of_setS {sd : SReg} {v : Word} (hready : s.ready h uses = true) (hexec : exec i s = issue h uses s body)
    (hbody : body s = .done (s.setS sd v)) :
    ∃ t, exec i s = .next t ∧ Passes s t (s.me.pc + 16) ∧ (t.getS sd = if sd = 0#6 then 0#64 else v) ∧
      Keeps (hideS sd) s t := by
  have hcur : (s.setS sd v).cur = s.cur := State.setS_cur s sd v
  refine ⟨s.after h (s.setS sd v), hexec.trans (issue_done hready hbody), passes_afterTo h _ hcur ?_, ?_, ?_⟩
  · rw [State.me_setS, EngState.setS_step]; rfl
  · rw [State.after, State.afterTo_getS h _ hcur, State.getS_setS, if_pos rfl]
  · exact (keeps_setS s sd v).trans (keeps_afterTo (blind_hideS sd) s _ h _ hcur)

/-- An instruction whose whole effect is one predicate passes with it. -/
theorem passes_of_setP {pd : PReg} {v : Bool} (hready : s.ready h uses = true) (hexec : exec i s = issue h uses s body)
    (hbody : body s = .done (s.setP pd v)) :
    ∃ t, exec i s = .next t ∧ Passes s t (s.me.pc + 16) ∧ (t.getP pd = if pd = 15#4 then true else v) ∧
      Keeps (hideP pd) s t := by
  have hcur : (s.setP pd v).cur = s.cur := State.setP_cur s pd v
  refine ⟨s.after h (s.setP pd v), hexec.trans (issue_done hready hbody), passes_afterTo h _ hcur ?_, ?_, ?_⟩
  · rw [State.me_setP, EngState.setP_step]
  · rw [State.after, State.afterTo_getP h _ hcur, State.getP_setP, if_pos rfl]
  · exact (keeps_setP s pd v).trans (keeps_afterTo (blind_hideP pd) s _ h _ hcur)

/-- An instruction that reads sound predicates has its effect (R435). -/
theorem State.withPreds_of_sound {ps : List PReg} (hp : ∀ p ∈ ps, s.here.badPred s.cur.eng p = false) (a : Act) :
    s.withPreds ps a = a := by
  have hnone : ps.any (s.here.badPred s.cur.eng) = false := by simpa using hp
  rw [State.withPreds, hnone]
  rfl

end

end Sys2Proof.Machine
end

section
/-! The S instructions that compute one scalar register or one predicate (04 R101–R108). -/

namespace Sys2Proof.Machine

open Sys2Proof.Claims

/-! ## The tables of the statements are what the instructions do -/

/-- In its frame an instruction does no more than write a value of which a predicate holds to one scalar register. -/
def Gives (i : Instr) (h : Hdr) (uses : List SReg) (sd : SReg) (is : Word → Prop) (s : State) : Prop :=
  ∃ v body, is v ∧ exec i s = issue h uses s body ∧ body s = .done (s.setS sd v)

section

variable {i : Instr} {h : Hdr} {uses : List SReg} {sd sa : SReg} {b : Src} {is : Word → Prop} {s : State}

theorem gives_of_binary {f : Word → Word → Word} (hexec : exec i s = binary h sd sa b f s)
    (hv : is (f (s.getS sa) (s.src b))) : Gives i h (sa :: srcRegs b) sd is s :=
  ⟨_, _, hv, hexec, rfl⟩

theorem gives_of_unary {f : Word → Word} (hexec : exec i s = unary h sd sa f s) (hv : is (f (s.getS sa))) :
    Gives i h [sa] sd is s :=
  ⟨_, _, hv, hexec, rfl⟩

/-- Every instruction of the table computes what the table says of it. -/
theorem gives_integerResult (hi : integerResult s i = some (h, uses, sd, is)) (hsound : predicatesSound s i) :
    Gives i h uses sd is s := by
  cases i <;> cases hi
  case add => exact gives_of_binary rfl rfl
  case sub => exact gives_of_binary rfl rfl
  case mul => exact gives_of_binary rfl (BitVec.toNat_mul ..)
  case mulh => exact gives_of_binary rfl (mulHigh_isHigh ..)
  case div => exact gives_of_binary rfl (quotient_isQuotient ..)
  case rem => exact gives_of_binary rfl (remainder_isRemainder ..)
  case and => exact gives_of_binary rfl fun _ => BitVec.getLsbD_and
  case or => exact gives_of_binary rfl fun _ => BitVec.getLsbD_or
  case xor => exact gives_of_binary rfl fun _ => BitVec.getLsbD_xor
  case shl => exact gives_of_binary rfl (toNat_shiftLeft ..)
  case shr => exact gives_of_binary rfl (toNat_shiftRight ..)
  case sra => exact gives_of_binary rfl (toInt_shiftArith ..)
  case rol => exact gives_of_binary (show execRol .. = _ from rfl) fun _ hj => getLsbD_rotateLeft_add _ _ hj
  case ror => exact gives_of_binary (show execRor .. = _ from rfl) fun _ hj => getLsbD_rotateRight_eq _ _ hj
  case min => exact gives_of_binary (show execMin .. = _ from rfl) (lesser_isMin ..)
  case max => exact gives_of_binary (show execMax .. = _ from rfl) (greater_isMax ..)
  case clz => exact gives_of_unary (show execClz .. = _ from rfl) (leadingZeros_counts _)
  case ctz => exact gives_of_unary (show execCtz .. = _ from rfl) (trailingZeros_counts _)
  case popc => exact gives_of_unary (show execPopc .. = _ from rfl) (oneBits_counts _)
  case brev => exact gives_of_unary (show execBrev .. = _ from rfl) fun _ hj => getLsbD_reverse_of_lt _ hj
  case bfx => exact gives_of_binary (show execBfx .. = _ from rfl) fun _ hj => getLsbD_extractField_zero _ _ _ hj
  case bfxs => exact gives_of_binary (show execBfxs .. = _ from rfl) fun _ hj => getLsbD_extractField_sign _ _ _ hj
  case bfi => exact ⟨_, _, fun _ hj => getLsbD_insertField _ _ _ _ hj, show execBfi .. = _ from rfl, rfl⟩
  case sext sz =>
    refine gives_of_unary (show execSext .. = _ from rfl) fun _ hj => ?_
    cases sz <;> exact getLsbD_signExtend_min _ _ hj
  case li => exact ⟨_, _, rfl, show execLi .. = _ from rfl, rfl⟩
  case addx => exact ⟨_, _, toNat_add_shifted .., show execAddx .. = _ from rfl, rfl⟩
  case sel => exact ⟨_, _, rfl, show execSel .. = _ from rfl, State.withPreds_of_sound hsound _⟩

/-- CMP and the predicate instructions compute the truth that the table gives. -/
theorem exec_of_predicateResult {pd : PReg} {v : Bool} (hi : predicateResult s i = some (h, uses, pd, v))
    (hsound : predicatesSound s i) : ∃ body, exec i s = issue h uses s body ∧ body s = .done (s.setP pd v) := by
  cases i <;> cases hi
  case cmp => exact ⟨_, show execCmp .. = _ from rfl, by rw [cc64_eq_isTrue]⟩
  case pand => exact ⟨_, show execPand .. = _ from rfl, State.withPreds_of_sound hsound _⟩
  case por => exact ⟨_, show execPor .. = _ from rfl, State.withPreds_of_sound hsound _⟩
  case pxor => exact ⟨_, show execPxor .. = _ from rfl, State.withPreds_of_sound hsound _⟩
  case pnot => exact ⟨_, show execPnot .. = _ from rfl, State.withPreds_of_sound hsound _⟩

end

/-! ## The statements -/

/-- Settles O4: every instruction of the table computes its result by a word operation that is what the rules say, and
writing it changes its destination alone. -/
theorem integerInstructionsWriteTheirResult : Obligations.IntegerInstructionsWriteTheirResult := by
  intro i h uses sd is s hi hready hsound
  obtain ⟨v, body, hv, hexec, hbody⟩ := gives_integerResult hi hsound
  obtain ⟨t, ht⟩ := passes_of_setS hready hexec hbody
  exact ⟨v, t, hv, ht⟩

/-- Settles O5: the model's condition is the truth of R106, and writing a predicate changes it alone. -/
theorem predicateInstructionsWriteTheirTruth : Obligations.PredicateInstructionsWriteTheirTruth := by
  intro i h uses pd v s hi hready hsound
  obtain ⟨body, hexec, hbody⟩ := exec_of_predicateResult hi hsound
  exact passes_of_setP hready hexec hbody

end Sys2Proof.Machine
end

section
/-! What a ready V instruction leaves that writes lanes of a vector register, a mask, or one scalar (05 R132–R136). -/

namespace Sys2Proof.Machine

open Sys2Proof.Claims

/-! ## Writing a mask register -/

theorem Cell.eng_putM (x : Cell) (e : Eng) (m : MNum) (v : BitVec 1024) : (x.putM e m v).eng e = x.eng e := by
  unfold Cell.putM Cell.setM
  split <;> cases e <;> rfl

@[simp] theorem State.setMr_cur (s : State) (m : MNum) (v : BitVec 1024) (whole : Bool) : (s.setMr m v whole).cur = s.cur := by
  unfold State.setMr
  extract_lets t
  split <;> rfl

theorem State.me_setMr (s : State) (m : MNum) (v : BitVec 1024) (whole : Bool) : (s.setMr m v whole).me = s.me := by
  unfold State.setMr
  extract_lets t
  have ht : t.me = s.me := by rw [State.me_modHere, Cell.eng_putM, State.me_eq]
  split
  · rw [State.me_modHere, ← ht, State.me_eq]; rfl
  · exact ht

/-- A mask register after one is written; m15 stays all ones (R132). -/
theorem State.getM_setMr (s : State) (m n : MNum) (v : BitVec 1024) (whole : Bool) :
    (s.setMr m v whole).here.getM n = if n = 15#4 then BitVec.allOnes 1024 else if n = m then v else s.here.getM n := by
  unfold State.setMr
  extract_lets t
  have ht : t.here.getM n = if n = 15#4 then BitVec.allOnes 1024 else if n = m then v else s.here.getM n := by
    rw [State.here_modHere, Cell.getM_putM]
  split
  · rw [State.here_modHere]; exact ht
  · exact ht

/-! ## A ready V instruction that writes one register -/

section

variable {i : Instr} {h : Hdr} {uses : List SReg} {srcs : List VNum} {ms : List MNum} {s : State} {body : State → Act}

theorem soundRegs_nil (s : State) : soundRegs s [] := fun _ hv => absurd hv List.not_mem_nil

theorem soundMasks_nil (s : State) : soundMasks s [] := fun _ hm => absurd hm List.not_mem_nil

/-- With sound registers the V frame is that of every instruction (R435). -/
theorem issueV_of_sound (hsrcs : soundRegs s srcs) (hmasks : soundMasks s ms) :
    issueV h uses srcs s body ms = issue h uses s body := by
  have hregs : (srcs.any fun v => s.here.badReg (1000 + v.toNat)) = false := by
    rw [List.any_eq_false]; exact fun v hv => by simp [hsrcs v hv]
  have hbits : ms.any s.here.badMask = false := by
    rw [List.any_eq_false]; exact fun m hm => by simp [hmasks m hm]
  simp only [issueV, issue, issueAs, hregs, hbits, Bool.or_false, Bool.false_eq_true, if_false]

/-- A V instruction whose whole effect is a write of lanes passes with the lanes that it writes and wins. -/
theorem passes_of_writeV {vd : VNum} {x : List Lane} {mk : BitVec 1024} {is : Nat → Lane → Prop}
    (hready : s.ready h uses = true) (hsrcs : soundRegs s srcs) (hmasks : soundMasks s ms)
    (hexec : exec i s = issueV h uses srcs s body ms) (hbody : body s = .done (s.writeV vd x mk)) (hx : x.length = 1024)
    (his : ∀ l < 1024, is l (if mk.getLsbD l then lane x l else lane (s.here.getV vd.toNat) l)) :
    ∃ t, exec i s = .next t ∧ Passes s t (s.me.pc + 16) ∧ wonLanes s t vd is := by
  have hcur : (s.writeV vd x mk).cur = s.cur := State.writeV_cur s vd x mk
  refine ⟨s.after h (s.writeV vd x mk), hexec.trans (issueV_done hready hsrcs hbody hmasks),
    passes_afterTo h _ hcur (by rw [State.me_writeV]), fun l hl => ?_⟩
  have hlane : lane ((s.after h (s.writeV vd x mk)).vr vd) l =
      if (mk &&& ~~~s.lost vd).getLsbD l then lane x l else lane (s.here.getV vd.toNat) l := by
    rw [State.after, State.afterTo_vr h _ hcur, State.vr_writeV _ _ _ _ _ hx, if_pos rfl, lane_mixLanes _ _ _ _ hl]
  rw [hlane, BitVec.getLsbD_and, BitVec.getLsbD_not, decide_eq_true hl, Bool.true_and]
  cases (s.lost vd).getLsbD l with
  | true => simp
  | false => simpa using his l hl

/-- A V instruction whose whole effect is a write of a mask passes with its bits; m15 stays all ones. -/
theorem passes_of_setMr {md : MNum} {v : BitVec 1024} {whole : Bool} {bit : Nat → Bool}
    (hready : s.ready h uses = true) (hsrcs : soundRegs s srcs) (hmasks : soundMasks s ms)
    (hexec : exec i s = issueV h uses srcs s body ms) (hbody : body s = .done (s.setMr md v whole))
    (hbit : ∀ l < 1024, v.getLsbD l = bit l) :
    ∃ t, exec i s = .next t ∧ Passes s t (s.me.pc + 16) ∧
      ∀ l < 1024, (t.here.getM md).getLsbD l = if md = 15#4 then true else bit l := by
  have hcur : (s.setMr md v whole).cur = s.cur := State.setMr_cur s md v whole
  refine ⟨s.after h (s.setMr md v whole), hexec.trans (issueV_done hready hsrcs hbody hmasks),
    passes_afterTo h _ hcur (by rw [State.me_setMr]), fun l hl => ?_⟩
  rw [State.after, State.afterTo_getM h _ hcur, State.getM_setMr, if_pos rfl]
  split
  · rw [BitVec.getLsbD_allOnes, decide_eq_true hl]
  · exact hbit l hl

/-- A V instruction whose whole effect is one scalar of a value passes with it. -/
theorem passes_of_setS_of_sound {sd : SReg} {v : Word} {is : Word → Prop} (hready : s.ready h uses = true)
    (hsrcs : soundRegs s srcs) (hmasks : soundMasks s ms) (hexec : exec i s = issueV h uses srcs s body ms)
    (hbody : body s = .done (s.setS sd v)) (his : is v) :
    ∃ v t, is v ∧ exec i s = .next t ∧ Passes s t (s.me.pc + 16) ∧ t.getS sd = if sd = 0#6 then 0#64 else v := by
  obtain ⟨t, hnext, hpass, hv, -⟩ := passes_of_setS hready (hexec.trans (issueV_of_sound hsrcs hmasks)) hbody
  exact ⟨v, t, his, hnext, hpass, hv⟩

end

end Sys2Proof.Machine
end

section
/-! The moves, rotations, broadcasts and permutation of V in the words of the rules (05 R148, R149). -/

namespace Sys2Proof.Machine

open Sys2Proof.Claims

/-! ## Register images lane by lane -/

/-- A register image whose lanes a function gives. -/
def IsImage (x : List Lane) (f : Nat → Lane) : Prop := x.length = 1024 ∧ ∀ l < 1024, lane x l = f l

theorem isImage_lanesOf (f : Nat → Lane) : IsImage (lanesOf f) f :=
  ⟨by simp [lanesOf], fun l hl => by simp [lane, lanesOf, hl]⟩

theorem isImage_permuted (a : List Lane) (g : Nat → Nat) : IsImage (permuted a g) fun l => lane a (g l) := isImage_lanesOf _

theorem isImage_vsrcList (s : State) (b : VSrc) : IsImage (s.vsrcList b) (s.vsrc b) :=
  ⟨State.vsrcList_length s b, lane_vsrcList s b⟩

theorem IsImage.map {x : List Lane} {f : Nat → Lane} (hx : IsImage x f) (g : Lane → Lane) :
    IsImage (x.map g) fun l => g (f l) := by
  obtain ⟨hlen, hlane⟩ := hx
  refine ⟨by rw [List.length_map, hlen], fun l hl => ?_⟩
  simp [← hlane l hl, lane, hlen, hl]

theorem IsImage.congr {x : List Lane} {f g : Nat → Lane} (hx : IsImage x f) (hfg : ∀ l < 1024, f l = g l) : IsImage x g :=
  ⟨hx.1, fun l hl => (hx.2 l hl).trans (hfg l hl)⟩

theorem setAt_eq_set {α : Type} (x : List α) (n : Nat) (v : α) : setAt x n v = x.set n v := by
  induction x generalizing n with
  | nil => rfl
  | cons a x ih =>
    cases n with
    | zero => rfl
    | succ n => exact congrArg (a :: ·) (ih n)

/-- A register image after one lane is set. -/
theorem lane_setAt (x : List Lane) (v : Lane) {n : Nat} (hn : n < x.length) (l : Nat) :
    lane (setAt x n v) l = if l = n then v else lane x l := by
  rw [setAt_eq_set, lane, lane, List.getD_eq_getElem?_getD, List.getD_eq_getElem?_getD, List.getElem?_set]
  by_cases hl : l = n
  · subst hl; simp [hn]
  · rw [if_neg (Ne.symm hl), if_neg hl]

/-! ## What each move does -/

/-- The frame of a move writes the image under mask use d. -/
theorem passes_of_moved {i : Instr} {h : Hdr} {vd : VNum} {mk : MNum} {z : Bool} {uses : List SReg} {srcs : List VNum}
    {x : State → List Lane} {f : Nat → Lane} {s : State} (hready : s.ready h uses = true) (hsrcs : soundRegs s srcs)
    (hmask : soundMasks s [mk]) (hexec : exec i s = moved h vd mk z uses srcs x s) (hx : IsImage (x s) f) :
    ∃ t, exec i s = .next t ∧ Passes s t (s.me.pc + 16) ∧ writtenLanes s t vd mk z fun l v => v = f l := by
  obtain ⟨hlen, hlane⟩ := hx
  have hsame : (x s).length = (s.vr vd).length := hlen.trans (State.vr_length s vd).symm
  refine passes_of_writeV hready hsrcs hmask hexec rfl ?_ fun l hl => ?_
  · rw [lanesGo_length _ _ _ _ _ _ _ _ hsame hsame hsame, State.vr_length]
  · rw [lanesGo_lane _ _ _ _ _ _ _ _ hsame hsame hsame l (by rwa [State.vr_length]), Nat.zero_add, hlane l hl,
      written_bit _ _ _ hl]
    cases z <;> cases (s.mr mk).getLsbD l <;> simp [exactly]

/-- Every move of the table writes under mask use d the image that the table gives. -/
theorem exec_of_laneMove {i : Instr} {h : Hdr} {vd : VNum} {mk : MNum} {z : Bool} {uses : List SReg} {srcs : List VNum}
    {f : Nat → Lane} {s : State} (hi : laneMove s i = some (h, vd, mk, z, uses, srcs, f)) :
    ∃ x, exec i s = moved h vd mk z uses srcs x s ∧ IsImage (x s) f := by
  cases i <;> cases hi
  case vrotr o ss imm =>
    refine ⟨_, show execVrotr .. = _ from rfl, (isImage_permuted _ _).congr fun l _ => congrArg (lane _) ?_⟩
    have hk : s.axisIndex ss imm 64 < 64 := Nat.mod_lt _ (by decide)
    unfold State.axisIndex at hk ⊢
    omega
  case vrotc o ss imm =>
    refine ⟨_, show execVrotc .. = _ from rfl, (isImage_permuted _ _).congr fun l _ => congrArg (lane _) ?_⟩
    have hk : s.axisIndex ss imm 16 < 16 := Nat.mod_lt _ (by decide)
    unfold State.axisIndex at hk ⊢
    omega
  case vbcr =>
    exact ⟨_, show execVbcr .. = _ from rfl, (isImage_permuted _ _).congr fun l _ => by rw [Nat.mul_comm]; rfl⟩
  case vbcc =>
    exact ⟨_, show execVbcc .. = _ from rfl, (isImage_permuted _ _).congr fun l _ => by rw [Nat.mul_comm]; rfl⟩
  case viota pat imm =>
    have hsum (p : Nat) : imm + BitVec.ofNat 32 p = BitVec.ofNat 32 (imm.toNat + p) := by
      rw [BitVec.ofNat_add, BitVec.ofNat_toNat, BitVec.setWidth_eq]
    refine ⟨_, show execViota .. = _ from rfl, (isImage_lanesOf _).congr fun l _ => ?_⟩
    cases pat <;> exact hsum _
  case vmov b => exact ⟨_, show execVmov .. = _ from rfl, isImage_vsrcList s b⟩
  case vperm b => exact ⟨_, show execVperm .. = _ from rfl, (isImage_vsrcList s b).map _⟩

/-- The mask of one lane. -/
theorem getLsbD_two_pow_lane {n l : Nat} (hl : l < 1024) : (BitVec.ofNat 1024 (2 ^ n)).getLsbD l = decide (l = n) := by
  rw [BitVec.getLsbD_ofNat, Nat.testBit_two_pow, decide_eq_true hl, Bool.true_and]
  exact decide_eq_decide.2 eq_comm

/-- VMOVS writes the low half of its scalar to one lane and keeps the others (R149). -/
theorem vmovs_writes_lane {h : Hdr} {vd : VNum} {ss : SReg} {n : BitVec 14} {s : State} (hready : s.ready h [ss] = true)
    (hn : n.toNat < 1024) :
    ∃ t, exec (.vmovs h vd ss n) s = .next t ∧ Passes s t (s.me.pc + 16) ∧
      wonLanes s t vd fun l v => v = if l = n.toNat then (s.getS ss).setWidth 32 else lane (s.here.getV vd.toNat) l := by
  have hlen : n.toNat < (s.vr vd).length := by rwa [State.vr_length]
  refine passes_of_writeV hready (soundRegs_nil s) (soundMasks_nil s) (show execVmovs .. = _ from rfl) rfl
    (by rw [setAt_eq_set, List.length_set, State.vr_length]) fun l hl => ?_
  rw [getLsbD_two_pow_lane hl, lane_setAt _ _ hlen]
  by_cases heq : l = n.toNat
  · simp [heq, lo32]
  · simp [heq]

/-! ## The statement -/

/-- Settles O28: every move of the table writes its image under mask use d, and VMOVS writes its one lane. -/
theorem vectorMovesPlaceTheirLanes : Obligations.VectorMovesPlaceTheirLanes := by
  refine ⟨fun i h vd mk z uses srcs f s hi hready hsrcs hmask => ?_, fun h vd ss n s => vmovs_writes_lane⟩
  obtain ⟨x, hexec, hx⟩ := exec_of_laneMove hi
  exact passes_of_moved hready hsrcs hmask hexec hx

end Sys2Proof.Machine
end

section
/-! The comparison, selection and mask operations of V in the words of the rules (05 R144, R149, R150). -/

namespace Sys2Proof.Machine

open Sys2Proof.Claims

/-! ## The truth of a test over two registers (R144) -/

/-- A later lane's truth stands higher by one bit. -/
theorem maskGo_eq_mul (f : Lane → Lane → Bool) (l : Nat) (as bs : List Lane) :
    maskGo f l as bs = 2 ^ l * maskGo f 0 as bs := by
  induction as generalizing l bs with
  | nil => rfl
  | cons a as ih =>
    cases bs with
    | nil => rfl
    | cons b bs =>
      unfold maskGo
      rw [ih (l + 1), ih (0 + 1), Nat.mul_add]
      cases f a b <;> simp [Nat.pow_succ, Nat.mul_assoc]

/-- A test over two registers lane by lane. -/
theorem testBit_maskGo (f : Lane → Lane → Bool) (as bs : List Lane) (hlen : bs.length = as.length) {l : Nat}
    (hl : l < as.length) : (maskGo f 0 as bs).testBit l = f (lane as l) (lane bs l) := by
  induction as generalizing bs l with
  | nil => exact absurd hl (Nat.not_lt_zero l)
  | cons a as ih =>
    match bs, hlen with
    | b :: bs, hlen =>
      have hcons : maskGo f 0 (a :: as) (b :: bs) = (f a b).toNat + 2 * maskGo f 0 as bs := by
        rw [maskGo, maskGo_eq_mul f (0 + 1)]
        cases f a b <;> rfl
      rw [hcons]
      cases l with
      | zero =>
        have hodd : ((f a b).toNat + 2 * maskGo f 0 as bs) % 2 = (f a b).toNat := by
          have hle := Bool.toNat_le (f a b)
          omega
        rw [Nat.testBit_zero, hodd]
        show decide ((f a b).toNat = 1) = f a b
        cases f a b <;> rfl
      | succ l =>
        have hhalf : ((f a b).toNat + 2 * maskGo f 0 as bs) / 2 = maskGo f 0 as bs := by
          have hle := Bool.toNat_le (f a b)
          omega
        rw [Nat.testBit_succ, hhalf]
        exact ih bs (Nat.succ.inj hlen) (Nat.lt_of_succ_lt_succ hl)

/-- The bits that VCMP writes: the truth under the mask, the old bits or zeros elsewhere (R132, R144). -/
theorem getLsbD_compared (x m old : BitVec 1024) (z : Bool) {l : Nat} (hl : l < 1024) :
    ((x &&& m) ||| (if z then 0#1024 else old &&& ~~~m)).getLsbD l =
      if m.getLsbD l then x.getLsbD l else if z then false else old.getLsbD l := by
  rw [BitVec.getLsbD_or, BitVec.getLsbD_and]
  cases z
  · rw [if_neg Bool.false_ne_true, BitVec.getLsbD_and, BitVec.getLsbD_not, decide_eq_true hl]
    cases m.getLsbD l <;> simp
  · rw [if_pos rfl, BitVec.getLsbD_zero]
    cases m.getLsbD l <;> simp

/-! ## Counts over a mask (R150) -/

/-- A number of lanes fits in a word. -/
theorem toNat_ofNat_of_le_1024 {k : Nat} (hk : k ≤ 1024) : (BitVec.ofNat 64 k).toNat = k := by
  rw [BitVec.toNat_ofNat]; omega

theorem oneBits_eq_countP {n : Nat} (a : BitVec n) : oneBits a = (List.range n).countP fun i => a.getLsbD i :=
  List.countP_eq_length_filter.symm

theorem oneBits_le_width {n : Nat} (a : BitVec n) : oneBits a ≤ n := by
  rw [oneBits_eq_countP]
  exact Nat.le_trans List.countP_le_length (Nat.le_of_eq List.length_range)

/-- The number of low zero bits is the place of the lowest one, or the width. -/
theorem trailingZeros_eq_findIdx {n : Nat} (a : BitVec n) : trailingZeros a = (List.range n).findIdx a.getLsbD := by
  rw [trailingZeros, List.takeWhile_eq_take_findIdx_not, List.length_take_of_le List.findIdx_le_length]
  simp

theorem trailingZeros_le_width {n : Nat} (a : BitVec n) : trailingZeros a ≤ n := by
  rw [trailingZeros_eq_findIdx]
  exact Nat.le_trans List.findIdx_le_length (Nat.le_of_eq List.length_range)

theorem getLsbD_of_lt_trailingZeros {n : Nat} (a : BitVec n) {l : Nat} (hl : l < trailingZeros a) : a.getLsbD l = false := by
  rw [trailingZeros_eq_findIdx] at hl
  simpa using List.not_of_lt_findIdx hl

theorem getLsbD_trailingZeros {n : Nat} (a : BitVec n) (hlt : trailingZeros a < n) : a.getLsbD (trailingZeros a) = true := by
  rw [trailingZeros_eq_findIdx] at hlt ⊢
  have hat := List.findIdx_getElem (p := a.getLsbD) (xs := List.range n) (w := by rwa [List.length_range])
  rwa [List.getElem_range] at hat

/-- What VMPOPC writes is the number of one bits of its mask. -/
theorem oneBits_counts_lanes (m : BitVec 1024) :
    (BitVec.ofNat 64 (oneBits m)).toNat = (List.range 1024).countP fun l => m.getLsbD l := by
  rw [toNat_ofNat_of_le_1024 (oneBits_le_width m), oneBits_eq_countP]

/-- What VMFF writes is the lowest lane of its mask, or 1,024. -/
theorem trailingZeros_finds_lane (m : BitVec 1024) :
    let v := BitVec.ofNat 64 (trailingZeros m)
    v.toNat ≤ 1024 ∧ (∀ l < v.toNat, m.getLsbD l = false) ∧ (v.toNat < 1024 → m.getLsbD v.toNat = true) := by
  intro v
  have hv : v.toNat = trailingZeros m := toNat_ofNat_of_le_1024 (trailingZeros_le_width m)
  rw [hv]
  exact ⟨trailingZeros_le_width m, fun _ => getLsbD_of_lt_trailingZeros m, getLsbD_trailingZeros m⟩

/-- A lane extended to a word repeats its sign, or holds zeros, above its 32 bits (R149). -/
theorem getLsbD_extended (v : Lane) (sx : Bool) {i : Nat} (hi : i < 64) :
    (if sx then v.signExtend 64 else v.setWidth 64).getLsbD i = if sx then v.getLsbD (min i 31) else v.getLsbD i := by
  cases sx
  · simp [hi]
  · rw [if_pos rfl, if_pos rfl, BitVec.getLsbD_signExtend, BitVec.msb_eq_getLsbD_last, decide_eq_true hi]
    grind

/-! ## What each instruction does -/

/-- VCMP writes the truth of its condition to the active bits of its mask. -/
theorem vcmp_writes_truth {h : Hdr} {s : State} {md mk : MNum} {va : VNum} {b : VSrc} {z : Bool} {cc : CC}
    (hready : s.ready h (vsrcRegs b) = true) (hsrcs : soundRegs s (va :: vsrcVecs b)) (hmask : soundMasks s [mk]) :
    ∃ t, exec (.vcmp h md va b mk z cc) s = .next t ∧ Passes s t (s.me.pc + 16) ∧
      ∀ l < 1024, (t.here.getM md).getLsbD l = if md = 15#4 then true else
        if (s.mr mk).getLsbD l then cc32 cc (lane (s.vr va) l) (s.vsrc b l)
        else if z then false else (s.here.getM md).getLsbD l := by
  refine passes_of_setMr hready hsrcs hmask (show execVcmp .. = _ from rfl) rfl fun l hl => ?_
  have htruth : (BitVec.ofNat 1024 (maskGo (cc32 cc) 0 (s.vr va) (s.vsrcList b))).getLsbD l =
      cc32 cc (lane (s.vr va) l) (s.vsrc b l) := by
    rw [BitVec.getLsbD_ofNat, decide_eq_true hl, Bool.true_and,
      testBit_maskGo _ _ _ (by rw [State.vr_length, State.vsrcList_length]) (by rwa [State.vr_length]), lane_vsrcList s b l hl]
  rw [getLsbD_compared _ _ _ _ hl, htruth]

/-- VSEL writes every lane, from the source that the mask names. -/
theorem vsel_chooses_lanes {h : Hdr} {s : State} {mk : MNum} {vd va : VNum} {b : VSrc} (hready : s.ready h (vsrcRegs b) = true)
    (hsrcs : soundRegs s (va :: vsrcVecs b)) (hmask : soundMasks s [mk]) :
    ∃ t, exec (.vsel h vd va b mk) s = .next t ∧ Passes s t (s.me.pc + 16) ∧
      wonLanes s t vd fun l v => v = if (s.mr mk).getLsbD l then lane (s.vr va) l else s.vsrc b l := by
  have hsame : (s.vr va).length = (s.vsrcList b).length := by rw [State.vr_length, State.vsrcList_length]
  refine passes_of_writeV hready hsrcs hmask (show execVsel .. = _ from rfl) rfl ?_ fun l hl => ?_
  · rw [lanesGo_length _ _ _ _ _ _ _ _ hsame hsame hsame, State.vsrcList_length]
  · rw [allLanes, BitVec.getLsbD_allOnes, decide_eq_true hl, if_pos rfl,
      lanesGo_lane _ _ _ _ _ _ _ _ hsame hsame hsame l (by rwa [State.vsrcList_length]), Nat.zero_add, lane_vsrcList s b l hl]
    rfl

/-! ## The statement -/

/-- Settles O29: each instruction's whole effect is one write, of a mask, of lanes or of a scalar, with the bits that the
rules give. -/
theorem masksAndSelectionsAreWritten : Obligations.MasksAndSelectionsAreWritten := by
  intro h md ma mb mk vd va b z cc ss n sx s A B K maskIs scalarIs
  refine ⟨fun hready hsrcs hmask => ⟨vcmp_writes_truth hready hsrcs hmask, vsel_chooses_lanes hready hsrcs hmask⟩,
    fun hready hmasks => ?_, fun hready hsrcs => ?_⟩
  · have hma : soundMasks s [ma] := fun m hm => hmasks m (List.mem_cons.2 (.inl (List.mem_singleton.1 hm)))
    refine ⟨?vmand, ?vmor, ?vmxor, ?vmnot, ?vmpopc, ?vmff⟩
    case vmand =>
      exact passes_of_setMr hready (soundRegs_nil s) hmasks (show execVmand .. = _ from rfl) rfl fun _ _ => BitVec.getLsbD_and
    case vmor =>
      exact passes_of_setMr hready (soundRegs_nil s) hmasks (show execVmor .. = _ from rfl) rfl fun _ _ => BitVec.getLsbD_or
    case vmxor =>
      exact passes_of_setMr hready (soundRegs_nil s) hmasks (show execVmxor .. = _ from rfl) rfl fun _ _ => BitVec.getLsbD_xor
    case vmnot =>
      exact passes_of_setMr hready (soundRegs_nil s) hma (show execVmnot .. = _ from rfl) rfl fun l hl => by
        rw [BitVec.getLsbD_not, decide_eq_true hl, Bool.true_and]
    case vmpopc =>
      exact passes_of_setS_of_sound hready (soundRegs_nil s) hma (show execVmpopc .. = _ from rfl) rfl (oneBits_counts_lanes _)
    case vmff =>
      exact passes_of_setS_of_sound hready (soundRegs_nil s) hma (show execVmff .. = _ from rfl) rfl
        (trailingZeros_finds_lane _)
  · exact passes_of_setS_of_sound hready hsrcs (soundMasks_nil s) (show execVext .. = _ from rfl) rfl
      fun _ => getLsbD_extended _ sx

end Sys2Proof.Machine
end

section
/-! What a ready V instruction leaves that writes whole vector registers beside flags or a scalar (05 R132, R136, R168). -/

namespace Sys2Proof.Machine

open Sys2Proof.Claims

/-! ## What reading a vector register depends on -/

theorem Cell.racing_congr {x y : Cell} {e : Eng} (hhist : x.vhist = y.vhist) (hsync : (x.eng e).synced = (y.eng e).synced)
    (v : Nat) : x.racing e v = y.racing e v := by
  unfold Cell.racing
  rw [hhist, hsync]

theorem Cell.readV_congr {x y : Cell} {e : Eng} (hreg : x.vreg = y.vreg) (hhist : x.vhist = y.vhist)
    (hsync : (x.eng e).synced = (y.eng e).synced) (o : List (Nat × BitVec 1024)) (v : Nat) : x.readV e o v = y.readV e o v := by
  unfold Cell.readV Cell.getV
  rw [Cell.racing_congr hhist hsync, hreg]

/-- A vector register reads alike in two states of one turn whose cells hold it, its history and the engine's order
alike. -/
theorem State.vr_congr {s t : State} (hcur : t.cur = s.cur) (hreg : t.here.vreg = s.here.vreg)
    (hhist : t.here.vhist = s.here.vhist) (hsync : t.me.synced = s.me.synced) (v : VNum) : t.vr v = s.vr v := by
  rw [State.me_eq, hcur, State.me_eq] at hsync
  rw [State.vr, State.vr, State.vrAt, State.vrAt, hcur, Cell.readV_congr hreg hhist hsync]

@[simp] theorem EngState.setS_synced (st : EngState) (r : SReg) (w : Word) : (st.setS r w).synced = st.synced := by
  unfold EngState.setS
  split <;> rfl

theorem State.vreg_setS (s : State) (r : SReg) (w : Word) : (s.setS r w).here.vreg = s.here.vreg := by
  unfold State.setS
  dsimp only
  split <;> simp

theorem State.vhist_setS (s : State) (r : SReg) (w : Word) : (s.setS r w).here.vhist = s.here.vhist := by
  unfold State.setS
  dsimp only
  split <;> simp

/-- A scalar written leaves the vector registers. -/
theorem State.vr_setS (s : State) (r : SReg) (w : Word) (v : VNum) : (s.setS r w).vr v = s.vr v :=
  State.vr_congr (State.setS_cur s r w) (State.vreg_setS s r w) (State.vhist_setS s r w)
    (by rw [State.me_setS, EngState.setS_synced]; rfl) v

@[simp] theorem State.flagsV_cur (s : State) (fl : Flags) : (s.flagsV fl).cur = s.cur := State.effects_cur ..

/-- Flags set leave every engine. -/
theorem State.me_flagsV (s : State) (fl : Flags) : (s.flagsV fl).me = s.me := by
  obtain ⟨y, hy⟩ := State.here_flagsV s fl
  rw [State.me_eq, hy, State.flagsV_cur]
  cases h : s.cur.eng <;> rw [State.me_eq, h] <;> rfl

/-- Flags set leave the vector registers. -/
theorem State.vr_flagsV (s : State) (fl : Flags) (v : VNum) : (s.flagsV fl).vr v = s.vr v := by
  obtain ⟨y, hy⟩ := State.here_flagsV s fl
  exact State.vr_congr (State.flagsV_cur s fl) (by rw [hy]) (by rw [hy])
    (congrArg EngState.synced (State.me_flagsV s fl)) v

theorem State.fflags_writeV (s : State) (v : VNum) (x : List Lane) (mk : BitVec 1024) :
    (s.writeV v x mk).here.fflags = s.here.fflags := by
  obtain ⟨r, hr⟩ := State.here_writeV s v x mk
  rw [hr]; rfl

/-- A vector register written leaves the races of the others. -/
theorem State.lost_writeV_of_ne (s : State) {v u : VNum} (hne : u ≠ v) (x : List Lane) (mk : BitVec 1024) :
    (s.writeV v x mk).lost u = s.lost u := by
  have hnum : u.toNat ≠ v.toNat := fun heq => hne (BitVec.eq_of_toNat_eq heq)
  have hsync : ((s.writeV v x mk).here.eng s.cur.eng).synced =
      ((s.here.putV s.cur.eng s.cur.old v.toNat mk x).eng s.cur.eng).synced := by
    obtain ⟨r, hr⟩ := State.here_writeV s v x mk
    rw [hr]
    cases s.cur.eng <;> rfl
  have hhist : (s.writeV v x mk).here.vhist = (s.here.putV s.cur.eng s.cur.old v.toNat mk x).vhist := by
    obtain ⟨r, hr⟩ := State.here_writeV s v x mk
    rw [hr]
  unfold State.lost Cell.lost
  rw [State.writeV_cur, Cell.racing_congr hhist hsync, Cell.racing_putV, if_neg hnum]

/-- A vector register written leaves the others as they stand. -/
theorem State.getV_writeV_of_ne (s : State) {v u : VNum} (hne : u ≠ v) {x : List Lane} (mk : BitVec 1024)
    (hx : x.length = 1024) : (s.writeV v x mk).here.getV u.toNat = s.here.getV u.toNat := by
  have hnum : u.toNat ≠ v.toNat := fun heq => hne (BitVec.eq_of_toNat_eq heq)
  obtain ⟨r, hr⟩ := State.here_writeV s v x mk
  rw [hr]
  exact (Cell.getV_putV s.here s.cur.eng s.cur.old v.toNat u.toNat mk x hx).trans (if_neg hnum)

/-! ## Whole registers written -/

/-- A register written whole holds the image in the lanes that the write wins (R29). -/
theorem wonLanes_writeV (s : State) (vd : VNum) {x : List Lane} {f : Nat → Lane} (hx : IsImage x f) :
    wonLanes s (s.writeV vd x allLanes) vd fun l v => v = f l := by
  obtain ⟨hlen, hlane⟩ := hx
  intro l hl
  rw [State.vr_writeV _ _ _ _ _ hlen, if_pos rfl, lane_mixLanes _ _ _ _ hl, BitVec.getLsbD_and, BitVec.getLsbD_not, allLanes,
    BitVec.getLsbD_allOnes, decide_eq_true hl, Bool.true_and, Bool.true_and]
  cases (s.lost vd).getLsbD l with
  | true => rfl
  | false => exact hlane l hl

/-- What wins in a register depends on it alone, and on its races and its value before. -/
theorem wonLanes_congr {s s' t t' : State} {vd : VNum} {is : Nat → Lane → Prop} (h : wonLanes s t vd is)
    (hlost : s'.lost vd = s.lost vd) (hold : s'.here.getV vd.toNat = s.here.getV vd.toNat) (hvr : t'.vr vd = t.vr vd) :
    wonLanes s' t' vd is := by
  unfold wonLanes
  rw [hlost, hold, hvr]
  exact h

section

variable {i : Instr} {h : Hdr} {uses : List SReg} {srcs : List VNum} {ms : List MNum} {s u : State} {body : State → Act}

/-- A ready V instruction passes with the registers and flags that its effect leaves. -/
theorem passes_of_effect (hready : s.ready h uses = true) (hsrcs : soundRegs s srcs) (hmasks : soundMasks s ms)
    (hexec : exec i s = issueV h uses srcs s body ms) (hbody : body s = .done u) (hcur : u.cur = s.cur)
    (hstep : u.me.step = s.me.step) :
    ∃ t, exec i s = .next t ∧ Passes s t (s.me.pc + 16) ∧ (∀ v, t.vr v = u.vr v) ∧ (∀ r, t.getS r = u.getS r) ∧
      t.here.fflags = u.here.fflags :=
  ⟨s.after h u, hexec.trans (issueV_done hready hsrcs hbody hmasks), passes_afterTo h _ hcur hstep,
    State.afterTo_vr h _ hcur, State.afterTo_getS h _ hcur, State.afterTo_fflags h _ hcur⟩

/-- A V instruction whose whole effect is one register written whole and flags passes with them (R136). -/
theorem passes_of_writeV_flagsV {vd : VNum} {x : List Lane} {f : Nat → Lane} {fl : Flags} {each : Nat → Flags}
    (hready : s.ready h uses = true) (hsrcs : soundRegs s srcs) (hmasks : soundMasks s ms)
    (hexec : exec i s = issueV h uses srcs s body ms)
    (hbody : body s = .done ((s.writeV vd x allLanes).flagsV fl)) (hx : IsImage x f)
    (heach : unionFlags fl (fun _ => True) each) :
    ∃ t fl, exec i s = .next t ∧ Passes s t (s.me.pc + 16) ∧ wonLanes s t vd (fun l v => v = f l) ∧
      unionFlags fl (fun _ => True) each ∧ t.here.fflags = (s.here.fflags ||| (fl.setWidth 25 <<< 15)) := by
  obtain ⟨t, hnext, hpass, hvr, -, hfl⟩ := passes_of_effect hready hsrcs hmasks hexec hbody
    (by rw [State.flagsV_cur, State.writeV_cur]) (by rw [State.me_flagsV, State.me_writeV])
  refine ⟨t, fl, hnext, hpass, wonLanes_congr (wonLanes_writeV s vd hx) rfl rfl (by rw [hvr, State.vr_flagsV]), heach, ?_⟩
  obtain ⟨y, hy⟩ := State.here_flagsV (s.writeV vd x allLanes) fl
  rw [hfl, hy, ← State.fflags_writeV s vd x allLanes]

/-- A V instruction whose whole effect is two registers written whole and a scalar passes with them (R168). -/
theorem passes_of_writeV_writeV_setS {vd vc : VNum} {x y : List Lane} {f g : Nat → Lane} {ss : SReg} {w : Word}
    (hready : s.ready h uses = true) (hsrcs : soundRegs s srcs) (hmasks : soundMasks s ms)
    (hexec : exec i s = issueV h uses srcs s body ms)
    (hbody : body s = .done (((s.writeV vd x allLanes).writeV vc y allLanes).setS ss w)) (hne : vd ≠ vc)
    (hx : IsImage x f) (hy : IsImage y g) :
    ∃ t, exec i s = .next t ∧ Passes s t (s.me.pc + 16) ∧ wonLanes s t vd (fun l v => v = f l) ∧
      wonLanes s t vc (fun l v => v = g l) ∧ t.getS ss = if ss = 0#6 then 0#64 else w := by
  obtain ⟨t, hnext, hpass, hvr, hs, -⟩ := passes_of_effect hready hsrcs hmasks hexec hbody
    (by rw [State.setS_cur, State.writeV_cur, State.writeV_cur])
    (by rw [State.me_setS, EngState.setS_step, State.me_writeV, State.me_writeV]; rfl)
  refine ⟨t, hnext, hpass, wonLanes_congr (wonLanes_writeV s vd hx) rfl rfl ?_,
    wonLanes_congr (wonLanes_writeV (s.writeV vd x allLanes) vc hy) ?_ ?_ ?_, ?_⟩
  · rw [hvr, State.vr_setS, State.vr_writeV _ vc _ _ _ hy.1, if_neg hne]
  · exact (State.lost_writeV_of_ne s hne.symm x allLanes).symm
  · exact (State.getV_writeV_of_ne s hne.symm allLanes hx.1).symm
  · rw [hvr, State.vr_setS]
  · rw [hs, State.getS_setS, if_pos rfl]

end

end Sys2Proof.Machine
end

section
/-! The reductions and row scans of V in the words of the rules (05 R145–R147). -/

namespace Sys2Proof.Machine

open Sys2Proof.Claims

/-! ## Runs of lanes -/

/-- The elements of a list are the values of a function from place l on. -/
def LanesFrom (l : Nat) (x : List Lane) (f : Nat → Lane) : Prop := ∀ j < x.length, lane x j = f (l + j)

theorem lanesFrom_nil (l : Nat) (f : Nat → Lane) : LanesFrom l [] f := fun j hj => absurd hj (Nat.not_lt_zero j)

theorem lanesFrom_cons {l : Nat} {a : Lane} {x : List Lane} {f : Nat → Lane} :
    LanesFrom l (a :: x) f ↔ a = f l ∧ LanesFrom (l + 1) x f := by
  refine ⟨fun h => ⟨h 0 (Nat.succ_pos _), fun j hj => ?_⟩, fun ⟨ha, hx⟩ j hj => ?_⟩
  · rw [Nat.add_right_comm]
    exact h (j + 1) (Nat.succ_lt_succ hj)
  · cases j with
    | zero => exact ha
    | succ j => rw [← Nat.add_assoc, Nat.add_right_comm]; exact hx j (Nat.lt_of_succ_lt_succ hj)

theorem isImage_iff_lanesFrom {x : List Lane} {f : Nat → Lane} : IsImage x f ↔ x.length = 1024 ∧ LanesFrom 0 x f := by
  refine and_congr_right fun hlen => ?_
  simp only [LanesFrom, hlen, Nat.zero_add]

/-- A stretch of a register image. -/
theorem lanesFrom_slice (x : List Lane) (l n : Nat) : LanesFrom 0 ((x.drop l).take n) fun k => lane x (l + k) := by
  intro j hj
  have hlt : j < n := Nat.lt_of_lt_of_le hj (List.length_take_le n _)
  simp [lane, List.getElem?_take_of_lt hlt, List.getElem?_drop]

theorem length_flatMap_range {w n : Nat} {f : Nat → List Lane} (hf : ∀ r < n, (f r).length = w) :
    ((List.range n).flatMap f).length = n * w := by
  rw [List.length_flatMap, List.map_congr_left fun r hr => hf r (List.mem_range.1 hr), List.map_const', List.length_range,
    List.sum_replicate_nat]

theorem lane_append_left {x y : List Lane} {l : Nat} (hl : l < x.length) : lane (x ++ y) l = lane x l := by
  rw [lane, lane, List.getD_eq_getElem?_getD, List.getD_eq_getElem?_getD, List.getElem?_append_left hl]

theorem lane_append_right {x y : List Lane} {l : Nat} (hl : x.length ≤ l) : lane (x ++ y) l = lane y (l - x.length) := by
  rw [lane, lane, List.getD_eq_getElem?_getD, List.getD_eq_getElem?_getD, List.getElem?_append_right hl]

/-- Lists of one length, one after the other, hold their elements at quotient and remainder. -/
theorem lane_flatMap_range {w n : Nat} {f : Nat → List Lane} (hf : ∀ r < n, (f r).length = w) {l : Nat} (hl : l < n * w) :
    lane ((List.range n).flatMap f) l = lane (f (l / w)) (l % w) := by
  induction n with
  | zero => rw [Nat.zero_mul] at hl; exact absurd hl (Nat.not_lt_zero l)
  | succ n ih =>
    have hinit : ∀ r < n, (f r).length = w := fun r hr => hf r (Nat.lt_succ_of_lt hr)
    have hlen := length_flatMap_range hinit
    rw [List.range_succ, List.flatMap_append, List.flatMap_singleton]
    by_cases hlt : l < n * w
    · rw [lane_append_left (by rwa [hlen])]
      exact ih hinit hlt
    · have hge : n * w ≤ l := Nat.le_of_not_lt hlt
      obtain ⟨k, rfl⟩ := Nat.exists_eq_add_of_le hge
      have hk : k < w := by rw [Nat.succ_mul] at hl; omega
      rw [lane_append_right (by rwa [hlen]), hlen, Nat.add_sub_cancel_left, Nat.mul_comm n, Nat.mul_add_div (by omega),
        Nat.mul_add_mod, Nat.div_eq_of_lt hk, Nat.mod_eq_of_lt hk, Nat.add_zero]

/-- A register image given row by row (R130). -/
theorem isImage_rows {f : Nat → List Lane} (hf : ∀ r < 16, (f r).length = 64) :
    IsImage ((List.range 16).flatMap f) fun l => lane (f (l / 64)) (l % 64) :=
  ⟨length_flatMap_range hf, fun _ hl => lane_flatMap_range hf hl⟩

/-- A register image with one value in each row. -/
theorem isImage_of_rows (v : Nat → Lane) : IsImage ((List.range 16).flatMap fun r => List.replicate 64 (v r)) fun l => v (l / 64) :=
  (isImage_rows fun _ _ => List.length_replicate).congr fun l _ => by
    rw [lane, List.getD_eq_getElem?_getD, List.getElem?_replicate_of_lt (Nat.mod_lt l (by decide))]
    rfl

/-- A register image with one value in each column. -/
theorem isImage_of_columns (v : Nat → Lane) : IsImage ((List.range 16).flatMap fun _ => (List.range 64).map v) fun l => v (l % 64) :=
  (isImage_rows fun _ _ => by rw [List.length_map, List.length_range]).congr fun l _ => by
    simp [lane, Nat.mod_lt l (show 0 < 64 by decide)]

/-! ## The flags of several computations -/

theorem getLsbD_foldl_or {α : Type} (rows : List (α × Flags)) (f : Flags) (i : Nat) :
    (rows.foldl (fun f x => f ||| x.2) f).getLsbD i = true ↔
      f.getLsbD i = true ∨ ∃ x ∈ rows, x.2.getLsbD i = true := by
  induction rows generalizing f with
  | nil => simp
  | cons x rows ih => simp [ih, or_assoc]

/-- Flags collected over the rows, or the columns, are the union over the lanes where each has a lane. -/
theorem unionFlags_collected {α : Type} {n : Nat} (g : Nat → α × Flags) (place first : Nat → Nat)
    (hplace : ∀ l < 1024, place l < n) (hfirst : ∀ k < n, first k < 1024 ∧ place (first k) = k) :
    unionFlags (((List.range n).map g).foldl (fun f x => f ||| x.2) 0#5) (fun _ => True) fun l => (g (place l)).2 := by
  intro i _
  rw [getLsbD_foldl_or, BitVec.getLsbD_zero]
  constructor
  · rintro (hzero | ⟨x, hx, hbit⟩)
    · exact absurd hzero Bool.false_ne_true
    · obtain ⟨k, hk, rfl⟩ := List.mem_map.1 hx
      obtain ⟨hlt, hback⟩ := hfirst k (List.mem_range.1 hk)
      exact ⟨first k, hlt, trivial, by simpa only [hback] using hbit⟩
  · rintro ⟨l, hl, -, hbit⟩
    exact .inr ⟨g (place l), List.mem_map_of_mem (List.mem_range.2 (hplace l hl)), hbit⟩

theorem unionFlags_congr {fl : Flags} {on : Nat → Prop} {f g : Nat → Flags} (h : unionFlags fl on f)
    (hfg : ∀ l < 1024, f l = g l) : unionFlags fl on g := by
  refine fun i hi => (h i hi).trans (exists_congr fun l => and_congr_right fun hl => ?_)
  rw [hfg l hl]

/-- Flags collected over the 16 rows. -/
theorem unionFlags_rows {α : Type} (g : Nat → α × Flags) :
    unionFlags (((List.range 16).map g).foldl (fun f x => f ||| x.2) 0#5) (fun _ => True) fun l => (g (l / 64)).2 :=
  unionFlags_collected g (· / 64) (64 * ·) (by omega) (by omega)

/-- Flags collected over the 64 columns. -/
theorem unionFlags_columns {α : Type} (g : Nat → α × Flags) :
    unionFlags (((List.range 64).map g).foldl (fun f x => f ||| x.2) 0#5) (fun _ => True) fun l => (g (l % 64)).2 :=
  unionFlags_collected g (· % 64) id (by omega) (by simp only [id]; omega)

/-! ## The fixed tree (R145) -/

/-- A node of the tree: one combination, and the flags below it with its own. -/
def redNode (op : RedOp) (rm : Nat → Rm) (j : Nat) (x y : Lane × Flags) : Lane × Flags :=
  let r := redStep op (rm j) x.1 y.1
  (r.val, r.fl ||| x.2 ||| y.2)

theorem treeOf_eq_reduceTree (op : RedOp) (rm : Nat → Rm) (x : Nat → Option Lane) (d j lo : Nat) :
    treeOf (redNode op rm) (fun i => (x i).map fun v => (v, 0#5)) d j lo = reduceTree op rm x d lo j := by
  induction d generalizing j lo with
  | zero => rfl
  | succ d ih =>
    rw [treeOf, reduceTree, ih, ih]
    rcases reduceTree op rm x d lo (2 * j) with _ | l <;>
      rcases reduceTree op rm x d (lo + 2 ^ d) (2 * j + 1) with _ | r <;> rfl

/-- A reduction is the tree of the rules over the selected lanes. -/
theorem treeReduce_eq (op : RedOp) (rm : Nat → Rm) (s : State) (va : VNum) (mk : MNum) (at' : Nat → Nat) (d : Nat) :
    let v := reduceTree op rm (fun i => selected s va mk (at' i)) d 0 1
    treeReduce op rm (s.mr mk) (s.vr va) at' d = (redFinal op (v.map (·.1)), (v.map (·.2)).getD 0#5) := by
  have hget : (fun i => if (s.mr mk).getLsbD (at' i) = true then some (lane (s.vr va) (at' i), 0#5) else none) =
      fun i => (selected s va mk (at' i)).map fun v => (v, 0#5) := by
    funext i
    unfold selected
    split <;> rfl
  intro v
  have hroot : treeOf (redNode op rm) _ d 1 0 = v := treeOf_eq_reduceTree op rm _ d 1 0
  rw [← hroot, ← hget]
  rfl

/-! ## The scan of a row (R147) -/

/-- One step of a scan: the running value after a lane, selected or not, and the flags of the combination made. -/
def runStep (op : RedOp) (m : Rm) (run x : Option Lane) : Option Lane × Flags :=
  match run, x with
  | run, none => (run, 0#5)
  | none, some a => (some a, 0#5)
  | some v, some a => ((some (redStep op m v a).val), (redStep op m v a).fl)

theorem runBefore_succ (op : RedOp) (rm : Nat → Rm) (x : Nat → Option Lane) (n : Nat) :
    let r := runBefore op rm x n
    let q := runStep op (rm n) r.1 (x n)
    runBefore op rm x (n + 1) = (q.1, r.2 ||| q.2) := by
  intro r q
  rw [runBefore]
  rcases hr : runBefore op rm x n with ⟨_ | v, f⟩ <;> cases hx : x n <;> simp [q, r, hr, hx, runStep]

theorem scanGo_cons (op : RedOp) (ex : Bool) (rm : Nat → Rm) (mk : BitVec 1024) (l : Nat) (run : Option Lane) (a : Lane)
    (as : List Lane) :
    let q := runStep op (rm l) run (if mk.getLsbD l = true then some a else none)
    let rest := scanGo op ex rm mk (l + 1) q.1 as
    scanGo op ex rm mk l run (a :: as) = (redFinal op (if ex then run else q.1) :: rest.1, q.2 ||| rest.2) := by
  intro q rest
  rw [scanGo.eq_def]
  cases hm : mk.getLsbD l <;> cases run <;> simp [q, rest, hm, runStep]

theorem scanGo_length (op : RedOp) (ex : Bool) (rm : Nat → Rm) (mk : BitVec 1024) (l : Nat) (run : Option Lane)
    (as : List Lane) : (scanGo op ex rm mk l run as).1.length = as.length := by
  induction as generalizing l run with
  | nil => rfl
  | cons a as ih => rw [scanGo_cons, List.length_cons, ih, List.length_cons]

section

variable {op : RedOp} {ex : Bool} {rm : Nat → Rm} {s : State} {va : VNum} {mk : MNum} {b c : Nat} {as : List Lane}

/-- The running value and flags before column c of the row that begins at lane b. -/
def rowRun (op : RedOp) (rm : Nat → Rm) (s : State) (va : VNum) (mk : MNum) (b c : Nat) : Option Lane × Flags :=
  runBefore op (fun k => rm (b + k)) (fun k => selected s va mk (b + k)) c

theorem rowRun_succ {a : Lane} (ha : lane (s.vr va) (b + c) = a) :
    let r := rowRun op rm s va mk b c
    let q := runStep op (rm (b + c)) r.1 (if (s.mr mk).getLsbD (b + c) = true then some a else none)
    rowRun op rm s va mk b (c + 1) = (q.1, r.2 ||| q.2) := by
  subst ha
  exact runBefore_succ op _ _ c

/-- A scan from column c on, given the running value before it: each lane's value. -/
theorem scanGo_lanes (has : LanesFrom c as fun k => lane (s.vr va) (b + k)) :
    LanesFrom c (scanGo op ex rm (s.mr mk) (b + c) (rowRun op rm s va mk b c).1 as).1 fun k =>
      redFinal op (rowRun op rm s va mk b (if ex then k else k + 1)).1 := by
  induction as generalizing c with
  | nil => exact lanesFrom_nil c _
  | cons a as ih =>
    obtain ⟨ha, has⟩ := lanesFrom_cons.1 has
    have hstep := rowRun_succ (op := op) (rm := rm) (mk := mk) ha.symm
    have hrest := ih has
    rw [hstep] at hrest
    rw [scanGo_cons, lanesFrom_cons]
    refine ⟨?_, hrest⟩
    cases ex
    · rw [if_neg Bool.false_ne_true, if_neg Bool.false_ne_true, hstep]
    · rfl

/-- A scan from column c on adds to the flags before it those of its own combinations. -/
theorem scanGo_flags (has : LanesFrom c as fun k => lane (s.vr va) (b + k)) :
    (rowRun op rm s va mk b c).2 ||| (scanGo op ex rm (s.mr mk) (b + c) (rowRun op rm s va mk b c).1 as).2 =
      (rowRun op rm s va mk b (c + as.length)).2 := by
  induction as generalizing c with
  | nil => exact BitVec.or_zero
  | cons a as ih =>
    obtain ⟨ha, has⟩ := lanesFrom_cons.1 has
    have hstep := rowRun_succ (op := op) (rm := rm) (mk := mk) ha.symm
    have hrest := ih has
    rw [hstep] at hrest
    rw [scanGo_cons, ← BitVec.or_assoc, List.length_cons, ← Nat.add_assoc c, Nat.add_right_comm c]
    exact hrest

/-- A row of a register as the model cuts it out. -/
theorem length_row (v : VNum) {r : Nat} (hr : r < 16) : (((s.vr v).drop (64 * r)).take 64).length = 64 := by
  rw [List.length_take, List.length_drop, State.vr_length]
  omega

/-- The lanes of the scan of one row. -/
theorem lane_scanGo_row {r : Nat} (hr : r < 16) (hc : c < 64) :
    lane (scanGo op ex rm (s.mr mk) (64 * r) none (((s.vr va).drop (64 * r)).take 64)).1 c =
      redFinal op (rowRun op rm s va mk (64 * r) (if ex then c else c + 1)).1 := by
  have hlane := scanGo_lanes (op := op) (ex := ex) (rm := rm) (mk := mk) (lanesFrom_slice (s.vr va) (64 * r) 64) c
    (by rwa [scanGo_length, length_row va hr])
  rw [Nat.zero_add] at hlane
  exact hlane

/-- The flags of the scan of one row. -/
theorem scanGo_row_flags {r : Nat} (hr : r < 16) :
    (scanGo op ex rm (s.mr mk) (64 * r) none (((s.vr va).drop (64 * r)).take 64)).2 =
      (rowRun op rm s va mk (64 * r) 64).2 := by
  have hflags := scanGo_flags (op := op) (ex := ex) (rm := rm) (mk := mk) (lanesFrom_slice (s.vr va) (64 * r) 64)
  rw [length_row va hr] at hflags
  exact BitVec.zero_or.symm.trans hflags

end

/-! ## What each instruction does -/

section

variable {h : Hdr} {vd va : VNum} {mk : MNum} {op : RedOp} {rnd : Rnd} {ex : Bool} {s : State}

/-- VREDR writes to every lane the tree's value over its row (R145). -/
theorem vredr_writes_rows (hready : s.ready h [] = true) (hsrcs : soundRegs s [va]) (hmask : soundMasks s [mk]) :
    let rm := s.rmReg rnd vd.toNat
    let row (r : Nat) := reduceTree op (fun j => rm (64 * r + j)) (fun c => selected s va mk (64 * r + c)) 6 0 1
    ∃ t fl, exec (.vredr h vd va mk op rnd) s = .next t ∧ Passes s t (s.me.pc + 16) ∧
      wonLanes s t vd (fun l v => v = redFinal op ((row (l / 64)).map (·.1))) ∧
      unionFlags fl (fun _ => True) (fun l => ((row (l / 64)).map (·.2)).getD 0#5) ∧
      t.here.fflags = (s.here.fflags ||| (fl.setWidth 25 <<< 15)) := by
  intro rm row
  refine passes_of_writeV_flagsV hready hsrcs hmask (show execVredr .. = _ from rfl) rfl ?_ ?_
  · simp only [treeReduce_eq, List.flatMap_map]
    exact isImage_of_rows _
  · simp only [treeReduce_eq]
    exact unionFlags_rows _

/-- VREDC writes to every lane the tree's value over its column (R145). -/
theorem vredc_writes_columns (hready : s.ready h [] = true) (hsrcs : soundRegs s [va]) (hmask : soundMasks s [mk]) :
    let rm := s.rmReg rnd vd.toNat
    let col (c : Nat) := reduceTree op (fun j => rm (16 * c + j)) (fun r => selected s va mk (64 * r + c)) 4 0 1
    ∃ t fl, exec (.vredc h vd va mk op rnd) s = .next t ∧ Passes s t (s.me.pc + 16) ∧
      wonLanes s t vd (fun l v => v = redFinal op ((col (l % 64)).map (·.1))) ∧
      unionFlags fl (fun _ => True) (fun l => ((col (l % 64)).map (·.2)).getD 0#5) ∧
      t.here.fflags = (s.here.fflags ||| (fl.setWidth 25 <<< 15)) := by
  intro rm col
  refine passes_of_writeV_flagsV hready hsrcs hmask (show execVredc .. = _ from rfl) rfl ?_ ?_
  · simp only [treeReduce_eq, List.map_map]
    exact isImage_of_columns _
  · simp only [treeReduce_eq]
    exact unionFlags_columns _

/-- VSCANR writes to every lane the running combination of its row up to it, with it or, under .ex, without it (R147). -/
theorem vscanr_writes_runs (hready : s.ready h [] = true) (hsrcs : soundRegs s [va]) (hmask : soundMasks s [mk]) :
    let run (r c : Nat) := rowRun op (s.rmReg rnd vd.toNat) s va mk (64 * r) c
    ∃ t fl, exec (.vscanr h vd va mk op rnd ex) s = .next t ∧ Passes s t (s.me.pc + 16) ∧
      wonLanes s t vd (fun l v => v = redFinal op (run (l / 64) (if ex then l % 64 else l % 64 + 1)).1) ∧
      unionFlags fl (fun _ => True) (fun l => (run (l / 64) 64).2) ∧
      t.here.fflags = (s.here.fflags ||| (fl.setWidth 25 <<< 15)) := by
  intro run
  refine passes_of_writeV_flagsV hready hsrcs hmask (show execVscanr .. = _ from rfl) rfl ?_ ?_
  · rw [List.flatMap_map]
    refine (isImage_rows fun r hr => ?_).congr fun l hl => ?_
    · rw [scanGo_length, length_row _ hr]
    · exact lane_scanGo_row (by omega) (by omega)
  · exact unionFlags_congr (unionFlags_rows _) fun l hl => scanGo_row_flags (by omega)

end

end Sys2Proof.Machine
end

section
/-! Sort-and-count in the words of the rule (06 R167, R168). -/

namespace Sys2Proof.Machine

open Sys2Proof.Claims

/-- The counts after one key: a selected key in range adds one to its bucket (R168). -/
def addKey (n : Nat) (sel : Bool) (k : Lane) (cnt : List Lane) : List Lane :=
  if sel && decide (k.toNat < n) then setAt cnt k.toNat (lane cnt k.toNat + 1) else cnt

theorem sortGo_cons (n : Nat) (m : BitVec 1024) (l : Nat) (k : Lane) (ks cnt : List Lane) :
    let sel := m.getLsbD l
    let rest := sortGo n m (l + 1) ks (addKey n sel k cnt)
    sortGo n m l (k :: ks) cnt =
      ((if sel = true ∧ k.toNat < n then lane cnt k.toNat else 0xFFFFFFFF#32) :: rest.1, rest.2.1,
        rest.2.2 + if sel = true ∧ n ≤ k.toNat then 1 else 0) := by
  intro sel rest
  rw [sortGo.eq_def]
  cases hm : m.getLsbD l <;> by_cases hk : k.toNat < n <;> simp [sel, rest, addKey, hm, hk, Nat.not_le.2, Nat.not_lt.1]

theorem sortGo_length (n : Nat) (m : BitVec 1024) (l : Nat) (ks cnt : List Lane) :
    (sortGo n m l ks cnt).1.length = ks.length := by
  induction ks generalizing l cnt with
  | nil => rfl
  | cons k ks ih => rw [sortGo_cons, List.length_cons, ih, List.length_cons]

section

variable {s : State} {va vc : VNum} {mk : MNum} {n l : Nat} {ks cnt : List Lane}

/-- The selected keys out of range in lanes below l. -/
def outOfRange (s : State) (va : VNum) (mk : MNum) (n l : Nat) : Nat :=
  (List.range l).countP fun j => (s.mr mk).getLsbD j && decide (n ≤ (lane (s.vr va) j).toNat)

/-- The count of a bucket as it stands before lane l. -/
def countBefore (s : State) (va vc : VNum) (mk : MNum) (n l k : Nat) : Lane :=
  lane (s.vr vc) k + BitVec.ofNat 32 (sameBucket s va mk n k l)

theorem sameBucket_succ (k : Nat) :
    sameBucket s va mk n k (l + 1) = sameBucket s va mk n k l +
      if ((s.mr mk).getLsbD l = true ∧ (lane (s.vr va) l).toNat < n) ∧ k = (lane (s.vr va) l).toNat then 1 else 0 := by
  simp [sameBucket, List.range_succ, List.countP_append, List.countP_singleton, eq_comm (a := k)]

theorem outOfRange_succ :
    outOfRange s va mk n (l + 1) = outOfRange s va mk n l +
      if (s.mr mk).getLsbD l = true ∧ n ≤ (lane (s.vr va) l).toNat then 1 else 0 := by
  simp [outOfRange, List.range_succ, List.countP_append, List.countP_singleton]

/-- One key's step carries the counts before its lane to those before the next. -/
theorem isImage_addKey (hn : n ≤ 1024) (hcnt : IsImage cnt (countBefore s va vc mk n l)) :
    IsImage (addKey n ((s.mr mk).getLsbD l) (lane (s.vr va) l) cnt) (countBefore s va vc mk n (l + 1)) := by
  obtain ⟨hlen, hlane⟩ := hcnt
  unfold addKey
  by_cases hin : (s.mr mk).getLsbD l = true ∧ (lane (s.vr va) l).toNat < n
  · have hk : (lane (s.vr va) l).toNat < 1024 := Nat.lt_of_lt_of_le hin.2 hn
    rw [if_pos (by simpa using hin)]
    refine ⟨by rw [setAt_eq_set, List.length_set, hlen], fun k hk' => ?_⟩
    rw [lane_setAt _ _ (by rwa [hlen]), hlane _ hk, countBefore, countBefore, sameBucket_succ]
    by_cases heq : k = (lane (s.vr va) l).toNat
    · rw [if_pos heq, if_pos ⟨hin, heq⟩, heq, BitVec.ofNat_add, BitVec.add_assoc]; rfl
    · rw [if_neg heq, if_neg fun h => heq h.2, hlane k hk']; rfl
  · rw [if_neg (by simpa using hin)]
    refine ⟨hlen, fun k hk => ?_⟩
    rw [hlane k hk, countBefore, countBefore, sameBucket_succ, if_neg (fun h => hin h.1), Nat.add_zero]

/-- What VSORTC gives the lanes from l on. -/
theorem sortGo_ranks (hn : n ≤ 1024) (hks : LanesFrom l ks (lane (s.vr va))) (hcnt : IsImage cnt (countBefore s va vc mk n l)) :
    LanesFrom l (sortGo n (s.mr mk) l ks cnt).1 fun j =>
      if (s.mr mk).getLsbD j = true ∧ (lane (s.vr va) j).toNat < n then countBefore s va vc mk n j (lane (s.vr va) j).toNat
      else 0xFFFFFFFF#32 := by
  induction ks generalizing l cnt with
  | nil => exact lanesFrom_nil l _
  | cons k ks ih =>
    obtain ⟨rfl, hrest⟩ := lanesFrom_cons.1 hks
    rw [sortGo_cons, lanesFrom_cons]
    refine ⟨?_, ih hrest (isImage_addKey hn hcnt)⟩
    split
    · next hin => exact hcnt.2 _ (Nat.lt_of_lt_of_le hin.2 hn)
    · rfl

/-- The counts that VSORTC leaves. -/
theorem isImage_sortGo_counts (hn : n ≤ 1024) (hks : LanesFrom l ks (lane (s.vr va)))
    (hcnt : IsImage cnt (countBefore s va vc mk n l)) :
    IsImage (sortGo n (s.mr mk) l ks cnt).2.1 (countBefore s va vc mk n (l + ks.length)) := by
  induction ks generalizing l cnt with
  | nil => exact hcnt
  | cons k ks ih =>
    obtain ⟨rfl, hrest⟩ := lanesFrom_cons.1 hks
    rw [sortGo_cons, List.length_cons, ← Nat.add_assoc l, Nat.add_right_comm l]
    exact ih hrest (isImage_addKey hn hcnt)

/-- The number that VSORTC counts from lane l on. -/
theorem sortGo_outOfRange (hks : LanesFrom l ks (lane (s.vr va))) :
    outOfRange s va mk n l + (sortGo n (s.mr mk) l ks cnt).2.2 = outOfRange s va mk n (l + ks.length) := by
  induction ks generalizing l cnt with
  | nil => rfl
  | cons k ks ih =>
    obtain ⟨rfl, hrest⟩ := lanesFrom_cons.1 hks
    rw [sortGo_cons, List.length_cons, ← Nat.add_assoc l, Nat.add_right_comm l,
      ← ih (cnt := addKey n ((s.mr mk).getLsbD l) (lane (s.vr va) l) cnt) hrest, outOfRange_succ]
    dsimp only
    omega

theorem outOfRange_zero : outOfRange s va mk n 0 = 0 := rfl

theorem isImage_countBefore_zero : IsImage (s.vr vc) (countBefore s va vc mk n 0) :=
  ⟨State.vr_length s vc, fun _ _ => (BitVec.add_zero _).symm⟩

/-- VSORTC writes ranks, counts and the number of keys out of range. -/
theorem vsortc_writes_ranks {h : Hdr} {vd : VNum} {w : BitVec 14} {ss : SReg} (hready : s.ready h [] = true)
    (hsrcs : soundRegs s [va, vc]) (hmask : soundMasks s [mk]) (hne : vd ≠ vc) (hw : w.toNat ≤ 1024) :
    ∃ t, exec (.vsortc h vd va vc w ss mk) s = .next t ∧ Passes s t (s.me.pc + 16) ∧
      wonLanes s t vd (fun l v => v =
        if (s.mr mk).getLsbD l = true ∧ (lane (s.vr va) l).toNat < w.toNat then
          countBefore s va vc mk w.toNat l (lane (s.vr va) l).toNat
        else 0xFFFFFFFF#32) ∧
      wonLanes s t vc (fun l v => v = countBefore s va vc mk w.toNat 1024 l) ∧
      t.getS ss = if ss = 0#6 then 0#64 else BitVec.ofNat 64 (outOfRange s va mk w.toNat 1024) := by
  have hkeys : LanesFrom 0 (s.vr va) (lane (s.vr va)) := fun j _ => by rw [Nat.zero_add]
  have hcounts := isImage_sortGo_counts hw hkeys (isImage_countBefore_zero (vc := vc) (mk := mk))
  have hout := sortGo_outOfRange (mk := mk) (n := w.toNat) (cnt := s.vr vc) hkeys
  rw [State.vr_length, Nat.zero_add] at hcounts hout
  rw [outOfRange_zero, Nat.zero_add] at hout
  rw [← hout]
  refine passes_of_writeV_writeV_setS hready hsrcs hmask (show execVsortc .. = _ from rfl) rfl hne ?_ hcounts
  exact isImage_iff_lanesFrom.2 ⟨by rw [sortGo_length, State.vr_length], sortGo_ranks hw hkeys isImage_countBefore_zero⟩

end

/-! ## The statement -/

/-- Settles O30: a reduction is the tree of R145 and a row scan the recursion of R147, lane by lane; and
sort-and-count carries every bucket's count from lane to lane. -/
theorem vectorReductionsAndSorts : Obligations.VectorReductionsAndSorts := by
  refine ⟨fun h vd va mk op rnd ex s hready hsrcs hmask => ?_, fun h vd va vc n ss mk s hready hsrcs hmask hne _ hn => ?_⟩
  · exact ⟨vredr_writes_rows hready hsrcs hmask, vredc_writes_columns hready hsrcs hmask,
      vscanr_writes_runs hready hsrcs hmask⟩
  · exact vsortc_writes_ranks hready hsrcs hmask hne hn

end Sys2Proof.Machine
end
